-- ==== Sys2Proof/Word.lean ====
section
/-! DEFINITION. The two widths of this hardware (00_scope.md R7, R8): bytes on the bus, 16-bit operands.
Every value is unsigned; there is no sign extension anywhere. -/

namespace Sys2Proof

/-- One byte on the bus, in a register or in a memory (R7). -/
abbrev Byte := BitVec 8

/-- One 16-bit unsigned operand: `page`, `byte_offset`, `size`, a host-buffer index (R7, R61). -/
abbrev Word := BitVec 16

/-- The three bytes of an encoded address, `a0` sent first (R65, R66, R160). -/
structure Addr where
  /-- address bits 23:16 -/
  a0 : Byte
  /-- address bits 15:8 -/
  a1 : Byte
  /-- address bits 7:0 -/
  a2 : Byte
  deriving DecidableEq, Repr

/-- The four identity bytes `ID[0..3]` of the controller, or `ident[0..3]` of the chip (R32, R81, R85). -/
structure IdBytes where
  b0 : Byte
  b1 : Byte
  b2 : Byte
  b3 : Byte
  deriving DecidableEq, Repr

end Sys2Proof
end

