-- ==== Sys2Proof/Config.lean ====
section
/-! DEFINITION. What the spec leaves to a configuration: the record `Cfg` of 00_scope.md R6, the geometry
constants of R5, and the free values (opaque constants with no body, about which nothing can be proved).

`Cfg` is carried by `State` as a constant field, so every statement over all states is a statement over all
configurations. The spec counts it as a parameter of the step relation and not as state (R36). -/

namespace Sys2Proof

/-- Bytes of one page (R5). UNVERIFIED: the document's literals are unaudited (R12, log 27). -/
def pageSize : Nat := 264

/-- Pages of the main array (R5). UNVERIFIED (log 27). -/
def totalPages : Nat := 4096

/-- Pages of one sector (R63). -/
def sectorPages : Nat := 256

/-- The kinds of mutating frame: what `Cfg.WP_BLOCKS` is a predicate on (R96). -/
inductive MutKind where
  /-- commit buffer 1 to a page with erase -/
  | program
  /-- page erase -/
  | erasePage
  /-- sector erase -/
  | eraseSector
  deriving DecidableEq, Repr

/-- The five address spaces' three byte memories (R60): what a byte nothing has written belongs to. -/
inductive Space where
  /-- `HBUF` -/
  | hostBuffer
  /-- the chip's main array -/
  | mainArray
  /-- the chip's buffer 1 -/
  | buffer1
  deriving DecidableEq, Repr

/-- The configuration record (R6). `wpBlocks` lists the pairs on which the predicate `WP_BLOCKS` holds: its
domain is finite, so a list is every such predicate, and it stays plain data. -/
structure Cfg where
  opReadId : Byte
  opReadStatus : Byte
  opPageErase : Byte
  opSectorErase : Byte
  /-- a byte string (R6, G7) -/
  opChipErase : List Byte
  opArrayRead : Byte
  opBuf1Write : Byte
  opBuf2Write : Byte
  opBuf1CommitErase : Byte
  opBuf1CommitNoerase : Byte
  opPageToBuf1 : Byte
  opPageToBuf2 : Byte
  opPowerDown : Byte
  opResume : Byte
  opReadSecurity : Byte
  dummyOut : Byte
  nReadDummy : Nat
  sig0 : Byte
  sig1 : Byte
  sig2 : Byte
  statusMask : Byte
  statusExpect : Byte
  resetHoldMs : Nat
  wpBlocks : List (MutKind × Nat)
  deriving DecidableEq, Repr

namespace Cfg

/-- The fifteen opcode bytes in the order of R108; of the string `OP_CHIP_ERASE` the first byte (R6). -/
def opcodes (c : Cfg) : List Byte :=
  [c.opReadId, c.opReadStatus, c.opPageErase, c.opSectorErase, c.opChipErase.headD 0, c.opArrayRead,
   c.opBuf1Write, c.opBuf2Write, c.opBuf1CommitErase, c.opBuf1CommitNoerase, c.opPageToBuf1,
   c.opPageToBuf2, c.opPowerDown, c.opResume, c.opReadSecurity]

/-- The seven opcodes the controller emits (R108). -/
def emitted (c : Cfg) : List Byte :=
  [c.opReadId, c.opReadStatus, c.opPageErase, c.opSectorErase, c.opArrayRead, c.opBuf1Write,
   c.opBuf1CommitErase]

/-- How many bits of a byte are set. -/
def bitCount (b : Byte) : Nat :=
  ((List.range 8).filter fun i => b.getLsbD i).length

/-- The constraints of R6. -/
def valid (c : Cfg) : Bool :=
  c.opChipErase != [] && decide c.opcodes.Nodup && bitCount c.statusMask == 6 && !c.statusMask.getLsbD 7 &&
    c.statusExpect &&& ~~~c.statusMask == 0#8 && decide (1 ≤ c.resetHoldMs)

/-- `Cfg.WP_BLOCKS(kind, p)` (R96). -/
def blocks (c : Cfg) (kind : MutKind) (p : Nat) : Bool :=
  c.wpBlocks.contains (kind, p)

/-- The configuration `State.reset` carries: the defaults of R6 where the spec gives one (`DUMMY_OUT`,
`N_READ_DUMMY`, `RESET_HOLD_MS`, `WP_BLOCKS`), and the family's values that 93_implementation_defined.md G1 to
G3 and 95_test_vectors.md (`TCFG`) mark as general knowledge. PRESUMED (log 2), the spec's INFERRED (R12): no rule
depends on one of these values, and the one statement that does says so. -/
def family : Cfg where
  opReadId := 0x9F#8
  opReadStatus := 0xD7#8
  opPageErase := 0x81#8
  opSectorErase := 0x7C#8
  opChipErase := [0xC7#8, 0x94#8, 0x80#8, 0x9A#8]
  opArrayRead := 0x03#8
  opBuf1Write := 0x84#8
  opBuf2Write := 0x87#8
  opBuf1CommitErase := 0x83#8
  opBuf1CommitNoerase := 0x88#8
  opPageToBuf1 := 0x53#8
  opPageToBuf2 := 0x55#8
  opPowerDown := 0xB9#8
  opResume := 0xAB#8
  opReadSecurity := 0x77#8
  dummyOut := 0x00#8
  nReadDummy := 0
  sig0 := 0x1F#8
  sig1 := 0x25#8
  sig2 := 0x00#8
  statusMask := 0x3F#8
  statusExpect := 0x24#8
  resetHoldMs := 1
  wpBlocks := []

end Cfg

namespace Config

/-- The free value of the `n`-th draw: a byte the chip answers where no rule gives it (R82, U5, U9, U10, U12),
or what a read of `CMD` returns (R29). Log 4. -/
opaque freeByte : Nat → Byte

/-- The free value of a byte nothing has written: of a space, in an epoch (a power-up, a chip reset pulse or an
aborted operation, each of which draws the bytes anew), at an address (R81, R92, U3, U13, U14). Log 5. -/
opaque blankByte : Space → Nat → Nat → Byte

end Config

end Sys2Proof
end

