-- ==== Sys2Proof/Syntax.lean ====
section
/-! DEFINITION. The instruction set: one constructor for every row of spec/opcode_table.json, and the two
levels of code they are written in (30_encoding.md R100). -/

namespace Sys2Proof

/-- The rows of the opcode table. The first seven are host commands (R101 to R103), the next seven the bus
frames the controller emits (R104), the last eight the chip's opcodes it never emits (R110). -/
inductive Instr where
  /-- INIT, R230 -/
  | init
  /-- ERASE_PAGE, R180; its operand is the register `PAGE` -/
  | erasePage
  /-- ERASE_SECTOR, R182; its operand is the register `SECTOR` -/
  | eraseSector
  /-- WRITE, R195; its operands are `PAGE`, `SIZE` and `HBUF` -/
  | write
  /-- READ, R213; its operands are `PAGE`, `OFFSET` and `SIZE` -/
  | read
  /-- DIAGNOSE, R222 -/
  | diagnose
  /-- RESERVED_HOST_CODE, R103: a write of a code that selects no operation -/
  | reservedHostCode (code : Byte)
  /-- STATUS_READ, format FS, R170, R84 -/
  | statusRead
  /-- ID_READ, format FI, R220, R85 -/
  | idRead
  /-- PAGE_ERASE, format FA, R180, R88 -/
  | pageErase (a : Addr)
  /-- SECTOR_ERASE, format FA, R182, R89 -/
  | sectorErase (a : Addr)
  /-- BUF1_WRITE, format FW, R190 to R192, R86 -/
  | buf1Write (a : Addr) (data : List Byte)
  /-- BUF1_COMMIT_ERASE, format FA, R193, R87 -/
  | buf1CommitErase (a : Addr)
  /-- ARRAY_READ, format FR, R210 to R212, R90; `size` data bytes are clocked out -/
  | arrayRead (a : Addr) (size : Word)
  /-- CHIP_ERASE: never emitted, format not given (R110); `rest` is what follows the opcode string -/
  | chipErase (rest : List Byte)
  /-- BUF2_WRITE: never emitted, format not given (R110) -/
  | buf2Write (rest : List Byte)
  /-- BUF1_COMMIT_NOERASE: never emitted, format not given (R110) -/
  | buf1CommitNoerase (rest : List Byte)
  /-- PAGE_TO_BUF1: never emitted, format not given (R110) -/
  | pageToBuf1 (rest : List Byte)
  /-- PAGE_TO_BUF2: never emitted, format not given (R110) -/
  | pageToBuf2 (rest : List Byte)
  /-- POWER_DOWN: never emitted, format not given (R110) -/
  | powerDown (rest : List Byte)
  /-- RESUME: never emitted, format not given (R110) -/
  | resume (rest : List Byte)
  /-- READ_SECURITY: never emitted, format not given (R110) -/
  | readSecurity (rest : List Byte)
  deriving DecidableEq, Repr

/-- The two encodings (R100): the 8-bit code the host writes to `CMD`, and the bytes of one bus frame in the
order sent. A frame carries no length: its end is the chip-select's (R105), here the end of the list. -/
inductive Code where
  | host (code : Byte)
  | frame (bytes : List Byte)
  deriving DecidableEq, Repr

end Sys2Proof
end

