-- ==== Sys2Proof/WellFormed.lean ====
section
/-! DEFINITION. Which terms of `Instr` are instructions. Two things are checked: a reserved host code is none of
the six commands' codes (R102, R103), and a buffer-write frame carries 1 to 264 data bytes (R104). Addresses are
not checked: the controller validates no range (R164). -/

namespace Sys2Proof

/-- `0x01` to `0x06` are the commands' codes; the other values are reserved (R102, R103). -/
def isReservedCode (code : Byte) : Bool :=
  code == 0#8 || 6#8 < code

/-- The data phase of a format FW frame has 1 to 264 bytes (R104, R194). -/
def isFillLength (n : Nat) : Bool :=
  1 ≤ n && n ≤ pageSize

/-- The well-formed instructions. -/
def Instr.wf : Instr → Bool
  | .init | .erasePage | .eraseSector | .write | .read | .diagnose => true
  | .reservedHostCode code => isReservedCode code
  | .statusRead | .idRead => true
  | .pageErase _ | .sectorErase _ | .buf1CommitErase _ => true
  | .buf1Write _ data => isFillLength data.length
  | .arrayRead _ _ => true
  | .chipErase _ | .buf2Write _ | .buf1CommitNoerase _ | .pageToBuf1 _ | .pageToBuf2 _ | .powerDown _
  | .resume _ | .readSecurity _ => true

end Sys2Proof
end

