-- ==== Sys2Proof/Decode.lean ====
section
/-! DEFINITION. From codes to instructions and back (30_encoding.md). `decode` is total and refuses by name;
`encode` is written from the same tables. Both take the configuration: no opcode byte value is in the source
(R109). -/

namespace Sys2Proof

/-- Why a frame is no instruction of the table. -/
inductive DecodeError where
  /-- a frame with no byte -/
  | emptyFrame
  /-- the first byte is none of the fifteen opcodes (R108) -/
  | unknownOpcode
  /-- shorter or longer than its format (R104), or shorter than its header (R94) -/
  | wrongLength
  /-- a byte that is sent only to receive is not `DUMMY_OUT` (R104, R111) -/
  | notDummy
  /-- the first byte of `OP_CHIP_ERASE` without the rest of that byte string (R6) -/
  | chipEraseString
  deriving DecidableEq, Repr

/-- The host command a code selects, or the reserved row (R102, R103). -/
def decodeHost (code : Byte) : Instr :=
  if code = 1#8 then .init
  else if code = 2#8 then .erasePage
  else if code = 3#8 then .eraseSector
  else if code = 4#8 then .write
  else if code = 5#8 then .read
  else if code = 6#8 then .diagnose
  else .reservedHostCode code

/-- The three address bytes of a format FA frame (R104). -/
def decodeAddressOnly (mk : Addr → Instr) : List Byte → Except DecodeError Instr
  | [a0, a1, a2] => .ok (mk ⟨a0, a1, a2⟩)
  | _ => .error .wrongLength

/-- A format FS or FI frame: exactly `count` bytes, each `DUMMY_OUT` (R104). -/
def decodeDummies (c : Cfg) (count : Nat) (i : Instr) (rest : List Byte) : Except DecodeError Instr :=
  if rest.length ≠ count then .error .wrongLength
  else if rest.all (· == c.dummyOut) then .ok i
  else .error .notDummy

/-- A format FW frame: three address bytes and 1 to 264 data bytes (R104). -/
def decodeFill : List Byte → Except DecodeError Instr
  | a0 :: a1 :: a2 :: data =>
    if isFillLength data.length then .ok (.buf1Write ⟨a0, a1, a2⟩ data) else .error .wrongLength
  | _ => .error .wrongLength

/-- A format FR frame: three address bytes, `N_READ_DUMMY` and then `size` bytes `DUMMY_OUT` (R104); `size` is a
16-bit operand (R7). -/
def decodeArrayRead (c : Cfg) : List Byte → Except DecodeError Instr
  | a0 :: a1 :: a2 :: tail =>
    if tail.length < c.nReadDummy then .error .wrongLength
    else if 65536 ≤ tail.length - c.nReadDummy then .error .wrongLength
    else if tail.all (· == c.dummyOut) then
      .ok (.arrayRead ⟨a0, a1, a2⟩ (BitVec.ofNat 16 (tail.length - c.nReadDummy)))
    else .error .notDummy
  | _ => .error .wrongLength

/-- A frame that opens with the first byte of the string `OP_CHIP_ERASE` (R6). -/
def decodeChipErase (c : Cfg) (bytes : List Byte) : Except DecodeError Instr :=
  if bytes.take c.opChipErase.length = c.opChipErase then .ok (.chipErase (bytes.drop c.opChipErase.length))
  else .error .chipEraseString

/-- One frame of the bus (R104, R108). -/
def decodeFrame (c : Cfg) : List Byte → Except DecodeError Instr
  | [] => .error .emptyFrame
  | op :: rest =>
    if op = c.opReadId then decodeDummies c 4 .idRead rest
    else if op = c.opReadStatus then decodeDummies c 1 .statusRead rest
    else if op = c.opPageErase then decodeAddressOnly .pageErase rest
    else if op = c.opSectorErase then decodeAddressOnly .sectorErase rest
    else if op = c.opArrayRead then decodeArrayRead c rest
    else if op = c.opBuf1Write then decodeFill rest
    else if op = c.opBuf1CommitErase then decodeAddressOnly .buf1CommitErase rest
    else if op = c.opChipErase.headD 0 then decodeChipErase c (op :: rest)
    else if op = c.opBuf2Write then .ok (.buf2Write rest)
    else if op = c.opBuf1CommitNoerase then .ok (.buf1CommitNoerase rest)
    else if op = c.opPageToBuf1 then .ok (.pageToBuf1 rest)
    else if op = c.opPageToBuf2 then .ok (.pageToBuf2 rest)
    else if op = c.opPowerDown then .ok (.powerDown rest)
    else if op = c.opResume then .ok (.resume rest)
    else if op = c.opReadSecurity then .ok (.readSecurity rest)
    else .error .unknownOpcode

/-- The decoder, total on both levels (R100). -/
def decode (c : Cfg) : Code → Except DecodeError Instr
  | .host code => .ok (decodeHost code)
  | .frame bytes => decodeFrame c bytes

/-- The three bytes of an address in the order sent (R165). -/
def Addr.bytes (a : Addr) : List Byte :=
  [a.a0, a.a1, a.a2]

/-- The encoder (R102, R104). A read frame sends `DUMMY_OUT` for its `N_READ_DUMMY` and its `size` bytes. -/
def encode (c : Cfg) : Instr → Code
  | .init => .host 1#8
  | .erasePage => .host 2#8
  | .eraseSector => .host 3#8
  | .write => .host 4#8
  | .read => .host 5#8
  | .diagnose => .host 6#8
  | .reservedHostCode code => .host code
  | .statusRead => .frame [c.opReadStatus, c.dummyOut]
  | .idRead => .frame (c.opReadId :: List.replicate 4 c.dummyOut)
  | .pageErase a => .frame (c.opPageErase :: a.bytes)
  | .sectorErase a => .frame (c.opSectorErase :: a.bytes)
  | .buf1Write a data => .frame (c.opBuf1Write :: a.bytes ++ data)
  | .buf1CommitErase a => .frame (c.opBuf1CommitErase :: a.bytes)
  | .arrayRead a size => .frame (c.opArrayRead :: a.bytes ++ List.replicate (c.nReadDummy + size.toNat) c.dummyOut)
  | .chipErase rest => .frame (c.opChipErase ++ rest)
  | .buf2Write rest => .frame (c.opBuf2Write :: rest)
  | .buf1CommitNoerase rest => .frame (c.opBuf1CommitNoerase :: rest)
  | .pageToBuf1 rest => .frame (c.opPageToBuf1 :: rest)
  | .pageToBuf2 rest => .frame (c.opPageToBuf2 :: rest)
  | .powerDown rest => .frame (c.opPowerDown :: rest)
  | .resume rest => .frame (c.opResume :: rest)
  | .readSecurity rest => .frame (c.opReadSecurity :: rest)

/-- The low `count` bytes of a number, least significant first. -/
def bytesOf : Nat → Nat → List Byte
  | 0, _ => []
  | count + 1, w => BitVec.ofNat 8 w :: bytesOf count (w / 256)

/-- The shortest frame of each format (R104), for a table word that gives the operand bytes no bits. -/
def shortestFrame (c : Cfg) (op : Byte) : Nat :=
  if op = c.opReadId then 5
  else if op = c.opReadStatus then 2
  else if op = c.opPageErase || op = c.opSectorErase || op = c.opBuf1CommitErase then 4
  else if op = c.opArrayRead then 4 + c.nReadDummy
  else if op = c.opBuf1Write then 5
  else if op = c.opChipErase.headD 0 then c.opChipErase.length
  else 1

/-- A table word as a code. An 8-bit word is a host code; a longer one is a frame, its first byte the word's low
byte, with zero bytes where the word gives its operands no bits. DESIGN CHOICE (log 9). -/
def tableCode (c : Cfg) (nbits w : Nat) : Code :=
  if nbits ≤ 8 then .host (BitVec.ofNat 8 w)
  else
    .frame (bytesOf (max (nbits / 8) (shortestFrame c (BitVec.ofNat 8 w))) (w % 2 ^ nbits))

/-- What the decoder reads from a word of the opcode table, under the configuration of `State.reset`. -/
def decodeTableWord (nbits w : Nat) : Option Instr :=
  match decode Cfg.family (tableCode Cfg.family nbits w) with
  | .ok i => some i
  | .error _ => none

end Sys2Proof
end

