-- ==== Sys2Proof/Machine/Memory.lean ====
section
/-! DEFINITION. The byte memories (20_memory.md R60): a list of cells in one canonical form, addresses strictly
rising. An address that is not listed holds no recorded value: `Memory.get?` answers `none` there, and no cell can
equal that, so equal memories are equal lists. An access that needs a value there takes a free one (`Memory.read`):
the spec gives the host buffer, the main array and buffer 1 no contents of their own (R81, U3, U9, U13; log 5). -/

namespace Sys2Proof.Machine

/-- One byte memory: the host buffer, the chip's main array, or its buffer 1. -/
abbrev Memory := List Host.Cell

/-- The recorded byte at an address, if one is. -/
def Memory.get? : Memory → Nat → Option Byte
  | [], _ => none
  | (a, v) :: m, x => if a = x then some v else Memory.get? m x

/-- The byte at an address: the recorded one, else the free value of that space, epoch and address. -/
def Memory.read (m : Memory) (space : Space) (epoch x : Nat) : Byte :=
  match Memory.get? m x with
  | some v => v
  | none => Config.blankByte space epoch x

/-- The bytes at `count` addresses from `x` on. -/
def Memory.readRange (m : Memory) (space : Space) (epoch x count : Nat) : List Byte :=
  (List.range count).map fun j => m.read space epoch (x + j)

/-- One byte recorded, in the list's place for it. -/
def Memory.write : Memory → Nat → Byte → Memory
  | [], x, v => [(x, v)]
  | (a, w) :: m, x, v =>
    if x < a then (x, v) :: (a, w) :: m
    else if x = a then (x, v) :: m
    else (a, w) :: Memory.write m x v

/-- Consecutive cells from `x` on. -/
def Memory.cells : Nat → List Byte → Memory
  | _, [] => []
  | x, v :: vs => (x, v) :: Memory.cells (x + 1) vs

/-- A run of bytes recorded from `x` on, whatever stood there. -/
def Memory.writeRange (m : Memory) (x : Nat) (vs : List Byte) : Memory :=
  m.filter (fun c => c.1 < x) ++ Memory.cells x vs ++ m.filter (fun c => x + vs.length ≤ c.1)

/-- The canonical form: addresses strictly rising. -/
abbrev Memory.wf (m : Memory) : Prop :=
  m.Pairwise fun c d => c.1 < d.1

end Sys2Proof.Machine
end

