-- ==== Sys2Proof/Machine/State.lean ====
section
/-! DEFINITION. The state: the controller's tuple of 10_state.md R20; the environment a run needs as plain data
(the host buffer of R61, the reference device `DEV` of R81, the moves and answers still to come); and the outputs
of a run (the event trace of R10, the values the host has read). -/

namespace Sys2Proof.Machine

/-- The forty-one sequencer states (R300): the values of `seq`, `ret` and `hret`. -/
inductive Seq where
  | idle | done
  | pSel | pOp | pRd | pDes | pTst
  | hSel | hOp | hA0 | hA1 | hA2
  | iWp | iRst1 | iDly | iRst0
  | ep0 | ep1 | ep2
  | es0 | es1 | es2
  | w0 | w1 | w2 | w3 | w4 | w5 | w6
  | r0 | r1 | r2 | r3
  | g0 | g1 | g2 | g3 | g4 | g5 | g6 | g7
  deriving DecidableEq, Repr

/-- The bus owner `own` (R34, R144). -/
inductive Owner where
  | none | poll | erase | fill | commit | read | diagId | diagSr
  deriving DecidableEq, Repr

/-- The event alphabet (R10). -/
inductive Event where
  /-- chip-select asserted -/
  | sel
  /-- chip-select de-asserted -/
  | des
  /-- one byte exchanged: `out` sent, `inp` received -/
  | x (out inp : Byte)
  /-- the write-protect line driven; `true` is asserted -/
  | wp (b : Bool)
  /-- the chip's reset line driven; `true` is asserted -/
  | rst (b : Bool)
  /-- a delay of at least `ms` milliseconds -/
  | delay (ms : Nat)
  /-- host-buffer byte read -/
  | hrd (i : Word) (v : Byte)
  /-- host-buffer byte written -/
  | hwr (i : Word) (v : Byte)
  deriving DecidableEq, Repr

/-- Who answers the bus: an unconstrained oracle (R80), or the reference device, either before it is defined (before
the first chip reset pulse, or after an abandoned command: R92, U5, U14) or defined. -/
inductive ChipMode where
  /-- the chip is replaced by an oracle that answers every byte with any value, for ever (R80) -/
  | oracle
  /-- `DEV` in a state of which nothing is claimed (R92, U14) -/
  | unknown
  /-- `DEV` as R81 to R96 describe it -/
  | known
  deriving DecidableEq, Repr

/-- An operation the chip carries out on its own after a frame has ended (R81). -/
inductive Operation where
  /-- page `p` from a snapshot of buffer 1 (R87) -/
  | programPage (p : Nat) (snapshot : List Byte)
  /-- page `p` to all ones (R88) -/
  | erasePage (p : Nat)
  /-- sector `s` to all ones (R89) -/
  | eraseSector (s : Nat)
  deriving DecidableEq, Repr

/-- The reference device `DEV` (R81). `array` is linear: page `p`, offset `o` is address `264 * p + o` (R62, R215).
The epochs and `ignored` are the model's own: which draw the bytes nothing has written come from (log 5), and
whether the open frame is one the busy rule drops (R83, log 15). -/
@[ext]
structure Dev where
  mode : ChipMode
  array : Memory
  arrayEpoch : Nat
  buf1 : Memory
  buf1Epoch : Nat
  /-- how many epochs have been handed out -/
  epochs : Nat
  busy : Bool
  pending : Option Operation
  /-- the bytes received since the last `SEL`, or `none` when de-selected -/
  frame : Option (List Byte)
  ignored : Bool
  /-- the pointer of an open session: page and byte offset (in a write session the page part is 0) -/
  ptr : Nat × Nat
  ident : IdBytes
  /-- bits 6:0 of the status byte, constant over a run (R81, R84) -/
  stat6 : BitVec 7
  deriving DecidableEq, Repr

/-- What the host can do to the block: register accesses by number (R29, R30) and accesses to its own buffer (R61). -/
inductive HostOp where
  | write (reg : Nat) (v : Word)
  | read (reg : Nat)
  | bufWrite (i : Word) (v : Byte)
  | bufRead (i : Word)
  deriving DecidableEq, Repr

/-- One move of one of the agents (R11, R72). The list of moves still to come says who moves next, so every
interleaving of host, controller and chip is a value of it; when it is empty the controller moves. -/
inductive Move where
  /-- the controller takes one step of its sequencer (R301) -/
  | controller
  /-- the chip completes the operation it is busy with (R91) -/
  | chipReady
  /-- the controller's reset input is applied (R270) -/
  | reset
  /-- the host acts -/
  | host (op : HostOp)
  /-- one whole frame is placed on the bus as a transaction of its requester: the move that runs one bus row of the
  opcode table by itself; no host step of the spec does this (R114). DESIGN CHOICE (log 10) -/
  | frame (bytes : List Byte)
  deriving DecidableEq, Repr

/-- What a host read returned. -/
inductive HostRead where
  | reg (number : Nat) (v : Word)
  | buf (i : Word) (v : Byte)
  deriving DecidableEq, Repr

/-- The machine. The fields down to `rst` are the tuple of R20, in its order, and all the controller's state; the rest is
the environment and the outputs of a run. -/
@[ext]
structure State where
  /-- argument register `PAGE` (R22) -/
  page : Word
  /-- argument register `OFFSET` (R22) -/
  offset : Word
  /-- argument register `SIZE` (R22) -/
  size : Word
  /-- argument register `SECTOR` (R22) -/
  sector : Byte
  /-- `BUSY` (R26) -/
  busy : Bool
  /-- `DIAG_OK` (R27) -/
  diagOk : Bool
  /-- the identity latch `ID[0..3]` (R32) -/
  id : IdBytes
  /-- the status latch (R28) -/
  sr : Byte
  /-- the sequencer state (R24) -/
  seq : Seq
  /-- where the poll subroutine returns (R24, R303) -/
  ret : Seq
  /-- where the frame-header subroutine returns (R24, R304) -/
  hret : Seq
  /-- the opcode of the frame being sent (R23) -/
  cop : Byte
  /-- `A[0..2]`, the address of the frame being sent (R23) -/
  addr : Addr
  /-- WRITE: the page of the current chunk (R23) -/
  cur : Word
  /-- WRITE: host-buffer index of the current chunk (R23) -/
  idx : Word
  /-- WRITE: bytes not yet sent (R23) -/
  rem : Word
  /-- WRITE: length of the current chunk (R23) -/
  n : Word
  /-- the byte counter of a data phase (R23) -/
  cnt : Word
  /-- DIAGNOSE: index of the identity byte being read (R23) -/
  k : BitVec 3
  /-- the bus owner (R34) -/
  own : Owner
  /-- chip-select, `true` asserted (R33) -/
  cs : Bool
  /-- write-protect, `true` asserted (R33) -/
  wp : Bool
  /-- the chip's reset line, `true` asserted (R33) -/
  rst : Bool
  /-- the configuration record, which no step changes (R6, R36) -/
  cfg : Cfg
  /-- the host buffer `HBUF` (R61) -/
  hbuf : Memory
  /-- the chip (R81) -/
  dev : Dev
  /-- the moves still to come, next first -/
  moves : List Move
  /-- the values the next free answers take, next first (R140: the environment's answer) -/
  answers : List Byte
  /-- how many free answers have been drawn with `answers` empty -/
  draws : Nat
  /-- the events so far, oldest first (R10) -/
  trace : List Event
  /-- what the host has read so far, oldest first -/
  reads : List HostRead
  deriving DecidableEq, Repr

/-- Why the machine stops. None of these is the hardware's: it raises no exception (R240). All are the model's own
(log 20, log 31) and safe, and none is reached from a state that meets `Sys2Proof.Safety.Inv` (an obligation says
so). -/
inductive Fault where
  /-- raised by `select` when chip-select is asserted, against its precondition (R141, R144). Safe. -/
  | selectWhileSelected
  /-- raised by `deselect` when chip-select is not asserted, against its precondition (R142). Safe. -/
  | deselectWhileDeselected
  /-- raised by `xfer` when chip-select is not asserted, against its precondition (R140, R143). Safe. -/
  | xferWhileDeselected
  /-- raised by the sequencer in a state for which the tables R304 and R308 to R310 have no row: a header opcode with
  no owner, or a counter past its bound. Safe. -/
  | noTransition
  deriving DecidableEq, Repr

/-- What the model gives no meaning to. All are safe: nothing is claimed beyond them. -/
inductive Refusal where
  /-- raised by `exec` for an instruction with no meaning yet; no arm answers it. Safe. -/
  | notModelled (mnemonic : String)
  /-- raised by a host write, or a host read of a register other than `STATUS`, while `BUSY = 1`: outside the contract,
  "a model treats it as a refused host step" (R31, U2, D6). Safe. -/
  | hostAccessWhileBusy
  /-- raised by a host access to a register number that does not exist: "a model refuses an access to them" (R30). Safe. -/
  | noSuchRegister (number : Nat)
  /-- raised by a host write to a register whose access is read-only (R29, R31). Safe. -/
  | readOnlyRegister (number : Nat)
  /-- raised by a frame move whose bytes are no instruction of the table, by the decoder's name for why. Safe. -/
  | undecodable (reason : DecodeError)
  /-- raised by a frame move while a command runs: the sequencer is the only source of requests (R144, R149). Safe. -/
  | busRequestWhileBusy
  /-- raised by CHIP_ERASE: no frame format and no effect in the spec (R110, R93, U8). Safe. -/
  | chipEraseNotGiven
  /-- raised by BUF2_WRITE: no frame format and no effect in the spec (R110, R93, U8). Safe. -/
  | buf2WriteNotGiven
  /-- raised by BUF1_COMMIT_NOERASE: no frame format and no effect in the spec (R110, R93, U8). Safe. -/
  | buf1CommitNoeraseNotGiven
  /-- raised by PAGE_TO_BUF1: no frame format and no effect in the spec (R110, R93, U8). Safe. -/
  | pageToBuf1NotGiven
  /-- raised by PAGE_TO_BUF2: no frame format and no effect in the spec (R110, R93, U8). Safe. -/
  | pageToBuf2NotGiven
  /-- raised by POWER_DOWN: no frame format and no effect in the spec (R110, R93, U8). Safe. -/
  | powerDownNotGiven
  /-- raised by RESUME: no frame format and no effect in the spec (R110, R93, U8). Safe. -/
  | resumeNotGiven
  /-- raised by READ_SECURITY: no frame format and no effect in the spec (R110, R93, U8). Safe. -/
  | readSecurityNotGiven
  deriving DecidableEq, Repr

/-- What a step, or a meaning, answers. -/
abbrev Result := Host.Outcome State Fault Refusal

/-- The chip at power-up: nothing is claimed of it before the first reset pulse (R92). Its constants `ident` and
`stat6` are the family's. PRESUMED (log 3). -/
def Dev.powerUp : Dev where
  mode := .unknown
  array := []
  arrayEpoch := 0
  buf1 := []
  buf1Epoch := 0
  epochs := 1
  busy := false
  pending := none
  frame := none
  ignored := false
  ptr := (0, 0)
  ident := ⟨0x1F#8, 0x25#8, 0x00#8, 0x00#8⟩
  stat6 := 0x24#7

/-- The machine right after the controller's reset at power-up (R37, R270). `BUSY`, `seq`, `own`, `cs`, `wp` and
`rst` are the spec's; the registers R37 calls unspecified hold zero. DESIGN CHOICE (log 1). -/
def State.reset : State where
  page := 0
  offset := 0
  size := 0
  sector := 0
  busy := false
  diagOk := false
  id := ⟨0, 0, 0, 0⟩
  sr := 0
  seq := .idle
  ret := .idle
  hret := .idle
  cop := 0
  addr := ⟨0, 0, 0⟩
  cur := 0
  idx := 0
  rem := 0
  n := 0
  cnt := 0
  k := 0
  own := .none
  cs := false
  wp := true
  rst := false
  cfg := Cfg.family
  hbuf := []
  dev := Dev.powerUp
  moves := []
  answers := []
  draws := 0
  trace := []
  reads := []

end Sys2Proof.Machine
end

