-- ==== Sys2Proof/Machine/Flags.lean ====
section
/-! DEFINITION. Every flag and condition the spec computes: readiness (R171), the two checks of DIAGNOSE (R222 to
R224), the refusal of sector 0 (R183), whether a READ is delivering a byte (R217), how many dummies it has sent (R309),
and the status register the host reads (R29). -/

namespace Sys2Proof.Machine

/-- Bit 7 of the status byte, and only that bit, decides readiness, 1 being ready (R28, R171). The polarity is UNVERIFIED:
taken from a document that is unaudited (R12, log 27). -/
def readyBit (sr : Byte) : Bool :=
  sr.getLsbD 7

/-- The status byte `DEV` returns: bit 7 is `not busy`, the others are `stat6` (R84). The polarity is UNVERIFIED (R12,
log 27). -/
def statusByte (busy : Bool) (stat6 : BitVec 7) : Byte :=
  BitVec.ofBool (!busy) ++ stat6

/-- The identity check: the first three bytes against `SIG`, never the fourth (R223). -/
def idMatches (c : Cfg) (b : IdBytes) : Bool :=
  b.b0 == c.sig0 && b.b1 == c.sig1 && b.b2 == c.sig2

/-- The status check: six bits under the mask against the expected pattern (R224). -/
def statusMatches (c : Cfg) (sr : Byte) : Bool :=
  sr &&& c.statusMask == c.statusExpect

/-- The new `DIAG_OK`: the conjunction of both checks (R222, R245). -/
def diagResult (c : Cfg) (b : IdBytes) (sr : Byte) : Bool :=
  idMatches c b && statusMatches c sr

/-- ERASE_SECTOR refuses the literal value 0, and only it (R183, R184). -/
def sectorRefused (sector : Byte) : Bool :=
  sector == 0#8

/-- The states of the poll subroutine (R303). -/
def inPoll (q : Seq) : Bool :=
  q ∈ [Seq.pSel, .pOp, .pRd, .pDes, .pTst]

/-- The states of the frame-header subroutine (R304). -/
def inHeader (q : Seq) : Bool :=
  q ∈ [Seq.hSel, .hOp, .hA0, .hA1, .hA2]

/-- The command's state: inside a subroutine, the one it returns to. -/
def resumesAt (s : State) : Seq :=
  if inPoll s.seq then s.ret else if inHeader s.seq then s.hret else s.seq

/-- The byte at an index of `HBUF` is one a READ in progress delivers: the host has no defined value there until `BUSY`
has returned to 0 (R217). `DONE` no longer says which command ran and counts as a READ's. DESIGN CHOICE (log 23). -/
def beingRead (s : State) (i : Word) : Bool :=
  s.busy && decide (resumesAt s ∈ [Seq.r0, .r1, .r2, .r3, .done]) && decide (i.toNat < s.size.toNat)

/-- The bytes exchanged since `SEL` in the open transaction (R82, R104). -/
def frameBytes (s : State) : Nat :=
  (s.dev.frame.getD []).length

/-- The dummies of a READ sent so far, which `R_2` holds against `N_READ_DUMMY`: `cnt` (R309). A register of 16 bits (R23)
cannot reach an `N_READ_DUMMY` of 65 536 or more, and the controller has no other (R20); the count is then that of the
bytes the open transaction has carried after its header, so that exactly `N_READ_DUMMY` dummies are sent for every
value (R6, R210). DESIGN CHOICE (log 12). -/
def dummiesSent (s : State) : Nat :=
  if s.cfg.nReadDummy < 65536 then s.cnt.toNat else frameBytes s - 4

/-- The register `STATUS`: bit 0 `BUSY`, bit 1 `DIAG_OK`, bits 7:2 zero (R29). -/
def statusRegister (s : State) : Byte :=
  0#6 ++ BitVec.ofBool s.diagOk ++ BitVec.ofBool s.busy

end Sys2Proof.Machine
end

