-- ==== Sys2Proof/Machine/Operands.lean ====
section
/-! DEFINITION. Every operand form: the address codec (41_address_codec.md), how each frame's address is assembled
(30_encoding.md R107), and the fields a chip reads back from an encoded address (R65, R87 to R90). -/

namespace Sys2Proof.Machine

/-- `encode(page, byte_offset)` (R160): each component truncated to 8 bits, no range check (R164). The bit layout is
UNVERIFIED: taken from a document that is unaudited (R12, log 27). -/
def encodeAddr (page offset : Word) : Addr where
  a0 := (page >>> 7).setWidth 8
  a1 := ((page <<< 1) ||| (offset >>> 8)).setWidth 8
  a2 := offset.setWidth 8

/-- The 24-bit address `A[0] ‖ A[1] ‖ A[2]` (R65, R161). UNVERIFIED bit layout (R12, log 27). -/
def addrBits (a : Addr) : BitVec 24 :=
  a.a0 ++ a.a1 ++ a.a2

/-- Address bits 20:9, the page (R65). UNVERIFIED bit layout (R12, log 27). -/
def addrPage (a : Addr) : Nat :=
  ((addrBits a).extractLsb' 9 12).toNat

/-- Address bits 8:0, the byte offset (R65). UNVERIFIED bit layout (R12, log 27). -/
def addrOffset (a : Addr) : Nat :=
  ((addrBits a).extractLsb' 0 9).toNat

/-- Address bits 20:17, the sector (R89). UNVERIFIED bit layout (R12, log 27). -/
def addrSector (a : Addr) : Nat :=
  ((addrBits a).extractLsb' 17 4).toNat

/-- The page number of a sector erase: `trunc_16(zext_16(SECTOR) × 256)` (R107, R182). -/
def sectorPage (sector : Byte) : Word :=
  sector.setWidth 16 * 256#16

/-- The address of a page erase: `(PAGE, 0)` (R107, R180). -/
def pageEraseAddr (s : State) : Addr :=
  encodeAddr s.page 0

/-- The address of a sector erase: `(SECTOR × 256, 0)` (R107, R182). -/
def sectorEraseAddr (s : State) : Addr :=
  encodeAddr (sectorPage s.sector) 0

/-- The address of a buffer write at a buffer offset: page part 0 (R107, R190, D12). -/
def bufferAddr (offset : Word) : Addr :=
  encodeAddr 0 offset

/-- The address of a commit: `(cur, 0)` (R107, R193). -/
def commitAddr (s : State) : Addr :=
  encodeAddr s.cur 0

/-- The address of an array read: `(PAGE, OFFSET)` (R107, R210). -/
def arrayReadAddr (s : State) : Addr :=
  encodeAddr s.page s.offset

/-- The length of the next chunk: `min(rem, 264)` (R195). -/
def chunkLength (rem : Word) : Word :=
  if rem.toNat ≤ pageSize then rem else 264#16

/-- The linear place of `(page, byte_offset)` in the main array (R62, R215). -/
def linear (page offset : Nat) : Nat :=
  pageSize * page + offset

/-- Byte `i` of the identity, `i` from 0 to 3 (R85, R220). -/
def idByte (b : IdBytes) : Nat → Option Byte
  | 0 => some b.b0
  | 1 => some b.b1
  | 2 => some b.b2
  | 3 => some b.b3
  | _ => none

/-- `ID[i] <- v` for `i` from 0 to 3 (R220). -/
def setIdByte (b : IdBytes) (i : Nat) (v : Byte) : IdBytes :=
  match i with
  | 0 => { b with b0 := v }
  | 1 => { b with b1 := v }
  | 2 => { b with b2 := v }
  | 3 => { b with b3 := v }
  | _ => b

/-- `owner_of(cop)` (R304); no other opcode has a header owner. -/
def ownerOf (c : Cfg) (op : Byte) : Option Owner :=
  if op = c.opPageErase || op = c.opSectorErase then some .erase
  else if op = c.opBuf1Write then some .fill
  else if op = c.opBuf1CommitErase then some .commit
  else if op = c.opArrayRead then some .read
  else none

end Sys2Proof.Machine
end

