-- ==== Sys2Proof/Machine/Device.lean ====
section
/-! DEFINITION. The chip on the far side of the bus: the reference device `DEV` of 20_memory.md Part C, byte by
byte as the bus gives it `SEL`, `X` and `DES`; its own move to ready; the reset pulse; and what an abandoned
command leaves of it. Where the spec says it gives `DEV` no meaning the chip goes to the mode `unknown`, in which
nothing is claimed of it until the next reset pulse (U14): the controller itself goes on. -/

namespace Sys2Proof.Machine

/-- Nothing is claimed of the chip from here on (U14); an oracle stays one (R80). -/
def Dev.lose (d : Dev) : Dev :=
  match d.mode with
  | .oracle => d
  | .unknown | .known => { d with mode := .unknown }

/-- Every byte of the array and of buffer 1 drawn anew. -/
def Dev.redrawAll (d : Dev) : Dev :=
  { d with array := [], arrayEpoch := d.epochs, buf1 := [], buf1Epoch := d.epochs, epochs := d.epochs + 1 }

/-- `count` bytes of the array from `x` on drawn anew, one recorded draw a byte (U14). -/
def Dev.redrawRange (d : Dev) (x count : Nat) : Dev :=
  { d with
    array := d.array.writeRange x ((List.range count).map fun j => Config.blankByte .mainArray d.epochs (x + j))
    epochs := d.epochs + 1 }

/-- A byte of the main array, for a place that exists (R62, R90, U9). -/
def Dev.arrayByte? (d : Dev) (page offset : Nat) : Option Byte :=
  if page < totalPages ∧ offset < pageSize then
    some (d.array.read .mainArray d.arrayEpoch (linear page offset))
  else none

/-- The 264 bytes of buffer 1 (R64). -/
def Dev.buf1Bytes (d : Dev) : List Byte :=
  d.buf1.readRange .buffer1 d.buf1Epoch 0 pageSize

/-- The status byte (R84). -/
def Dev.status (d : Dev) : Byte :=
  statusByte d.busy d.stat6

/-- The pointer after one data byte of an array read: it crosses page boundaries, and stands still where the
spec says nothing of where it goes (R90, U9). -/
def nextReadPtr (ptr : Nat × Nat) : Nat × Nat :=
  if ptr.1 < totalPages ∧ ptr.2 < pageSize then
    if ptr.2 + 1 = pageSize then (ptr.1 + 1, 0) else (ptr.1, ptr.2 + 1)
  else ptr

/-- The opcodes a busy `DEV` answers: status read and identity read (R83, D22). -/
def answeredBusy (c : Cfg) (op : Byte) : Bool :=
  op == c.opReadStatus || op == c.opReadId

/-- The opcodes whose frame changes the array, and starts the chip's own operation at `DES` (R82, R87 to R89). -/
def isMutating (c : Cfg) (op : Byte) : Bool :=
  op == c.opPageErase || op == c.opSectorErase || op == c.opBuf1CommitErase

/-- The opcodes that open a session: an address, then data (R86, R90). -/
def opensSession (c : Cfg) (op : Byte) : Bool :=
  op == c.opBuf1Write || op == c.opArrayRead

/-- `SEL`: a new frame (R82). -/
def Dev.beginFrame (d : Dev) : Dev :=
  { d with frame := some [], ignored := false }

/-- The byte a rule says `DEV` returns for the next exchange; `none` where no rule gives one (R82 to R85, R90). -/
def Dev.answer? (c : Cfg) (d : Dev) : Option Byte :=
  match d.mode with
  | .oracle | .unknown => none
  | .known =>
    if d.ignored then none
    else
      match d.frame with
      | some (op :: got) =>
        if op = c.opReadStatus then if got = [] then some d.status else none
        else if op = c.opReadId then idByte d.ident got.length
        else if op = c.opArrayRead then
          if 3 + c.nReadDummy ≤ got.length then d.arrayByte? d.ptr.1 d.ptr.2 else none
        else none
      | _ => none

/-- A data byte of a buffer write: it goes to the pointer's place and the pointer advances; past the end of the
buffer the behaviour is unspecified (R86). -/
def Dev.storeByte (d : Dev) (b : Byte) : Dev :=
  if d.ptr.2 < pageSize then { d with buf1 := d.buf1.write d.ptr.2 b, ptr := (d.ptr.1, d.ptr.2 + 1) }
  else d.lose

/-- What a byte after the opcode does to an open session: the third address byte sets the pointer, a data byte of a
buffer write is stored, a data byte of an array read advances the pointer (R86, R90). `got` is what came between the
opcode and this byte. -/
def Dev.sessionByte (c : Cfg) (d : Dev) (op : Byte) (got : List Byte) (b : Byte) : Dev :=
  match got with
  | [a0, a1] =>
    if op = c.opBuf1Write then { d with ptr := (0, addrOffset ⟨a0, a1, b⟩) }
    else if op = c.opArrayRead then { d with ptr := (addrPage ⟨a0, a1, b⟩, addrOffset ⟨a0, a1, b⟩) }
    else d
  | _ =>
    if op = c.opBuf1Write then if 3 ≤ got.length then d.storeByte b else d
    else if op = c.opArrayRead then
      if 3 + c.nReadDummy ≤ got.length then { d with ptr := nextReadPtr d.ptr } else d
    else d

/-- `X(b, _)`: the byte is appended to the frame (R82). The opcode byte decides whether the busy rule drops the frame
(R83, log 15); an opcode `DEV` has no meaning for makes it `unknown` (R93). -/
def Dev.receive (c : Cfg) (d : Dev) (b : Byte) : Dev :=
  match d.frame with
  | none => d.lose
  | some [] =>
    if b ∈ c.emitted then { d with frame := some [b], ignored := d.busy && !answeredBusy c b }
    else { d.lose with frame := some [b] }
  | some (op :: got) =>
    match d.mode with
    | .oracle | .unknown => { d with frame := some (op :: got ++ [b]) }
    | .known =>
      if d.ignored then { d with frame := some (op :: got ++ [b]) }
      else { d.sessionByte c op got b with frame := some (op :: got ++ [b]) }

/-- The operation a whole mutating frame commands, unless `WP_BLOCKS` has it ignored while write-protect is
asserted (R87 to R89, R95, R96). -/
def Dev.commanded (c : Cfg) (wp : Bool) (d : Dev) : Option Operation :=
  match d.frame with
  | some [op, a0, a1, a2] =>
    if op = c.opBuf1CommitErase then
      if wp && c.blocks .program (addrPage ⟨a0, a1, a2⟩) then none
      else some (.programPage (addrPage ⟨a0, a1, a2⟩) d.buf1Bytes)
    else if op = c.opPageErase then
      if wp && c.blocks .erasePage (addrPage ⟨a0, a1, a2⟩) then none
      else some (.erasePage (addrPage ⟨a0, a1, a2⟩))
    else if op = c.opSectorErase then
      if wp && c.blocks .eraseSector (addrSector ⟨a0, a1, a2⟩) then none
      else some (.eraseSector (addrSector ⟨a0, a1, a2⟩))
    else none
  | _ => none

/-- A frame that ends where no rule says what it does: no byte at all, before its address is complete, or a mutating
frame that goes on after its address (R94, R87 to R89). -/
def Dev.malformed (c : Cfg) (d : Dev) : Bool :=
  match d.frame with
  | none | some [] => true
  | some (op :: got) =>
    if isMutating c op then got.length != 3
    else if opensSession c op then decide (got.length < 3)
    else false

/-- `DES`: the frame ends, and a mutating one takes effect (R82, R83). While nothing is claimed of the chip, whatever
the frame did to its memories is unclaimed too. -/
def Dev.endFrame (c : Cfg) (wp : Bool) (d : Dev) : Dev :=
  match d.mode with
  | .oracle => { d with frame := none }
  | .unknown => { d.redrawAll with frame := none }
  | .known =>
    if d.ignored then { d with frame := none }
    else if d.malformed c then { d.lose with frame := none }
    else
      match d.commanded c wp with
      | some op => { d with frame := none, busy := true, pending := some op }
      | none => { d with frame := none }

/-- Where an operation writes: first address and number of bytes (R62, R63). -/
def Operation.range : Operation → Nat × Nat
  | .programPage p _ => (linear p 0, pageSize)
  | .erasePage p => (linear p 0, pageSize)
  | .eraseSector s => (linear (sectorPages * s) 0, sectorPages * pageSize)

/-- The bytes an operation writes (R87 to R89). -/
def Operation.content : Operation → List Byte
  | .programPage _ snapshot => snapshot
  | .erasePage _ => List.replicate pageSize 0xFF#8
  | .eraseSector _ => List.replicate (sectorPages * pageSize) 0xFF#8

/-- The chip's own move: a busy chip applies its operation and is ready (R91). A chip that is not busy, an oracle and
an unknown chip have nothing to complete. -/
def Dev.complete (d : Dev) : Dev :=
  match d.mode with
  | .oracle | .unknown => d
  | .known =>
    if d.busy then
      match d.pending with
      | some op => { d with array := d.array.writeRange op.range.1 op.content, busy := false, pending := none }
      | none => { d with busy := false }
    else d

/-- The reset pulse has ended: idle, no frame open, the array unchanged, buffer 1 drawn anew (R92, U13). An operation
that had not completed is dropped. DEDUCED (log 16). That the chip is not busy is R92's; U13 and N19 leave the busy
flag open at this point, and the model takes R92. DESIGN CHOICE (log 32). -/
def Dev.resetPulse (d : Dev) : Dev :=
  match d.mode with
  | .oracle => d
  | .unknown | .known =>
    { d with
      mode := .known, busy := false, pending := none, frame := none, ignored := false
      buf1 := [], buf1Epoch := d.epochs, epochs := d.epochs + 1 }

/-- A run of array bytes, first address and length, drawn anew (U14). -/
def Dev.disturb (d : Dev) : Option (Nat × Nat) → Dev
  | some r => d.redrawRange r.1 r.2
  | none => d

/-- The array bytes that a mutating frame may name, as far as its address has been received (R65, R66): all before the
first address byte; after it the sector of a sector erase, and the 128 pages that agree in page bits 11:7 for the two
others; after the second the one page. -/
def namedRange (c : Cfg) (op : Byte) (got : List Byte) : Nat × Nat :=
  match got with
  | [] => (0, totalPages * pageSize)
  | a0 :: rest =>
    if op = c.opSectorErase then (Operation.eraseSector (addrSector ⟨a0, 0, 0⟩)).range
    else
      match rest with
      | [] => (linear (addrPage ⟨a0, 0, 0⟩) 0, 128 * pageSize)
      | a1 :: _ => (Operation.erasePage (addrPage ⟨a0, a1, 0⟩)).range

/-- The array bytes that the open frame, cut short or whole, has begun to have erased or programmed (R271, U14).
DEDUCED (log 17). -/
def Dev.addressed (c : Cfg) (d : Dev) : Option (Nat × Nat) :=
  match d.frame with
  | some (op :: got) => if isMutating c op then some (namedRange c op got) else none
  | _ => none

/-- The controller's reset has abandoned a command (R271, U14): the page or sector being changed, and what a mutating
frame cut at any of its bytes names, are any value; of the rest nothing is claimed until the next reset pulse. A chip
of which nothing was claimed may have changed anything. DEDUCED (log 17). -/
def Dev.abandon (c : Cfg) (d : Dev) : Dev :=
  match d.mode with
  | .oracle => { d with frame := none }
  | .unknown => { d.redrawAll with frame := none }
  | .known =>
    { ((d.disturb (d.pending.map Operation.range)).disturb (d.addressed c)).lose with frame := none }

end Sys2Proof.Machine
end

