-- ==== Sys2Proof/Machine/Ops.lean ====
section
/-! DEFINITION. The named operations that everything else is built of: events, the bus transport and its arbitrator
(40_bus_transport.md), the host buffer (R61), the control lines, the frame header, the controller's reset.

TAKING AN EXCEPTION, AND RETURNING FROM ONE: this hardware has neither. It raises no exception, saves no state, has no
mode and no vector (R240, R246, R247, R249); it takes no interrupt (R244). Its one failure, the hang on a chip that
never reports ready (R243), is a run without end of the sequencer's poll cycle. The one transfer of control from
outside is the controller's reset, `controllerReset` below (R270, R271). -/

namespace Sys2Proof.Machine

/-- One operation after another: a fault or a refusal ends the whole. -/
def andThen (r : Result) (f : State → Result) : Result :=
  match r with
  | .next s => f s
  | .fault e => .fault e
  | .refused e => .refused e

/-- One event appended to the trace (R10). -/
def emit (e : Event) (s : State) : State :=
  { s with trace := s.trace ++ [e] }

/-- `seq <- q` (R9). -/
def goto (q : Seq) (s : State) : State :=
  { s with seq := q }

/-! ## The bus transport -/

/-- The state after `select()` by a requester, which is granted the bus in the same step (R141, R144). -/
def opened (o : Owner) (s : State) : State :=
  emit .sel { s with cs := true, own := o, dev := s.dev.beginFrame }

/-- `select()`: precondition `cs = 0` (R141). -/
def select (o : Owner) (s : State) : Result :=
  match s.cs with
  | false => .next (opened o s)
  | true => .fault .selectWhileSelected

/-- The state after `deselect()` (R142); for the chip the frame ends (R82). -/
def closed (s : State) : State :=
  emit .des { s with cs := false, own := .none, dev := s.dev.endFrame s.cfg s.wp }

/-- `deselect()`: precondition `cs = 1` (R142). -/
def deselect (s : State) : Result :=
  match s.cs with
  | true => .next (closed s)
  | false => .fault .deselectWhileDeselected

/-- The next free answer: the environment's next one, else the next draw. -/
def freeAnswer (s : State) : Byte :=
  match s.answers with
  | b :: _ => b
  | [] => Config.freeByte s.draws

/-- The state after a free answer has been taken. -/
def drawn (s : State) : State :=
  { s with answers := s.answers.tail, draws := if s.answers.isEmpty then s.draws + 1 else s.draws }

/-- The byte that comes back on the next exchange: what a rule of `DEV` gives, else a free answer (R140, R82). -/
def answer (s : State) : Byte :=
  match s.dev.answer? s.cfg with
  | some b => b
  | none => freeAnswer s

/-- The state after an answer has been taken. -/
def answered (s : State) : State :=
  match s.dev.answer? s.cfg with
  | some _ => s
  | none => drawn s

/-- The state after one exchange of `out` (R140): the chip has received it, and the event is emitted. -/
def exchanged (out : Byte) (s : State) : State :=
  emit (.x out (answer s)) { answered s with dev := s.dev.receive s.cfg out }

/-- `xfer(out)`: precondition `cs = 1` (R140). The byte received is given to `k`, which keeps it or discards it
(R148). -/
def xfer (out : Byte) (s : State) (k : Byte → State → Result) : Result :=
  match s.cs with
  | true => k (answer s) (exchanged out s)
  | false => .fault .xferWhileDeselected

/-- An exchange whose returned byte is discarded (R148). -/
def send (out : Byte) (s : State) : Result :=
  xfer out s fun _ t => .next t

/-- `cop <- op; A <- a`: what is being sent (R23). -/
def sending (op : Byte) (a : Addr) (s : State) : State :=
  { s with cop := op, addr := a }

/-- The frame header (R150): `select()`, the opcode and the three address bytes, most significant first. -/
def header (op : Byte) (a : Addr) (o : Owner) (s : State) : Result :=
  andThen (select o (sending op a s)) fun s1 =>
  andThen (send op s1) fun s2 =>
  andThen (send a.a0 s2) fun s3 =>
  andThen (send a.a1 s3) fun s4 =>
  send a.a2 s4

/-! ## The host buffer -/

/-- The byte at an index of the host buffer (R61). -/
def hostByte (s : State) (i : Word) : Byte :=
  s.hbuf.read .hostBuffer 0 i.toNat

/-- `MemWrite(HBUF, i, 1, v)`, with its event (R9, R61). -/
def memWrite (i : Word) (v : Byte) (s : State) : State :=
  emit (.hwr i v) { s with hbuf := s.hbuf.write i.toNat v }

/-- `MemRead(HBUF, i, 1)`, with its event (R9, R61): the byte is `hostByte s i`. -/
def memRead (i : Word) (s : State) : State :=
  emit (.hrd i (hostByte s i)) s

/-! ## Control lines and delay -/

/-- `set_wp(b)`: the event is emitted whatever the level was (R146). -/
def setWp (b : Bool) (s : State) : State :=
  emit (.wp b) { s with wp := b }

/-- `set_rst(b)` (R146). When an asserted line is de-asserted the chip has seen a reset pulse (R92). -/
def setRst (b : Bool) (s : State) : State :=
  emit (.rst b) { s with rst := b, dev := if s.rst && !b then s.dev.resetPulse else s.dev }

/-- `delay_ms(n)`: an event and nothing more (R147). -/
def delayMs (ms : Nat) (s : State) : State :=
  emit (.delay ms) s

/-! ## The latches and counters of a data phase -/

/-- `sr <- v` (R28). -/
def latchStatus (v : Byte) (s : State) : State :=
  { s with sr := v }

/-- `cnt <- 0` (R23). -/
def startCount (s : State) : State :=
  { s with cnt := 0 }

/-- `cnt <- cnt + 1` (R23). -/
def countByte (s : State) : State :=
  { s with cnt := s.cnt + 1 }

/-- `k <- 0` (R23). -/
def startId (s : State) : State :=
  { s with k := 0 }

/-- `ID[k] <- v; k <- k + 1` (R220, R310). -/
def latchId (v : Byte) (s : State) : State :=
  { s with id := setIdByte s.id s.k.toNat v, k := s.k + 1 }

/-! ## Data phases of a frame -/

/-- `write_fill` of each byte in turn (R191); `cnt` counts them (R25). -/
def fillBytes : List Byte → State → Result
  | [], s => .next s
  | b :: bs, s => andThen (send b s) fun t => fillBytes bs (countByte t)

/-- `count` exchanges of the dummy byte, returned bytes discarded (R210). -/
def dummyBytes : Nat → State → Result
  | 0, s => .next s
  | count + 1, s => andThen (send s.cfg.dummyOut s) fun t => dummyBytes count (countByte t)

/-- `count` data bytes of a read session, each stored in the host buffer at `cnt` as it comes (R211, R213). -/
def readBytes : Nat → State → Result
  | 0, s => .next s
  | count + 1, s =>
    xfer s.cfg.dummyOut s fun v t => readBytes count (countByte (memWrite t.cnt v t))

/-- `count` identity bytes, each latched as it comes (R220). -/
def latchIdBytes : Nat → State → Result
  | 0, s => .next s
  | count + 1, s =>
    xfer s.cfg.dummyOut s fun v t => latchIdBytes count (latchId v t)

/-! ## The controller's reset -/

/-- The controller's reset (R270): every piece of the controller's state takes its value of R37, and no event is
emitted. The environment stays as it is (R272), except that a chip whose command is abandoned is one of which
nothing is claimed (R271). -/
def controllerReset (s : State) : State :=
  { State.reset with
    cfg := s.cfg
    hbuf := s.hbuf
    dev := if s.busy then s.dev.abandon s.cfg else s.dev
    moves := s.moves
    answers := s.answers
    draws := s.draws
    trace := s.trace
    reads := s.reads }

end Sys2Proof.Machine
end

