-- ==== Sys2Proof/Machine/BusFrames.lean ====
section
/-! DEFINITION. The meanings of the seven bus frames the controller emits (R104): each is one whole transaction from
`SEL` to `DES` by its requester (R144), with what the chip does on the far side (R82 to R96). Precondition of each:
`cs = 0`. The commands are built of these (Machine/Pseudocode.lean); the sequencer sends the same frames one event
a step. -/

namespace Sys2Proof.Machine

/-- The format FS transaction of a requester: the second returned byte goes to `sr` (R104, R170, R221). -/
def statusFrame (o : Owner) (s : State) : Result :=
  andThen (select o s) fun s1 =>
  andThen (send s1.cfg.opReadStatus s1) fun s2 =>
  xfer s2.cfg.dummyOut s2 fun v s3 =>
  deselect (latchStatus v s3)

/-- A format FA transaction: the header and nothing more (R104). -/
def addressFrame (op : Byte) (a : Addr) (o : Owner) (s : State) : Result :=
  andThen (header op a o s) deselect

/-- STATUS_READ: `is_ready()`'s transaction, owner `POLL` (R170, R84). -/
def execStatusRead (s : State) : Result :=
  statusFrame .poll s

/-- ID_READ: `read_id()`, owner `DIAG_ID`; the four returned bytes go to `ID[0..3]` (R220, R85). -/
def execIdRead (s : State) : Result :=
  andThen (select .diagId s) fun s1 =>
  andThen (send s1.cfg.opReadId s1) fun s2 =>
  andThen (latchIdBytes 4 (startId s2)) deselect

/-- PAGE_ERASE: owner `ERASE` (R180, R88). -/
def execPageErase (a : Addr) (s : State) : Result :=
  addressFrame s.cfg.opPageErase a .erase s

/-- SECTOR_ERASE: owner `ERASE` (R182, R89). -/
def execSectorErase (a : Addr) (s : State) : Result :=
  addressFrame s.cfg.opSectorErase a .erase s

/-- BUF1_WRITE: a write session, opened, filled with the data bytes and closed; owner `FILL` (R190 to R192, R86). -/
def execBuf1Write (a : Addr) (data : List Byte) (s : State) : Result :=
  andThen (header s.cfg.opBuf1Write a .fill (startCount s)) fun t =>
  andThen (fillBytes data t) deselect

/-- BUF1_COMMIT_ERASE: owner `COMMIT` (R193, R87). -/
def execBuf1CommitErase (a : Addr) (s : State) : Result :=
  addressFrame s.cfg.opBuf1CommitErase a .commit s

/-- ARRAY_READ: a read session, opened, `size` bytes clocked out into `HBUF[0 .. size-1]`, and closed; owner `READ`
(R210 to R212, R104, R90). -/
def execArrayRead (a : Addr) (size : Word) (s : State) : Result :=
  andThen (header s.cfg.opArrayRead a .read (startCount s)) fun t =>
  andThen (dummyBytes t.cfg.nReadDummy t) fun u =>
  andThen (readBytes size.toNat (startCount u)) deselect

end Sys2Proof.Machine
end

