-- ==== Sys2Proof/Machine/HostCommands.lean ====
section
/-! DEFINITION. The meanings of the seven host rows of the opcode table. A host command is one write of its code to
`CMD` (R101): while `BUSY = 0` it is accepted, `BUSY <- 1`, and `seq` leaves `IDLE` in the same step (R302); what the
command then does, event by event, is the sequencer's (Machine/Sequencer.lean, R303 to R310). While `BUSY = 1` the
write is outside the contract and the host step is refused (R31). -/

namespace Sys2Proof.Machine

/-- A host step that needs `BUSY = 0` (R31, U2). -/
def whenIdle (s : State) (r : Result) : Result :=
  match s.busy with
  | false => r
  | true => .refused .hostAccessWhileBusy

/-- `BUSY <- 1; seq <- first` (R302). -/
def began (first : Seq) (s : State) : State :=
  { s with busy := true, seq := first }

/-- The accepting row of R302: the sequencer goes to the command's first state. -/
def accept (first : Seq) (s : State) : Result :=
  whenIdle s (.next (began first s))

/-- INIT, code `0x01` (R102, R230, R305). -/
def execInit (s : State) : Result :=
  accept .iWp s

/-- ERASE_PAGE, code `0x02` (R102, R180, R306). -/
def execErasePage (s : State) : Result :=
  accept .ep0 s

/-- ERASE_SECTOR, code `0x03` (R102, R182, R183, R307). -/
def execEraseSector (s : State) : Result :=
  accept .es0 s

/-- WRITE, code `0x04` (R102, R195, R308). -/
def execWrite (s : State) : Result :=
  accept .w0 s

/-- READ, code `0x05` (R102, R213, R309). -/
def execRead (s : State) : Result :=
  accept .r0 s

/-- DIAGNOSE, code `0x06` (R102, R222, R310). -/
def execDiagnose (s : State) : Result :=
  accept .g0 s

/-- A reserved code: ignored, no event, `BUSY` stays 0, no state changes (R103, D7). -/
def execReservedHostCode (_code : Byte) (s : State) : Result :=
  whenIdle s (.next s)

end Sys2Proof.Machine
end

