-- ==== Sys2Proof/Machine/UnusedFrames.lean ====
section
/-! DEFINITION. The eight opcodes the controller never sends (R110). Their frame formats are not in the document, no
rule gives them an effect, and the reference device gives them no meaning: "a model refuses it" (R93, U8). Each is
refused under a name of its own, in every state. -/

namespace Sys2Proof.Machine

/-- CHIP_ERASE (R110, R186, R93). -/
def execChipErase (_rest : List Byte) (_s : State) : Result :=
  .refused .chipEraseNotGiven

/-- BUF2_WRITE (R110, R93). -/
def execBuf2Write (_rest : List Byte) (_s : State) : Result :=
  .refused .buf2WriteNotGiven

/-- BUF1_COMMIT_NOERASE (R110, R93). -/
def execBuf1CommitNoerase (_rest : List Byte) (_s : State) : Result :=
  .refused .buf1CommitNoeraseNotGiven

/-- PAGE_TO_BUF1 (R110, R216, R93). -/
def execPageToBuf1 (_rest : List Byte) (_s : State) : Result :=
  .refused .pageToBuf1NotGiven

/-- PAGE_TO_BUF2 (R110, R216, R93). -/
def execPageToBuf2 (_rest : List Byte) (_s : State) : Result :=
  .refused .pageToBuf2NotGiven

/-- POWER_DOWN (R110, R234, R254, R93). -/
def execPowerDown (_rest : List Byte) (_s : State) : Result :=
  .refused .powerDownNotGiven

/-- RESUME (R110, R234, R254, R93). -/
def execResume (_rest : List Byte) (_s : State) : Result :=
  .refused .resumeNotGiven

/-- READ_SECURITY (R110, R93). -/
def execReadSecurity (_rest : List Byte) (_s : State) : Result :=
  .refused .readSecurityNotGiven

end Sys2Proof.Machine
end

