-- ==== Sys2Proof/Machine/Dispatch.lean ====
section
/-! DEFINITION. The dispatch: one arm for every constructor of `Instr`, each a direct call of its meaning. -/

namespace Sys2Proof.Machine

def exec (i : Instr) (s : State) : Host.Outcome State Fault Refusal :=
  match i with
  -- host commands (R102, R103)
  | .init => Sys2Proof.Machine.execInit s
  | .erasePage => Sys2Proof.Machine.execErasePage s
  | .eraseSector => Sys2Proof.Machine.execEraseSector s
  | .write => Sys2Proof.Machine.execWrite s
  | .read => Sys2Proof.Machine.execRead s
  | .diagnose => Sys2Proof.Machine.execDiagnose s
  | .reservedHostCode code => Sys2Proof.Machine.execReservedHostCode code s
  -- bus frames the controller emits (R104)
  | .statusRead => Sys2Proof.Machine.execStatusRead s
  | .idRead => Sys2Proof.Machine.execIdRead s
  | .pageErase a => Sys2Proof.Machine.execPageErase a s
  | .sectorErase a => Sys2Proof.Machine.execSectorErase a s
  | .buf1Write a data => Sys2Proof.Machine.execBuf1Write a data s
  | .buf1CommitErase a => Sys2Proof.Machine.execBuf1CommitErase a s
  | .arrayRead a size => Sys2Proof.Machine.execArrayRead a size s
  -- opcodes the controller never emits (R110)
  | .chipErase rest => Sys2Proof.Machine.execChipErase rest s
  | .buf2Write rest => Sys2Proof.Machine.execBuf2Write rest s
  | .buf1CommitNoerase rest => Sys2Proof.Machine.execBuf1CommitNoerase rest s
  | .pageToBuf1 rest => Sys2Proof.Machine.execPageToBuf1 rest s
  | .pageToBuf2 rest => Sys2Proof.Machine.execPageToBuf2 rest s
  | .powerDown rest => Sys2Proof.Machine.execPowerDown rest s
  | .resume rest => Sys2Proof.Machine.execResume rest s
  | .readSecurity rest => Sys2Proof.Machine.execReadSecurity rest s

end Sys2Proof.Machine
end

