-- ==== Sys2Proof/Machine/HostPort.lean ====
section
/-! DEFINITION. The host side (10_state.md R29 to R31): the register map by number, and the host's own buffer (R61).
A write to `CMD` is where a host command enters the machine (R101). -/

namespace Sys2Proof.Machine

/-- A host read's result recorded. -/
def recordRead (r : HostRead) (s : State) : State :=
  { s with reads := s.reads ++ [r] }

/-- The host stores into `PAGE` (R22). -/
def loadPage (v : Word) (s : State) : State :=
  { s with page := v }

/-- The host stores into `OFFSET` (R22). -/
def loadOffset (v : Word) (s : State) : State :=
  { s with offset := v }

/-- The host stores into `SIZE` (R22). -/
def loadSize (v : Word) (s : State) : State :=
  { s with size := v }

/-- The host stores into `SECTOR`, 8 bits wide: the low bits are taken (R22, R29). -/
def loadSector (v : Word) (s : State) : State :=
  { s with sector := v.setWidth 8 }

/-- The host stores into its own buffer (R61). -/
def loadBuffer (i : Word) (v : Byte) (s : State) : State :=
  { s with hbuf := s.hbuf.write i.toNat v }

/-- A write of one of the numbered registers while `BUSY = 0` (R29, R30): a field takes the low bits of its width, the
other bits are ignored. A write against the access column has no meaning (R31, log 7). -/
def writeRegister (number : Nat) (v : Word) (s : State) : Result :=
  match number with
  | 0 => exec (decodeHost (v.setWidth 8)) s
  | 1 => .next (loadPage v s)
  | 2 => .next (loadOffset v s)
  | 3 => .next (loadSize v s)
  | 4 => .next (loadSector v s)
  | 5 | 6 | 7 | 8 | 9 => .refused (.readOnlyRegister number)
  | _ => .refused (.noSuchRegister number)

/-- The value a readable register returns: bits that are not listed read as zero (R29). `CMD` is not here. -/
def registerValue (number : Nat) (s : State) : Option Word :=
  match number with
  | 1 => some s.page
  | 2 => some s.offset
  | 3 => some s.size
  | 4 => some (s.sector.setWidth 16)
  | 5 => some ((statusRegister s).setWidth 16)
  | 6 => some (s.id.b0.setWidth 16)
  | 7 => some (s.id.b1.setWidth 16)
  | 8 => some (s.id.b2.setWidth 16)
  | 9 => some (s.id.b3.setWidth 16)
  | _ => none

/-- A read of one of the numbered registers (R29, R30). A read of `CMD` returns an unspecified value: a free one. -/
def readRegister (number : Nat) (s : State) : Result :=
  match registerValue number s with
  | some v => .next (recordRead (.reg number v) s)
  | none =>
    if number = 0 then .next (recordRead (.reg 0 ((freeAnswer s).setWidth 16)) (drawn s))
    else .refused (.noSuchRegister number)

/-- The host reads its own buffer (R61). A byte that a READ in progress delivers has no defined value yet (R217): a free
one (log 23). -/
def readBuffer (i : Word) (s : State) : State :=
  match beingRead s i with
  | false => recordRead (.buf i (hostByte s i)) s
  | true => recordRead (.buf i (freeAnswer s)) (drawn s)

/-- The number of the register `STATUS` (R30). -/
def statusNumber : Nat := 5

/-- A host step: of the registers, while `BUSY = 1`, only a read of `STATUS` has a meaning (R31). The buffer is the
host's own at all times, and a command reads the byte it finds at the step that sends it (R77, R241). -/
def hostStep (op : HostOp) (s : State) : Result :=
  match op with
  | .write number v => whenIdle s (writeRegister number v s)
  | .read number => if number = statusNumber then readRegister number s else whenIdle s (readRegister number s)
  | .bufWrite i v => .next (loadBuffer i v s)
  | .bufRead i => .next (readBuffer i s)

end Sys2Proof.Machine
end

