-- ==== Sys2Proof/Machine/Sequencer.lean ====
section
/-! DEFINITION. The command sequencer: one definition for every row or group of rows of the tables R302 to R310 of
48_sequencer.md, each one step that emits at most one device-side event (R301). Where a table has no row for a
counter's value the step is the fault `noTransition`; no state that meets `Safety.Inv` reaches it. -/

namespace Sys2Proof.Machine

/-- `seq <- q` after an operation. -/
def thenGoto (q : Seq) (r : Result) : Result :=
  andThen r fun t => .next (goto q t)

/-- An exchange whose answer is discarded, then `seq <- q`. -/
def sendThen (out : Byte) (q : Seq) (s : State) : Result :=
  thenGoto q (send out s)

/-- Entry of the poll subroutine: `ret <- r; seq <- P_SEL` (R303). -/
def callPoll (r : Seq) (s : State) : State :=
  { s with ret := r, seq := .pSel }

/-- Entry of the frame-header subroutine: `cop <- op; A <- a; hret <- r; seq <- H_SEL` (R304). -/
def callHeader (op : Byte) (a : Addr) (r : Seq) (s : State) : State :=
  { s with cop := op, addr := a, hret := r, seq := .hSel }

/-! ## Rest (R302) -/

/-- `BUSY <- 0`. -/
def notBusy (s : State) : State :=
  { s with busy := false }

/-- `IDLE` with no write to `CMD`. -/
def seqIdle (s : State) : Result :=
  .next s

/-- `DONE`, the `return` of every command: `BUSY <- 0`. -/
def seqDone (s : State) : Result :=
  .next (goto .idle (notBusy s))

/-! ## The poll subroutine (R303) -/

def seqPSel (s : State) : Result :=
  thenGoto .pOp (select .poll s)

def seqPOp (s : State) : Result :=
  sendThen s.cfg.opReadStatus .pRd s

def seqPRd (s : State) : Result :=
  xfer s.cfg.dummyOut s fun v t => .next (goto .pDes (latchStatus v t))

def seqPDes (s : State) : Result :=
  thenGoto .pTst (deselect s)

def seqPTst (s : State) : Result :=
  .next (goto (if readyBit s.sr then s.ret else .pSel) s)

/-! ## The frame-header subroutine (R304) -/

def seqHSel (s : State) : Result :=
  match ownerOf s.cfg s.cop with
  | some o => thenGoto .hOp (select o s)
  | none => .fault .noTransition

def seqHOp (s : State) : Result :=
  sendThen s.cop .hA0 s

def seqHA0 (s : State) : Result :=
  sendThen s.addr.a0 .hA1 s

def seqHA1 (s : State) : Result :=
  sendThen s.addr.a1 .hA2 s

def seqHA2 (s : State) : Result :=
  sendThen s.addr.a2 s.hret s

/-! ## INIT (R305) -/

def seqIWp (s : State) : Result :=
  .next (goto .iRst1 (setWp true s))

def seqIRst1 (s : State) : Result :=
  .next (goto .iDly (setRst true s))

def seqIDly (s : State) : Result :=
  .next (goto .iRst0 (delayMs s.cfg.resetHoldMs s))

def seqIRst0 (s : State) : Result :=
  .next (goto .done (setRst false s))

/-! ## ERASE_PAGE (R306) -/

def seqEp0 (s : State) : Result :=
  .next (callPoll .ep1 s)

def seqEp1 (s : State) : Result :=
  .next (callHeader s.cfg.opPageErase (pageEraseAddr s) .ep2 s)

def seqEp2 (s : State) : Result :=
  thenGoto .done (deselect s)

/-! ## ERASE_SECTOR (R307) -/

def seqEs0 (s : State) : Result :=
  if sectorRefused s.sector then .next (goto .done s) else .next (callPoll .es1 s)

def seqEs1 (s : State) : Result :=
  .next (callHeader s.cfg.opSectorErase (sectorEraseAddr s) .es2 s)

def seqEs2 (s : State) : Result :=
  thenGoto .done (deselect s)

/-! ## WRITE (R308) -/

/-- `cur <- PAGE; idx <- 0; rem <- SIZE` (R195). -/
def startWrite (s : State) : State :=
  { s with cur := s.page, idx := 0, rem := s.size }

/-- `n <- min(rem, 264)` (R195). -/
def startChunk (s : State) : State :=
  { s with n := chunkLength s.rem }

def seqW0 (s : State) : Result :=
  .next (goto .w1 (startWrite (setWp false s)))

def seqW1 (s : State) : Result :=
  if s.rem = 0#16 then .next (callPoll .w6 s)
  else .next (callPoll .w2 (startChunk s))

def seqW2 (s : State) : Result :=
  .next (callHeader s.cfg.opBuf1Write (bufferAddr 0) .w3 (startCount s))

/-- `b <- MemRead(HBUF, idx + cnt, 1); xfer(b); cnt <- cnt + 1`, the event `HRD` before the `X` (R191, R308). -/
def fillStep (s : State) : Result :=
  xfer (hostByte s (s.idx + s.cnt)) (memRead (s.idx + s.cnt) s) fun _ t => .next (countByte t)

def seqW3 (s : State) : Result :=
  if s.cnt < s.n then fillStep s
  else if s.cnt = s.n then andThen (deselect s) fun t => .next (callPoll .w4 t)
  else .fault .noTransition

def seqW4 (s : State) : Result :=
  .next (callHeader s.cfg.opBuf1CommitErase (commitAddr s) .w5 s)

/-- The end of a chunk: `idx <- idx + n; rem <- rem − n; cur <- trunc_16(cur + 1)` (R195, R201). -/
def nextChunk (s : State) : State :=
  { s with idx := s.idx + s.n, rem := s.rem - s.n, cur := s.cur + 1 }

def seqW5 (s : State) : Result :=
  andThen (deselect s) fun t => .next (goto .w1 (nextChunk t))

def seqW6 (s : State) : Result :=
  .next (goto .done (setWp true s))

/-! ## READ (R309) -/

def seqR0 (s : State) : Result :=
  .next (callPoll .r1 s)

def seqR1 (s : State) : Result :=
  .next (callHeader s.cfg.opArrayRead (arrayReadAddr s) .r2 (startCount s))

/-- `R_2`: the dummies are counted as `dummiesSent` says, which is `cnt` where `N_READ_DUMMY` fits 16 bits (R309,
log 12). -/
def seqR2 (s : State) : Result :=
  if dummiesSent s < s.cfg.nReadDummy then
    andThen (send s.cfg.dummyOut s) fun t => .next (countByte t)
  else if dummiesSent s = s.cfg.nReadDummy then .next (goto .r3 (startCount s))
  else .fault .noTransition

/-- `v <- xfer(DUMMY_OUT); MemWrite(HBUF, cnt, 1, v); cnt <- cnt + 1` (R309). -/
def readStep (s : State) : Result :=
  xfer s.cfg.dummyOut s fun v t => .next (countByte (memWrite t.cnt v t))

def seqR3 (s : State) : Result :=
  if s.cnt < s.size then readStep s
  else if s.cnt = s.size then thenGoto .done (deselect s)
  else .fault .noTransition

/-! ## DIAGNOSE (R310) -/

def seqG0 (s : State) : Result :=
  thenGoto .g1 (select .diagId s)

def seqG1 (s : State) : Result :=
  andThen (send s.cfg.opReadId s) fun t => .next (goto .g2 (startId t))

/-- `ID[k] <- xfer(DUMMY_OUT); k <- k + 1` (R310). -/
def idStep (s : State) : Result :=
  xfer s.cfg.dummyOut s fun v t => .next (latchId v t)

def seqG2 (s : State) : Result :=
  if s.k < 4#3 then idStep s
  else if s.k = 4#3 then thenGoto .g3 (deselect s)
  else .fault .noTransition

def seqG3 (s : State) : Result :=
  thenGoto .g4 (select .diagSr s)

def seqG4 (s : State) : Result :=
  sendThen s.cfg.opReadStatus .g5 s

def seqG5 (s : State) : Result :=
  xfer s.cfg.dummyOut s fun v t => .next (goto .g6 (latchStatus v t))

def seqG6 (s : State) : Result :=
  thenGoto .g7 (deselect s)

/-- `DIAG_OK <- 1` if both checks pass, else `0` (R222). -/
def latchDiag (s : State) : State :=
  { s with diagOk := diagResult s.cfg s.id s.sr }

def seqG7 (s : State) : Result :=
  .next (goto .done (latchDiag s))

/-! ## One step of the controller (R301) -/

/-- The controller reads `seq` and performs the action of the matching row. -/
def seqStep (s : State) : Result :=
  match s.seq with
  | .idle => seqIdle s
  | .done => seqDone s
  | .pSel => seqPSel s
  | .pOp => seqPOp s
  | .pRd => seqPRd s
  | .pDes => seqPDes s
  | .pTst => seqPTst s
  | .hSel => seqHSel s
  | .hOp => seqHOp s
  | .hA0 => seqHA0 s
  | .hA1 => seqHA1 s
  | .hA2 => seqHA2 s
  | .iWp => seqIWp s
  | .iRst1 => seqIRst1 s
  | .iDly => seqIDly s
  | .iRst0 => seqIRst0 s
  | .ep0 => seqEp0 s
  | .ep1 => seqEp1 s
  | .ep2 => seqEp2 s
  | .es0 => seqEs0 s
  | .es1 => seqEs1 s
  | .es2 => seqEs2 s
  | .w0 => seqW0 s
  | .w1 => seqW1 s
  | .w2 => seqW2 s
  | .w3 => seqW3 s
  | .w4 => seqW4 s
  | .w5 => seqW5 s
  | .w6 => seqW6 s
  | .r0 => seqR0 s
  | .r1 => seqR1 s
  | .r2 => seqR2 s
  | .r3 => seqR3 s
  | .g0 => seqG0 s
  | .g1 => seqG1 s
  | .g2 => seqG2 s
  | .g3 => seqG3 s
  | .g4 => seqG4 s
  | .g5 => seqG5 s
  | .g6 => seqG6 s
  | .g7 => seqG7 s

end Sys2Proof.Machine
end

