-- ==== Sys2Proof/Machine/Moves.lean ====
section
/-! DEFINITION. The moves of the agents (00_scope.md R11): the controller, the host, the chip, and the controller's
reset; and how an instruction of the opcode table is placed where the next step takes it. -/

namespace Sys2Proof.Machine

/-- One whole frame as a transaction, by its decoded meaning. While a command runs the sequencer alone makes requests
(R144). -/
def frameMove (bytes : List Byte) (s : State) : Result :=
  match s.busy with
  | true => .refused .busRequestWhileBusy
  | false =>
    match decode s.cfg (.frame bytes) with
    | .ok i => exec i s
    | .error e => .refused (.undecodable e)

/-- The chip's own move (R91). -/
def chipDone (s : State) : State :=
  { s with dev := s.dev.complete }

/-- One move. -/
def runMove (m : Move) (s : State) : Result :=
  match m with
  | .controller => seqStep s
  | .chipReady => .next (chipDone s)
  | .reset => .next (controllerReset s)
  | .host op => hostStep op s
  | .frame bytes => frameMove bytes s

/-- The move that runs a code: a host code is a host write of it to `CMD`, a frame is placed on the bus. -/
def moveOf : Code → Move
  | .host code => .host (.write 0 (code.setWidth 16))
  | .frame bytes => .frame bytes

/-- The first move off the list. -/
def takeMove (rest : List Move) (s : State) : State :=
  { s with moves := rest }

end Sys2Proof.Machine
end

