-- ==== Sys2Proof/Machine/Step.lean ====
section
/-! DEFINITION. One step of the machine: the next move, or, when none is left, the controller's. -/

namespace Sys2Proof.Machine

/-- One step. A host command enters as the move that writes its code to `CMD` (R101); with no move left the controller
takes its step (R301), which in `IDLE` changes nothing (R302). -/
def step (s : State) : Host.Outcome State Fault Refusal :=
  match s.moves with
  | [] => seqStep s
  | m :: rest => runMove m (takeMove rest s)

/-- The state in which a table word's instruction is what the next step runs (log 9, log 10): the move that runs it is
put first. -/
def State.withFetchWord (s : State) (nbits w : Nat) : State :=
  { s with moves := moveOf (tableCode s.cfg nbits w) :: s.moves }

end Sys2Proof.Machine
end

