-- ==== Sys2Proof/Machine/Pseudocode.lean ====
section
/-! DEFINITION. The pseudocode of the six commands (42_status_poller.md to 47_init.md), which the spec calls normative
for which events each command produces, written over the whole-frame meanings. The sequencer is the machine that
runs; that the two agree is R311, stated as obligations.

`polls` bounds how many status reads ONE wait may take: `none` is a wait that has not ended within them, and the hang
of R173 is `none` for every bound. -/

namespace Sys2Proof.Machine

/-- What an operation leaves, if it completes. -/
def completed : Result → Option State
  | .next s => some s
  | .fault _ => none
  | .refused _ => none

/-- `wait_until_ready()` (R172): one whole status read after another until bit 7 of the status byte is set. -/
def waitUntilReady : Nat → State → Option State
  | 0, _ => none
  | polls + 1, s =>
    match completed (execStatusRead s) with
    | some t => if readyBit t.sr then some t else waitUntilReady polls t
    | none => none

/-- `INIT` (R230). -/
def initProgram (s : State) : Option State :=
  some (setRst false (delayMs s.cfg.resetHoldMs (setRst true (setWp true s))))

/-- `ERASE_PAGE` (R180). -/
def erasePageProgram (polls : Nat) (s : State) : Option State :=
  (waitUntilReady polls s).bind fun t => completed (execPageErase (pageEraseAddr t) t)

/-- `ERASE_SECTOR` (R182): the refusal of sector 0 stands before anything else (R183). -/
def eraseSectorProgram (polls : Nat) (s : State) : Option State :=
  if sectorRefused s.sector then some s
  else (waitUntilReady polls s).bind fun t => completed (execSectorErase (sectorEraseAddr t) t)

/-- The loop of `write_page`: `count` bytes of the host buffer, each read in the step that sends it (R191, R194). -/
def fillFromHost : Nat → State → Option State
  | 0, s => some s
  | count + 1, s => (completed (fillStep s)).bind fun t => fillFromHost count t

/-- `write_page(idx, n, cur)` (R194): `write_start(0)`, the fill, `write_end()`, `commit(cur)`. -/
def writePage (polls : Nat) (s : State) : Option State :=
  (waitUntilReady polls s).bind fun s1 =>
  (completed (header s1.cfg.opBuf1Write (bufferAddr 0) .fill (startCount s1))).bind fun s2 =>
  (fillFromHost s2.n.toNat s2).bind fun s3 =>
  (completed (deselect s3)).bind fun s4 =>
  (waitUntilReady polls s4).bind fun s5 =>
  completed (execBuf1CommitErase (commitAddr s5) s5)

/-- The chunk loop of `WRITE` (R195), at most `chunks` turns. -/
def writeChunks (polls : Nat) : Nat → State → Option State
  | 0, s => if s.rem = 0#16 then some s else none
  | chunks + 1, s =>
    if s.rem = 0#16 then some s
    else
      (writePage polls (startChunk s)).bind fun t =>
      writeChunks polls chunks (nextChunk t)

/-- A bound on the number of chunks: `ceil(65535 / 264)` (R196, R312). -/
def maxChunks : Nat := 249

/-- `WRITE` (R195). -/
def writeProgram (polls : Nat) (s : State) : Option State :=
  (writeChunks polls maxChunks (startWrite (setWp false s))).bind fun t =>
  (waitUntilReady polls t).bind fun u => some (setWp true u)

/-- `READ` (R213). -/
def readProgram (polls : Nat) (s : State) : Option State :=
  (waitUntilReady polls s).bind fun t => completed (execArrayRead (arrayReadAddr t) t.size t)

/-- `DIAGNOSE` (R222): both transactions always, the identity first, then the two checks. -/
def diagnoseProgram (s : State) : Option State :=
  (completed (execIdRead s)).bind fun t =>
  (completed (statusFrame .diagSr t)).bind fun u =>
  some (latchDiag u)

/-- The pseudocode of a host command; a reserved code does nothing (R103), and a bus row is no command. -/
def commandProgram (polls : Nat) (i : Instr) (s : State) : Option State :=
  match i with
  | .init => initProgram s
  | .erasePage => erasePageProgram polls s
  | .eraseSector => eraseSectorProgram polls s
  | .write => writeProgram polls s
  | .read => readProgram polls s
  | .diagnose => diagnoseProgram s
  | .reservedHostCode _ => some s
  | .statusRead | .idRead | .pageErase _ | .sectorErase _ | .buf1Write _ _ | .buf1CommitErase _
  | .arrayRead _ _ => none
  | .chipErase _ | .buf2Write _ | .buf1CommitNoerase _ | .pageToBuf1 _ | .pageToBuf2 _ | .powerDown _
  | .resume _ | .readSecurity _ => none

end Sys2Proof.Machine
end

