-- ==== Sys2Proof/Safety.lean ====
section
/-! DEFINITION. The terms claims use: the invariant of the machine (R24, R34, R143, R144, R196, R313, R316), the grammar
of the bus trace (R110, R143), and runs of the machine. -/

namespace Sys2Proof.Safety

open Sys2Proof.Machine

/-- The states in which chip-select is asserted (R313). -/
def selectedIn : Seq → Bool
  | .pOp | .pRd | .pDes => true
  | .hOp | .hA0 | .hA1 | .hA2 => true
  | .ep2 | .es2 | .w3 | .w5 | .r2 | .r3 => true
  | .g1 | .g2 | .g4 | .g5 | .g6 => true
  | .idle | .done | .pSel | .pTst | .hSel | .iWp | .iRst1 | .iDly | .iRst0 => false
  | .ep0 | .ep1 | .es0 | .es1 | .w0 | .w1 | .w2 | .w4 | .w6 | .r0 | .r1 | .g0 | .g3 | .g7 => false

/-- The states the poll subroutine is entered for: every value a command gives `ret` (R306 to R309). -/
def isPollReturn (q : Seq) : Bool :=
  q ∈ [Seq.ep1, .es1, .w2, .w4, .w6, .r1]

/-- The opcode of the header that returns to a state: every pair of `cop` and `hret` a command sets (R306 to R309). -/
def headerOpcode (c : Cfg) : Seq → Option Byte
  | .ep2 => some c.opPageErase
  | .es2 => some c.opSectorErase
  | .w3 => some c.opBuf1Write
  | .w5 => some c.opBuf1CommitErase
  | .r2 => some c.opArrayRead
  | _ => none

/-- How many bytes of a header have been sent in a state in which its transaction is open (R304). -/
def headerSentIn : Seq → Option Nat
  | .hOp => some 0
  | .hA0 => some 1
  | .hA1 => some 2
  | .hA2 => some 3
  | _ => none

/-- From after `W_0` to before the end of `W_6` (R316). -/
def writing (q : Seq) : Bool :=
  q ∈ [Seq.w1, .w2, .w3, .w4, .w5, .w6]

/-- Inside one turn of the chunk loop (R308). -/
def inChunk (q : Seq) : Bool :=
  q ∈ [Seq.w2, .w3, .w4, .w5]

/-- The requester that holds the bus in a state (R34, R144, R304). -/
def ownerIn (c : Cfg) (s : State) : Owner :=
  match s.seq with
  | .pOp | .pRd | .pDes => .poll
  | .hOp | .hA0 | .hA1 | .hA2 => (ownerOf c s.cop).getD .none
  | .ep2 | .es2 => .erase
  | .w3 => .fill
  | .w5 => .commit
  | .r2 | .r3 => .read
  | .g1 | .g2 => .diagId
  | .g4 | .g5 | .g6 => .diagSr
  | _ => .none

/-- The chunk arithmetic of R196: what has been sent and what is left make up `SIZE`; a chunk starts at a multiple of
264, has length `min(rem, 264)`, and goes to the page `PAGE` plus its number, modulo 2^16. -/
structure ChunkInv (s : State) : Prop where
  total : s.idx.toNat + s.rem.toNat = s.size.toNat
  base : s.rem ≠ 0#16 → s.idx.toNat % pageSize = 0
  page : s.cur = s.page + BitVec.ofNat 16 ((s.idx.toNat + (pageSize - 1)) / pageSize)
  length : inChunk (resumesAt s) = true → s.rem ≠ 0#16 ∧ s.n = chunkLength s.rem
  ended : resumesAt s = .w6 → s.rem = 0#16

/-- The invariant of the machine. -/
structure Inv (s : State) : Prop where
  /-- the constraints on the configuration (R6) -/
  cfg : s.cfg.valid = true
  /-- `seq = IDLE` exactly when `BUSY = 0` (R24) -/
  busy : s.busy = decide (s.seq ≠ .idle)
  /-- chip-select is asserted exactly in the states of R313 -/
  cs : s.cs = selectedIn s.seq
  /-- the bus owner, `NONE` exactly when `cs = 0` (R34, R144) -/
  own : s.own = ownerIn s.cfg s
  /-- the chip has an open frame exactly while it is selected (R82) -/
  frame : s.dev.frame.isSome = s.cs
  /-- write-protect is de-asserted exactly inside a WRITE (R316) -/
  wp : s.wp = !writing (resumesAt s)
  /-- the chip's reset line is asserted exactly during INIT's pulse (R305) -/
  rst : s.rst = decide (s.seq = .iDly ∨ s.seq = .iRst0)
  /-- the poll subroutine returns to a state that entered it (R303) -/
  ret : inPoll s.seq = true → isPollReturn s.ret = true
  /-- the header subroutine carries the opcode of the state it returns to (R304) -/
  hret : inHeader s.seq = true → headerOpcode s.cfg s.hret = some s.cop
  /-- a header that opens a session starts its byte counter at 0 (R308, R309) -/
  hcnt : inHeader s.seq = true → s.hret = .w3 ∨ s.hret = .r2 → s.cnt = 0
  /-- the header's bytes go out one a state (R304) -/
  hbytes : ∀ sent, headerSentIn s.seq = some sent → frameBytes s = sent
  /-- the chunk loop (R196, R308) -/
  chunk : writing (resumesAt s) = true → ChunkInv s
  /-- the counted loops stay within their bounds (R312) -/
  fill : s.seq = .w3 → s.cnt.toNat ≤ s.n.toNat
  dummies : s.seq = .r2 → dummiesSent s ≤ s.cfg.nReadDummy
  /-- in `R_2` the transaction has carried the header and the dummies, and `cnt` counts them in 16 bits (R309, log 12) -/
  dummyBytes : s.seq = .r2 → frameBytes s = 4 + dummiesSent s
  dummyCnt : s.seq = .r2 → s.cnt = BitVec.ofNat 16 (dummiesSent s)
  data : s.seq = .r3 → s.cnt.toNat ≤ s.size.toNat
  identity : s.seq = .g2 → s.k.toNat ≤ 4
  /-- the memories keep their canonical form -/
  hbuf : s.hbuf.wf
  array : s.dev.array.wf
  buf1 : s.dev.buf1.wf

/-! ## The grammar of the bus -/

/-- Where the bus is, read off the events so far. -/
inductive Phase where
  /-- de-selected -/
  | quiet
  /-- selected, no byte exchanged yet -/
  | opening
  /-- selected, the opcode has been sent -/
  | inside
  deriving DecidableEq, Repr

/-- What an event does to the phase: chip-select edges alternate, a frame opens with one of the seven emitted opcodes
and has at least that byte, data moves only inside a frame, and the control lines move only outside (R110, R143). -/
def advance (c : Cfg) : Option Phase → Event → Option Phase
  | some .quiet, .sel => some .opening
  | some .opening, .x out _ => if out ∈ c.emitted then some .inside else none
  | some .inside, .x _ _ => some .inside
  | some .inside, .hrd _ _ => some .inside
  | some .inside, .hwr _ _ => some .inside
  | some .inside, .des => some .quiet
  | some .quiet, .wp _ => some .quiet
  | some .quiet, .rst _ => some .quiet
  | some .quiet, .delay _ => some .quiet
  | _, _ => none

/-- The phase after a whole trace; `none` if the trace breaks the grammar. -/
def phaseOf (c : Cfg) (trace : List Event) : Option Phase :=
  trace.foldl (advance c) (some .quiet)

/-- The phase each sequencer state stands for. -/
def phaseIn (q : Seq) : Phase :=
  if selectedIn q then
    if q ∈ [Seq.pOp, .hOp, .g1, .g4] then .opening else .inside
  else .quiet

/-! ## What a trace says -/

/-- The bytes the controller sent, in order: a frame's bytes between its `SEL` and its `DES` (R104). -/
def sentBytes (events : List Event) : List Byte :=
  events.filterMap fun e => match e with
    | .x out _ => some out
    | _ => none

/-- The bytes that came back, in order. -/
def receivedBytes (events : List Event) : List Byte :=
  events.filterMap fun e => match e with
    | .x _ inp => some inp
    | _ => none

/-- An event with the byte that came back blanked: what the controller itself decides. -/
def unanswered : Event → Event
  | .x out _ => .x out 0
  | e => e

/-- The events of a header, unanswered (R150). -/
def headerEvents (op : Byte) (a : Addr) : List Event :=
  [.sel, .x op 0, .x a.a0 0, .x a.a1 0, .x a.a2 0]

/-- The four events of one status read, with the discarded byte and the status byte that came back (R170). -/
def pollEvents (c : Cfg) (answers : Byte × Byte) : List Event :=
  [.sel, .x c.opReadStatus answers.1, .x c.dummyOut answers.2, .des]

/-- The events of `m` status reads, unanswered. -/
def pollsEvents (c : Cfg) (m : Nat) : List Event :=
  (List.replicate m (pollEvents c (0, 0))).flatten

/-- The number of chunks of a WRITE: `ceil(SIZE / 264)` (R196). -/
def chunkCount (size : Nat) : Nat :=
  (size + (pageSize - 1)) / pageSize

/-- The length of chunk `j`: `min(SIZE − 264·j, 264)` (R196). -/
def chunkSize (size j : Nat) : Nat :=
  min (size - pageSize * j) pageSize

/-- The fill transaction of chunk `j`, unanswered: the header with address `[0, 0, 0]`, then every byte of the chunk read
from the host buffer and sent, then `DES` (R190 to R192, R194). -/
def fillEvents (s : State) (j : Nat) : List Event :=
  headerEvents s.cfg.opBuf1Write ⟨0, 0, 0⟩ ++
    (List.range (chunkSize s.size.toNat j)).flatMap (fun i =>
      let index := BitVec.ofNat 16 (pageSize * j + i)
      [.hrd index (hostByte s index), .x (hostByte s index) 0]) ++
    [.des]

/-- The commit transaction of chunk `j`, unanswered: to page `trunc_16(PAGE + j)` (R193, R196). -/
def commitEvents (s : State) (j : Nat) : List Event :=
  headerEvents s.cfg.opBuf1CommitErase (encodeAddr (s.page + BitVec.ofNat 16 j) 0) ++ [.des]

/-! ## The chip's memories -/

/-- Byte `j` of buffer 1. -/
def bufferByte (d : Dev) (j : Nat) : Byte :=
  d.buf1.read .buffer1 d.buf1Epoch j

/-- Two chips hold the same bytes everywhere in the array. -/
def sameArray (d e : Dev) : Prop :=
  ∀ p o, e.arrayByte? p o = d.arrayByte? p o

/-- The array byte at a place that exists is one of a draw made since the chip was `d`: any value (U14). -/
def drawnAnew (d e : Dev) (p o : Nat) : Prop :=
  ∃ epoch, d.epochs ≤ epoch ∧ e.arrayByte? p o = some (Config.blankByte .mainArray epoch (linear p o))

/-- Two chips hold the same bytes everywhere in buffer 1. -/
def sameBuffer (d e : Dev) : Prop :=
  ∀ j, bufferByte e j = bufferByte d j

/-- A defined chip that is ready: what an INIT leaves, and what a completed wait finds (R92, R91). -/
def readyChip (d : Dev) : Prop :=
  d.mode = .known ∧ d.busy = false

/-! ## Runs -/

/-- `k` steps of the machine, ended by a fault or a refusal: `Host.Core.run` of the core
(`Laws/Ops.lean`, `run_eq_core_run`). -/
def run : Nat → State → Result
  | 0, s => .next s
  | k + 1, s => andThen (step s) (run k)

/-- Some number of steps leads from one state to another. -/
def Reaches (s t : State) : Prop :=
  ∃ k, run k s = .next t

/-- The end of a host command: `BUSY = 0` in `IDLE`; the return registers hold what the command left in them. -/
def idleWith (ret hret : Seq) (t : State) : State :=
  { t with busy := false, seq := .idle, ret := ret, hret := hret }

/-- The six host commands (R102). -/
def isCommand (i : Instr) : Bool :=
  i ∈ [Instr.init, .erasePage, .eraseSector, .write, .read, .diagnose]

/-- The controller at rest, with nothing scheduled: where a host may issue a command (R24, R274). -/
structure AtRest (s : State) : Prop where
  /-- the constraints on the configuration (R6) -/
  cfg : s.cfg.valid = true
  busy : s.busy = false
  seq : s.seq = .idle
  cs : s.cs = false
  moves : s.moves = []

/-- Two states that differ at most in the working registers and in the results that no command reads: `sr`, `ret`, `hret`,
`cop`, `A`, `cur`, `idx`, `rem`, `n`, `cnt`, `k`, `own`, `DIAG_OK` and `ID` (R21). -/
def sameButWorking (s t : State) : Prop :=
  { t with
    sr := s.sr, ret := s.ret, hret := s.hret, cop := s.cop, addr := s.addr, cur := s.cur, idx := s.idx,
    rem := s.rem, n := s.n, cnt := s.cnt, k := s.k, own := s.own, diagOk := s.diagOk,
    id := s.id } = s

/-- A schedule of the controller and the chip alone: no host step, no reset, no foreign frame. -/
def undisturbed (ms : List Move) : Prop :=
  ∀ m ∈ ms, m = .controller ∨ m = .chipReady

/-! ## Fairness -/

/-- A schedule without end: whose move comes at each moment (R11, R91). -/
abbrev Schedule := Nat → Move

/-- The first `k` moves of a schedule, made by the machine. -/
def runUnder (schedule : Schedule) (k : Nat) (s : State) : Result :=
  run k { s with moves := (List.range k).map schedule }

/-- The controller is not held up for ever. -/
def fairController (schedule : Schedule) : Prop :=
  ∀ k, ∃ j, k ≤ j ∧ schedule j = .controller

/-- A healthy chip (R91, R284): a busy one becomes ready after a time without bound, whenever it became busy. It is a
fairness assumption on the chip's own moves and no count of polls; a move that finds the chip ready changes nothing. -/
def healthyChip (schedule : Schedule) : Prop :=
  ∀ k, ∃ j, k ≤ j ∧ schedule j = .chipReady

/-- A dead chip (R91, R173): from some moment on it never becomes ready. -/
def deadChip (schedule : Schedule) : Prop :=
  ∃ k, ∀ j, k ≤ j → schedule j ≠ .chipReady

end Sys2Proof.Safety
end

