-- ==== Sys2Proof/Certificates/Slice0/Obligations.lean ====
section
/-! DEFINITION. The statements for the provers, in the order of spec/: encodings, the step, the host side, the bus, the
frames and what the chip does with them, the sequencer's tables, and the properties of the whole machine. -/

open Sys2Proof Sys2Proof.Machine Sys2Proof.Safety

/-! ## The address codec (41_address_codec.md) -/

/-- R160, R166: the three bytes of an encoded address, for every pair of 16-bit inputs, and the document's two worked
encodings. -/
def Obligations.EncodeAddrComponents : Prop :=
  (∀ page offset : Word,
    (encodeAddr page offset).a0.toNat = page.toNat / 128 % 256 ∧
    (encodeAddr page offset).a1.toNat = (page.toNat * 2 ||| offset.toNat / 256) % 256 ∧
    (encodeAddr page offset).a2.toNat = offset.toNat % 256) ∧
  encodeAddr 1 0 = ⟨0x00, 0x02, 0x00⟩ ∧ encodeAddr 128 0 = ⟨0x01, 0x00, 0x00⟩

/-- R161 (the spec's own inference from R160): the three bytes together are `trunc_24((page << 9) | byte_offset)`; for
a valid logical address the OR is disjoint, bits 23:21 are zero, bits 20:9 are the page and bits 8:0 the offset. -/
def Obligations.EncodeAddrIsShiftedPageOrOffset : Prop :=
  ∀ page offset : Word,
    addrBits (encodeAddr page offset) = (page.setWidth 24 <<< 9) ||| offset.setWidth 24 ∧
    (page.toNat < totalPages → offset.toNat < pageSize →
      (page.setWidth 24 <<< 9) &&& offset.setWidth 24 = 0#24 ∧
      (addrBits (encodeAddr page offset)).extractLsb' 21 3 = 0#3 ∧
      addrPage (encodeAddr page offset) = page.toNat ∧
      addrOffset (encodeAddr page offset) = offset.toNat ∧
      (offset >>> 8 = 0#16 ∨ offset >>> 8 = 1#16))

/-- R162 (the spec's own inference from R160): on the valid range equal results come from equal inputs only; the
inverse reads the page and the offset back from the three bytes; and the valid range has 4096 × 264 distinct results.
-/
def Obligations.EncodeAddrInjectiveOnGeometry : Prop :=
  (∀ page offset page' offset' : Word,
    page.toNat < totalPages → offset.toNat < pageSize →
    page'.toNat < totalPages → offset'.toNat < pageSize →
    encodeAddr page offset = encodeAddr page' offset' → page = page' ∧ offset = offset') ∧
  (∀ page offset : Word, page.toNat < totalPages → offset.toNat < pageSize →
    page = ((encodeAddr page offset).a0.extractLsb' 0 5 ++ (encodeAddr page offset).a1.extractLsb' 1 7).setWidth 16 ∧
    offset = ((encodeAddr page offset).a1.extractLsb' 0 1 ++ (encodeAddr page offset).a2).setWidth 16) ∧
  ((Finset.univ : Finset (Fin totalPages × Fin pageSize)).image fun x =>
    encodeAddr (BitVec.ofNat 16 x.1) (BitVec.ofNat 16 x.2)).card = 1081344

/-- R163: what out-of-range inputs alias to: page bit 15 is lost, page bits 14:12 become address bits 23:21, offset
bits 15:9 are OR-ed onto the page bits of `A[1]`, and an offset of 264 to 511 with a valid page keeps its page and
gives an offset field that names no byte of it. -/
def Obligations.EncodeAddrAliases : Prop :=
  (∀ page offset : Word, encodeAddr (page + 32768#16) offset = encodeAddr page offset) ∧
  (∀ page offset : Word, (addrBits (encodeAddr page offset)).extractLsb' 21 3 = page.extractLsb' 12 3) ∧
  (∀ page offset : Word,
    (encodeAddr page offset).a1.extractLsb' 1 7 = page.extractLsb' 0 7 ||| offset.extractLsb' 9 7) ∧
  (∀ page offset : Word, page.toNat < totalPages → pageSize ≤ offset.toNat → offset.toNat < 512 →
    addrPage (encodeAddr page offset) = page.toNat ∧ addrOffset (encodeAddr page offset) = offset.toNat) ∧
  encodeAddr 0 512 = ⟨0x00, 0x02, 0x00⟩ ∧ encodeAddr 1 0 = ⟨0x00, 0x02, 0x00⟩

/-- R184 (the spec's own inference from R182 and R160): the sector's page number never overflows; its address is
`[trunc_8(SECTOR << 1), 0, 0]`; `SECTOR ≥ 128` aliases to `SECTOR − 128`; sectors 1 to 15 are in the geometry and 16
and up are not; a multiple of 16 carries the chip's address bits of sector 0, and only the literal value 0 is refused.
-/
def Obligations.SectorAddressArithmetic : Prop :=
  ∀ sector : Byte,
    (sectorPage sector).toNat = sector.toNat * 256 ∧
    encodeAddr (sectorPage sector) 0 = ⟨sector <<< 1, 0, 0⟩ ∧
    encodeAddr (sectorPage (sector + 128#8)) 0 = encodeAddr (sectorPage sector) 0 ∧
    ((sectorPage sector).toNat < totalPages ↔ sector.toNat < 16) ∧
    addrSector (encodeAddr (sectorPage sector) 0) = sector.toNat % 16 ∧
    (sectorRefused sector = true ↔ sector = 0#8) ∧
    encodeAddr (sectorPage 128#8) 0 = ⟨0x00, 0x00, 0x00⟩ ∧
    encodeAddr (sectorPage 16#8) 0 = ⟨0x20, 0x00, 0x00⟩

/-! ## The instruction encodings (30_encoding.md) -/

/-- R102 (the codes are the spec's own decision D2), R104, R108: decoding an encoded well-formed instruction gives it
back, for every constructor, every operand value and every configuration that meets the constraints of R6. -/
def Obligations.DecodeOfEncode : Prop :=
  ∀ (c : Cfg) (i : Instr), c.valid = true → i.wf = true → decode c (encode c i) = .ok i

/-- R102 (decision D2) to R105: a code the decoder takes is the encoding of the instruction it names, which is
well-formed: every code has one meaning, and a reserved or wrong-length code has none. -/
def Obligations.EncodeOfDecode : Prop :=
  ∀ (c : Cfg) (code : Code) (i : Instr), decode c code = .ok i → encode c i = code ∧ i.wf = true

/-- Words of the opcode table, written out from R102 and R104 with the family's opcodes (PRESUMED, log 2): each
decodes to its row's instruction. -/
def Obligations.TableWordsDecode : Prop :=
  decodeTableWord 8 0x01 = some .init ∧
  decodeTableWord 8 0x05 = some .read ∧
  decodeTableWord 8 0x07 = some (.reservedHostCode 0x07) ∧
  decodeTableWord 16 0x00D7 = some .statusRead ∧
  decodeTableWord 40 0x9F = some .idRead ∧
  decodeTableWord 32 0x00140083 = some (.buf1CommitErase ⟨0x00, 0x14, 0x00⟩) ∧
  decodeTableWord 40 0xAB00000084 = some (.buf1Write ⟨0, 0, 0⟩ [0xAB]) ∧
  decodeTableWord 32 0x24040003 = some (.arrayRead ⟨0x00, 0x04, 0x24⟩ 0)

/-! ## The step -/

/-- A step runs the decoded instruction: a host write to `CMD` at rest runs `exec` of the instruction its low byte
decodes to, a frame placed at rest runs `exec` of the instruction it decodes to, the move being taken off the list and
nothing else; a table word placed by `withFetchWord` runs as `exec` at the state itself; and with no move left the
step is the sequencer's (R301). The moves are the model's (log 10). -/
def Obligations.StepRunsDecodedInstruction : Prop :=
  ∀ (s : State) (i : Instr),
    (∀ v rest, s.moves = .host (.write 0 v) :: rest → s.busy = false →
      decode s.cfg (.host (v.setWidth 8)) = .ok i → step s = exec i { s with moves := rest }) ∧
    (∀ bytes rest, s.moves = .frame bytes :: rest → s.busy = false →
      decode s.cfg (.frame bytes) = .ok i → step s = exec i { s with moves := rest }) ∧
    (∀ nbits w, s.busy = false → decode s.cfg (tableCode s.cfg nbits w) = .ok i →
      step (s.withFetchWord nbits w) = exec i s) ∧
    (s.moves = [] → step s = seqStep s)

/-! ## The host side (10_state.md, 30_encoding.md) -/

/-- R101, R302 (the spec's own decision D2): while `BUSY = 0` a write of a command's code to `CMD` is accepted: `BUSY
<- 1` and `seq` leaves `IDLE` for the command's first state in the same step, and nothing else changes; `exec` of the
command is that step. Without a write `IDLE` does nothing, and `DONE` ends the command. -/
def Obligations.HostCommandAccepted : Prop :=
  (∀ (s : State) (code : Byte) (i : Instr) (first : Machine.Seq),
    (code, i, first) ∈ [(1#8, Instr.init, Seq.iWp), (2#8, .erasePage, .ep0), (3#8, .eraseSector, .es0),
      (4#8, .write, .w0), (5#8, .read, .r0), (6#8, .diagnose, .g0)] →
    s.busy = false →
    exec i s = .next { s with busy := true, seq := first } ∧
    ∀ v : Word, v.setWidth 8 = code → hostStep (.write 0 v) s = exec i s) ∧
  (∀ s : State, s.moves = [] → s.seq = .idle → step s = .next s) ∧
  (∀ s : State, s.moves = [] → s.seq = .done → step s = .next { s with busy := false, seq := .idle })

/-- R103 (the spec's own decision D7): a write of `0x00` or `0x07` to `0xFF` to `CMD` while `BUSY = 0` changes no
state and emits no event. -/
def Obligations.ReservedCodeIgnored : Prop :=
  ∀ (s : State) (v : Word), s.busy = false → v.setWidth 8 = 0#8 ∨ 7 ≤ (v.setWidth 8 : Byte).toNat →
    hostStep (.write 0 v) s = .next s ∧ exec (.reservedHostCode (v.setWidth 8)) s = .next s

/-- R31 (the spec's own decisions D5 and D6): while `BUSY = 0` the host may use every register by its access column;
while `BUSY = 1` it may read `STATUS`, and every write and every other read is a refused host step; and no step but
the controller's reset changes an argument register while `BUSY = 1`. -/
def Obligations.HostAccessRule : Prop :=
  (∀ (s : State) (n : Nat) (v : Word), s.busy = false → n ≤ 4 → ∃ t, hostStep (.write n v) s = .next t) ∧
  (∀ (s : State) (n : Nat), s.busy = false → 1 ≤ n → n ≤ 9 → ∃ t, hostStep (.read n) s = .next t) ∧
  (∀ s : State, ∃ t, hostStep (.read 5) s = .next t) ∧
  (∀ (s : State) (n : Nat) (v : Word), s.busy = true →
    hostStep (.write n v) s = .refused .hostAccessWhileBusy) ∧
  (∀ (s : State) (n : Nat), s.busy = true → n ≠ 5 → hostStep (.read n) s = .refused .hostAccessWhileBusy) ∧
  (∀ s t : State, s.busy = true → s.moves.head? ≠ some .reset → step s = .next t →
    t.page = s.page ∧ t.offset = s.offset ∧ t.size = s.size ∧ t.sector = s.sector)

/-- R30, with the fields of R29 (the spec's own decision D1). A read of `STATUS`, at any time, returns `BUSY` in bit 0,
`DIAG_OK` in bit 1 and zero elsewhere (R26, R29, R31). The other numbered accesses, while `BUSY = 0`: a write
stores the low bits of the field's width in its register and changes nothing else; a read returns the field and zero
in every bit that is not listed, and changes nothing but the record of what was read; a read of `CMD` returns some
value; numbers 10 and up are refused. -/
def Obligations.RegisterMap : Prop :=
  (∀ s : State, ∃ v : Word, hostStep (.read 5) s = .next { s with reads := s.reads ++ [.reg 5 v] } ∧
    v.getLsbD 0 = s.busy ∧ v.getLsbD 1 = s.diagOk ∧ ∀ i, 2 ≤ i → v.getLsbD i = false) ∧
  ∀ s : State, s.busy = false →
    (∀ v, hostStep (.write 1 v) s = .next { s with page := v }) ∧
    (∀ v, hostStep (.write 2 v) s = .next { s with offset := v }) ∧
    (∀ v, hostStep (.write 3 v) s = .next { s with size := v }) ∧
    (∀ v, hostStep (.write 4 v) s = .next { s with sector := v.setWidth 8 }) ∧
    (∀ n v, (n, v) ∈ [(1, s.page), (2, s.offset), (3, s.size), (4, s.sector.setWidth 16),
        (6, s.id.b0.setWidth 16), (7, s.id.b1.setWidth 16), (8, s.id.b2.setWidth 16), (9, s.id.b3.setWidth 16)] →
      hostStep (.read n) s = .next { s with reads := s.reads ++ [.reg n v] }) ∧
    (∃ (v : Word) (t : State), hostStep (.read 0) s = .next t ∧ t.reads = s.reads ++ [.reg 0 v] ∧
      { t with reads := s.reads, answers := s.answers, draws := s.draws } = s) ∧
    (∀ n v, 10 ≤ n → hostStep (.write n v) s = .refused (.noSuchRegister n) ∧
      hostStep (.read n) s = .refused (.noSuchRegister n))

/-- R61 (the spec's own decision D4), R77 (D5), R241: at any time a host store at an index of its buffer completes,
changes nothing else, keeps the canonical form of the buffer (the model's, log 5), and is read there; a fill step that
reads the index afterwards sends the new byte. A host read always completes and changes only the record of reads and
the free answers; it returns the byte that stands there, but for a byte that a READ in progress delivers, where the
value is open (R217, log 23). -/
def Obligations.HostBufferAccess : Prop :=
  (∀ (s : State) (i : Word) (v : Byte), s.hbuf.wf →
    ∃ t, hostStep (.bufWrite i v) s = .next t ∧ t.hbuf.wf ∧ hostByte t i = v ∧
      (∀ j, j ≠ i → hostByte t j = hostByte s j) ∧ { t with hbuf := s.hbuf } = s ∧
      (beingRead t i = false → hostStep (.bufRead i) t = .next { t with reads := t.reads ++ [.buf i v] }) ∧
      (s.seq = .w3 → s.cs = true → s.cnt.toNat < s.n.toNat → i = s.idx + s.cnt →
        ∃ u inp, seqStep t = .next u ∧ u.trace = s.trace ++ [.hrd i v, .x v inp])) ∧
  (∀ (s : State) (i : Word),
    (s.busy = false ∨ writing (resumesAt s) = true ∨ s.size.toNat ≤ i.toNat → beingRead s i = false) ∧
    ∃ v t, hostStep (.bufRead i) s = .next t ∧ t.reads = s.reads ++ [.buf i v] ∧
      { t with reads := s.reads, answers := s.answers, draws := s.draws } = s ∧
      (beingRead s i = false → v = hostByte s i ∧ t.answers = s.answers ∧ t.draws = s.draws))

/-- The canonical form of a memory (the model's own, log 5): a write keeps it, and two memories in it that record the
same bytes at the same addresses are equal data. -/
def Obligations.MemoryIsCanonical : Prop :=
  (∀ (m : Memory) (x : Nat) (v : Byte), m.wf → (m.write x v).wf) ∧
  (∀ (m : Memory) (x : Nat) (vs : List Byte), m.wf → (m.writeRange x vs).wf) ∧
  (∀ m m' : Memory, m.wf → m'.wf → (∀ x, m.get? x = m'.get? x) → m = m')

/-! ## The bus transport (40_bus_transport.md) -/

/-- R140, R141, R142, R144, R146, R147: the primitives. The fault is the model's own (log 31): the hardware raises
none (R240). Each that has a precondition on chip-select answers a fault without it, and with it changes exactly the
named state. -/
def Obligations.BusPrimitives : Prop :=
  (∀ (s : State) (o : Owner), s.cs = false →
    select o s = .next { s with cs := true, own := o, dev := s.dev.beginFrame, trace := s.trace ++ [.sel] }) ∧
  (∀ s : State, s.cs = true →
    deselect s = .next
      { s with cs := false, own := .none, dev := s.dev.endFrame s.cfg s.wp, trace := s.trace ++ [.des] }) ∧
  (∀ (s : State) (out : Byte) (k : Byte → State → Result), s.cs = true →
    ∃ (inp : Byte) (t : State), xfer out s k = k inp t ∧ t.trace = s.trace ++ [.x out inp] ∧
      t.dev = s.dev.receive s.cfg out ∧
      { t with dev := s.dev, answers := s.answers, draws := s.draws, trace := s.trace } = s) ∧
  (∀ (s : State) (o : Owner), s.cs = true → select o s = .fault .selectWhileSelected) ∧
  (∀ s : State, s.cs = false → deselect s = .fault .deselectWhileDeselected) ∧
  (∀ (s : State) (out : Byte) (k : Byte → State → Result), s.cs = false →
    xfer out s k = .fault .xferWhileDeselected) ∧
  (∀ (s : State) (b : Bool), setWp b s = { s with wp := b, trace := s.trace ++ [.wp b] }) ∧
  (∀ (s : State) (b : Bool), (setRst b s).trace = s.trace ++ [.rst b] ∧ (setRst b s).rst = b ∧
    { setRst b s with rst := s.rst, dev := s.dev, trace := s.trace } = s) ∧
  (∀ (s : State) (ms : Nat), delayMs ms s = { s with trace := s.trace ++ [.delay ms] })

/-- R150 (the byte order is the spec's own decision D11): a header opens the transaction and sends the opcode and the
three address bytes, most significant first; the returned bytes are discarded, and the transaction stays open. That a
frame run by itself writes the working registers as the sequencer does is the model's (log 21). -/
def Obligations.HeaderSendsOpcodeAndAddress : Prop :=
  ∀ (s : State) (op : Byte) (a : Addr) (o : Owner), s.cs = false →
    ∃ (t : State) (b0 b1 b2 b3 : Byte), header op a o s = .next t ∧
      t.trace = s.trace ++ [.sel, .x op b0, .x a.a0 b1, .x a.a1 b2, .x a.a2 b3] ∧
      t.cs = true ∧ t.own = o ∧ t.cop = op ∧ t.addr = a ∧
      { t with
        cs := s.cs, own := s.own, cop := s.cop, addr := s.addr, dev := s.dev, answers := s.answers,
        draws := s.draws, trace := s.trace } = s

/-! ## The bus frames (30_encoding.md R104) -/

/-- R104, R105: each of the seven emitted frames completes whenever chip-select is not asserted; it is one
transaction, opened by `SEL` and closed by `DES`, in which the bytes sent are exactly the instruction's encoding, one
byte coming back for each. -/
def Obligations.FrameSendsItsEncoding : Prop :=
  ∀ (s : State) (i : Instr) (bytes : List Byte), s.cs = false →
    (i = .statusRead ∨ i = .idRead ∨ (∃ a, i = .pageErase a) ∨ (∃ a, i = .sectorErase a) ∨
      (∃ a data, i = .buf1Write a data) ∨ (∃ a, i = .buf1CommitErase a) ∨ ∃ a size, i = .arrayRead a size) →
    encode s.cfg i = .frame bytes →
    ∃ (t : State) (inside : List Event), exec i s = .next t ∧ t.trace = s.trace ++ .sel :: inside ++ [.des] ∧
      .sel ∉ inside ∧ .des ∉ inside ∧
      sentBytes inside = bytes ∧ (receivedBytes inside).length = bytes.length ∧ t.cs = false ∧ t.own = .none

/-- R170, R171, with the frame: a status read is always four events, latches the second returned byte in `sr`, and
that byte's bit 7 alone decides readiness; it changes no other register, line or memory of the controller. -/
def Obligations.StatusReadResultAndFrame : Prop :=
  ∀ s : State, s.cs = false →
    ∃ (t : State) (a v : Byte), exec .statusRead s = .next t ∧
      t.trace = s.trace ++ [.sel, .x s.cfg.opReadStatus a, .x s.cfg.dummyOut v, .des] ∧
      t.sr = v ∧ (readyBit t.sr = true ↔ v.getLsbD 7 = true) ∧
      { t with sr := s.sr, dev := s.dev, answers := s.answers, draws := s.draws, trace := s.trace } =
        { s with own := .none }

/-- R220, with the frame: an identity read is always seven events and latches the four returned bytes in `ID[0..3]` in
the order received; it changes no other register but `k`, and no line or memory of the controller. -/
def Obligations.IdReadResultAndFrame : Prop :=
  ∀ s : State, s.cs = false →
    ∃ (t : State) (a i0 i1 i2 i3 : Byte), exec .idRead s = .next t ∧
      t.trace = s.trace ++ [.sel, .x s.cfg.opReadId a, .x s.cfg.dummyOut i0, .x s.cfg.dummyOut i1,
        .x s.cfg.dummyOut i2, .x s.cfg.dummyOut i3, .des] ∧
      t.id = ⟨i0, i1, i2, i3⟩ ∧
      { t with
        id := s.id, k := s.k, dev := s.dev, answers := s.answers, draws := s.draws, trace := s.trace } =
        { s with own := .none }

/-- R84, R85, R82: on `DEV`, busy or ready, the status byte's bit 7 is `not busy` and its other bits are `stat6`, and
an identity read returns `ident[0]` to `ident[3]` in that order (that it answers while busy is the spec's own choice,
D22); neither frame changes anything of the chip. -/
def Obligations.StatusAndIdentityOnTheChip : Prop :=
  ∀ s : State, s.cfg.valid = true → s.cs = false → s.dev.mode = .known →
    (∃ t, exec .statusRead s = .next t ∧ t.sr.getLsbD 7 = !s.dev.busy ∧
      (∀ i, i < 7 → t.sr.getLsbD i = s.dev.stat6.getLsbD i) ∧
      { t.dev with ignored := s.dev.ignored } = { s.dev with frame := none }) ∧
    (∃ t, exec .idRead s = .next t ∧ t.id = s.dev.ident ∧
      { t.dev with ignored := s.dev.ignored } = { s.dev with frame := none })

/-- R104, R148, with the frame: PAGE_ERASE, SECTOR_ERASE and BUF1_COMMIT_ERASE are the six events of format FA; no
returned byte is kept, and no register but `cop` and `A`, no line and no memory of the controller changes. That a
frame run by itself writes the working registers as the sequencer does is the model's (log 21). -/
def Obligations.AddressFrameEventsAndFrame : Prop :=
  ∀ (s : State) (a : Addr) (i : Instr) (op : Byte), s.cs = false →
    (i, op) ∈ [(Instr.pageErase a, s.cfg.opPageErase), (.sectorErase a, s.cfg.opSectorErase),
      (.buf1CommitErase a, s.cfg.opBuf1CommitErase)] →
    ∃ (t : State) (b0 b1 b2 b3 : Byte), exec i s = .next t ∧
      t.trace = s.trace ++ [.sel, .x op b0, .x a.a0 b1, .x a.a1 b2, .x a.a2 b3, .des] ∧
      t.cop = op ∧ t.addr = a ∧
      { t with
        cop := s.cop, addr := s.addr, dev := s.dev, answers := s.answers, draws := s.draws, trace := s.trace } =
        { s with own := .none }

/-- R190 to R192, R148, with the frame: BUF1_WRITE sends its header and its data bytes in order, and no returned byte
is kept; no register but `cop`, `A` and the counter `cnt`, no line and no memory of the controller changes. That a
frame run by itself writes the working registers as the sequencer does is the model's (log 21). -/
def Obligations.BufferWriteEventsAndFrame : Prop :=
  ∀ (s : State) (a : Addr) (data : List Byte), s.cs = false →
    ∃ (t : State) (new : List Event), exec (.buf1Write a data) s = .next t ∧ t.trace = s.trace ++ new ∧
      new.map unanswered = headerEvents s.cfg.opBuf1Write a ++ data.map (fun b => .x b 0) ++ [.des] ∧
      t.cop = s.cfg.opBuf1Write ∧ t.addr = a ∧ t.cnt = BitVec.ofNat 16 data.length ∧
      { t with
        cop := s.cop, addr := s.addr, cnt := s.cnt, dev := s.dev, answers := s.answers, draws := s.draws,
        trace := s.trace } = { s with own := .none }

/-- R86: on a ready `DEV` the data bytes go to buffer 1 from the address's byte-offset field on, every other byte of
the buffer and the whole array keep their values, and the chip stays ready. -/
def Obligations.BufferWriteOnTheChip : Prop :=
  ∀ (s : State) (a : Addr) (data : List Byte), s.cfg.valid = true → s.cs = false → readyChip s.dev →
    addrOffset a + data.length ≤ pageSize →
    ∃ t, exec (.buf1Write a data) s = .next t ∧ readyChip t.dev ∧ t.dev.frame = none ∧
      (∀ j b, data[j]? = some b → bufferByte t.dev (addrOffset a + j) = b) ∧
      (∀ j, j < addrOffset a ∨ addrOffset a + data.length ≤ j → bufferByte t.dev j = bufferByte s.dev j) ∧
      sameArray s.dev t.dev ∧ t.dev.pending = s.dev.pending

/-- R210 to R214, R104, with the frame: ARRAY_READ sends its header, the dummies and `size` dummy bytes; the last
`size` returned bytes go unchanged to `HBUF[0 .. size-1]` in ascending order, each with its event; no other byte of
the host buffer, no register but `cop`, `A` and `cnt`, and no line changes. That a frame run by itself writes the
working registers as the sequencer does is the model's (log 21). -/
def Obligations.ArrayReadEventsAndFrame : Prop :=
  ∀ (s : State) (a : Addr) (size : Word), s.cs = false →
    ∃ (t : State) (b0 b1 b2 b3 : Byte) (discarded kept : List Byte),
      exec (.arrayRead a size) s = .next t ∧
      discarded.length = s.cfg.nReadDummy ∧ kept.length = size.toNat ∧
      t.trace = s.trace ++ [.sel, .x s.cfg.opArrayRead b0, .x a.a0 b1, .x a.a1 b2, .x a.a2 b3] ++
        discarded.map (fun v => .x s.cfg.dummyOut v) ++
        kept.zipIdx.flatMap (fun v => [.x s.cfg.dummyOut v.1, .hwr (BitVec.ofNat 16 v.2) v.1]) ++ [.des] ∧
      (∀ i v, kept[i]? = some v → hostByte t (BitVec.ofNat 16 i) = v) ∧
      (∀ i : Word, size.toNat ≤ i.toNat → hostByte t i = hostByte s i) ∧
      t.cop = s.cfg.opArrayRead ∧ t.addr = a ∧ t.cnt = size ∧
      { t with
        cop := s.cop, addr := s.addr, cnt := s.cnt, hbuf := s.hbuf, dev := s.dev, answers := s.answers,
        draws := s.draws, trace := s.trace } = { s with own := .none }

/-- R90, R215: on a ready `DEV`, a read that starts at a byte of a page and stays inside the array returns the bytes
at the linear positions from its start on, across page boundaries, and changes nothing of the chip but its pointer. -/
def Obligations.ArrayReadOnTheChip : Prop :=
  ∀ (s : State) (a : Addr) (size : Word), s.cfg.valid = true → s.cs = false → readyChip s.dev →
    addrOffset a < pageSize → linear (addrPage a) (addrOffset a) + size.toNat ≤ totalPages * pageSize →
    ∃ t, exec (.arrayRead a size) s = .next t ∧
      (∀ i, i < size.toNat →
        s.dev.arrayByte? ((linear (addrPage a) (addrOffset a) + i) / pageSize)
          ((linear (addrPage a) (addrOffset a) + i) % pageSize) = some (hostByte t (BitVec.ofNat 16 i))) ∧
      { t.dev with ignored := s.dev.ignored, ptr := s.dev.ptr } = { s.dev with frame := none }

/-- R88, R91, R95: a page erase on a ready `DEV` that write-protect does not block leaves the array as it was and the
chip busy; when the chip completes, page `p` (address bits 20:9) is all ones, every other byte of the array and all of
buffer 1 are as they were, and the chip is ready. -/
def Obligations.PageEraseOnTheChip : Prop :=
  ∀ (s : State) (a : Addr), s.cfg.valid = true → s.cs = false → readyChip s.dev →
    (s.wp && s.cfg.blocks .erasePage (addrPage a)) = false →
    ∃ t, exec (.pageErase a) s = .next t ∧ t.dev.busy = true ∧ sameArray s.dev t.dev ∧
      readyChip (chipDone t).dev ∧ sameBuffer s.dev (chipDone t).dev ∧
      (∀ o, o < pageSize → (chipDone t).dev.arrayByte? (addrPage a) o = some 0xFF#8) ∧
      (∀ p o, p ≠ addrPage a → (chipDone t).dev.arrayByte? p o = s.dev.arrayByte? p o)

/-- R89 (the spec's own inference from R63), R91, R95: a sector erase on a ready `DEV` that write-protect does not
block leaves the chip busy; when the chip completes, pages `256·s` to `256·s + 255` (`s` = address bits 20:17) are all
ones, everything else is as it was, and the chip is ready. -/
def Obligations.SectorEraseOnTheChip : Prop :=
  ∀ (s : State) (a : Addr), s.cfg.valid = true → s.cs = false → readyChip s.dev →
    (s.wp && s.cfg.blocks .eraseSector (addrSector a)) = false →
    ∃ t, exec (.sectorErase a) s = .next t ∧ t.dev.busy = true ∧ sameArray s.dev t.dev ∧
      readyChip (chipDone t).dev ∧ sameBuffer s.dev (chipDone t).dev ∧
      (∀ p o, p / sectorPages = addrSector a → o < pageSize →
        (chipDone t).dev.arrayByte? p o = some 0xFF#8) ∧
      (∀ p o, p / sectorPages ≠ addrSector a → (chipDone t).dev.arrayByte? p o = s.dev.arrayByte? p o)

/-- R87, R91, R199: a commit on a ready `DEV` that write-protect does not block leaves the chip busy; when the chip
completes, the whole page `p` (address bits 20:9) is a copy of the whole of buffer 1 as it was at the commit, leftover
tail included, everything else is as it was, and the chip is ready. -/
def Obligations.CommitOnTheChip : Prop :=
  ∀ (s : State) (a : Addr), s.cfg.valid = true → s.cs = false → readyChip s.dev →
    (s.wp && s.cfg.blocks .program (addrPage a)) = false →
    ∃ t, exec (.buf1CommitErase a) s = .next t ∧ t.dev.busy = true ∧ sameArray s.dev t.dev ∧
      readyChip (chipDone t).dev ∧ sameBuffer s.dev (chipDone t).dev ∧
      (∀ o, o < pageSize → (chipDone t).dev.arrayByte? (addrPage a) o = some (bufferByte s.dev o)) ∧
      (∀ p o, p ≠ addrPage a → (chipDone t).dev.arrayByte? p o = s.dev.arrayByte? p o)

/-- R96 (the spec's own decision D22): a mutating frame that `WP_BLOCKS` names is ignored while write-protect is
asserted: the chip stays ready and nothing of it changes. -/
def Obligations.WriteProtectBlocksFrame : Prop :=
  ∀ (s : State) (a : Addr) (i : Instr) (kind : MutKind) (p : Nat), s.cfg.valid = true → s.cs = false →
    readyChip s.dev → s.wp = true →
    (i, kind, p) ∈ [(Instr.pageErase a, MutKind.erasePage, addrPage a),
      (.sectorErase a, .eraseSector, addrSector a), (.buf1CommitErase a, .program, addrPage a)] →
    s.cfg.blocks kind p = true →
    ∃ t, exec i s = .next t ∧ { t.dev with ignored := s.dev.ignored } = { s.dev with frame := none }

/-- R83 (the spec's own decision D22), R73: while `DEV` is busy, every frame but the status read and the identity read
is ignored: it is sent whole, and nothing of the chip changes. (The opcode byte decides: DEDUCED, log 15.) -/
def Obligations.BusyChipIgnoresFrames : Prop :=
  ∀ (s : State) (i : Instr), s.cfg.valid = true → s.cs = false → s.dev.mode = .known → s.dev.busy = true →
    ((∃ a, i = .pageErase a) ∨ (∃ a, i = .sectorErase a) ∨ (∃ a data, i = .buf1Write a data) ∨
      (∃ a, i = .buf1CommitErase a) ∨ ∃ a size, i = .arrayRead a size) →
    ∃ t, exec i s = .next t ∧ { t.dev with ignored := s.dev.ignored } = { s.dev with frame := none }

/-- R91, R72: the chip's own move comes between any two events: it changes nothing of the controller, emits no event,
makes a busy `DEV` ready with nothing pending, and leaves a chip that is not busy as it is. -/
def Obligations.ChipCompletesOnItsOwn : Prop :=
  ∀ (s : State) (rest : List Move), s.moves = .chipReady :: rest →
    ∃ t, step s = .next t ∧ { t with moves := s.moves, dev := s.dev } = s ∧ t.moves = rest ∧
      (s.dev.mode = .known → t.dev.busy = false) ∧
      (s.dev.mode = .known → s.dev.busy = true → t.dev.pending = none) ∧
      (s.dev.busy = false → t.dev = s.dev) ∧
      t.dev.frame = s.dev.frame ∧ sameBuffer s.dev t.dev

/-- R93: a frame whose opcode is none of the seven the controller emits is refused, in every state; the eight other
opcodes of the chip (R110), which have no frame format and no effect in the spec, each under a name of its own. -/
def Obligations.UnusedOpcodesRefused : Prop :=
  (∀ (s : State) (op : Byte) (rest : List Byte), op ∉ s.cfg.emitted →
    ∃ why, runMove (.frame (op :: rest)) s = .refused why) ∧
  ∀ (s : State) (rest : List Byte),
    exec (.chipErase rest) s = .refused .chipEraseNotGiven ∧
    exec (.buf2Write rest) s = .refused .buf2WriteNotGiven ∧
    exec (.buf1CommitNoerase rest) s = .refused .buf1CommitNoeraseNotGiven ∧
    exec (.pageToBuf1 rest) s = .refused .pageToBuf1NotGiven ∧
    exec (.pageToBuf2 rest) s = .refused .pageToBuf2NotGiven ∧
    exec (.powerDown rest) s = .refused .powerDownNotGiven ∧
    exec (.resume rest) s = .refused .resumeNotGiven ∧
    exec (.readSecurity rest) s = .refused .readSecurityNotGiven

/-- R75 (the spec's own inference from R73, R74 and R210): after a page erase on a ready `DEV` that write-protect does
not block, once the chip has completed, a read of any run of bytes inside that page returns `0xFF` in every byte. -/
def Obligations.EraseThenReadGivesAllOnes : Prop :=
  ∀ (s : State) (page offset size : Word), s.cfg.valid = true → s.cs = false → readyChip s.dev →
    page.toNat < totalPages → offset.toNat + size.toNat ≤ pageSize → offset.toNat < pageSize →
    (s.wp && s.cfg.blocks .erasePage page.toNat) = false →
    ∃ t u, exec (.pageErase (encodeAddr page 0)) s = .next t ∧
      exec (.arrayRead (encodeAddr page offset) size) (chipDone t) = .next u ∧
      ∀ i, i < size.toNat → hostByte u (BitVec.ofNat 16 i) = 0xFF#8

/-- R75 (the spec's own inference), R199: one page filled from buffer offset 0 and committed, once the chip has
completed, is read back: the bytes written first, then, up to the end of the page, what buffer 1 held before. -/
def Obligations.WriteCommitReadRoundTrip : Prop :=
  ∀ (s : State) (page : Word) (data : List Byte), s.cfg.valid = true → s.cs = false → readyChip s.dev →
    page.toNat < totalPages → data.length ≤ pageSize → s.wp = false →
    ∃ t u v, exec (.buf1Write (bufferAddr 0) data) s = .next t ∧
      exec (.buf1CommitErase (encodeAddr page 0)) t = .next u ∧
      exec (.arrayRead (encodeAddr page 0) (BitVec.ofNat 16 pageSize)) (chipDone u) = .next v ∧
      (∀ i b, data[i]? = some b → hostByte v (BitVec.ofNat 16 i) = b) ∧
      (∀ i, data.length ≤ i → i < pageSize → hostByte v (BitVec.ofNat 16 i) = bufferByte s.dev i)

/-! ## The sequencer's tables (48_sequencer.md) -/

/-- R303, R304: the rows of the poll subroutine and of the frame-header subroutine, and `owner_of`. -/
def Obligations.SubroutineTables : Prop :=
  (∀ s : State, s.moves = [] →
    (s.seq = .pSel → s.cs = false → step s = .next
      { s with seq := .pOp, cs := true, own := .poll, dev := s.dev.beginFrame, trace := s.trace ++ [.sel] }) ∧
    (s.seq = .pOp → s.cs = true → step s = .next { exchanged s.cfg.opReadStatus s with seq := .pRd }) ∧
    (s.seq = .pRd → s.cs = true →
      step s = .next { exchanged s.cfg.dummyOut s with sr := answer s, seq := .pDes }) ∧
    (s.seq = .pDes → s.cs = true → step s = .next
      { s with
        seq := .pTst, cs := false, own := .none, dev := s.dev.endFrame s.cfg s.wp, trace := s.trace ++ [.des] }) ∧
    (s.seq = .pTst → s.sr.getLsbD 7 = true → step s = .next { s with seq := s.ret }) ∧
    (s.seq = .pTst → s.sr.getLsbD 7 = false → step s = .next { s with seq := .pSel }) ∧
    (∀ o, s.seq = .hSel → s.cs = false → ownerOf s.cfg s.cop = some o → step s = .next
      { s with seq := .hOp, cs := true, own := o, dev := s.dev.beginFrame, trace := s.trace ++ [.sel] }) ∧
    (s.seq = .hOp → s.cs = true → step s = .next { exchanged s.cop s with seq := .hA0 }) ∧
    (s.seq = .hA0 → s.cs = true → step s = .next { exchanged s.addr.a0 s with seq := .hA1 }) ∧
    (s.seq = .hA1 → s.cs = true → step s = .next { exchanged s.addr.a1 s with seq := .hA2 }) ∧
    (s.seq = .hA2 → s.cs = true → step s = .next { exchanged s.addr.a2 s with seq := s.hret })) ∧
  (∀ c : Cfg, c.valid = true →
    ownerOf c c.opPageErase = some .erase ∧ ownerOf c c.opSectorErase = some .erase ∧
    ownerOf c c.opBuf1Write = some .fill ∧ ownerOf c c.opBuf1CommitErase = some .commit ∧
    ownerOf c c.opArrayRead = some .read)

/-- R308: the rows of WRITE. -/
def Obligations.WriteTable : Prop :=
  ∀ s : State, s.moves = [] →
    (s.seq = .w0 → step s = .next
      { s with
        wp := false, cur := s.page, idx := 0, rem := s.size, seq := .w1, trace := s.trace ++ [.wp false] }) ∧
    (s.seq = .w1 → 0 < s.rem.toNat → step s = .next
      { s with n := BitVec.ofNat 16 (min s.rem.toNat 264), ret := .w2, seq := .pSel }) ∧
    (s.seq = .w1 → s.rem = 0#16 → step s = .next { s with ret := .w6, seq := .pSel }) ∧
    (s.seq = .w2 → step s = .next
      { s with cop := s.cfg.opBuf1Write, addr := encodeAddr 0 0, hret := .w3, cnt := 0, seq := .hSel }) ∧
    (s.seq = .w3 → s.cs = true → s.cnt.toNat < s.n.toNat →
      ∃ t, step s = .next { t with cnt := s.cnt + 1 } ∧
        t = exchanged (hostByte s (s.idx + s.cnt))
          { s with trace := s.trace ++ [.hrd (s.idx + s.cnt) (hostByte s (s.idx + s.cnt))] }) ∧
    (s.seq = .w3 → s.cs = true → s.cnt = s.n → step s = .next
      { s with
        cs := false, own := .none, dev := s.dev.endFrame s.cfg s.wp, trace := s.trace ++ [.des], ret := .w4,
        seq := .pSel }) ∧
    (s.seq = .w4 → step s = .next
      { s with cop := s.cfg.opBuf1CommitErase, addr := encodeAddr s.cur 0, hret := .w5, seq := .hSel }) ∧
    (s.seq = .w5 → s.cs = true → step s = .next
      { s with
        cs := false, own := .none, dev := s.dev.endFrame s.cfg s.wp, trace := s.trace ++ [.des],
        idx := s.idx + s.n, rem := s.rem - s.n, cur := s.cur + 1, seq := .w1 }) ∧
    (s.seq = .w6 → step s = .next { s with wp := true, seq := .done, trace := s.trace ++ [.wp true] })

/-- R306, R307, R309: the rows of ERASE_PAGE, ERASE_SECTOR and READ. The rows of `R_2` are R309's word for word where
`N_READ_DUMMY` fits the 16 bits of `cnt`; beyond that the bytes that the open transaction has carried after its header
are counted, as R210 has it (log 12), and in every state that meets the invariant `cnt` is their number modulo 2^16.
-/
def Obligations.EraseAndReadTables : Prop :=
  ∀ s : State, s.moves = [] →
    (s.seq = .ep0 → step s = .next { s with ret := .ep1, seq := .pSel }) ∧
    (s.seq = .ep1 → step s = .next
      { s with cop := s.cfg.opPageErase, addr := encodeAddr s.page 0, hret := .ep2, seq := .hSel }) ∧
    (s.seq = .es0 → s.sector = 0#8 → step s = .next { s with seq := .done }) ∧
    (s.seq = .es0 → s.sector ≠ 0#8 → step s = .next { s with ret := .es1, seq := .pSel }) ∧
    (s.seq = .es1 → step s = .next
      { s with
        cop := s.cfg.opSectorErase, addr := encodeAddr (s.sector.setWidth 16 * 256#16) 0, hret := .es2,
        seq := .hSel }) ∧
    (s.seq = .r0 → step s = .next { s with ret := .r1, seq := .pSel }) ∧
    (s.seq = .r1 → step s = .next
      { s with
        cop := s.cfg.opArrayRead, addr := encodeAddr s.page s.offset, hret := .r2, cnt := 0,
        seq := .hSel }) ∧
    (s.seq = .r2 → s.cs = true → s.cfg.nReadDummy < 65536 → s.cnt.toNat < s.cfg.nReadDummy →
      step s = .next { exchanged s.cfg.dummyOut s with cnt := s.cnt + 1 }) ∧
    (s.seq = .r2 → s.cfg.nReadDummy < 65536 → s.cnt.toNat = s.cfg.nReadDummy →
      step s = .next { s with cnt := 0, seq := .r3 }) ∧
    (∀ bytes, s.seq = .r2 → s.cs = true → 65536 ≤ s.cfg.nReadDummy → s.dev.frame = some bytes →
      bytes.length < 4 + s.cfg.nReadDummy →
      step s = .next { exchanged s.cfg.dummyOut s with cnt := s.cnt + 1 }) ∧
    (∀ bytes, s.seq = .r2 → 65536 ≤ s.cfg.nReadDummy → s.dev.frame = some bytes →
      bytes.length = 4 + s.cfg.nReadDummy → step s = .next { s with cnt := 0, seq := .r3 }) ∧
    (Inv s → s.seq = .r2 → ∃ bytes count, s.dev.frame = some bytes ∧ bytes.length = 4 + count ∧
      count ≤ s.cfg.nReadDummy ∧ s.cnt = BitVec.ofNat 16 count) ∧
    (s.seq = .r3 → s.cs = true → s.cnt.toNat < s.size.toNat →
      ∃ t, t = exchanged s.cfg.dummyOut s ∧ step s = .next
        { t with
          hbuf := s.hbuf.write s.cnt.toNat (answer s), trace := t.trace ++ [.hwr s.cnt (answer s)],
          cnt := s.cnt + 1 }) ∧
    (s.seq = .ep2 ∨ s.seq = .es2 ∨ (s.seq = .r3 ∧ s.cnt = s.size) → s.cs = true → step s = .next
      { s with
        seq := .done, cs := false, own := .none, dev := s.dev.endFrame s.cfg s.wp, trace := s.trace ++ [.des] })

/-- R305, R310: the rows of INIT and of DIAGNOSE. -/
def Obligations.InitAndDiagnoseTables : Prop :=
  ∀ s : State, s.moves = [] →
    (s.seq = .iWp → step s = .next { s with wp := true, seq := .iRst1, trace := s.trace ++ [.wp true] }) ∧
    (s.seq = .iRst1 → ∃ t, step s = .next t ∧
      { t with dev := s.dev } = { s with rst := true, seq := .iDly, trace := s.trace ++ [.rst true] }) ∧
    (s.seq = .iDly → step s = .next { s with seq := .iRst0, trace := s.trace ++ [.delay s.cfg.resetHoldMs] }) ∧
    (s.seq = .iRst0 → ∃ t, step s = .next t ∧
      { t with dev := s.dev } = { s with rst := false, seq := .done, trace := s.trace ++ [.rst false] }) ∧
    (∀ o r, (s.seq = .g0 ∧ o = .diagId ∧ r = Seq.g1) ∨ (s.seq = .g3 ∧ o = .diagSr ∧ r = Seq.g4) → s.cs = false →
      step s = .next
        { s with seq := r, cs := true, own := o, dev := s.dev.beginFrame, trace := s.trace ++ [.sel] }) ∧
    (s.seq = .g1 → s.cs = true → step s = .next { exchanged s.cfg.opReadId s with seq := .g2, k := 0 }) ∧
    (s.seq = .g2 → s.cs = true → s.k.toNat < 4 → step s = .next
      { exchanged s.cfg.dummyOut s with id := setIdByte s.id s.k.toNat (answer s), k := s.k + 1 }) ∧
    (s.seq = .g4 → s.cs = true → step s = .next { exchanged s.cfg.opReadStatus s with seq := .g5 }) ∧
    (s.seq = .g5 → s.cs = true → step s = .next
      { exchanged s.cfg.dummyOut s with sr := answer s, seq := .g6 }) ∧
    (∀ r, (s.seq = .g2 ∧ s.k = 4#3 ∧ r = Seq.g3) ∨ (s.seq = .g6 ∧ r = Seq.g7) → s.cs = true → step s = .next
      { s with
        seq := r, cs := false, own := .none, dev := s.dev.endFrame s.cfg s.wp, trace := s.trace ++ [.des] }) ∧
    (s.seq = .g7 → ∃ t, step s = .next t ∧
      (t.diagOk = true ↔ s.id.b0 = s.cfg.sig0 ∧ s.id.b1 = s.cfg.sig1 ∧ s.id.b2 = s.cfg.sig2 ∧
        s.sr &&& s.cfg.statusMask = s.cfg.statusExpect) ∧
      { t with diagOk := s.diagOk } = { s with seq := .done })

/-! ## The commands -/

/-- R172: a wait that ends is one or more status reads, all but the last answered busy and the last ready; it leaves
chip-select de-asserted and the last status byte in `sr`; nothing else of the controller changes; and the sequencer's
poll subroutine, entered with any return state, makes the same run and returns there. -/
def Obligations.WaitIsPollsUntilReady : Prop :=
  ∀ (polls : Nat) (s t : State) (r : Machine.Seq), s.cs = false → waitUntilReady polls s = some t →
    (∃ (busy : List (Byte × Byte)) (a v : Byte), busy.length < polls ∧
      (∀ p ∈ busy, p.2.getLsbD 7 = false) ∧ v.getLsbD 7 = true ∧
      t.trace = s.trace ++ busy.flatMap (pollEvents s.cfg) ++ pollEvents s.cfg (a, v) ∧ t.sr = v) ∧
    { t with sr := s.sr, dev := s.dev, answers := s.answers, draws := s.draws, trace := s.trace } =
      { s with own := .none } ∧
    (s.moves = [] → Reaches { s with seq := .pSel, ret := r } { t with seq := r, ret := r })

/-- R173, R243: on a `DEV` that never becomes ready the poll cycle has no end: after every number of turns the
controller has made exactly that many status reads and nothing else, is still busy at `P_SEL`, and still drives
write-protect as it did; no turn leaves the subroutine. -/
def Obligations.DeadChipPollsForEver : Prop :=
  ∀ (s : State) (turns : Nat), s.cfg.valid = true → s.moves = [] → s.seq = .pSel → s.cs = false →
    s.dev.mode = .known → s.dev.busy = true →
    ∃ (t : State) (discarded : List Byte), run (5 * turns) s = .next t ∧ discarded.length = turns ∧
      t.trace = s.trace ++
        discarded.flatMap (fun a => pollEvents s.cfg (a, statusByte true s.dev.stat6)) ∧
      t.seq = .pSel ∧ t.cs = false ∧ t.busy = s.busy ∧ t.wp = s.wp ∧ t.dev.busy = true ∧
      t.dev.array = s.dev.array ∧ t.hbuf = s.hbuf

/-- R230, R231, R233, R92: INIT at rest runs to its end whatever the chip does: exactly four events, no wait; it
leaves write-protect asserted, the reset line de-asserted and chip-select de-asserted, and nothing else of the
controller changed; the chip is then defined, idle, with its array unchanged. What it says of the chip is R92, the
spec's own decision D22, with log 16 (DEDUCED) for a chip that was busy and log 13 for one of which nothing was
claimed; that it is not busy is R92's and the model's choice against U13 and N19 (DESIGN CHOICE, log 32). -/
def Obligations.InitRun : Prop :=
  ∀ s : State, AtRest s →
    ∃ u t, exec .init s = .next u ∧ Reaches u t ∧
      t.trace = s.trace ++ [.wp true, .rst true, .delay s.cfg.resetHoldMs, .rst false] ∧
      t.wp = true ∧ t.rst = false ∧ t.cs = false ∧
      { t with wp := s.wp, rst := s.rst, dev := s.dev, trace := s.trace } = s ∧
      (s.dev.mode ≠ .oracle → readyChip t.dev ∧ t.dev.frame = none ∧ sameArray s.dev t.dev)

/-- R222 to R227 (no wait, the order and no short cut: the spec's own decision D15): DIAGNOSE at rest runs to its end
whatever the chip answers: exactly eleven events, identity first, no wait and no short cut; `ID[0..3]` hold the bytes
received, and `DIAG_OK` is 1 exactly when the first three equal the signature and the masked status equals the
pattern; nothing else but `sr` and `k` changes. -/
def Obligations.DiagnoseRun : Prop :=
  ∀ s : State, AtRest s →
    ∃ (u t : State) (a i0 i1 i2 i3 b v : Byte), exec .diagnose s = .next u ∧ Reaches u t ∧
      t.trace = s.trace ++ [.sel, .x s.cfg.opReadId a, .x s.cfg.dummyOut i0, .x s.cfg.dummyOut i1,
        .x s.cfg.dummyOut i2, .x s.cfg.dummyOut i3, .des, .sel, .x s.cfg.opReadStatus b, .x s.cfg.dummyOut v,
        .des] ∧
      t.id = ⟨i0, i1, i2, i3⟩ ∧
      (t.diagOk = true ↔
        i0 = s.cfg.sig0 ∧ i1 = s.cfg.sig1 ∧ i2 = s.cfg.sig2 ∧ v &&& s.cfg.statusMask = s.cfg.statusExpect) ∧
      { t with
        id := s.id, k := s.k, sr := s.sr, diagOk := s.diagOk, dev := s.dev, answers := s.answers,
        draws := s.draws, trace := s.trace } = { s with own := .none }

/-- R183, R245: ERASE_SECTOR with `SECTOR = 0` is accepted and ends without any event: after the accepting step two
silent steps give back the state before the command, whatever the chip is. -/
def Obligations.SectorZeroRefusedSilently : Prop :=
  ∀ s : State, AtRest s → s.sector = 0#8 → ∃ u, exec .eraseSector s = .next u ∧ u.busy = true ∧ run 2 u = .next s

/-- R180, R181 (write-protect left alone: the spec's own decision D26), R182: ERASE_PAGE, and ERASE_SECTOR with
`SECTOR` not 0, at rest on a ready `DEV` run to their end: one status read, then the erase frame of `encode(PAGE, 0)`
or of `encode(SECTOR × 256, 0)`; `BUSY` returns to 0 while the chip is busy erasing (unless write-protect blocks it),
and write-protect, the argument registers, the results and the host buffer are as they were. -/
def Obligations.EraseCommandsRun : Prop :=
  ∀ (s : State) (i : Instr) (op : Byte) (a : Addr) (kind : MutKind) (p : Nat) (pending : Operation),
    AtRest s → readyChip s.dev →
    (i, op, a, kind, p, pending) ∈
      [(Instr.erasePage, s.cfg.opPageErase, encodeAddr s.page 0, MutKind.erasePage,
        addrPage (encodeAddr s.page 0), Operation.erasePage (addrPage (encodeAddr s.page 0))),
       (.eraseSector, s.cfg.opSectorErase, encodeAddr (sectorPage s.sector) 0, .eraseSector,
        addrSector (encodeAddr (sectorPage s.sector) 0),
        .eraseSector (addrSector (encodeAddr (sectorPage s.sector) 0)))] →
    (i = .eraseSector → s.sector ≠ 0#8) →
    ∃ (u t : State) (new : List Event), exec i s = .next u ∧ Reaches u t ∧ t.trace = s.trace ++ new ∧
      new.map unanswered = pollsEvents s.cfg 1 ++ headerEvents op a ++ [.des] ∧
      { t with
        sr := s.sr, ret := s.ret, hret := s.hret, cop := s.cop, addr := s.addr, dev := s.dev,
        answers := s.answers, draws := s.draws, trace := s.trace } = { s with own := .none } ∧
      ((s.wp && s.cfg.blocks kind p) = false → t.dev.busy = true ∧ t.dev.pending = some pending)

/-- R213 to R217: READ at rest on a ready `DEV`, started at a byte of a page and staying inside the array, runs to its
end and leaves the bytes at the linear positions from `264·PAGE + OFFSET` on in `HBUF[0 .. SIZE-1]`; no other byte of
the host buffer changes, write-protect is left alone, and the chip is ready. -/
def Obligations.ReadRun : Prop :=
  ∀ s : State, AtRest s → readyChip s.dev → s.page.toNat < totalPages → s.offset.toNat < pageSize →
    linear s.page.toNat s.offset.toNat + s.size.toNat ≤ totalPages * pageSize →
    ∃ u t, exec .read s = .next u ∧ Reaches u t ∧
      (∀ i, i < s.size.toNat →
        s.dev.arrayByte? ((linear s.page.toNat s.offset.toNat + i) / pageSize)
          ((linear s.page.toNat s.offset.toNat + i) % pageSize) = some (hostByte t (BitVec.ofNat 16 i))) ∧
      (∀ i : Word, s.size.toNat ≤ i.toNat → hostByte t i = hostByte s i) ∧
      readyChip t.dev ∧ sameArray s.dev t.dev ∧ sameBuffer s.dev t.dev ∧
      { t with
        hbuf := s.hbuf, sr := s.sr, ret := s.ret, hret := s.hret, cop := s.cop, addr := s.addr, cnt := s.cnt,
        dev := s.dev, answers := s.answers, draws := s.draws, trace := s.trace } = { s with own := .none }

/-- R195 to R202: the events of a WRITE that ends, for every `PAGE`, `SIZE` and host buffer and every answer of the
device: `WP(0)`; for each of the `ceil(SIZE / 264)` chunks a wait, its fill, a wait, its commit; a trailing wait;
`WP(1)`. Each wait is one or more status reads. (`SIZE = 0` and the page wrap are the spec's own decisions D16 and
D17.) The host buffer is not written, and every register but the working ones is as it was. (Of the pseudocode; that
the sequencer emits the same is `CommandsAgreeWithPseudocode`.) -/
def Obligations.WriteEventSequence : Prop :=
  ∀ (polls : Nat) (s t : State), AtRest s → commandProgram polls .write s = some t →
    ∃ (fillWait commitWait : Nat → Nat) (lastWait : Nat) (new : List Event),
      t.trace = s.trace ++ new ∧
      (∀ j, 1 ≤ fillWait j) ∧ (∀ j, 1 ≤ commitWait j) ∧ 1 ≤ lastWait ∧
      new.map unanswered =
        [.wp false] ++
        (List.range (chunkCount s.size.toNat)).flatMap (fun j =>
          pollsEvents s.cfg (fillWait j) ++ fillEvents s j ++ pollsEvents s.cfg (commitWait j) ++ commitEvents s j) ++
        pollsEvents s.cfg lastWait ++ [.wp true] ∧
      t.wp = true ∧
      { t with
        wp := s.wp, sr := s.sr, cop := s.cop, addr := s.addr, cur := s.cur, idx := s.idx, rem := s.rem, n := s.n,
        cnt := s.cnt, dev := s.dev, answers := s.answers, draws := s.draws, trace := s.trace } =
        { s with own := .none }

/-- R75 (the spec's own inference), R198, R87: a WRITE inside the geometry on a ready `DEV`, however the chip's own
completions fall between the controller's steps: whenever `BUSY` is 0 again, the array holds the `SIZE` bytes of the
host buffer from page `PAGE` on, write-protect is asserted again, and the chip is ready. -/
def Obligations.WriteStoresItsBytes : Prop :=
  ∀ (s u t : State) (schedule : List Move), AtRest s → readyChip s.dev → undisturbed schedule →
    linear s.page.toNat 0 + s.size.toNat ≤ totalPages * pageSize →
    exec .write s = .next u → run schedule.length { u with moves := schedule } = .next t → t.busy = false →
    (∀ i, i < s.size.toNat →
      t.dev.arrayByte? ((linear s.page.toNat 0 + i) / pageSize) ((linear s.page.toNat 0 + i) % pageSize) =
        some (hostByte s (BitVec.ofNat 16 i))) ∧
    t.wp = true ∧ readyChip t.dev ∧ t.hbuf = s.hbuf

/-- R311 (the spec's own inference from the tables): for every command, every argument value, every host buffer and
every sequence of device answers, the machine agrees with the command's pseudocode: where the pseudocode ends, the
command is accepted and the sequencer's run ends in `IDLE` with the pseudocode's whole state (its event trace,
`DIAG_OK`, `ID`, the lines, the host buffer and the chip among it); only the two return registers hold what the
subroutine calls left in them. -/
def Obligations.CommandsAgreeWithPseudocode : Prop :=
  ∀ (polls : Nat) (i : Instr) (s t : State), AtRest s → isCommand i = true → commandProgram polls i s = some t →
    ∃ u r h, exec i s = .next u ∧ Reaches u (idleWith r h t)

/-! ## The whole machine -/

/-- R37, R270 (the spec's own decision D19): after the controller's reset, applied at any time, and in the state the
machine starts from, no command is in progress, the sequencer is in `IDLE`, no one owns the bus, chip-select is
de-asserted, write-protect asserted and the chip's reset line de-asserted; the reset emits no event, and at rest it
leaves the chip alone (R272). -/
def Obligations.ResetValues : Prop :=
  (∀ t : State, t = .reset ∨ (∃ s, t = controllerReset s) →
    t.busy = false ∧ t.seq = .idle ∧ t.own = .none ∧ t.cs = false ∧ t.wp = true ∧ t.rst = false) ∧
  (∀ (s : State) (rest : List Move), s.moves = .reset :: rest →
    step s = .next (controllerReset { s with moves := rest })) ∧
  (∀ s : State, (controllerReset s).trace = s.trace ∧ (controllerReset s).hbuf = s.hbuf) ∧
  (∀ s : State, s.busy = false → (controllerReset s).dev = s.dev)

/-- R271 (the spec's own decision D21), U14: a reset while a command runs leaves a `DEV` of which nothing is claimed
until its next reset pulse. The page or sector being changed is any value: that of the operation the chip carries out,
and that of a mutating frame, cut after any of its bytes, whatever address it was going to send. A byte outside the
first and outside what such a frame may name is as it was (non-volatile, R272). Which bytes a cut frame may name, and
that the rest keeps its bytes, is the model's reading (DEDUCED, log 17). -/
def Obligations.ResetDuringCommand : Prop :=
  ∀ s : State, s.busy = true → s.dev.mode = .known →
    (controllerReset s).dev.mode = .unknown ∧ (controllerReset s).dev.frame = none ∧
    (∀ op p o, s.dev.pending = some op → p < totalPages → o < pageSize →
      op.range.1 ≤ linear p o → linear p o < op.range.1 + op.range.2 →
      drawnAnew s.dev (controllerReset s).dev p o) ∧
    (∀ (op : Byte) (got : List Byte) (a : Addr) (p o : Nat), s.dev.frame = some (op :: got) →
      got <+: [a.a0, a.a1, a.a2] → isMutating s.cfg op = true → p < totalPages → o < pageSize →
      (if op = s.cfg.opSectorErase then p / sectorPages = addrSector a else p = addrPage a) →
      drawnAnew s.dev (controllerReset s).dev p o) ∧
    ∀ p o,
      (∀ r, s.dev.pending.map Operation.range = some r ∨ s.dev.addressed s.cfg = some r →
        linear p o < r.1 ∨ r.1 + r.2 ≤ linear p o) →
      (controllerReset s).dev.arrayByte? p o = s.dev.arrayByte? p o

/-- Reset meets the invariant, and its empty trace the grammar of the bus. -/
def Obligations.ResetMeetsInvariant : Prop :=
  Inv State.reset ∧ phaseOf State.reset.cfg State.reset.trace = some (phaseIn State.reset.seq)

/-- Every step keeps the invariant of the machine: `seq = IDLE` exactly when `BUSY = 0` (R24), chip-select in exactly
its states (R313), the owner (R34, R144), write-protect (R316), the reset line, the two return registers (R303, R304),
the chunk arithmetic of a WRITE (R196), the loop bounds (R312), the bytes that a header and its dummies
have sent, and the memories' canonical form. -/
def Obligations.StepKeepsInvariant : Prop :=
  ∀ s t : State, Inv s → step s = .next t → Inv t

/-- R240, R246: the block raises no exception: from a state that meets the invariant no step is a fault, whichever
agent moves, and the controller's own step always has a successor (so the hang of R243 is a run without end, U4). -/
def Obligations.NoStepFaults : Prop :=
  ∀ s : State, Inv s → (∀ e, step s ≠ .fault e) ∧ ∃ t, seqStep s = .next t

/-- R313 (the spec's own inference from the tables), R34, R144: chip-select is asserted in exactly the eighteen states
R313 lists, and the bus has an owner exactly then; and the sequencer's step always completes, selecting only with
chip-select de-asserted, and exchanging and de-selecting only with it asserted. -/
def Obligations.ChipSelectStatesAndOwner : Prop :=
  ∀ s : State, Inv s →
    (s.cs = true ↔ s.seq ∈ [Seq.pOp, .pRd, .pDes, .hOp, .hA0, .hA1, .hA2, .ep2, .es2, .w3, .w5, .r2, .r3, .g1, .g2,
      .g4, .g5, .g6]) ∧
    (s.own = .none ↔ s.cs = false) ∧
    ∃ t new, seqStep s = .next t ∧ t.trace = s.trace ++ new ∧
      (.sel ∈ new → s.cs = false) ∧ (.des ∈ new → s.cs = true) ∧ (sentBytes new ≠ [] → s.cs = true)

/-- R301 (the spec's own decision D23), R10: one step of the controller emits at most one device-side event and at
most one host-buffer event, `HRD` before an `X` or `HWR` after one; and it never removes an event. -/
def Obligations.OneEventAStep : Prop :=
  ∀ s t : State, seqStep s = .next t →
    ∃ new, t.trace = s.trace ++ new ∧
      (new = [] ∨ (∃ e, new = [e] ∧ (∀ i v, e ≠ .hrd i v) ∧ ∀ i v, e ≠ .hwr i v) ∨
        (∃ i v b, new = [.hrd i v, .x v b]) ∨ ∃ i v b, new = [.x b v, .hwr i v])

/-- R110, R143 (the spec's own inference), R145: the bus trace keeps its grammar through every step but a reset that
cuts a command: `SEL` and `DES` alternate, every frame opens with one of the seven emitted opcodes (so none of the
eight others is ever sent), bytes and host-buffer events lie inside a transaction and the control lines move only
outside one. -/
def Obligations.StepKeepsBusGrammar : Prop :=
  ∀ s t : State, Inv s → phaseOf s.cfg s.trace = some (phaseIn s.seq) →
    ¬(s.busy = true ∧ s.moves.head? = some .reset) → step s = .next t →
    phaseOf t.cfg t.trace = some (phaseIn t.seq)

/-- R315: nothing but the controller's own step and its reset moves the sequencer while a command runs, or changes a
register of the controller or a line: a host step that completes changes the host's own buffer (R77), the record of
reads and the free answers, the chip's move the chip. -/
def Obligations.NothingCancelsACommand : Prop :=
  ∀ (s t : State) (m : Move) (rest : List Move), s.busy = true → s.moves = m :: rest → m ≠ .controller → m ≠ .reset →
    step s = .next t →
    { t with
      dev := s.dev, hbuf := s.hbuf, moves := s.moves, reads := s.reads, answers := s.answers, draws := s.draws } = s

/-- R314 (the spec's own inference from the tables), R91: from every state that meets the invariant, the controller
left alone reaches `IDLE` or the head of the poll cycle in a finite number of steps, one at least; and on a healthy
`DEV`, busy or ready at the start, every command ends, whenever the chip completes. Healthy is the fairness assumption
of R91 (`healthyChip`), the controller not being held up (`fairController`); nothing bounds the number of polls. -/
def Obligations.ControllerReachesIdleOrPoll : Prop :=
  (∀ s : State, Inv s → s.moves = [] → ∃ k t, run (k + 1) s = .next t ∧ (t.seq = .idle ∨ t.seq = .pSel)) ∧
  (∀ (s u : State) (i : Instr) (schedule : Schedule), AtRest s → isCommand i = true → s.dev.mode = .known →
    (∀ k, schedule k = .controller ∨ schedule k = .chipReady) → fairController schedule → healthyChip schedule →
    exec i s = .next u → ∃ k t, runUnder schedule k u = .next t ∧ t.busy = false)

/-- R21: no command reads what an earlier command left in a working register, or in `DIAG_OK` and `ID`: two machines
at rest that differ in nothing else emit the same events, end at the same moment and leave the same host buffer, lines
and chip, under every schedule of the controller and the chip; and a DIAGNOSE that has ended leaves the same `DIAG_OK`
(R27) and `ID` (R32). -/
def Obligations.CommandsReadNoLeftovers : Prop :=
  ∀ (s s' u u' t : State) (i : Instr) (schedule : List Move) (k : Nat), AtRest s → AtRest s' → isCommand i = true →
    undisturbed schedule → sameButWorking s s' → exec i s = .next u → exec i s' = .next u' →
    run k { u with moves := schedule } = .next t →
    ∃ t', run k { u' with moves := schedule } = .next t' ∧ t'.trace = t.trace ∧ t'.busy = t.busy ∧
      t'.seq = t.seq ∧ t'.hbuf = t.hbuf ∧ t'.wp = t.wp ∧ t'.rst = t.rst ∧ t'.cs = t.cs ∧ t'.dev = t.dev ∧
      (i = .diagnose → t.busy = false → t'.diagOk = t.diagOk ∧ t'.id = t.id)
end

