-- ==== Sys2Proof/Laws/Memory.lean ====
section
/-! SUPPORT. The memory laws: read after write, a write leaves every other address alone, and every operation keeps the
canonical form. -/

namespace Sys2Proof.Machine.Memory

@[simp] theorem get?_nil (x : Nat) : get? [] x = none := rfl

@[simp] theorem wf_nil : wf [] := List.Pairwise.nil

theorem get?_write_same (m : Memory) (x : Nat) (v : Byte) : get? (write m x v) x = some v := by
  induction m with
  | nil => simp [write, get?]
  | cons c m ih =>
    obtain ⟨a, w⟩ := c
    simp only [write]
    split
    · simp [get?]
    · split
      · simp [get?]
      · rename_i h1 h2
        have : a ≠ x := fun h => h2 h.symm
        simp [get?, this, ih]

theorem get?_write_other (m : Memory) (x y : Nat) (v : Byte) (h : y ≠ x) :
    get? (write m x v) y = get? m y := by
  induction m with
  | nil => simp [write, get?, h.symm]
  | cons c m ih =>
    obtain ⟨a, w⟩ := c
    simp only [write]
    split
    · simp [get?, h.symm]
    · split
      · rename_i h1 h2
        subst h2
        simp [get?, h.symm]
      · simp [get?, ih]

theorem read_write_same (m : Memory) (space : Space) (epoch x : Nat) (v : Byte) :
    (m.write x v).read space epoch x = v := by
  simp [read, get?_write_same]

theorem read_write_other (m : Memory) (space : Space) (epoch x y : Nat) (v : Byte) (h : y ≠ x) :
    (m.write x v).read space epoch y = m.read space epoch y := by
  simp [read, get?_write_other m x y v h]

theorem mem_write_addr {m : Memory} {x : Nat} {v : Byte} {c : Host.Cell} (h : c ∈ write m x v) :
    c.1 = x ∨ c ∈ m := by
  induction m with
  | nil => simp [write] at h; simp [h]
  | cons d m ih =>
    obtain ⟨a, w⟩ := d
    simp only [write] at h
    split at h
    · rcases List.mem_cons.mp h with h | h
      · simp [h]
      · exact .inr h
    · split at h
      · rcases List.mem_cons.mp h with h | h
        · simp [h]
        · exact .inr (List.mem_cons_of_mem _ h)
      · rcases List.mem_cons.mp h with h | h
        · exact .inr (h ▸ List.mem_cons_self)
        · rcases ih h with h | h
          · exact .inl h
          · exact .inr (List.mem_cons_of_mem _ h)

theorem write_wf {m : Memory} (h : m.wf) (x : Nat) (v : Byte) : (write m x v).wf := by
  induction m with
  | nil => simp [write, wf]
  | cons c m ih =>
    obtain ⟨a, w⟩ := c
    have h' := List.pairwise_cons.mp h
    simp only [write]
    split
    · rename_i hx
      refine List.pairwise_cons.mpr ⟨fun d hd => ?_, h⟩
      rcases List.mem_cons.mp hd with rfl | hd
      · exact hx
      · exact lt_trans hx (h'.1 d hd)
    · split
      · rename_i hx
        subst hx
        exact List.pairwise_cons.mpr ⟨fun d hd => h'.1 d hd, h'.2⟩
      · rename_i h1 h2
        refine List.pairwise_cons.mpr ⟨fun d hd => ?_, ih h'.2⟩
        rcases mem_write_addr hd with he | hd
        · simp only [he]; omega
        · exact h'.1 d hd

theorem mem_cells_addr {vs : List Byte} {x : Nat} {c : Host.Cell} (h : c ∈ cells x vs) :
    x ≤ c.1 ∧ c.1 < x + vs.length := by
  induction vs generalizing x with
  | nil => simp [cells] at h
  | cons v vs ih =>
    rcases List.mem_cons.mp h with rfl | h
    · simp
    · have := ih h
      simp only [List.length_cons]
      omega

theorem cells_wf (x : Nat) (vs : List Byte) : (cells x vs).wf := by
  induction vs generalizing x with
  | nil => exact List.Pairwise.nil
  | cons v vs ih =>
    refine List.pairwise_cons.mpr ⟨fun d hd => ?_, ih (x + 1)⟩
    have := mem_cells_addr hd
    simp only
    omega

theorem writeRange_wf {m : Memory} (h : m.wf) (x : Nat) (vs : List Byte) : (writeRange m x vs).wf := by
  unfold writeRange
  refine List.pairwise_append.mpr ⟨List.pairwise_append.mpr ⟨h.filter _, cells_wf x vs, ?_⟩, h.filter _, ?_⟩
  · intro c hc d hd
    have h1 : c.1 < x := by simpa using (List.mem_filter.mp hc).2
    have h2 := mem_cells_addr hd
    omega
  · intro c hc d hd
    have h2 : x + vs.length ≤ d.1 := by simpa using (List.mem_filter.mp hd).2
    rcases List.mem_append.mp hc with hc | hc
    · have h1 : c.1 < x := by simpa using (List.mem_filter.mp hc).2
      omega
    · have h1 := mem_cells_addr hc
      omega

theorem get?_append (m₁ m₂ : Memory) (x : Nat) :
    get? (m₁ ++ m₂) x = (get? m₁ x).or (get? m₂ x) := by
  induction m₁ with
  | nil => simp [get?]
  | cons c m ih =>
    obtain ⟨a, v⟩ := c
    simp only [List.cons_append, get?]
    split <;> simp [ih]

theorem get?_eq_none_of_forall {m : Memory} {x : Nat} (h : ∀ c ∈ m, c.1 ≠ x) : get? m x = none := by
  induction m with
  | nil => rfl
  | cons c m ih =>
    obtain ⟨a, v⟩ := c
    have ha : a ≠ x := h (a, v) List.mem_cons_self
    simp [get?, ha, ih fun d hd => h d (List.mem_cons_of_mem _ hd)]

theorem get?_filter (m : Memory) (p : Host.Cell → Bool) (x : Nat) (h : ∀ v, p (x, v) = true) :
    get? (m.filter p) x = get? m x := by
  induction m with
  | nil => rfl
  | cons c m ih =>
    obtain ⟨a, v⟩ := c
    by_cases ha : a = x
    · subst ha; simp [h, get?]
    · by_cases hp : p (a, v) = true
      · simp [hp, get?, ha, ih]
      · simp [hp, get?, ha, ih]

theorem get?_cells (vs : List Byte) (x j : Nat) (h : j < vs.length) :
    get? (cells x vs) (x + j) = vs[j]? := by
  induction vs generalizing x j with
  | nil => simp at h
  | cons v vs ih =>
    cases j with
    | zero => simp [cells, get?]
    | succ j =>
      have hne : x ≠ x + (j + 1) := by omega
      have := ih (x + 1) j (by simpa using h)
      simp only [cells, get?, hne, ↓reduceIte, List.getElem?_cons_succ]
      rw [show x + (j + 1) = x + 1 + j by omega, this]

/-- A byte inside a written run is the run's byte. -/
theorem get?_writeRange_inside (m : Memory) (x : Nat) (vs : List Byte) (j : Nat) (h : j < vs.length) :
    get? (writeRange m x vs) (x + j) = vs[j]? := by
  have h1 : get? (m.filter fun c => decide (c.1 < x)) (x + j) = none :=
    get?_eq_none_of_forall fun c hc => by
      have : c.1 < x := by simpa using (List.mem_filter.mp hc).2
      omega
  have h2 : get? (m.filter fun c => decide (x + vs.length ≤ c.1)) (x + j) = none :=
    get?_eq_none_of_forall fun c hc => by
      have : x + vs.length ≤ c.1 := by simpa using (List.mem_filter.mp hc).2
      omega
  simp [writeRange, get?_append, h1, h2, get?_cells vs x j h]

/-- A byte outside a written run is as it was. -/
theorem get?_writeRange_outside (m : Memory) (x : Nat) (vs : List Byte) (y : Nat)
    (h : y < x ∨ x + vs.length ≤ y) : get? (writeRange m x vs) y = get? m y := by
  have hc : get? (cells x vs) y = none := get?_eq_none_of_forall fun c hc => by
    have := mem_cells_addr hc
    omega
  rcases h with h | h
  · have h2 : get? (m.filter fun c => decide (x + vs.length ≤ c.1)) y = none :=
      get?_eq_none_of_forall fun c hc => by
        have : x + vs.length ≤ c.1 := by simpa using (List.mem_filter.mp hc).2
        omega
    have h1 := get?_filter m (fun c => decide (c.1 < x)) y (by simp [h])
    simp [writeRange, get?_append, hc, h2, h1]
  · have h1 : get? (m.filter fun c => decide (c.1 < x)) y = none :=
      get?_eq_none_of_forall fun c hc => by
        have : c.1 < x := by simpa using (List.mem_filter.mp hc).2
        omega
    have h2 := get?_filter m (fun c => decide (x + vs.length ≤ c.1)) y (by simp [h])
    simp [writeRange, get?_append, hc, h1, h2]

end Sys2Proof.Machine.Memory
end

