-- ==== Sys2Proof/Laws/State.lean ====
section
/-! SUPPORT. One lemma for every field of every named update of the state, true by `rfl` (by cases for those that
may take a free answer), so that no proof unfolds a record update. -/

namespace Sys2Proof.Machine

/-! ## `emit` -/

@[simp] theorem emit_page (e : Event) (s : State) : (emit e s).page = s.page := (rfl)
@[simp] theorem emit_offset (e : Event) (s : State) : (emit e s).offset = s.offset := (rfl)
@[simp] theorem emit_size (e : Event) (s : State) : (emit e s).size = s.size := (rfl)
@[simp] theorem emit_sector (e : Event) (s : State) : (emit e s).sector = s.sector := (rfl)
@[simp] theorem emit_busy (e : Event) (s : State) : (emit e s).busy = s.busy := (rfl)
@[simp] theorem emit_diagOk (e : Event) (s : State) : (emit e s).diagOk = s.diagOk := (rfl)
@[simp] theorem emit_id (e : Event) (s : State) : (emit e s).id = s.id := (rfl)
@[simp] theorem emit_sr (e : Event) (s : State) : (emit e s).sr = s.sr := (rfl)
@[simp] theorem emit_seq (e : Event) (s : State) : (emit e s).seq = s.seq := (rfl)
@[simp] theorem emit_ret (e : Event) (s : State) : (emit e s).ret = s.ret := (rfl)
@[simp] theorem emit_hret (e : Event) (s : State) : (emit e s).hret = s.hret := (rfl)
@[simp] theorem emit_cop (e : Event) (s : State) : (emit e s).cop = s.cop := (rfl)
@[simp] theorem emit_addr (e : Event) (s : State) : (emit e s).addr = s.addr := (rfl)
@[simp] theorem emit_cur (e : Event) (s : State) : (emit e s).cur = s.cur := (rfl)
@[simp] theorem emit_idx (e : Event) (s : State) : (emit e s).idx = s.idx := (rfl)
@[simp] theorem emit_rem (e : Event) (s : State) : (emit e s).rem = s.rem := (rfl)
@[simp] theorem emit_n (e : Event) (s : State) : (emit e s).n = s.n := (rfl)
@[simp] theorem emit_cnt (e : Event) (s : State) : (emit e s).cnt = s.cnt := (rfl)
@[simp] theorem emit_k (e : Event) (s : State) : (emit e s).k = s.k := (rfl)
@[simp] theorem emit_own (e : Event) (s : State) : (emit e s).own = s.own := (rfl)
@[simp] theorem emit_cs (e : Event) (s : State) : (emit e s).cs = s.cs := (rfl)
@[simp] theorem emit_wp (e : Event) (s : State) : (emit e s).wp = s.wp := (rfl)
@[simp] theorem emit_rst (e : Event) (s : State) : (emit e s).rst = s.rst := (rfl)
@[simp] theorem emit_cfg (e : Event) (s : State) : (emit e s).cfg = s.cfg := (rfl)
@[simp] theorem emit_hbuf (e : Event) (s : State) : (emit e s).hbuf = s.hbuf := (rfl)
@[simp] theorem emit_dev (e : Event) (s : State) : (emit e s).dev = s.dev := (rfl)
@[simp] theorem emit_moves (e : Event) (s : State) : (emit e s).moves = s.moves := (rfl)
@[simp] theorem emit_answers (e : Event) (s : State) : (emit e s).answers = s.answers := (rfl)
@[simp] theorem emit_draws (e : Event) (s : State) : (emit e s).draws = s.draws := (rfl)
@[simp] theorem emit_trace (e : Event) (s : State) : (emit e s).trace = s.trace ++ [e] := (rfl)
@[simp] theorem emit_reads (e : Event) (s : State) : (emit e s).reads = s.reads := (rfl)

/-! ## `goto` -/

@[simp] theorem goto_page (q : Seq) (s : State) : (goto q s).page = s.page := (rfl)
@[simp] theorem goto_offset (q : Seq) (s : State) : (goto q s).offset = s.offset := (rfl)
@[simp] theorem goto_size (q : Seq) (s : State) : (goto q s).size = s.size := (rfl)
@[simp] theorem goto_sector (q : Seq) (s : State) : (goto q s).sector = s.sector := (rfl)
@[simp] theorem goto_busy (q : Seq) (s : State) : (goto q s).busy = s.busy := (rfl)
@[simp] theorem goto_diagOk (q : Seq) (s : State) : (goto q s).diagOk = s.diagOk := (rfl)
@[simp] theorem goto_id (q : Seq) (s : State) : (goto q s).id = s.id := (rfl)
@[simp] theorem goto_sr (q : Seq) (s : State) : (goto q s).sr = s.sr := (rfl)
@[simp] theorem goto_seq (q : Seq) (s : State) : (goto q s).seq = q := (rfl)
@[simp] theorem goto_ret (q : Seq) (s : State) : (goto q s).ret = s.ret := (rfl)
@[simp] theorem goto_hret (q : Seq) (s : State) : (goto q s).hret = s.hret := (rfl)
@[simp] theorem goto_cop (q : Seq) (s : State) : (goto q s).cop = s.cop := (rfl)
@[simp] theorem goto_addr (q : Seq) (s : State) : (goto q s).addr = s.addr := (rfl)
@[simp] theorem goto_cur (q : Seq) (s : State) : (goto q s).cur = s.cur := (rfl)
@[simp] theorem goto_idx (q : Seq) (s : State) : (goto q s).idx = s.idx := (rfl)
@[simp] theorem goto_rem (q : Seq) (s : State) : (goto q s).rem = s.rem := (rfl)
@[simp] theorem goto_n (q : Seq) (s : State) : (goto q s).n = s.n := (rfl)
@[simp] theorem goto_cnt (q : Seq) (s : State) : (goto q s).cnt = s.cnt := (rfl)
@[simp] theorem goto_k (q : Seq) (s : State) : (goto q s).k = s.k := (rfl)
@[simp] theorem goto_own (q : Seq) (s : State) : (goto q s).own = s.own := (rfl)
@[simp] theorem goto_cs (q : Seq) (s : State) : (goto q s).cs = s.cs := (rfl)
@[simp] theorem goto_wp (q : Seq) (s : State) : (goto q s).wp = s.wp := (rfl)
@[simp] theorem goto_rst (q : Seq) (s : State) : (goto q s).rst = s.rst := (rfl)
@[simp] theorem goto_cfg (q : Seq) (s : State) : (goto q s).cfg = s.cfg := (rfl)
@[simp] theorem goto_hbuf (q : Seq) (s : State) : (goto q s).hbuf = s.hbuf := (rfl)
@[simp] theorem goto_dev (q : Seq) (s : State) : (goto q s).dev = s.dev := (rfl)
@[simp] theorem goto_moves (q : Seq) (s : State) : (goto q s).moves = s.moves := (rfl)
@[simp] theorem goto_answers (q : Seq) (s : State) : (goto q s).answers = s.answers := (rfl)
@[simp] theorem goto_draws (q : Seq) (s : State) : (goto q s).draws = s.draws := (rfl)
@[simp] theorem goto_trace (q : Seq) (s : State) : (goto q s).trace = s.trace := (rfl)
@[simp] theorem goto_reads (q : Seq) (s : State) : (goto q s).reads = s.reads := (rfl)

/-! ## `opened` -/

@[simp] theorem opened_page (o : Owner) (s : State) : (opened o s).page = s.page := (rfl)
@[simp] theorem opened_offset (o : Owner) (s : State) : (opened o s).offset = s.offset := (rfl)
@[simp] theorem opened_size (o : Owner) (s : State) : (opened o s).size = s.size := (rfl)
@[simp] theorem opened_sector (o : Owner) (s : State) : (opened o s).sector = s.sector := (rfl)
@[simp] theorem opened_busy (o : Owner) (s : State) : (opened o s).busy = s.busy := (rfl)
@[simp] theorem opened_diagOk (o : Owner) (s : State) : (opened o s).diagOk = s.diagOk := (rfl)
@[simp] theorem opened_id (o : Owner) (s : State) : (opened o s).id = s.id := (rfl)
@[simp] theorem opened_sr (o : Owner) (s : State) : (opened o s).sr = s.sr := (rfl)
@[simp] theorem opened_seq (o : Owner) (s : State) : (opened o s).seq = s.seq := (rfl)
@[simp] theorem opened_ret (o : Owner) (s : State) : (opened o s).ret = s.ret := (rfl)
@[simp] theorem opened_hret (o : Owner) (s : State) : (opened o s).hret = s.hret := (rfl)
@[simp] theorem opened_cop (o : Owner) (s : State) : (opened o s).cop = s.cop := (rfl)
@[simp] theorem opened_addr (o : Owner) (s : State) : (opened o s).addr = s.addr := (rfl)
@[simp] theorem opened_cur (o : Owner) (s : State) : (opened o s).cur = s.cur := (rfl)
@[simp] theorem opened_idx (o : Owner) (s : State) : (opened o s).idx = s.idx := (rfl)
@[simp] theorem opened_rem (o : Owner) (s : State) : (opened o s).rem = s.rem := (rfl)
@[simp] theorem opened_n (o : Owner) (s : State) : (opened o s).n = s.n := (rfl)
@[simp] theorem opened_cnt (o : Owner) (s : State) : (opened o s).cnt = s.cnt := (rfl)
@[simp] theorem opened_k (o : Owner) (s : State) : (opened o s).k = s.k := (rfl)
@[simp] theorem opened_own (o : Owner) (s : State) : (opened o s).own = o := (rfl)
@[simp] theorem opened_cs (o : Owner) (s : State) : (opened o s).cs = true := (rfl)
@[simp] theorem opened_wp (o : Owner) (s : State) : (opened o s).wp = s.wp := (rfl)
@[simp] theorem opened_rst (o : Owner) (s : State) : (opened o s).rst = s.rst := (rfl)
@[simp] theorem opened_cfg (o : Owner) (s : State) : (opened o s).cfg = s.cfg := (rfl)
@[simp] theorem opened_hbuf (o : Owner) (s : State) : (opened o s).hbuf = s.hbuf := (rfl)
@[simp] theorem opened_dev (o : Owner) (s : State) : (opened o s).dev = s.dev.beginFrame := (rfl)
@[simp] theorem opened_moves (o : Owner) (s : State) : (opened o s).moves = s.moves := (rfl)
@[simp] theorem opened_answers (o : Owner) (s : State) : (opened o s).answers = s.answers := (rfl)
@[simp] theorem opened_draws (o : Owner) (s : State) : (opened o s).draws = s.draws := (rfl)
@[simp] theorem opened_trace (o : Owner) (s : State) : (opened o s).trace = s.trace ++ [.sel] := (rfl)
@[simp] theorem opened_reads (o : Owner) (s : State) : (opened o s).reads = s.reads := (rfl)

/-! ## `closed` -/

@[simp] theorem closed_page (s : State) : (closed s).page = s.page := (rfl)
@[simp] theorem closed_offset (s : State) : (closed s).offset = s.offset := (rfl)
@[simp] theorem closed_size (s : State) : (closed s).size = s.size := (rfl)
@[simp] theorem closed_sector (s : State) : (closed s).sector = s.sector := (rfl)
@[simp] theorem closed_busy (s : State) : (closed s).busy = s.busy := (rfl)
@[simp] theorem closed_diagOk (s : State) : (closed s).diagOk = s.diagOk := (rfl)
@[simp] theorem closed_id (s : State) : (closed s).id = s.id := (rfl)
@[simp] theorem closed_sr (s : State) : (closed s).sr = s.sr := (rfl)
@[simp] theorem closed_seq (s : State) : (closed s).seq = s.seq := (rfl)
@[simp] theorem closed_ret (s : State) : (closed s).ret = s.ret := (rfl)
@[simp] theorem closed_hret (s : State) : (closed s).hret = s.hret := (rfl)
@[simp] theorem closed_cop (s : State) : (closed s).cop = s.cop := (rfl)
@[simp] theorem closed_addr (s : State) : (closed s).addr = s.addr := (rfl)
@[simp] theorem closed_cur (s : State) : (closed s).cur = s.cur := (rfl)
@[simp] theorem closed_idx (s : State) : (closed s).idx = s.idx := (rfl)
@[simp] theorem closed_rem (s : State) : (closed s).rem = s.rem := (rfl)
@[simp] theorem closed_n (s : State) : (closed s).n = s.n := (rfl)
@[simp] theorem closed_cnt (s : State) : (closed s).cnt = s.cnt := (rfl)
@[simp] theorem closed_k (s : State) : (closed s).k = s.k := (rfl)
@[simp] theorem closed_own (s : State) : (closed s).own = .none := (rfl)
@[simp] theorem closed_cs (s : State) : (closed s).cs = false := (rfl)
@[simp] theorem closed_wp (s : State) : (closed s).wp = s.wp := (rfl)
@[simp] theorem closed_rst (s : State) : (closed s).rst = s.rst := (rfl)
@[simp] theorem closed_cfg (s : State) : (closed s).cfg = s.cfg := (rfl)
@[simp] theorem closed_hbuf (s : State) : (closed s).hbuf = s.hbuf := (rfl)
@[simp] theorem closed_dev (s : State) : (closed s).dev = s.dev.endFrame s.cfg s.wp := (rfl)
@[simp] theorem closed_moves (s : State) : (closed s).moves = s.moves := (rfl)
@[simp] theorem closed_answers (s : State) : (closed s).answers = s.answers := (rfl)
@[simp] theorem closed_draws (s : State) : (closed s).draws = s.draws := (rfl)
@[simp] theorem closed_trace (s : State) : (closed s).trace = s.trace ++ [.des] := (rfl)
@[simp] theorem closed_reads (s : State) : (closed s).reads = s.reads := (rfl)

/-! ## `memWrite` -/

@[simp] theorem memWrite_page (i : Word) (v : Byte) (s : State) : (memWrite i v s).page = s.page := (rfl)
@[simp] theorem memWrite_offset (i : Word) (v : Byte) (s : State) : (memWrite i v s).offset = s.offset := (rfl)
@[simp] theorem memWrite_size (i : Word) (v : Byte) (s : State) : (memWrite i v s).size = s.size := (rfl)
@[simp] theorem memWrite_sector (i : Word) (v : Byte) (s : State) : (memWrite i v s).sector = s.sector := (rfl)
@[simp] theorem memWrite_busy (i : Word) (v : Byte) (s : State) : (memWrite i v s).busy = s.busy := (rfl)
@[simp] theorem memWrite_diagOk (i : Word) (v : Byte) (s : State) : (memWrite i v s).diagOk = s.diagOk := (rfl)
@[simp] theorem memWrite_id (i : Word) (v : Byte) (s : State) : (memWrite i v s).id = s.id := (rfl)
@[simp] theorem memWrite_sr (i : Word) (v : Byte) (s : State) : (memWrite i v s).sr = s.sr := (rfl)
@[simp] theorem memWrite_seq (i : Word) (v : Byte) (s : State) : (memWrite i v s).seq = s.seq := (rfl)
@[simp] theorem memWrite_ret (i : Word) (v : Byte) (s : State) : (memWrite i v s).ret = s.ret := (rfl)
@[simp] theorem memWrite_hret (i : Word) (v : Byte) (s : State) : (memWrite i v s).hret = s.hret := (rfl)
@[simp] theorem memWrite_cop (i : Word) (v : Byte) (s : State) : (memWrite i v s).cop = s.cop := (rfl)
@[simp] theorem memWrite_addr (i : Word) (v : Byte) (s : State) : (memWrite i v s).addr = s.addr := (rfl)
@[simp] theorem memWrite_cur (i : Word) (v : Byte) (s : State) : (memWrite i v s).cur = s.cur := (rfl)
@[simp] theorem memWrite_idx (i : Word) (v : Byte) (s : State) : (memWrite i v s).idx = s.idx := (rfl)
@[simp] theorem memWrite_rem (i : Word) (v : Byte) (s : State) : (memWrite i v s).rem = s.rem := (rfl)
@[simp] theorem memWrite_n (i : Word) (v : Byte) (s : State) : (memWrite i v s).n = s.n := (rfl)
@[simp] theorem memWrite_cnt (i : Word) (v : Byte) (s : State) : (memWrite i v s).cnt = s.cnt := (rfl)
@[simp] theorem memWrite_k (i : Word) (v : Byte) (s : State) : (memWrite i v s).k = s.k := (rfl)
@[simp] theorem memWrite_own (i : Word) (v : Byte) (s : State) : (memWrite i v s).own = s.own := (rfl)
@[simp] theorem memWrite_cs (i : Word) (v : Byte) (s : State) : (memWrite i v s).cs = s.cs := (rfl)
@[simp] theorem memWrite_wp (i : Word) (v : Byte) (s : State) : (memWrite i v s).wp = s.wp := (rfl)
@[simp] theorem memWrite_rst (i : Word) (v : Byte) (s : State) : (memWrite i v s).rst = s.rst := (rfl)
@[simp] theorem memWrite_cfg (i : Word) (v : Byte) (s : State) : (memWrite i v s).cfg = s.cfg := (rfl)
@[simp] theorem memWrite_hbuf (i : Word) (v : Byte) (s : State) : (memWrite i v s).hbuf = s.hbuf.write i.toNat v := (rfl)
@[simp] theorem memWrite_dev (i : Word) (v : Byte) (s : State) : (memWrite i v s).dev = s.dev := (rfl)
@[simp] theorem memWrite_moves (i : Word) (v : Byte) (s : State) : (memWrite i v s).moves = s.moves := (rfl)
@[simp] theorem memWrite_answers (i : Word) (v : Byte) (s : State) : (memWrite i v s).answers = s.answers := (rfl)
@[simp] theorem memWrite_draws (i : Word) (v : Byte) (s : State) : (memWrite i v s).draws = s.draws := (rfl)
@[simp] theorem memWrite_trace (i : Word) (v : Byte) (s : State) : (memWrite i v s).trace = s.trace ++ [.hwr i v] := (rfl)
@[simp] theorem memWrite_reads (i : Word) (v : Byte) (s : State) : (memWrite i v s).reads = s.reads := (rfl)

/-! ## `memRead` -/

@[simp] theorem memRead_page (i : Word) (s : State) : (memRead i s).page = s.page := (rfl)
@[simp] theorem memRead_offset (i : Word) (s : State) : (memRead i s).offset = s.offset := (rfl)
@[simp] theorem memRead_size (i : Word) (s : State) : (memRead i s).size = s.size := (rfl)
@[simp] theorem memRead_sector (i : Word) (s : State) : (memRead i s).sector = s.sector := (rfl)
@[simp] theorem memRead_busy (i : Word) (s : State) : (memRead i s).busy = s.busy := (rfl)
@[simp] theorem memRead_diagOk (i : Word) (s : State) : (memRead i s).diagOk = s.diagOk := (rfl)
@[simp] theorem memRead_id (i : Word) (s : State) : (memRead i s).id = s.id := (rfl)
@[simp] theorem memRead_sr (i : Word) (s : State) : (memRead i s).sr = s.sr := (rfl)
@[simp] theorem memRead_seq (i : Word) (s : State) : (memRead i s).seq = s.seq := (rfl)
@[simp] theorem memRead_ret (i : Word) (s : State) : (memRead i s).ret = s.ret := (rfl)
@[simp] theorem memRead_hret (i : Word) (s : State) : (memRead i s).hret = s.hret := (rfl)
@[simp] theorem memRead_cop (i : Word) (s : State) : (memRead i s).cop = s.cop := (rfl)
@[simp] theorem memRead_addr (i : Word) (s : State) : (memRead i s).addr = s.addr := (rfl)
@[simp] theorem memRead_cur (i : Word) (s : State) : (memRead i s).cur = s.cur := (rfl)
@[simp] theorem memRead_idx (i : Word) (s : State) : (memRead i s).idx = s.idx := (rfl)
@[simp] theorem memRead_rem (i : Word) (s : State) : (memRead i s).rem = s.rem := (rfl)
@[simp] theorem memRead_n (i : Word) (s : State) : (memRead i s).n = s.n := (rfl)
@[simp] theorem memRead_cnt (i : Word) (s : State) : (memRead i s).cnt = s.cnt := (rfl)
@[simp] theorem memRead_k (i : Word) (s : State) : (memRead i s).k = s.k := (rfl)
@[simp] theorem memRead_own (i : Word) (s : State) : (memRead i s).own = s.own := (rfl)
@[simp] theorem memRead_cs (i : Word) (s : State) : (memRead i s).cs = s.cs := (rfl)
@[simp] theorem memRead_wp (i : Word) (s : State) : (memRead i s).wp = s.wp := (rfl)
@[simp] theorem memRead_rst (i : Word) (s : State) : (memRead i s).rst = s.rst := (rfl)
@[simp] theorem memRead_cfg (i : Word) (s : State) : (memRead i s).cfg = s.cfg := (rfl)
@[simp] theorem memRead_hbuf (i : Word) (s : State) : (memRead i s).hbuf = s.hbuf := (rfl)
@[simp] theorem memRead_dev (i : Word) (s : State) : (memRead i s).dev = s.dev := (rfl)
@[simp] theorem memRead_moves (i : Word) (s : State) : (memRead i s).moves = s.moves := (rfl)
@[simp] theorem memRead_answers (i : Word) (s : State) : (memRead i s).answers = s.answers := (rfl)
@[simp] theorem memRead_draws (i : Word) (s : State) : (memRead i s).draws = s.draws := (rfl)
@[simp] theorem memRead_trace (i : Word) (s : State) : (memRead i s).trace = s.trace ++ [.hrd i (hostByte s i)] := (rfl)
@[simp] theorem memRead_reads (i : Word) (s : State) : (memRead i s).reads = s.reads := (rfl)

/-! ## `setWp` -/

@[simp] theorem setWp_page (b : Bool) (s : State) : (setWp b s).page = s.page := (rfl)
@[simp] theorem setWp_offset (b : Bool) (s : State) : (setWp b s).offset = s.offset := (rfl)
@[simp] theorem setWp_size (b : Bool) (s : State) : (setWp b s).size = s.size := (rfl)
@[simp] theorem setWp_sector (b : Bool) (s : State) : (setWp b s).sector = s.sector := (rfl)
@[simp] theorem setWp_busy (b : Bool) (s : State) : (setWp b s).busy = s.busy := (rfl)
@[simp] theorem setWp_diagOk (b : Bool) (s : State) : (setWp b s).diagOk = s.diagOk := (rfl)
@[simp] theorem setWp_id (b : Bool) (s : State) : (setWp b s).id = s.id := (rfl)
@[simp] theorem setWp_sr (b : Bool) (s : State) : (setWp b s).sr = s.sr := (rfl)
@[simp] theorem setWp_seq (b : Bool) (s : State) : (setWp b s).seq = s.seq := (rfl)
@[simp] theorem setWp_ret (b : Bool) (s : State) : (setWp b s).ret = s.ret := (rfl)
@[simp] theorem setWp_hret (b : Bool) (s : State) : (setWp b s).hret = s.hret := (rfl)
@[simp] theorem setWp_cop (b : Bool) (s : State) : (setWp b s).cop = s.cop := (rfl)
@[simp] theorem setWp_addr (b : Bool) (s : State) : (setWp b s).addr = s.addr := (rfl)
@[simp] theorem setWp_cur (b : Bool) (s : State) : (setWp b s).cur = s.cur := (rfl)
@[simp] theorem setWp_idx (b : Bool) (s : State) : (setWp b s).idx = s.idx := (rfl)
@[simp] theorem setWp_rem (b : Bool) (s : State) : (setWp b s).rem = s.rem := (rfl)
@[simp] theorem setWp_n (b : Bool) (s : State) : (setWp b s).n = s.n := (rfl)
@[simp] theorem setWp_cnt (b : Bool) (s : State) : (setWp b s).cnt = s.cnt := (rfl)
@[simp] theorem setWp_k (b : Bool) (s : State) : (setWp b s).k = s.k := (rfl)
@[simp] theorem setWp_own (b : Bool) (s : State) : (setWp b s).own = s.own := (rfl)
@[simp] theorem setWp_cs (b : Bool) (s : State) : (setWp b s).cs = s.cs := (rfl)
@[simp] theorem setWp_wp (b : Bool) (s : State) : (setWp b s).wp = b := (rfl)
@[simp] theorem setWp_rst (b : Bool) (s : State) : (setWp b s).rst = s.rst := (rfl)
@[simp] theorem setWp_cfg (b : Bool) (s : State) : (setWp b s).cfg = s.cfg := (rfl)
@[simp] theorem setWp_hbuf (b : Bool) (s : State) : (setWp b s).hbuf = s.hbuf := (rfl)
@[simp] theorem setWp_dev (b : Bool) (s : State) : (setWp b s).dev = s.dev := (rfl)
@[simp] theorem setWp_moves (b : Bool) (s : State) : (setWp b s).moves = s.moves := (rfl)
@[simp] theorem setWp_answers (b : Bool) (s : State) : (setWp b s).answers = s.answers := (rfl)
@[simp] theorem setWp_draws (b : Bool) (s : State) : (setWp b s).draws = s.draws := (rfl)
@[simp] theorem setWp_trace (b : Bool) (s : State) : (setWp b s).trace = s.trace ++ [.wp b] := (rfl)
@[simp] theorem setWp_reads (b : Bool) (s : State) : (setWp b s).reads = s.reads := (rfl)

/-! ## `setRst` -/

@[simp] theorem setRst_page (b : Bool) (s : State) : (setRst b s).page = s.page := (rfl)
@[simp] theorem setRst_offset (b : Bool) (s : State) : (setRst b s).offset = s.offset := (rfl)
@[simp] theorem setRst_size (b : Bool) (s : State) : (setRst b s).size = s.size := (rfl)
@[simp] theorem setRst_sector (b : Bool) (s : State) : (setRst b s).sector = s.sector := (rfl)
@[simp] theorem setRst_busy (b : Bool) (s : State) : (setRst b s).busy = s.busy := (rfl)
@[simp] theorem setRst_diagOk (b : Bool) (s : State) : (setRst b s).diagOk = s.diagOk := (rfl)
@[simp] theorem setRst_id (b : Bool) (s : State) : (setRst b s).id = s.id := (rfl)
@[simp] theorem setRst_sr (b : Bool) (s : State) : (setRst b s).sr = s.sr := (rfl)
@[simp] theorem setRst_seq (b : Bool) (s : State) : (setRst b s).seq = s.seq := (rfl)
@[simp] theorem setRst_ret (b : Bool) (s : State) : (setRst b s).ret = s.ret := (rfl)
@[simp] theorem setRst_hret (b : Bool) (s : State) : (setRst b s).hret = s.hret := (rfl)
@[simp] theorem setRst_cop (b : Bool) (s : State) : (setRst b s).cop = s.cop := (rfl)
@[simp] theorem setRst_addr (b : Bool) (s : State) : (setRst b s).addr = s.addr := (rfl)
@[simp] theorem setRst_cur (b : Bool) (s : State) : (setRst b s).cur = s.cur := (rfl)
@[simp] theorem setRst_idx (b : Bool) (s : State) : (setRst b s).idx = s.idx := (rfl)
@[simp] theorem setRst_rem (b : Bool) (s : State) : (setRst b s).rem = s.rem := (rfl)
@[simp] theorem setRst_n (b : Bool) (s : State) : (setRst b s).n = s.n := (rfl)
@[simp] theorem setRst_cnt (b : Bool) (s : State) : (setRst b s).cnt = s.cnt := (rfl)
@[simp] theorem setRst_k (b : Bool) (s : State) : (setRst b s).k = s.k := (rfl)
@[simp] theorem setRst_own (b : Bool) (s : State) : (setRst b s).own = s.own := (rfl)
@[simp] theorem setRst_cs (b : Bool) (s : State) : (setRst b s).cs = s.cs := (rfl)
@[simp] theorem setRst_wp (b : Bool) (s : State) : (setRst b s).wp = s.wp := (rfl)
@[simp] theorem setRst_rst (b : Bool) (s : State) : (setRst b s).rst = b := (rfl)
@[simp] theorem setRst_cfg (b : Bool) (s : State) : (setRst b s).cfg = s.cfg := (rfl)
@[simp] theorem setRst_hbuf (b : Bool) (s : State) : (setRst b s).hbuf = s.hbuf := (rfl)
@[simp] theorem setRst_dev (b : Bool) (s : State) : (setRst b s).dev = if s.rst && !b then s.dev.resetPulse else s.dev := (rfl)
@[simp] theorem setRst_moves (b : Bool) (s : State) : (setRst b s).moves = s.moves := (rfl)
@[simp] theorem setRst_answers (b : Bool) (s : State) : (setRst b s).answers = s.answers := (rfl)
@[simp] theorem setRst_draws (b : Bool) (s : State) : (setRst b s).draws = s.draws := (rfl)
@[simp] theorem setRst_trace (b : Bool) (s : State) : (setRst b s).trace = s.trace ++ [.rst b] := (rfl)
@[simp] theorem setRst_reads (b : Bool) (s : State) : (setRst b s).reads = s.reads := (rfl)

/-! ## `delayMs` -/

@[simp] theorem delayMs_page (ms : Nat) (s : State) : (delayMs ms s).page = s.page := (rfl)
@[simp] theorem delayMs_offset (ms : Nat) (s : State) : (delayMs ms s).offset = s.offset := (rfl)
@[simp] theorem delayMs_size (ms : Nat) (s : State) : (delayMs ms s).size = s.size := (rfl)
@[simp] theorem delayMs_sector (ms : Nat) (s : State) : (delayMs ms s).sector = s.sector := (rfl)
@[simp] theorem delayMs_busy (ms : Nat) (s : State) : (delayMs ms s).busy = s.busy := (rfl)
@[simp] theorem delayMs_diagOk (ms : Nat) (s : State) : (delayMs ms s).diagOk = s.diagOk := (rfl)
@[simp] theorem delayMs_id (ms : Nat) (s : State) : (delayMs ms s).id = s.id := (rfl)
@[simp] theorem delayMs_sr (ms : Nat) (s : State) : (delayMs ms s).sr = s.sr := (rfl)
@[simp] theorem delayMs_seq (ms : Nat) (s : State) : (delayMs ms s).seq = s.seq := (rfl)
@[simp] theorem delayMs_ret (ms : Nat) (s : State) : (delayMs ms s).ret = s.ret := (rfl)
@[simp] theorem delayMs_hret (ms : Nat) (s : State) : (delayMs ms s).hret = s.hret := (rfl)
@[simp] theorem delayMs_cop (ms : Nat) (s : State) : (delayMs ms s).cop = s.cop := (rfl)
@[simp] theorem delayMs_addr (ms : Nat) (s : State) : (delayMs ms s).addr = s.addr := (rfl)
@[simp] theorem delayMs_cur (ms : Nat) (s : State) : (delayMs ms s).cur = s.cur := (rfl)
@[simp] theorem delayMs_idx (ms : Nat) (s : State) : (delayMs ms s).idx = s.idx := (rfl)
@[simp] theorem delayMs_rem (ms : Nat) (s : State) : (delayMs ms s).rem = s.rem := (rfl)
@[simp] theorem delayMs_n (ms : Nat) (s : State) : (delayMs ms s).n = s.n := (rfl)
@[simp] theorem delayMs_cnt (ms : Nat) (s : State) : (delayMs ms s).cnt = s.cnt := (rfl)
@[simp] theorem delayMs_k (ms : Nat) (s : State) : (delayMs ms s).k = s.k := (rfl)
@[simp] theorem delayMs_own (ms : Nat) (s : State) : (delayMs ms s).own = s.own := (rfl)
@[simp] theorem delayMs_cs (ms : Nat) (s : State) : (delayMs ms s).cs = s.cs := (rfl)
@[simp] theorem delayMs_wp (ms : Nat) (s : State) : (delayMs ms s).wp = s.wp := (rfl)
@[simp] theorem delayMs_rst (ms : Nat) (s : State) : (delayMs ms s).rst = s.rst := (rfl)
@[simp] theorem delayMs_cfg (ms : Nat) (s : State) : (delayMs ms s).cfg = s.cfg := (rfl)
@[simp] theorem delayMs_hbuf (ms : Nat) (s : State) : (delayMs ms s).hbuf = s.hbuf := (rfl)
@[simp] theorem delayMs_dev (ms : Nat) (s : State) : (delayMs ms s).dev = s.dev := (rfl)
@[simp] theorem delayMs_moves (ms : Nat) (s : State) : (delayMs ms s).moves = s.moves := (rfl)
@[simp] theorem delayMs_answers (ms : Nat) (s : State) : (delayMs ms s).answers = s.answers := (rfl)
@[simp] theorem delayMs_draws (ms : Nat) (s : State) : (delayMs ms s).draws = s.draws := (rfl)
@[simp] theorem delayMs_trace (ms : Nat) (s : State) : (delayMs ms s).trace = s.trace ++ [.delay ms] := (rfl)
@[simp] theorem delayMs_reads (ms : Nat) (s : State) : (delayMs ms s).reads = s.reads := (rfl)

/-! ## `callPoll` -/

@[simp] theorem callPoll_page (r : Seq) (s : State) : (callPoll r s).page = s.page := (rfl)
@[simp] theorem callPoll_offset (r : Seq) (s : State) : (callPoll r s).offset = s.offset := (rfl)
@[simp] theorem callPoll_size (r : Seq) (s : State) : (callPoll r s).size = s.size := (rfl)
@[simp] theorem callPoll_sector (r : Seq) (s : State) : (callPoll r s).sector = s.sector := (rfl)
@[simp] theorem callPoll_busy (r : Seq) (s : State) : (callPoll r s).busy = s.busy := (rfl)
@[simp] theorem callPoll_diagOk (r : Seq) (s : State) : (callPoll r s).diagOk = s.diagOk := (rfl)
@[simp] theorem callPoll_id (r : Seq) (s : State) : (callPoll r s).id = s.id := (rfl)
@[simp] theorem callPoll_sr (r : Seq) (s : State) : (callPoll r s).sr = s.sr := (rfl)
@[simp] theorem callPoll_seq (r : Seq) (s : State) : (callPoll r s).seq = .pSel := (rfl)
@[simp] theorem callPoll_ret (r : Seq) (s : State) : (callPoll r s).ret = r := (rfl)
@[simp] theorem callPoll_hret (r : Seq) (s : State) : (callPoll r s).hret = s.hret := (rfl)
@[simp] theorem callPoll_cop (r : Seq) (s : State) : (callPoll r s).cop = s.cop := (rfl)
@[simp] theorem callPoll_addr (r : Seq) (s : State) : (callPoll r s).addr = s.addr := (rfl)
@[simp] theorem callPoll_cur (r : Seq) (s : State) : (callPoll r s).cur = s.cur := (rfl)
@[simp] theorem callPoll_idx (r : Seq) (s : State) : (callPoll r s).idx = s.idx := (rfl)
@[simp] theorem callPoll_rem (r : Seq) (s : State) : (callPoll r s).rem = s.rem := (rfl)
@[simp] theorem callPoll_n (r : Seq) (s : State) : (callPoll r s).n = s.n := (rfl)
@[simp] theorem callPoll_cnt (r : Seq) (s : State) : (callPoll r s).cnt = s.cnt := (rfl)
@[simp] theorem callPoll_k (r : Seq) (s : State) : (callPoll r s).k = s.k := (rfl)
@[simp] theorem callPoll_own (r : Seq) (s : State) : (callPoll r s).own = s.own := (rfl)
@[simp] theorem callPoll_cs (r : Seq) (s : State) : (callPoll r s).cs = s.cs := (rfl)
@[simp] theorem callPoll_wp (r : Seq) (s : State) : (callPoll r s).wp = s.wp := (rfl)
@[simp] theorem callPoll_rst (r : Seq) (s : State) : (callPoll r s).rst = s.rst := (rfl)
@[simp] theorem callPoll_cfg (r : Seq) (s : State) : (callPoll r s).cfg = s.cfg := (rfl)
@[simp] theorem callPoll_hbuf (r : Seq) (s : State) : (callPoll r s).hbuf = s.hbuf := (rfl)
@[simp] theorem callPoll_dev (r : Seq) (s : State) : (callPoll r s).dev = s.dev := (rfl)
@[simp] theorem callPoll_moves (r : Seq) (s : State) : (callPoll r s).moves = s.moves := (rfl)
@[simp] theorem callPoll_answers (r : Seq) (s : State) : (callPoll r s).answers = s.answers := (rfl)
@[simp] theorem callPoll_draws (r : Seq) (s : State) : (callPoll r s).draws = s.draws := (rfl)
@[simp] theorem callPoll_trace (r : Seq) (s : State) : (callPoll r s).trace = s.trace := (rfl)
@[simp] theorem callPoll_reads (r : Seq) (s : State) : (callPoll r s).reads = s.reads := (rfl)

/-! ## `callHeader` -/

@[simp] theorem callHeader_page (op : Byte) (a : Addr) (r : Seq) (s : State) : (callHeader op a r s).page = s.page := (rfl)
@[simp] theorem callHeader_offset (op : Byte) (a : Addr) (r : Seq) (s : State) : (callHeader op a r s).offset = s.offset := (rfl)
@[simp] theorem callHeader_size (op : Byte) (a : Addr) (r : Seq) (s : State) : (callHeader op a r s).size = s.size := (rfl)
@[simp] theorem callHeader_sector (op : Byte) (a : Addr) (r : Seq) (s : State) : (callHeader op a r s).sector = s.sector := (rfl)
@[simp] theorem callHeader_busy (op : Byte) (a : Addr) (r : Seq) (s : State) : (callHeader op a r s).busy = s.busy := (rfl)
@[simp] theorem callHeader_diagOk (op : Byte) (a : Addr) (r : Seq) (s : State) : (callHeader op a r s).diagOk = s.diagOk := (rfl)
@[simp] theorem callHeader_id (op : Byte) (a : Addr) (r : Seq) (s : State) : (callHeader op a r s).id = s.id := (rfl)
@[simp] theorem callHeader_sr (op : Byte) (a : Addr) (r : Seq) (s : State) : (callHeader op a r s).sr = s.sr := (rfl)
@[simp] theorem callHeader_seq (op : Byte) (a : Addr) (r : Seq) (s : State) : (callHeader op a r s).seq = .hSel := (rfl)
@[simp] theorem callHeader_ret (op : Byte) (a : Addr) (r : Seq) (s : State) : (callHeader op a r s).ret = s.ret := (rfl)
@[simp] theorem callHeader_hret (op : Byte) (a : Addr) (r : Seq) (s : State) : (callHeader op a r s).hret = r := (rfl)
@[simp] theorem callHeader_cop (op : Byte) (a : Addr) (r : Seq) (s : State) : (callHeader op a r s).cop = op := (rfl)
@[simp] theorem callHeader_addr (op : Byte) (a : Addr) (r : Seq) (s : State) : (callHeader op a r s).addr = a := (rfl)
@[simp] theorem callHeader_cur (op : Byte) (a : Addr) (r : Seq) (s : State) : (callHeader op a r s).cur = s.cur := (rfl)
@[simp] theorem callHeader_idx (op : Byte) (a : Addr) (r : Seq) (s : State) : (callHeader op a r s).idx = s.idx := (rfl)
@[simp] theorem callHeader_rem (op : Byte) (a : Addr) (r : Seq) (s : State) : (callHeader op a r s).rem = s.rem := (rfl)
@[simp] theorem callHeader_n (op : Byte) (a : Addr) (r : Seq) (s : State) : (callHeader op a r s).n = s.n := (rfl)
@[simp] theorem callHeader_cnt (op : Byte) (a : Addr) (r : Seq) (s : State) : (callHeader op a r s).cnt = s.cnt := (rfl)
@[simp] theorem callHeader_k (op : Byte) (a : Addr) (r : Seq) (s : State) : (callHeader op a r s).k = s.k := (rfl)
@[simp] theorem callHeader_own (op : Byte) (a : Addr) (r : Seq) (s : State) : (callHeader op a r s).own = s.own := (rfl)
@[simp] theorem callHeader_cs (op : Byte) (a : Addr) (r : Seq) (s : State) : (callHeader op a r s).cs = s.cs := (rfl)
@[simp] theorem callHeader_wp (op : Byte) (a : Addr) (r : Seq) (s : State) : (callHeader op a r s).wp = s.wp := (rfl)
@[simp] theorem callHeader_rst (op : Byte) (a : Addr) (r : Seq) (s : State) : (callHeader op a r s).rst = s.rst := (rfl)
@[simp] theorem callHeader_cfg (op : Byte) (a : Addr) (r : Seq) (s : State) : (callHeader op a r s).cfg = s.cfg := (rfl)
@[simp] theorem callHeader_hbuf (op : Byte) (a : Addr) (r : Seq) (s : State) : (callHeader op a r s).hbuf = s.hbuf := (rfl)
@[simp] theorem callHeader_dev (op : Byte) (a : Addr) (r : Seq) (s : State) : (callHeader op a r s).dev = s.dev := (rfl)
@[simp] theorem callHeader_moves (op : Byte) (a : Addr) (r : Seq) (s : State) : (callHeader op a r s).moves = s.moves := (rfl)
@[simp] theorem callHeader_answers (op : Byte) (a : Addr) (r : Seq) (s : State) : (callHeader op a r s).answers = s.answers := (rfl)
@[simp] theorem callHeader_draws (op : Byte) (a : Addr) (r : Seq) (s : State) : (callHeader op a r s).draws = s.draws := (rfl)
@[simp] theorem callHeader_trace (op : Byte) (a : Addr) (r : Seq) (s : State) : (callHeader op a r s).trace = s.trace := (rfl)
@[simp] theorem callHeader_reads (op : Byte) (a : Addr) (r : Seq) (s : State) : (callHeader op a r s).reads = s.reads := (rfl)

/-! ## `nextChunk` -/

@[simp] theorem nextChunk_page (s : State) : (nextChunk s).page = s.page := (rfl)
@[simp] theorem nextChunk_offset (s : State) : (nextChunk s).offset = s.offset := (rfl)
@[simp] theorem nextChunk_size (s : State) : (nextChunk s).size = s.size := (rfl)
@[simp] theorem nextChunk_sector (s : State) : (nextChunk s).sector = s.sector := (rfl)
@[simp] theorem nextChunk_busy (s : State) : (nextChunk s).busy = s.busy := (rfl)
@[simp] theorem nextChunk_diagOk (s : State) : (nextChunk s).diagOk = s.diagOk := (rfl)
@[simp] theorem nextChunk_id (s : State) : (nextChunk s).id = s.id := (rfl)
@[simp] theorem nextChunk_sr (s : State) : (nextChunk s).sr = s.sr := (rfl)
@[simp] theorem nextChunk_seq (s : State) : (nextChunk s).seq = s.seq := (rfl)
@[simp] theorem nextChunk_ret (s : State) : (nextChunk s).ret = s.ret := (rfl)
@[simp] theorem nextChunk_hret (s : State) : (nextChunk s).hret = s.hret := (rfl)
@[simp] theorem nextChunk_cop (s : State) : (nextChunk s).cop = s.cop := (rfl)
@[simp] theorem nextChunk_addr (s : State) : (nextChunk s).addr = s.addr := (rfl)
@[simp] theorem nextChunk_cur (s : State) : (nextChunk s).cur = s.cur + 1 := (rfl)
@[simp] theorem nextChunk_idx (s : State) : (nextChunk s).idx = s.idx + s.n := (rfl)
@[simp] theorem nextChunk_rem (s : State) : (nextChunk s).rem = s.rem - s.n := (rfl)
@[simp] theorem nextChunk_n (s : State) : (nextChunk s).n = s.n := (rfl)
@[simp] theorem nextChunk_cnt (s : State) : (nextChunk s).cnt = s.cnt := (rfl)
@[simp] theorem nextChunk_k (s : State) : (nextChunk s).k = s.k := (rfl)
@[simp] theorem nextChunk_own (s : State) : (nextChunk s).own = s.own := (rfl)
@[simp] theorem nextChunk_cs (s : State) : (nextChunk s).cs = s.cs := (rfl)
@[simp] theorem nextChunk_wp (s : State) : (nextChunk s).wp = s.wp := (rfl)
@[simp] theorem nextChunk_rst (s : State) : (nextChunk s).rst = s.rst := (rfl)
@[simp] theorem nextChunk_cfg (s : State) : (nextChunk s).cfg = s.cfg := (rfl)
@[simp] theorem nextChunk_hbuf (s : State) : (nextChunk s).hbuf = s.hbuf := (rfl)
@[simp] theorem nextChunk_dev (s : State) : (nextChunk s).dev = s.dev := (rfl)
@[simp] theorem nextChunk_moves (s : State) : (nextChunk s).moves = s.moves := (rfl)
@[simp] theorem nextChunk_answers (s : State) : (nextChunk s).answers = s.answers := (rfl)
@[simp] theorem nextChunk_draws (s : State) : (nextChunk s).draws = s.draws := (rfl)
@[simp] theorem nextChunk_trace (s : State) : (nextChunk s).trace = s.trace := (rfl)
@[simp] theorem nextChunk_reads (s : State) : (nextChunk s).reads = s.reads := (rfl)

/-! ## `sending` -/

@[simp] theorem sending_page (op : Byte) (a : Addr) (s : State) : (sending op a s).page = s.page := (rfl)
@[simp] theorem sending_offset (op : Byte) (a : Addr) (s : State) : (sending op a s).offset = s.offset := (rfl)
@[simp] theorem sending_size (op : Byte) (a : Addr) (s : State) : (sending op a s).size = s.size := (rfl)
@[simp] theorem sending_sector (op : Byte) (a : Addr) (s : State) : (sending op a s).sector = s.sector := (rfl)
@[simp] theorem sending_busy (op : Byte) (a : Addr) (s : State) : (sending op a s).busy = s.busy := (rfl)
@[simp] theorem sending_diagOk (op : Byte) (a : Addr) (s : State) : (sending op a s).diagOk = s.diagOk := (rfl)
@[simp] theorem sending_id (op : Byte) (a : Addr) (s : State) : (sending op a s).id = s.id := (rfl)
@[simp] theorem sending_sr (op : Byte) (a : Addr) (s : State) : (sending op a s).sr = s.sr := (rfl)
@[simp] theorem sending_seq (op : Byte) (a : Addr) (s : State) : (sending op a s).seq = s.seq := (rfl)
@[simp] theorem sending_ret (op : Byte) (a : Addr) (s : State) : (sending op a s).ret = s.ret := (rfl)
@[simp] theorem sending_hret (op : Byte) (a : Addr) (s : State) : (sending op a s).hret = s.hret := (rfl)
@[simp] theorem sending_cop (op : Byte) (a : Addr) (s : State) : (sending op a s).cop = op := (rfl)
@[simp] theorem sending_addr (op : Byte) (a : Addr) (s : State) : (sending op a s).addr = a := (rfl)
@[simp] theorem sending_cur (op : Byte) (a : Addr) (s : State) : (sending op a s).cur = s.cur := (rfl)
@[simp] theorem sending_idx (op : Byte) (a : Addr) (s : State) : (sending op a s).idx = s.idx := (rfl)
@[simp] theorem sending_rem (op : Byte) (a : Addr) (s : State) : (sending op a s).rem = s.rem := (rfl)
@[simp] theorem sending_n (op : Byte) (a : Addr) (s : State) : (sending op a s).n = s.n := (rfl)
@[simp] theorem sending_cnt (op : Byte) (a : Addr) (s : State) : (sending op a s).cnt = s.cnt := (rfl)
@[simp] theorem sending_k (op : Byte) (a : Addr) (s : State) : (sending op a s).k = s.k := (rfl)
@[simp] theorem sending_own (op : Byte) (a : Addr) (s : State) : (sending op a s).own = s.own := (rfl)
@[simp] theorem sending_cs (op : Byte) (a : Addr) (s : State) : (sending op a s).cs = s.cs := (rfl)
@[simp] theorem sending_wp (op : Byte) (a : Addr) (s : State) : (sending op a s).wp = s.wp := (rfl)
@[simp] theorem sending_rst (op : Byte) (a : Addr) (s : State) : (sending op a s).rst = s.rst := (rfl)
@[simp] theorem sending_cfg (op : Byte) (a : Addr) (s : State) : (sending op a s).cfg = s.cfg := (rfl)
@[simp] theorem sending_hbuf (op : Byte) (a : Addr) (s : State) : (sending op a s).hbuf = s.hbuf := (rfl)
@[simp] theorem sending_dev (op : Byte) (a : Addr) (s : State) : (sending op a s).dev = s.dev := (rfl)
@[simp] theorem sending_moves (op : Byte) (a : Addr) (s : State) : (sending op a s).moves = s.moves := (rfl)
@[simp] theorem sending_answers (op : Byte) (a : Addr) (s : State) : (sending op a s).answers = s.answers := (rfl)
@[simp] theorem sending_draws (op : Byte) (a : Addr) (s : State) : (sending op a s).draws = s.draws := (rfl)
@[simp] theorem sending_trace (op : Byte) (a : Addr) (s : State) : (sending op a s).trace = s.trace := (rfl)
@[simp] theorem sending_reads (op : Byte) (a : Addr) (s : State) : (sending op a s).reads = s.reads := (rfl)

/-! ## `latchStatus` -/

@[simp] theorem latchStatus_page (v : Byte) (s : State) : (latchStatus v s).page = s.page := (rfl)
@[simp] theorem latchStatus_offset (v : Byte) (s : State) : (latchStatus v s).offset = s.offset := (rfl)
@[simp] theorem latchStatus_size (v : Byte) (s : State) : (latchStatus v s).size = s.size := (rfl)
@[simp] theorem latchStatus_sector (v : Byte) (s : State) : (latchStatus v s).sector = s.sector := (rfl)
@[simp] theorem latchStatus_busy (v : Byte) (s : State) : (latchStatus v s).busy = s.busy := (rfl)
@[simp] theorem latchStatus_diagOk (v : Byte) (s : State) : (latchStatus v s).diagOk = s.diagOk := (rfl)
@[simp] theorem latchStatus_id (v : Byte) (s : State) : (latchStatus v s).id = s.id := (rfl)
@[simp] theorem latchStatus_sr (v : Byte) (s : State) : (latchStatus v s).sr = v := (rfl)
@[simp] theorem latchStatus_seq (v : Byte) (s : State) : (latchStatus v s).seq = s.seq := (rfl)
@[simp] theorem latchStatus_ret (v : Byte) (s : State) : (latchStatus v s).ret = s.ret := (rfl)
@[simp] theorem latchStatus_hret (v : Byte) (s : State) : (latchStatus v s).hret = s.hret := (rfl)
@[simp] theorem latchStatus_cop (v : Byte) (s : State) : (latchStatus v s).cop = s.cop := (rfl)
@[simp] theorem latchStatus_addr (v : Byte) (s : State) : (latchStatus v s).addr = s.addr := (rfl)
@[simp] theorem latchStatus_cur (v : Byte) (s : State) : (latchStatus v s).cur = s.cur := (rfl)
@[simp] theorem latchStatus_idx (v : Byte) (s : State) : (latchStatus v s).idx = s.idx := (rfl)
@[simp] theorem latchStatus_rem (v : Byte) (s : State) : (latchStatus v s).rem = s.rem := (rfl)
@[simp] theorem latchStatus_n (v : Byte) (s : State) : (latchStatus v s).n = s.n := (rfl)
@[simp] theorem latchStatus_cnt (v : Byte) (s : State) : (latchStatus v s).cnt = s.cnt := (rfl)
@[simp] theorem latchStatus_k (v : Byte) (s : State) : (latchStatus v s).k = s.k := (rfl)
@[simp] theorem latchStatus_own (v : Byte) (s : State) : (latchStatus v s).own = s.own := (rfl)
@[simp] theorem latchStatus_cs (v : Byte) (s : State) : (latchStatus v s).cs = s.cs := (rfl)
@[simp] theorem latchStatus_wp (v : Byte) (s : State) : (latchStatus v s).wp = s.wp := (rfl)
@[simp] theorem latchStatus_rst (v : Byte) (s : State) : (latchStatus v s).rst = s.rst := (rfl)
@[simp] theorem latchStatus_cfg (v : Byte) (s : State) : (latchStatus v s).cfg = s.cfg := (rfl)
@[simp] theorem latchStatus_hbuf (v : Byte) (s : State) : (latchStatus v s).hbuf = s.hbuf := (rfl)
@[simp] theorem latchStatus_dev (v : Byte) (s : State) : (latchStatus v s).dev = s.dev := (rfl)
@[simp] theorem latchStatus_moves (v : Byte) (s : State) : (latchStatus v s).moves = s.moves := (rfl)
@[simp] theorem latchStatus_answers (v : Byte) (s : State) : (latchStatus v s).answers = s.answers := (rfl)
@[simp] theorem latchStatus_draws (v : Byte) (s : State) : (latchStatus v s).draws = s.draws := (rfl)
@[simp] theorem latchStatus_trace (v : Byte) (s : State) : (latchStatus v s).trace = s.trace := (rfl)
@[simp] theorem latchStatus_reads (v : Byte) (s : State) : (latchStatus v s).reads = s.reads := (rfl)

/-! ## `startCount` -/

@[simp] theorem startCount_page (s : State) : (startCount s).page = s.page := (rfl)
@[simp] theorem startCount_offset (s : State) : (startCount s).offset = s.offset := (rfl)
@[simp] theorem startCount_size (s : State) : (startCount s).size = s.size := (rfl)
@[simp] theorem startCount_sector (s : State) : (startCount s).sector = s.sector := (rfl)
@[simp] theorem startCount_busy (s : State) : (startCount s).busy = s.busy := (rfl)
@[simp] theorem startCount_diagOk (s : State) : (startCount s).diagOk = s.diagOk := (rfl)
@[simp] theorem startCount_id (s : State) : (startCount s).id = s.id := (rfl)
@[simp] theorem startCount_sr (s : State) : (startCount s).sr = s.sr := (rfl)
@[simp] theorem startCount_seq (s : State) : (startCount s).seq = s.seq := (rfl)
@[simp] theorem startCount_ret (s : State) : (startCount s).ret = s.ret := (rfl)
@[simp] theorem startCount_hret (s : State) : (startCount s).hret = s.hret := (rfl)
@[simp] theorem startCount_cop (s : State) : (startCount s).cop = s.cop := (rfl)
@[simp] theorem startCount_addr (s : State) : (startCount s).addr = s.addr := (rfl)
@[simp] theorem startCount_cur (s : State) : (startCount s).cur = s.cur := (rfl)
@[simp] theorem startCount_idx (s : State) : (startCount s).idx = s.idx := (rfl)
@[simp] theorem startCount_rem (s : State) : (startCount s).rem = s.rem := (rfl)
@[simp] theorem startCount_n (s : State) : (startCount s).n = s.n := (rfl)
@[simp] theorem startCount_cnt (s : State) : (startCount s).cnt = 0 := (rfl)
@[simp] theorem startCount_k (s : State) : (startCount s).k = s.k := (rfl)
@[simp] theorem startCount_own (s : State) : (startCount s).own = s.own := (rfl)
@[simp] theorem startCount_cs (s : State) : (startCount s).cs = s.cs := (rfl)
@[simp] theorem startCount_wp (s : State) : (startCount s).wp = s.wp := (rfl)
@[simp] theorem startCount_rst (s : State) : (startCount s).rst = s.rst := (rfl)
@[simp] theorem startCount_cfg (s : State) : (startCount s).cfg = s.cfg := (rfl)
@[simp] theorem startCount_hbuf (s : State) : (startCount s).hbuf = s.hbuf := (rfl)
@[simp] theorem startCount_dev (s : State) : (startCount s).dev = s.dev := (rfl)
@[simp] theorem startCount_moves (s : State) : (startCount s).moves = s.moves := (rfl)
@[simp] theorem startCount_answers (s : State) : (startCount s).answers = s.answers := (rfl)
@[simp] theorem startCount_draws (s : State) : (startCount s).draws = s.draws := (rfl)
@[simp] theorem startCount_trace (s : State) : (startCount s).trace = s.trace := (rfl)
@[simp] theorem startCount_reads (s : State) : (startCount s).reads = s.reads := (rfl)

/-! ## `countByte` -/

@[simp] theorem countByte_page (s : State) : (countByte s).page = s.page := (rfl)
@[simp] theorem countByte_offset (s : State) : (countByte s).offset = s.offset := (rfl)
@[simp] theorem countByte_size (s : State) : (countByte s).size = s.size := (rfl)
@[simp] theorem countByte_sector (s : State) : (countByte s).sector = s.sector := (rfl)
@[simp] theorem countByte_busy (s : State) : (countByte s).busy = s.busy := (rfl)
@[simp] theorem countByte_diagOk (s : State) : (countByte s).diagOk = s.diagOk := (rfl)
@[simp] theorem countByte_id (s : State) : (countByte s).id = s.id := (rfl)
@[simp] theorem countByte_sr (s : State) : (countByte s).sr = s.sr := (rfl)
@[simp] theorem countByte_seq (s : State) : (countByte s).seq = s.seq := (rfl)
@[simp] theorem countByte_ret (s : State) : (countByte s).ret = s.ret := (rfl)
@[simp] theorem countByte_hret (s : State) : (countByte s).hret = s.hret := (rfl)
@[simp] theorem countByte_cop (s : State) : (countByte s).cop = s.cop := (rfl)
@[simp] theorem countByte_addr (s : State) : (countByte s).addr = s.addr := (rfl)
@[simp] theorem countByte_cur (s : State) : (countByte s).cur = s.cur := (rfl)
@[simp] theorem countByte_idx (s : State) : (countByte s).idx = s.idx := (rfl)
@[simp] theorem countByte_rem (s : State) : (countByte s).rem = s.rem := (rfl)
@[simp] theorem countByte_n (s : State) : (countByte s).n = s.n := (rfl)
@[simp] theorem countByte_cnt (s : State) : (countByte s).cnt = s.cnt + 1 := (rfl)
@[simp] theorem countByte_k (s : State) : (countByte s).k = s.k := (rfl)
@[simp] theorem countByte_own (s : State) : (countByte s).own = s.own := (rfl)
@[simp] theorem countByte_cs (s : State) : (countByte s).cs = s.cs := (rfl)
@[simp] theorem countByte_wp (s : State) : (countByte s).wp = s.wp := (rfl)
@[simp] theorem countByte_rst (s : State) : (countByte s).rst = s.rst := (rfl)
@[simp] theorem countByte_cfg (s : State) : (countByte s).cfg = s.cfg := (rfl)
@[simp] theorem countByte_hbuf (s : State) : (countByte s).hbuf = s.hbuf := (rfl)
@[simp] theorem countByte_dev (s : State) : (countByte s).dev = s.dev := (rfl)
@[simp] theorem countByte_moves (s : State) : (countByte s).moves = s.moves := (rfl)
@[simp] theorem countByte_answers (s : State) : (countByte s).answers = s.answers := (rfl)
@[simp] theorem countByte_draws (s : State) : (countByte s).draws = s.draws := (rfl)
@[simp] theorem countByte_trace (s : State) : (countByte s).trace = s.trace := (rfl)
@[simp] theorem countByte_reads (s : State) : (countByte s).reads = s.reads := (rfl)

/-! ## `startId` -/

@[simp] theorem startId_page (s : State) : (startId s).page = s.page := (rfl)
@[simp] theorem startId_offset (s : State) : (startId s).offset = s.offset := (rfl)
@[simp] theorem startId_size (s : State) : (startId s).size = s.size := (rfl)
@[simp] theorem startId_sector (s : State) : (startId s).sector = s.sector := (rfl)
@[simp] theorem startId_busy (s : State) : (startId s).busy = s.busy := (rfl)
@[simp] theorem startId_diagOk (s : State) : (startId s).diagOk = s.diagOk := (rfl)
@[simp] theorem startId_id (s : State) : (startId s).id = s.id := (rfl)
@[simp] theorem startId_sr (s : State) : (startId s).sr = s.sr := (rfl)
@[simp] theorem startId_seq (s : State) : (startId s).seq = s.seq := (rfl)
@[simp] theorem startId_ret (s : State) : (startId s).ret = s.ret := (rfl)
@[simp] theorem startId_hret (s : State) : (startId s).hret = s.hret := (rfl)
@[simp] theorem startId_cop (s : State) : (startId s).cop = s.cop := (rfl)
@[simp] theorem startId_addr (s : State) : (startId s).addr = s.addr := (rfl)
@[simp] theorem startId_cur (s : State) : (startId s).cur = s.cur := (rfl)
@[simp] theorem startId_idx (s : State) : (startId s).idx = s.idx := (rfl)
@[simp] theorem startId_rem (s : State) : (startId s).rem = s.rem := (rfl)
@[simp] theorem startId_n (s : State) : (startId s).n = s.n := (rfl)
@[simp] theorem startId_cnt (s : State) : (startId s).cnt = s.cnt := (rfl)
@[simp] theorem startId_k (s : State) : (startId s).k = 0 := (rfl)
@[simp] theorem startId_own (s : State) : (startId s).own = s.own := (rfl)
@[simp] theorem startId_cs (s : State) : (startId s).cs = s.cs := (rfl)
@[simp] theorem startId_wp (s : State) : (startId s).wp = s.wp := (rfl)
@[simp] theorem startId_rst (s : State) : (startId s).rst = s.rst := (rfl)
@[simp] theorem startId_cfg (s : State) : (startId s).cfg = s.cfg := (rfl)
@[simp] theorem startId_hbuf (s : State) : (startId s).hbuf = s.hbuf := (rfl)
@[simp] theorem startId_dev (s : State) : (startId s).dev = s.dev := (rfl)
@[simp] theorem startId_moves (s : State) : (startId s).moves = s.moves := (rfl)
@[simp] theorem startId_answers (s : State) : (startId s).answers = s.answers := (rfl)
@[simp] theorem startId_draws (s : State) : (startId s).draws = s.draws := (rfl)
@[simp] theorem startId_trace (s : State) : (startId s).trace = s.trace := (rfl)
@[simp] theorem startId_reads (s : State) : (startId s).reads = s.reads := (rfl)

/-! ## `latchId` -/

@[simp] theorem latchId_page (v : Byte) (s : State) : (latchId v s).page = s.page := (rfl)
@[simp] theorem latchId_offset (v : Byte) (s : State) : (latchId v s).offset = s.offset := (rfl)
@[simp] theorem latchId_size (v : Byte) (s : State) : (latchId v s).size = s.size := (rfl)
@[simp] theorem latchId_sector (v : Byte) (s : State) : (latchId v s).sector = s.sector := (rfl)
@[simp] theorem latchId_busy (v : Byte) (s : State) : (latchId v s).busy = s.busy := (rfl)
@[simp] theorem latchId_diagOk (v : Byte) (s : State) : (latchId v s).diagOk = s.diagOk := (rfl)
@[simp] theorem latchId_id (v : Byte) (s : State) : (latchId v s).id = setIdByte s.id s.k.toNat v := (rfl)
@[simp] theorem latchId_sr (v : Byte) (s : State) : (latchId v s).sr = s.sr := (rfl)
@[simp] theorem latchId_seq (v : Byte) (s : State) : (latchId v s).seq = s.seq := (rfl)
@[simp] theorem latchId_ret (v : Byte) (s : State) : (latchId v s).ret = s.ret := (rfl)
@[simp] theorem latchId_hret (v : Byte) (s : State) : (latchId v s).hret = s.hret := (rfl)
@[simp] theorem latchId_cop (v : Byte) (s : State) : (latchId v s).cop = s.cop := (rfl)
@[simp] theorem latchId_addr (v : Byte) (s : State) : (latchId v s).addr = s.addr := (rfl)
@[simp] theorem latchId_cur (v : Byte) (s : State) : (latchId v s).cur = s.cur := (rfl)
@[simp] theorem latchId_idx (v : Byte) (s : State) : (latchId v s).idx = s.idx := (rfl)
@[simp] theorem latchId_rem (v : Byte) (s : State) : (latchId v s).rem = s.rem := (rfl)
@[simp] theorem latchId_n (v : Byte) (s : State) : (latchId v s).n = s.n := (rfl)
@[simp] theorem latchId_cnt (v : Byte) (s : State) : (latchId v s).cnt = s.cnt := (rfl)
@[simp] theorem latchId_k (v : Byte) (s : State) : (latchId v s).k = s.k + 1 := (rfl)
@[simp] theorem latchId_own (v : Byte) (s : State) : (latchId v s).own = s.own := (rfl)
@[simp] theorem latchId_cs (v : Byte) (s : State) : (latchId v s).cs = s.cs := (rfl)
@[simp] theorem latchId_wp (v : Byte) (s : State) : (latchId v s).wp = s.wp := (rfl)
@[simp] theorem latchId_rst (v : Byte) (s : State) : (latchId v s).rst = s.rst := (rfl)
@[simp] theorem latchId_cfg (v : Byte) (s : State) : (latchId v s).cfg = s.cfg := (rfl)
@[simp] theorem latchId_hbuf (v : Byte) (s : State) : (latchId v s).hbuf = s.hbuf := (rfl)
@[simp] theorem latchId_dev (v : Byte) (s : State) : (latchId v s).dev = s.dev := (rfl)
@[simp] theorem latchId_moves (v : Byte) (s : State) : (latchId v s).moves = s.moves := (rfl)
@[simp] theorem latchId_answers (v : Byte) (s : State) : (latchId v s).answers = s.answers := (rfl)
@[simp] theorem latchId_draws (v : Byte) (s : State) : (latchId v s).draws = s.draws := (rfl)
@[simp] theorem latchId_trace (v : Byte) (s : State) : (latchId v s).trace = s.trace := (rfl)
@[simp] theorem latchId_reads (v : Byte) (s : State) : (latchId v s).reads = s.reads := (rfl)

/-! ## `began` -/

@[simp] theorem began_page (first : Seq) (s : State) : (began first s).page = s.page := (rfl)
@[simp] theorem began_offset (first : Seq) (s : State) : (began first s).offset = s.offset := (rfl)
@[simp] theorem began_size (first : Seq) (s : State) : (began first s).size = s.size := (rfl)
@[simp] theorem began_sector (first : Seq) (s : State) : (began first s).sector = s.sector := (rfl)
@[simp] theorem began_busy (first : Seq) (s : State) : (began first s).busy = true := (rfl)
@[simp] theorem began_diagOk (first : Seq) (s : State) : (began first s).diagOk = s.diagOk := (rfl)
@[simp] theorem began_id (first : Seq) (s : State) : (began first s).id = s.id := (rfl)
@[simp] theorem began_sr (first : Seq) (s : State) : (began first s).sr = s.sr := (rfl)
@[simp] theorem began_seq (first : Seq) (s : State) : (began first s).seq = first := (rfl)
@[simp] theorem began_ret (first : Seq) (s : State) : (began first s).ret = s.ret := (rfl)
@[simp] theorem began_hret (first : Seq) (s : State) : (began first s).hret = s.hret := (rfl)
@[simp] theorem began_cop (first : Seq) (s : State) : (began first s).cop = s.cop := (rfl)
@[simp] theorem began_addr (first : Seq) (s : State) : (began first s).addr = s.addr := (rfl)
@[simp] theorem began_cur (first : Seq) (s : State) : (began first s).cur = s.cur := (rfl)
@[simp] theorem began_idx (first : Seq) (s : State) : (began first s).idx = s.idx := (rfl)
@[simp] theorem began_rem (first : Seq) (s : State) : (began first s).rem = s.rem := (rfl)
@[simp] theorem began_n (first : Seq) (s : State) : (began first s).n = s.n := (rfl)
@[simp] theorem began_cnt (first : Seq) (s : State) : (began first s).cnt = s.cnt := (rfl)
@[simp] theorem began_k (first : Seq) (s : State) : (began first s).k = s.k := (rfl)
@[simp] theorem began_own (first : Seq) (s : State) : (began first s).own = s.own := (rfl)
@[simp] theorem began_cs (first : Seq) (s : State) : (began first s).cs = s.cs := (rfl)
@[simp] theorem began_wp (first : Seq) (s : State) : (began first s).wp = s.wp := (rfl)
@[simp] theorem began_rst (first : Seq) (s : State) : (began first s).rst = s.rst := (rfl)
@[simp] theorem began_cfg (first : Seq) (s : State) : (began first s).cfg = s.cfg := (rfl)
@[simp] theorem began_hbuf (first : Seq) (s : State) : (began first s).hbuf = s.hbuf := (rfl)
@[simp] theorem began_dev (first : Seq) (s : State) : (began first s).dev = s.dev := (rfl)
@[simp] theorem began_moves (first : Seq) (s : State) : (began first s).moves = s.moves := (rfl)
@[simp] theorem began_answers (first : Seq) (s : State) : (began first s).answers = s.answers := (rfl)
@[simp] theorem began_draws (first : Seq) (s : State) : (began first s).draws = s.draws := (rfl)
@[simp] theorem began_trace (first : Seq) (s : State) : (began first s).trace = s.trace := (rfl)
@[simp] theorem began_reads (first : Seq) (s : State) : (began first s).reads = s.reads := (rfl)

/-! ## `notBusy` -/

@[simp] theorem notBusy_page (s : State) : (notBusy s).page = s.page := (rfl)
@[simp] theorem notBusy_offset (s : State) : (notBusy s).offset = s.offset := (rfl)
@[simp] theorem notBusy_size (s : State) : (notBusy s).size = s.size := (rfl)
@[simp] theorem notBusy_sector (s : State) : (notBusy s).sector = s.sector := (rfl)
@[simp] theorem notBusy_busy (s : State) : (notBusy s).busy = false := (rfl)
@[simp] theorem notBusy_diagOk (s : State) : (notBusy s).diagOk = s.diagOk := (rfl)
@[simp] theorem notBusy_id (s : State) : (notBusy s).id = s.id := (rfl)
@[simp] theorem notBusy_sr (s : State) : (notBusy s).sr = s.sr := (rfl)
@[simp] theorem notBusy_seq (s : State) : (notBusy s).seq = s.seq := (rfl)
@[simp] theorem notBusy_ret (s : State) : (notBusy s).ret = s.ret := (rfl)
@[simp] theorem notBusy_hret (s : State) : (notBusy s).hret = s.hret := (rfl)
@[simp] theorem notBusy_cop (s : State) : (notBusy s).cop = s.cop := (rfl)
@[simp] theorem notBusy_addr (s : State) : (notBusy s).addr = s.addr := (rfl)
@[simp] theorem notBusy_cur (s : State) : (notBusy s).cur = s.cur := (rfl)
@[simp] theorem notBusy_idx (s : State) : (notBusy s).idx = s.idx := (rfl)
@[simp] theorem notBusy_rem (s : State) : (notBusy s).rem = s.rem := (rfl)
@[simp] theorem notBusy_n (s : State) : (notBusy s).n = s.n := (rfl)
@[simp] theorem notBusy_cnt (s : State) : (notBusy s).cnt = s.cnt := (rfl)
@[simp] theorem notBusy_k (s : State) : (notBusy s).k = s.k := (rfl)
@[simp] theorem notBusy_own (s : State) : (notBusy s).own = s.own := (rfl)
@[simp] theorem notBusy_cs (s : State) : (notBusy s).cs = s.cs := (rfl)
@[simp] theorem notBusy_wp (s : State) : (notBusy s).wp = s.wp := (rfl)
@[simp] theorem notBusy_rst (s : State) : (notBusy s).rst = s.rst := (rfl)
@[simp] theorem notBusy_cfg (s : State) : (notBusy s).cfg = s.cfg := (rfl)
@[simp] theorem notBusy_hbuf (s : State) : (notBusy s).hbuf = s.hbuf := (rfl)
@[simp] theorem notBusy_dev (s : State) : (notBusy s).dev = s.dev := (rfl)
@[simp] theorem notBusy_moves (s : State) : (notBusy s).moves = s.moves := (rfl)
@[simp] theorem notBusy_answers (s : State) : (notBusy s).answers = s.answers := (rfl)
@[simp] theorem notBusy_draws (s : State) : (notBusy s).draws = s.draws := (rfl)
@[simp] theorem notBusy_trace (s : State) : (notBusy s).trace = s.trace := (rfl)
@[simp] theorem notBusy_reads (s : State) : (notBusy s).reads = s.reads := (rfl)

/-! ## `startWrite` -/

@[simp] theorem startWrite_page (s : State) : (startWrite s).page = s.page := (rfl)
@[simp] theorem startWrite_offset (s : State) : (startWrite s).offset = s.offset := (rfl)
@[simp] theorem startWrite_size (s : State) : (startWrite s).size = s.size := (rfl)
@[simp] theorem startWrite_sector (s : State) : (startWrite s).sector = s.sector := (rfl)
@[simp] theorem startWrite_busy (s : State) : (startWrite s).busy = s.busy := (rfl)
@[simp] theorem startWrite_diagOk (s : State) : (startWrite s).diagOk = s.diagOk := (rfl)
@[simp] theorem startWrite_id (s : State) : (startWrite s).id = s.id := (rfl)
@[simp] theorem startWrite_sr (s : State) : (startWrite s).sr = s.sr := (rfl)
@[simp] theorem startWrite_seq (s : State) : (startWrite s).seq = s.seq := (rfl)
@[simp] theorem startWrite_ret (s : State) : (startWrite s).ret = s.ret := (rfl)
@[simp] theorem startWrite_hret (s : State) : (startWrite s).hret = s.hret := (rfl)
@[simp] theorem startWrite_cop (s : State) : (startWrite s).cop = s.cop := (rfl)
@[simp] theorem startWrite_addr (s : State) : (startWrite s).addr = s.addr := (rfl)
@[simp] theorem startWrite_cur (s : State) : (startWrite s).cur = s.page := (rfl)
@[simp] theorem startWrite_idx (s : State) : (startWrite s).idx = 0 := (rfl)
@[simp] theorem startWrite_rem (s : State) : (startWrite s).rem = s.size := (rfl)
@[simp] theorem startWrite_n (s : State) : (startWrite s).n = s.n := (rfl)
@[simp] theorem startWrite_cnt (s : State) : (startWrite s).cnt = s.cnt := (rfl)
@[simp] theorem startWrite_k (s : State) : (startWrite s).k = s.k := (rfl)
@[simp] theorem startWrite_own (s : State) : (startWrite s).own = s.own := (rfl)
@[simp] theorem startWrite_cs (s : State) : (startWrite s).cs = s.cs := (rfl)
@[simp] theorem startWrite_wp (s : State) : (startWrite s).wp = s.wp := (rfl)
@[simp] theorem startWrite_rst (s : State) : (startWrite s).rst = s.rst := (rfl)
@[simp] theorem startWrite_cfg (s : State) : (startWrite s).cfg = s.cfg := (rfl)
@[simp] theorem startWrite_hbuf (s : State) : (startWrite s).hbuf = s.hbuf := (rfl)
@[simp] theorem startWrite_dev (s : State) : (startWrite s).dev = s.dev := (rfl)
@[simp] theorem startWrite_moves (s : State) : (startWrite s).moves = s.moves := (rfl)
@[simp] theorem startWrite_answers (s : State) : (startWrite s).answers = s.answers := (rfl)
@[simp] theorem startWrite_draws (s : State) : (startWrite s).draws = s.draws := (rfl)
@[simp] theorem startWrite_trace (s : State) : (startWrite s).trace = s.trace := (rfl)
@[simp] theorem startWrite_reads (s : State) : (startWrite s).reads = s.reads := (rfl)

/-! ## `startChunk` -/

@[simp] theorem startChunk_page (s : State) : (startChunk s).page = s.page := (rfl)
@[simp] theorem startChunk_offset (s : State) : (startChunk s).offset = s.offset := (rfl)
@[simp] theorem startChunk_size (s : State) : (startChunk s).size = s.size := (rfl)
@[simp] theorem startChunk_sector (s : State) : (startChunk s).sector = s.sector := (rfl)
@[simp] theorem startChunk_busy (s : State) : (startChunk s).busy = s.busy := (rfl)
@[simp] theorem startChunk_diagOk (s : State) : (startChunk s).diagOk = s.diagOk := (rfl)
@[simp] theorem startChunk_id (s : State) : (startChunk s).id = s.id := (rfl)
@[simp] theorem startChunk_sr (s : State) : (startChunk s).sr = s.sr := (rfl)
@[simp] theorem startChunk_seq (s : State) : (startChunk s).seq = s.seq := (rfl)
@[simp] theorem startChunk_ret (s : State) : (startChunk s).ret = s.ret := (rfl)
@[simp] theorem startChunk_hret (s : State) : (startChunk s).hret = s.hret := (rfl)
@[simp] theorem startChunk_cop (s : State) : (startChunk s).cop = s.cop := (rfl)
@[simp] theorem startChunk_addr (s : State) : (startChunk s).addr = s.addr := (rfl)
@[simp] theorem startChunk_cur (s : State) : (startChunk s).cur = s.cur := (rfl)
@[simp] theorem startChunk_idx (s : State) : (startChunk s).idx = s.idx := (rfl)
@[simp] theorem startChunk_rem (s : State) : (startChunk s).rem = s.rem := (rfl)
@[simp] theorem startChunk_n (s : State) : (startChunk s).n = chunkLength s.rem := (rfl)
@[simp] theorem startChunk_cnt (s : State) : (startChunk s).cnt = s.cnt := (rfl)
@[simp] theorem startChunk_k (s : State) : (startChunk s).k = s.k := (rfl)
@[simp] theorem startChunk_own (s : State) : (startChunk s).own = s.own := (rfl)
@[simp] theorem startChunk_cs (s : State) : (startChunk s).cs = s.cs := (rfl)
@[simp] theorem startChunk_wp (s : State) : (startChunk s).wp = s.wp := (rfl)
@[simp] theorem startChunk_rst (s : State) : (startChunk s).rst = s.rst := (rfl)
@[simp] theorem startChunk_cfg (s : State) : (startChunk s).cfg = s.cfg := (rfl)
@[simp] theorem startChunk_hbuf (s : State) : (startChunk s).hbuf = s.hbuf := (rfl)
@[simp] theorem startChunk_dev (s : State) : (startChunk s).dev = s.dev := (rfl)
@[simp] theorem startChunk_moves (s : State) : (startChunk s).moves = s.moves := (rfl)
@[simp] theorem startChunk_answers (s : State) : (startChunk s).answers = s.answers := (rfl)
@[simp] theorem startChunk_draws (s : State) : (startChunk s).draws = s.draws := (rfl)
@[simp] theorem startChunk_trace (s : State) : (startChunk s).trace = s.trace := (rfl)
@[simp] theorem startChunk_reads (s : State) : (startChunk s).reads = s.reads := (rfl)

/-! ## `latchDiag` -/

@[simp] theorem latchDiag_page (s : State) : (latchDiag s).page = s.page := (rfl)
@[simp] theorem latchDiag_offset (s : State) : (latchDiag s).offset = s.offset := (rfl)
@[simp] theorem latchDiag_size (s : State) : (latchDiag s).size = s.size := (rfl)
@[simp] theorem latchDiag_sector (s : State) : (latchDiag s).sector = s.sector := (rfl)
@[simp] theorem latchDiag_busy (s : State) : (latchDiag s).busy = s.busy := (rfl)
@[simp] theorem latchDiag_diagOk (s : State) : (latchDiag s).diagOk = diagResult s.cfg s.id s.sr := (rfl)
@[simp] theorem latchDiag_id (s : State) : (latchDiag s).id = s.id := (rfl)
@[simp] theorem latchDiag_sr (s : State) : (latchDiag s).sr = s.sr := (rfl)
@[simp] theorem latchDiag_seq (s : State) : (latchDiag s).seq = s.seq := (rfl)
@[simp] theorem latchDiag_ret (s : State) : (latchDiag s).ret = s.ret := (rfl)
@[simp] theorem latchDiag_hret (s : State) : (latchDiag s).hret = s.hret := (rfl)
@[simp] theorem latchDiag_cop (s : State) : (latchDiag s).cop = s.cop := (rfl)
@[simp] theorem latchDiag_addr (s : State) : (latchDiag s).addr = s.addr := (rfl)
@[simp] theorem latchDiag_cur (s : State) : (latchDiag s).cur = s.cur := (rfl)
@[simp] theorem latchDiag_idx (s : State) : (latchDiag s).idx = s.idx := (rfl)
@[simp] theorem latchDiag_rem (s : State) : (latchDiag s).rem = s.rem := (rfl)
@[simp] theorem latchDiag_n (s : State) : (latchDiag s).n = s.n := (rfl)
@[simp] theorem latchDiag_cnt (s : State) : (latchDiag s).cnt = s.cnt := (rfl)
@[simp] theorem latchDiag_k (s : State) : (latchDiag s).k = s.k := (rfl)
@[simp] theorem latchDiag_own (s : State) : (latchDiag s).own = s.own := (rfl)
@[simp] theorem latchDiag_cs (s : State) : (latchDiag s).cs = s.cs := (rfl)
@[simp] theorem latchDiag_wp (s : State) : (latchDiag s).wp = s.wp := (rfl)
@[simp] theorem latchDiag_rst (s : State) : (latchDiag s).rst = s.rst := (rfl)
@[simp] theorem latchDiag_cfg (s : State) : (latchDiag s).cfg = s.cfg := (rfl)
@[simp] theorem latchDiag_hbuf (s : State) : (latchDiag s).hbuf = s.hbuf := (rfl)
@[simp] theorem latchDiag_dev (s : State) : (latchDiag s).dev = s.dev := (rfl)
@[simp] theorem latchDiag_moves (s : State) : (latchDiag s).moves = s.moves := (rfl)
@[simp] theorem latchDiag_answers (s : State) : (latchDiag s).answers = s.answers := (rfl)
@[simp] theorem latchDiag_draws (s : State) : (latchDiag s).draws = s.draws := (rfl)
@[simp] theorem latchDiag_trace (s : State) : (latchDiag s).trace = s.trace := (rfl)
@[simp] theorem latchDiag_reads (s : State) : (latchDiag s).reads = s.reads := (rfl)

/-! ## `idleWith` -/

@[simp] theorem idleWith_page (r h : Seq) (s : State) : (Safety.idleWith r h s).page = s.page := (rfl)
@[simp] theorem idleWith_offset (r h : Seq) (s : State) : (Safety.idleWith r h s).offset = s.offset := (rfl)
@[simp] theorem idleWith_size (r h : Seq) (s : State) : (Safety.idleWith r h s).size = s.size := (rfl)
@[simp] theorem idleWith_sector (r h : Seq) (s : State) : (Safety.idleWith r h s).sector = s.sector := (rfl)
@[simp] theorem idleWith_busy (r h : Seq) (s : State) : (Safety.idleWith r h s).busy = false := (rfl)
@[simp] theorem idleWith_diagOk (r h : Seq) (s : State) : (Safety.idleWith r h s).diagOk = s.diagOk := (rfl)
@[simp] theorem idleWith_id (r h : Seq) (s : State) : (Safety.idleWith r h s).id = s.id := (rfl)
@[simp] theorem idleWith_sr (r h : Seq) (s : State) : (Safety.idleWith r h s).sr = s.sr := (rfl)
@[simp] theorem idleWith_seq (r h : Seq) (s : State) : (Safety.idleWith r h s).seq = .idle := (rfl)
@[simp] theorem idleWith_ret (r h : Seq) (s : State) : (Safety.idleWith r h s).ret = r := (rfl)
@[simp] theorem idleWith_hret (r h : Seq) (s : State) : (Safety.idleWith r h s).hret = h := (rfl)
@[simp] theorem idleWith_cop (r h : Seq) (s : State) : (Safety.idleWith r h s).cop = s.cop := (rfl)
@[simp] theorem idleWith_addr (r h : Seq) (s : State) : (Safety.idleWith r h s).addr = s.addr := (rfl)
@[simp] theorem idleWith_cur (r h : Seq) (s : State) : (Safety.idleWith r h s).cur = s.cur := (rfl)
@[simp] theorem idleWith_idx (r h : Seq) (s : State) : (Safety.idleWith r h s).idx = s.idx := (rfl)
@[simp] theorem idleWith_rem (r h : Seq) (s : State) : (Safety.idleWith r h s).rem = s.rem := (rfl)
@[simp] theorem idleWith_n (r h : Seq) (s : State) : (Safety.idleWith r h s).n = s.n := (rfl)
@[simp] theorem idleWith_cnt (r h : Seq) (s : State) : (Safety.idleWith r h s).cnt = s.cnt := (rfl)
@[simp] theorem idleWith_k (r h : Seq) (s : State) : (Safety.idleWith r h s).k = s.k := (rfl)
@[simp] theorem idleWith_own (r h : Seq) (s : State) : (Safety.idleWith r h s).own = s.own := (rfl)
@[simp] theorem idleWith_cs (r h : Seq) (s : State) : (Safety.idleWith r h s).cs = s.cs := (rfl)
@[simp] theorem idleWith_wp (r h : Seq) (s : State) : (Safety.idleWith r h s).wp = s.wp := (rfl)
@[simp] theorem idleWith_rst (r h : Seq) (s : State) : (Safety.idleWith r h s).rst = s.rst := (rfl)
@[simp] theorem idleWith_cfg (r h : Seq) (s : State) : (Safety.idleWith r h s).cfg = s.cfg := (rfl)
@[simp] theorem idleWith_hbuf (r h : Seq) (s : State) : (Safety.idleWith r h s).hbuf = s.hbuf := (rfl)
@[simp] theorem idleWith_dev (r h : Seq) (s : State) : (Safety.idleWith r h s).dev = s.dev := (rfl)
@[simp] theorem idleWith_moves (r h : Seq) (s : State) : (Safety.idleWith r h s).moves = s.moves := (rfl)
@[simp] theorem idleWith_answers (r h : Seq) (s : State) : (Safety.idleWith r h s).answers = s.answers := (rfl)
@[simp] theorem idleWith_draws (r h : Seq) (s : State) : (Safety.idleWith r h s).draws = s.draws := (rfl)
@[simp] theorem idleWith_trace (r h : Seq) (s : State) : (Safety.idleWith r h s).trace = s.trace := (rfl)
@[simp] theorem idleWith_reads (r h : Seq) (s : State) : (Safety.idleWith r h s).reads = s.reads := (rfl)

/-! ## `loadPage` -/

@[simp] theorem loadPage_page (v : Word) (s : State) : (loadPage v s).page = v := (rfl)
@[simp] theorem loadPage_offset (v : Word) (s : State) : (loadPage v s).offset = s.offset := (rfl)
@[simp] theorem loadPage_size (v : Word) (s : State) : (loadPage v s).size = s.size := (rfl)
@[simp] theorem loadPage_sector (v : Word) (s : State) : (loadPage v s).sector = s.sector := (rfl)
@[simp] theorem loadPage_busy (v : Word) (s : State) : (loadPage v s).busy = s.busy := (rfl)
@[simp] theorem loadPage_diagOk (v : Word) (s : State) : (loadPage v s).diagOk = s.diagOk := (rfl)
@[simp] theorem loadPage_id (v : Word) (s : State) : (loadPage v s).id = s.id := (rfl)
@[simp] theorem loadPage_sr (v : Word) (s : State) : (loadPage v s).sr = s.sr := (rfl)
@[simp] theorem loadPage_seq (v : Word) (s : State) : (loadPage v s).seq = s.seq := (rfl)
@[simp] theorem loadPage_ret (v : Word) (s : State) : (loadPage v s).ret = s.ret := (rfl)
@[simp] theorem loadPage_hret (v : Word) (s : State) : (loadPage v s).hret = s.hret := (rfl)
@[simp] theorem loadPage_cop (v : Word) (s : State) : (loadPage v s).cop = s.cop := (rfl)
@[simp] theorem loadPage_addr (v : Word) (s : State) : (loadPage v s).addr = s.addr := (rfl)
@[simp] theorem loadPage_cur (v : Word) (s : State) : (loadPage v s).cur = s.cur := (rfl)
@[simp] theorem loadPage_idx (v : Word) (s : State) : (loadPage v s).idx = s.idx := (rfl)
@[simp] theorem loadPage_rem (v : Word) (s : State) : (loadPage v s).rem = s.rem := (rfl)
@[simp] theorem loadPage_n (v : Word) (s : State) : (loadPage v s).n = s.n := (rfl)
@[simp] theorem loadPage_cnt (v : Word) (s : State) : (loadPage v s).cnt = s.cnt := (rfl)
@[simp] theorem loadPage_k (v : Word) (s : State) : (loadPage v s).k = s.k := (rfl)
@[simp] theorem loadPage_own (v : Word) (s : State) : (loadPage v s).own = s.own := (rfl)
@[simp] theorem loadPage_cs (v : Word) (s : State) : (loadPage v s).cs = s.cs := (rfl)
@[simp] theorem loadPage_wp (v : Word) (s : State) : (loadPage v s).wp = s.wp := (rfl)
@[simp] theorem loadPage_rst (v : Word) (s : State) : (loadPage v s).rst = s.rst := (rfl)
@[simp] theorem loadPage_cfg (v : Word) (s : State) : (loadPage v s).cfg = s.cfg := (rfl)
@[simp] theorem loadPage_hbuf (v : Word) (s : State) : (loadPage v s).hbuf = s.hbuf := (rfl)
@[simp] theorem loadPage_dev (v : Word) (s : State) : (loadPage v s).dev = s.dev := (rfl)
@[simp] theorem loadPage_moves (v : Word) (s : State) : (loadPage v s).moves = s.moves := (rfl)
@[simp] theorem loadPage_answers (v : Word) (s : State) : (loadPage v s).answers = s.answers := (rfl)
@[simp] theorem loadPage_draws (v : Word) (s : State) : (loadPage v s).draws = s.draws := (rfl)
@[simp] theorem loadPage_trace (v : Word) (s : State) : (loadPage v s).trace = s.trace := (rfl)
@[simp] theorem loadPage_reads (v : Word) (s : State) : (loadPage v s).reads = s.reads := (rfl)

/-! ## `loadOffset` -/

@[simp] theorem loadOffset_page (v : Word) (s : State) : (loadOffset v s).page = s.page := (rfl)
@[simp] theorem loadOffset_offset (v : Word) (s : State) : (loadOffset v s).offset = v := (rfl)
@[simp] theorem loadOffset_size (v : Word) (s : State) : (loadOffset v s).size = s.size := (rfl)
@[simp] theorem loadOffset_sector (v : Word) (s : State) : (loadOffset v s).sector = s.sector := (rfl)
@[simp] theorem loadOffset_busy (v : Word) (s : State) : (loadOffset v s).busy = s.busy := (rfl)
@[simp] theorem loadOffset_diagOk (v : Word) (s : State) : (loadOffset v s).diagOk = s.diagOk := (rfl)
@[simp] theorem loadOffset_id (v : Word) (s : State) : (loadOffset v s).id = s.id := (rfl)
@[simp] theorem loadOffset_sr (v : Word) (s : State) : (loadOffset v s).sr = s.sr := (rfl)
@[simp] theorem loadOffset_seq (v : Word) (s : State) : (loadOffset v s).seq = s.seq := (rfl)
@[simp] theorem loadOffset_ret (v : Word) (s : State) : (loadOffset v s).ret = s.ret := (rfl)
@[simp] theorem loadOffset_hret (v : Word) (s : State) : (loadOffset v s).hret = s.hret := (rfl)
@[simp] theorem loadOffset_cop (v : Word) (s : State) : (loadOffset v s).cop = s.cop := (rfl)
@[simp] theorem loadOffset_addr (v : Word) (s : State) : (loadOffset v s).addr = s.addr := (rfl)
@[simp] theorem loadOffset_cur (v : Word) (s : State) : (loadOffset v s).cur = s.cur := (rfl)
@[simp] theorem loadOffset_idx (v : Word) (s : State) : (loadOffset v s).idx = s.idx := (rfl)
@[simp] theorem loadOffset_rem (v : Word) (s : State) : (loadOffset v s).rem = s.rem := (rfl)
@[simp] theorem loadOffset_n (v : Word) (s : State) : (loadOffset v s).n = s.n := (rfl)
@[simp] theorem loadOffset_cnt (v : Word) (s : State) : (loadOffset v s).cnt = s.cnt := (rfl)
@[simp] theorem loadOffset_k (v : Word) (s : State) : (loadOffset v s).k = s.k := (rfl)
@[simp] theorem loadOffset_own (v : Word) (s : State) : (loadOffset v s).own = s.own := (rfl)
@[simp] theorem loadOffset_cs (v : Word) (s : State) : (loadOffset v s).cs = s.cs := (rfl)
@[simp] theorem loadOffset_wp (v : Word) (s : State) : (loadOffset v s).wp = s.wp := (rfl)
@[simp] theorem loadOffset_rst (v : Word) (s : State) : (loadOffset v s).rst = s.rst := (rfl)
@[simp] theorem loadOffset_cfg (v : Word) (s : State) : (loadOffset v s).cfg = s.cfg := (rfl)
@[simp] theorem loadOffset_hbuf (v : Word) (s : State) : (loadOffset v s).hbuf = s.hbuf := (rfl)
@[simp] theorem loadOffset_dev (v : Word) (s : State) : (loadOffset v s).dev = s.dev := (rfl)
@[simp] theorem loadOffset_moves (v : Word) (s : State) : (loadOffset v s).moves = s.moves := (rfl)
@[simp] theorem loadOffset_answers (v : Word) (s : State) : (loadOffset v s).answers = s.answers := (rfl)
@[simp] theorem loadOffset_draws (v : Word) (s : State) : (loadOffset v s).draws = s.draws := (rfl)
@[simp] theorem loadOffset_trace (v : Word) (s : State) : (loadOffset v s).trace = s.trace := (rfl)
@[simp] theorem loadOffset_reads (v : Word) (s : State) : (loadOffset v s).reads = s.reads := (rfl)

/-! ## `loadSize` -/

@[simp] theorem loadSize_page (v : Word) (s : State) : (loadSize v s).page = s.page := (rfl)
@[simp] theorem loadSize_offset (v : Word) (s : State) : (loadSize v s).offset = s.offset := (rfl)
@[simp] theorem loadSize_size (v : Word) (s : State) : (loadSize v s).size = v := (rfl)
@[simp] theorem loadSize_sector (v : Word) (s : State) : (loadSize v s).sector = s.sector := (rfl)
@[simp] theorem loadSize_busy (v : Word) (s : State) : (loadSize v s).busy = s.busy := (rfl)
@[simp] theorem loadSize_diagOk (v : Word) (s : State) : (loadSize v s).diagOk = s.diagOk := (rfl)
@[simp] theorem loadSize_id (v : Word) (s : State) : (loadSize v s).id = s.id := (rfl)
@[simp] theorem loadSize_sr (v : Word) (s : State) : (loadSize v s).sr = s.sr := (rfl)
@[simp] theorem loadSize_seq (v : Word) (s : State) : (loadSize v s).seq = s.seq := (rfl)
@[simp] theorem loadSize_ret (v : Word) (s : State) : (loadSize v s).ret = s.ret := (rfl)
@[simp] theorem loadSize_hret (v : Word) (s : State) : (loadSize v s).hret = s.hret := (rfl)
@[simp] theorem loadSize_cop (v : Word) (s : State) : (loadSize v s).cop = s.cop := (rfl)
@[simp] theorem loadSize_addr (v : Word) (s : State) : (loadSize v s).addr = s.addr := (rfl)
@[simp] theorem loadSize_cur (v : Word) (s : State) : (loadSize v s).cur = s.cur := (rfl)
@[simp] theorem loadSize_idx (v : Word) (s : State) : (loadSize v s).idx = s.idx := (rfl)
@[simp] theorem loadSize_rem (v : Word) (s : State) : (loadSize v s).rem = s.rem := (rfl)
@[simp] theorem loadSize_n (v : Word) (s : State) : (loadSize v s).n = s.n := (rfl)
@[simp] theorem loadSize_cnt (v : Word) (s : State) : (loadSize v s).cnt = s.cnt := (rfl)
@[simp] theorem loadSize_k (v : Word) (s : State) : (loadSize v s).k = s.k := (rfl)
@[simp] theorem loadSize_own (v : Word) (s : State) : (loadSize v s).own = s.own := (rfl)
@[simp] theorem loadSize_cs (v : Word) (s : State) : (loadSize v s).cs = s.cs := (rfl)
@[simp] theorem loadSize_wp (v : Word) (s : State) : (loadSize v s).wp = s.wp := (rfl)
@[simp] theorem loadSize_rst (v : Word) (s : State) : (loadSize v s).rst = s.rst := (rfl)
@[simp] theorem loadSize_cfg (v : Word) (s : State) : (loadSize v s).cfg = s.cfg := (rfl)
@[simp] theorem loadSize_hbuf (v : Word) (s : State) : (loadSize v s).hbuf = s.hbuf := (rfl)
@[simp] theorem loadSize_dev (v : Word) (s : State) : (loadSize v s).dev = s.dev := (rfl)
@[simp] theorem loadSize_moves (v : Word) (s : State) : (loadSize v s).moves = s.moves := (rfl)
@[simp] theorem loadSize_answers (v : Word) (s : State) : (loadSize v s).answers = s.answers := (rfl)
@[simp] theorem loadSize_draws (v : Word) (s : State) : (loadSize v s).draws = s.draws := (rfl)
@[simp] theorem loadSize_trace (v : Word) (s : State) : (loadSize v s).trace = s.trace := (rfl)
@[simp] theorem loadSize_reads (v : Word) (s : State) : (loadSize v s).reads = s.reads := (rfl)

/-! ## `loadSector` -/

@[simp] theorem loadSector_page (v : Word) (s : State) : (loadSector v s).page = s.page := (rfl)
@[simp] theorem loadSector_offset (v : Word) (s : State) : (loadSector v s).offset = s.offset := (rfl)
@[simp] theorem loadSector_size (v : Word) (s : State) : (loadSector v s).size = s.size := (rfl)
@[simp] theorem loadSector_sector (v : Word) (s : State) : (loadSector v s).sector = v.setWidth 8 := (rfl)
@[simp] theorem loadSector_busy (v : Word) (s : State) : (loadSector v s).busy = s.busy := (rfl)
@[simp] theorem loadSector_diagOk (v : Word) (s : State) : (loadSector v s).diagOk = s.diagOk := (rfl)
@[simp] theorem loadSector_id (v : Word) (s : State) : (loadSector v s).id = s.id := (rfl)
@[simp] theorem loadSector_sr (v : Word) (s : State) : (loadSector v s).sr = s.sr := (rfl)
@[simp] theorem loadSector_seq (v : Word) (s : State) : (loadSector v s).seq = s.seq := (rfl)
@[simp] theorem loadSector_ret (v : Word) (s : State) : (loadSector v s).ret = s.ret := (rfl)
@[simp] theorem loadSector_hret (v : Word) (s : State) : (loadSector v s).hret = s.hret := (rfl)
@[simp] theorem loadSector_cop (v : Word) (s : State) : (loadSector v s).cop = s.cop := (rfl)
@[simp] theorem loadSector_addr (v : Word) (s : State) : (loadSector v s).addr = s.addr := (rfl)
@[simp] theorem loadSector_cur (v : Word) (s : State) : (loadSector v s).cur = s.cur := (rfl)
@[simp] theorem loadSector_idx (v : Word) (s : State) : (loadSector v s).idx = s.idx := (rfl)
@[simp] theorem loadSector_rem (v : Word) (s : State) : (loadSector v s).rem = s.rem := (rfl)
@[simp] theorem loadSector_n (v : Word) (s : State) : (loadSector v s).n = s.n := (rfl)
@[simp] theorem loadSector_cnt (v : Word) (s : State) : (loadSector v s).cnt = s.cnt := (rfl)
@[simp] theorem loadSector_k (v : Word) (s : State) : (loadSector v s).k = s.k := (rfl)
@[simp] theorem loadSector_own (v : Word) (s : State) : (loadSector v s).own = s.own := (rfl)
@[simp] theorem loadSector_cs (v : Word) (s : State) : (loadSector v s).cs = s.cs := (rfl)
@[simp] theorem loadSector_wp (v : Word) (s : State) : (loadSector v s).wp = s.wp := (rfl)
@[simp] theorem loadSector_rst (v : Word) (s : State) : (loadSector v s).rst = s.rst := (rfl)
@[simp] theorem loadSector_cfg (v : Word) (s : State) : (loadSector v s).cfg = s.cfg := (rfl)
@[simp] theorem loadSector_hbuf (v : Word) (s : State) : (loadSector v s).hbuf = s.hbuf := (rfl)
@[simp] theorem loadSector_dev (v : Word) (s : State) : (loadSector v s).dev = s.dev := (rfl)
@[simp] theorem loadSector_moves (v : Word) (s : State) : (loadSector v s).moves = s.moves := (rfl)
@[simp] theorem loadSector_answers (v : Word) (s : State) : (loadSector v s).answers = s.answers := (rfl)
@[simp] theorem loadSector_draws (v : Word) (s : State) : (loadSector v s).draws = s.draws := (rfl)
@[simp] theorem loadSector_trace (v : Word) (s : State) : (loadSector v s).trace = s.trace := (rfl)
@[simp] theorem loadSector_reads (v : Word) (s : State) : (loadSector v s).reads = s.reads := (rfl)

/-! ## `loadBuffer` -/

@[simp] theorem loadBuffer_page (i : Word) (v : Byte) (s : State) : (loadBuffer i v s).page = s.page := (rfl)
@[simp] theorem loadBuffer_offset (i : Word) (v : Byte) (s : State) : (loadBuffer i v s).offset = s.offset := (rfl)
@[simp] theorem loadBuffer_size (i : Word) (v : Byte) (s : State) : (loadBuffer i v s).size = s.size := (rfl)
@[simp] theorem loadBuffer_sector (i : Word) (v : Byte) (s : State) : (loadBuffer i v s).sector = s.sector := (rfl)
@[simp] theorem loadBuffer_busy (i : Word) (v : Byte) (s : State) : (loadBuffer i v s).busy = s.busy := (rfl)
@[simp] theorem loadBuffer_diagOk (i : Word) (v : Byte) (s : State) : (loadBuffer i v s).diagOk = s.diagOk := (rfl)
@[simp] theorem loadBuffer_id (i : Word) (v : Byte) (s : State) : (loadBuffer i v s).id = s.id := (rfl)
@[simp] theorem loadBuffer_sr (i : Word) (v : Byte) (s : State) : (loadBuffer i v s).sr = s.sr := (rfl)
@[simp] theorem loadBuffer_seq (i : Word) (v : Byte) (s : State) : (loadBuffer i v s).seq = s.seq := (rfl)
@[simp] theorem loadBuffer_ret (i : Word) (v : Byte) (s : State) : (loadBuffer i v s).ret = s.ret := (rfl)
@[simp] theorem loadBuffer_hret (i : Word) (v : Byte) (s : State) : (loadBuffer i v s).hret = s.hret := (rfl)
@[simp] theorem loadBuffer_cop (i : Word) (v : Byte) (s : State) : (loadBuffer i v s).cop = s.cop := (rfl)
@[simp] theorem loadBuffer_addr (i : Word) (v : Byte) (s : State) : (loadBuffer i v s).addr = s.addr := (rfl)
@[simp] theorem loadBuffer_cur (i : Word) (v : Byte) (s : State) : (loadBuffer i v s).cur = s.cur := (rfl)
@[simp] theorem loadBuffer_idx (i : Word) (v : Byte) (s : State) : (loadBuffer i v s).idx = s.idx := (rfl)
@[simp] theorem loadBuffer_rem (i : Word) (v : Byte) (s : State) : (loadBuffer i v s).rem = s.rem := (rfl)
@[simp] theorem loadBuffer_n (i : Word) (v : Byte) (s : State) : (loadBuffer i v s).n = s.n := (rfl)
@[simp] theorem loadBuffer_cnt (i : Word) (v : Byte) (s : State) : (loadBuffer i v s).cnt = s.cnt := (rfl)
@[simp] theorem loadBuffer_k (i : Word) (v : Byte) (s : State) : (loadBuffer i v s).k = s.k := (rfl)
@[simp] theorem loadBuffer_own (i : Word) (v : Byte) (s : State) : (loadBuffer i v s).own = s.own := (rfl)
@[simp] theorem loadBuffer_cs (i : Word) (v : Byte) (s : State) : (loadBuffer i v s).cs = s.cs := (rfl)
@[simp] theorem loadBuffer_wp (i : Word) (v : Byte) (s : State) : (loadBuffer i v s).wp = s.wp := (rfl)
@[simp] theorem loadBuffer_rst (i : Word) (v : Byte) (s : State) : (loadBuffer i v s).rst = s.rst := (rfl)
@[simp] theorem loadBuffer_cfg (i : Word) (v : Byte) (s : State) : (loadBuffer i v s).cfg = s.cfg := (rfl)
@[simp] theorem loadBuffer_hbuf (i : Word) (v : Byte) (s : State) : (loadBuffer i v s).hbuf = s.hbuf.write i.toNat v := (rfl)
@[simp] theorem loadBuffer_dev (i : Word) (v : Byte) (s : State) : (loadBuffer i v s).dev = s.dev := (rfl)
@[simp] theorem loadBuffer_moves (i : Word) (v : Byte) (s : State) : (loadBuffer i v s).moves = s.moves := (rfl)
@[simp] theorem loadBuffer_answers (i : Word) (v : Byte) (s : State) : (loadBuffer i v s).answers = s.answers := (rfl)
@[simp] theorem loadBuffer_draws (i : Word) (v : Byte) (s : State) : (loadBuffer i v s).draws = s.draws := (rfl)
@[simp] theorem loadBuffer_trace (i : Word) (v : Byte) (s : State) : (loadBuffer i v s).trace = s.trace := (rfl)
@[simp] theorem loadBuffer_reads (i : Word) (v : Byte) (s : State) : (loadBuffer i v s).reads = s.reads := (rfl)

/-! ## `chipDone` -/

@[simp] theorem chipDone_page (s : State) : (chipDone s).page = s.page := (rfl)
@[simp] theorem chipDone_offset (s : State) : (chipDone s).offset = s.offset := (rfl)
@[simp] theorem chipDone_size (s : State) : (chipDone s).size = s.size := (rfl)
@[simp] theorem chipDone_sector (s : State) : (chipDone s).sector = s.sector := (rfl)
@[simp] theorem chipDone_busy (s : State) : (chipDone s).busy = s.busy := (rfl)
@[simp] theorem chipDone_diagOk (s : State) : (chipDone s).diagOk = s.diagOk := (rfl)
@[simp] theorem chipDone_id (s : State) : (chipDone s).id = s.id := (rfl)
@[simp] theorem chipDone_sr (s : State) : (chipDone s).sr = s.sr := (rfl)
@[simp] theorem chipDone_seq (s : State) : (chipDone s).seq = s.seq := (rfl)
@[simp] theorem chipDone_ret (s : State) : (chipDone s).ret = s.ret := (rfl)
@[simp] theorem chipDone_hret (s : State) : (chipDone s).hret = s.hret := (rfl)
@[simp] theorem chipDone_cop (s : State) : (chipDone s).cop = s.cop := (rfl)
@[simp] theorem chipDone_addr (s : State) : (chipDone s).addr = s.addr := (rfl)
@[simp] theorem chipDone_cur (s : State) : (chipDone s).cur = s.cur := (rfl)
@[simp] theorem chipDone_idx (s : State) : (chipDone s).idx = s.idx := (rfl)
@[simp] theorem chipDone_rem (s : State) : (chipDone s).rem = s.rem := (rfl)
@[simp] theorem chipDone_n (s : State) : (chipDone s).n = s.n := (rfl)
@[simp] theorem chipDone_cnt (s : State) : (chipDone s).cnt = s.cnt := (rfl)
@[simp] theorem chipDone_k (s : State) : (chipDone s).k = s.k := (rfl)
@[simp] theorem chipDone_own (s : State) : (chipDone s).own = s.own := (rfl)
@[simp] theorem chipDone_cs (s : State) : (chipDone s).cs = s.cs := (rfl)
@[simp] theorem chipDone_wp (s : State) : (chipDone s).wp = s.wp := (rfl)
@[simp] theorem chipDone_rst (s : State) : (chipDone s).rst = s.rst := (rfl)
@[simp] theorem chipDone_cfg (s : State) : (chipDone s).cfg = s.cfg := (rfl)
@[simp] theorem chipDone_hbuf (s : State) : (chipDone s).hbuf = s.hbuf := (rfl)
@[simp] theorem chipDone_dev (s : State) : (chipDone s).dev = s.dev.complete := (rfl)
@[simp] theorem chipDone_moves (s : State) : (chipDone s).moves = s.moves := (rfl)
@[simp] theorem chipDone_answers (s : State) : (chipDone s).answers = s.answers := (rfl)
@[simp] theorem chipDone_draws (s : State) : (chipDone s).draws = s.draws := (rfl)
@[simp] theorem chipDone_trace (s : State) : (chipDone s).trace = s.trace := (rfl)
@[simp] theorem chipDone_reads (s : State) : (chipDone s).reads = s.reads := (rfl)

/-! ## `takeMove` -/

@[simp] theorem takeMove_page (rest : List Move) (s : State) : (takeMove rest s).page = s.page := (rfl)
@[simp] theorem takeMove_offset (rest : List Move) (s : State) : (takeMove rest s).offset = s.offset := (rfl)
@[simp] theorem takeMove_size (rest : List Move) (s : State) : (takeMove rest s).size = s.size := (rfl)
@[simp] theorem takeMove_sector (rest : List Move) (s : State) : (takeMove rest s).sector = s.sector := (rfl)
@[simp] theorem takeMove_busy (rest : List Move) (s : State) : (takeMove rest s).busy = s.busy := (rfl)
@[simp] theorem takeMove_diagOk (rest : List Move) (s : State) : (takeMove rest s).diagOk = s.diagOk := (rfl)
@[simp] theorem takeMove_id (rest : List Move) (s : State) : (takeMove rest s).id = s.id := (rfl)
@[simp] theorem takeMove_sr (rest : List Move) (s : State) : (takeMove rest s).sr = s.sr := (rfl)
@[simp] theorem takeMove_seq (rest : List Move) (s : State) : (takeMove rest s).seq = s.seq := (rfl)
@[simp] theorem takeMove_ret (rest : List Move) (s : State) : (takeMove rest s).ret = s.ret := (rfl)
@[simp] theorem takeMove_hret (rest : List Move) (s : State) : (takeMove rest s).hret = s.hret := (rfl)
@[simp] theorem takeMove_cop (rest : List Move) (s : State) : (takeMove rest s).cop = s.cop := (rfl)
@[simp] theorem takeMove_addr (rest : List Move) (s : State) : (takeMove rest s).addr = s.addr := (rfl)
@[simp] theorem takeMove_cur (rest : List Move) (s : State) : (takeMove rest s).cur = s.cur := (rfl)
@[simp] theorem takeMove_idx (rest : List Move) (s : State) : (takeMove rest s).idx = s.idx := (rfl)
@[simp] theorem takeMove_rem (rest : List Move) (s : State) : (takeMove rest s).rem = s.rem := (rfl)
@[simp] theorem takeMove_n (rest : List Move) (s : State) : (takeMove rest s).n = s.n := (rfl)
@[simp] theorem takeMove_cnt (rest : List Move) (s : State) : (takeMove rest s).cnt = s.cnt := (rfl)
@[simp] theorem takeMove_k (rest : List Move) (s : State) : (takeMove rest s).k = s.k := (rfl)
@[simp] theorem takeMove_own (rest : List Move) (s : State) : (takeMove rest s).own = s.own := (rfl)
@[simp] theorem takeMove_cs (rest : List Move) (s : State) : (takeMove rest s).cs = s.cs := (rfl)
@[simp] theorem takeMove_wp (rest : List Move) (s : State) : (takeMove rest s).wp = s.wp := (rfl)
@[simp] theorem takeMove_rst (rest : List Move) (s : State) : (takeMove rest s).rst = s.rst := (rfl)
@[simp] theorem takeMove_cfg (rest : List Move) (s : State) : (takeMove rest s).cfg = s.cfg := (rfl)
@[simp] theorem takeMove_hbuf (rest : List Move) (s : State) : (takeMove rest s).hbuf = s.hbuf := (rfl)
@[simp] theorem takeMove_dev (rest : List Move) (s : State) : (takeMove rest s).dev = s.dev := (rfl)
@[simp] theorem takeMove_moves (rest : List Move) (s : State) : (takeMove rest s).moves = rest := (rfl)
@[simp] theorem takeMove_answers (rest : List Move) (s : State) : (takeMove rest s).answers = s.answers := (rfl)
@[simp] theorem takeMove_draws (rest : List Move) (s : State) : (takeMove rest s).draws = s.draws := (rfl)
@[simp] theorem takeMove_trace (rest : List Move) (s : State) : (takeMove rest s).trace = s.trace := (rfl)
@[simp] theorem takeMove_reads (rest : List Move) (s : State) : (takeMove rest s).reads = s.reads := (rfl)

/-! ## `recordRead` -/

@[simp] theorem recordRead_page (r : HostRead) (s : State) : (recordRead r s).page = s.page := (rfl)
@[simp] theorem recordRead_offset (r : HostRead) (s : State) : (recordRead r s).offset = s.offset := (rfl)
@[simp] theorem recordRead_size (r : HostRead) (s : State) : (recordRead r s).size = s.size := (rfl)
@[simp] theorem recordRead_sector (r : HostRead) (s : State) : (recordRead r s).sector = s.sector := (rfl)
@[simp] theorem recordRead_busy (r : HostRead) (s : State) : (recordRead r s).busy = s.busy := (rfl)
@[simp] theorem recordRead_diagOk (r : HostRead) (s : State) : (recordRead r s).diagOk = s.diagOk := (rfl)
@[simp] theorem recordRead_id (r : HostRead) (s : State) : (recordRead r s).id = s.id := (rfl)
@[simp] theorem recordRead_sr (r : HostRead) (s : State) : (recordRead r s).sr = s.sr := (rfl)
@[simp] theorem recordRead_seq (r : HostRead) (s : State) : (recordRead r s).seq = s.seq := (rfl)
@[simp] theorem recordRead_ret (r : HostRead) (s : State) : (recordRead r s).ret = s.ret := (rfl)
@[simp] theorem recordRead_hret (r : HostRead) (s : State) : (recordRead r s).hret = s.hret := (rfl)
@[simp] theorem recordRead_cop (r : HostRead) (s : State) : (recordRead r s).cop = s.cop := (rfl)
@[simp] theorem recordRead_addr (r : HostRead) (s : State) : (recordRead r s).addr = s.addr := (rfl)
@[simp] theorem recordRead_cur (r : HostRead) (s : State) : (recordRead r s).cur = s.cur := (rfl)
@[simp] theorem recordRead_idx (r : HostRead) (s : State) : (recordRead r s).idx = s.idx := (rfl)
@[simp] theorem recordRead_rem (r : HostRead) (s : State) : (recordRead r s).rem = s.rem := (rfl)
@[simp] theorem recordRead_n (r : HostRead) (s : State) : (recordRead r s).n = s.n := (rfl)
@[simp] theorem recordRead_cnt (r : HostRead) (s : State) : (recordRead r s).cnt = s.cnt := (rfl)
@[simp] theorem recordRead_k (r : HostRead) (s : State) : (recordRead r s).k = s.k := (rfl)
@[simp] theorem recordRead_own (r : HostRead) (s : State) : (recordRead r s).own = s.own := (rfl)
@[simp] theorem recordRead_cs (r : HostRead) (s : State) : (recordRead r s).cs = s.cs := (rfl)
@[simp] theorem recordRead_wp (r : HostRead) (s : State) : (recordRead r s).wp = s.wp := (rfl)
@[simp] theorem recordRead_rst (r : HostRead) (s : State) : (recordRead r s).rst = s.rst := (rfl)
@[simp] theorem recordRead_cfg (r : HostRead) (s : State) : (recordRead r s).cfg = s.cfg := (rfl)
@[simp] theorem recordRead_hbuf (r : HostRead) (s : State) : (recordRead r s).hbuf = s.hbuf := (rfl)
@[simp] theorem recordRead_dev (r : HostRead) (s : State) : (recordRead r s).dev = s.dev := (rfl)
@[simp] theorem recordRead_moves (r : HostRead) (s : State) : (recordRead r s).moves = s.moves := (rfl)
@[simp] theorem recordRead_answers (r : HostRead) (s : State) : (recordRead r s).answers = s.answers := (rfl)
@[simp] theorem recordRead_draws (r : HostRead) (s : State) : (recordRead r s).draws = s.draws := (rfl)
@[simp] theorem recordRead_trace (r : HostRead) (s : State) : (recordRead r s).trace = s.trace := (rfl)
@[simp] theorem recordRead_reads (r : HostRead) (s : State) : (recordRead r s).reads = s.reads ++ [r] := (rfl)

/-! ## `drawn`: only the free answers move -/

@[simp] theorem drawn_page (s : State) : (drawn s).page = s.page := (rfl)
@[simp] theorem drawn_offset (s : State) : (drawn s).offset = s.offset := (rfl)
@[simp] theorem drawn_size (s : State) : (drawn s).size = s.size := (rfl)
@[simp] theorem drawn_sector (s : State) : (drawn s).sector = s.sector := (rfl)
@[simp] theorem drawn_busy (s : State) : (drawn s).busy = s.busy := (rfl)
@[simp] theorem drawn_diagOk (s : State) : (drawn s).diagOk = s.diagOk := (rfl)
@[simp] theorem drawn_id (s : State) : (drawn s).id = s.id := (rfl)
@[simp] theorem drawn_sr (s : State) : (drawn s).sr = s.sr := (rfl)
@[simp] theorem drawn_seq (s : State) : (drawn s).seq = s.seq := (rfl)
@[simp] theorem drawn_ret (s : State) : (drawn s).ret = s.ret := (rfl)
@[simp] theorem drawn_hret (s : State) : (drawn s).hret = s.hret := (rfl)
@[simp] theorem drawn_cop (s : State) : (drawn s).cop = s.cop := (rfl)
@[simp] theorem drawn_addr (s : State) : (drawn s).addr = s.addr := (rfl)
@[simp] theorem drawn_cur (s : State) : (drawn s).cur = s.cur := (rfl)
@[simp] theorem drawn_idx (s : State) : (drawn s).idx = s.idx := (rfl)
@[simp] theorem drawn_rem (s : State) : (drawn s).rem = s.rem := (rfl)
@[simp] theorem drawn_n (s : State) : (drawn s).n = s.n := (rfl)
@[simp] theorem drawn_cnt (s : State) : (drawn s).cnt = s.cnt := (rfl)
@[simp] theorem drawn_k (s : State) : (drawn s).k = s.k := (rfl)
@[simp] theorem drawn_own (s : State) : (drawn s).own = s.own := (rfl)
@[simp] theorem drawn_cs (s : State) : (drawn s).cs = s.cs := (rfl)
@[simp] theorem drawn_wp (s : State) : (drawn s).wp = s.wp := (rfl)
@[simp] theorem drawn_rst (s : State) : (drawn s).rst = s.rst := (rfl)
@[simp] theorem drawn_cfg (s : State) : (drawn s).cfg = s.cfg := (rfl)
@[simp] theorem drawn_hbuf (s : State) : (drawn s).hbuf = s.hbuf := (rfl)
@[simp] theorem drawn_dev (s : State) : (drawn s).dev = s.dev := (rfl)
@[simp] theorem drawn_moves (s : State) : (drawn s).moves = s.moves := (rfl)
@[simp] theorem drawn_trace (s : State) : (drawn s).trace = s.trace := (rfl)
@[simp] theorem drawn_reads (s : State) : (drawn s).reads = s.reads := (rfl)

/-! ## `answered`: only the free answers move -/

@[simp] theorem answered_page (s : State) : (answered s).page = s.page := by
  unfold answered; split <;> simp
@[simp] theorem answered_offset (s : State) : (answered s).offset = s.offset := by
  unfold answered; split <;> simp
@[simp] theorem answered_size (s : State) : (answered s).size = s.size := by
  unfold answered; split <;> simp
@[simp] theorem answered_sector (s : State) : (answered s).sector = s.sector := by
  unfold answered; split <;> simp
@[simp] theorem answered_busy (s : State) : (answered s).busy = s.busy := by
  unfold answered; split <;> simp
@[simp] theorem answered_diagOk (s : State) : (answered s).diagOk = s.diagOk := by
  unfold answered; split <;> simp
@[simp] theorem answered_id (s : State) : (answered s).id = s.id := by
  unfold answered; split <;> simp
@[simp] theorem answered_sr (s : State) : (answered s).sr = s.sr := by
  unfold answered; split <;> simp
@[simp] theorem answered_seq (s : State) : (answered s).seq = s.seq := by
  unfold answered; split <;> simp
@[simp] theorem answered_ret (s : State) : (answered s).ret = s.ret := by
  unfold answered; split <;> simp
@[simp] theorem answered_hret (s : State) : (answered s).hret = s.hret := by
  unfold answered; split <;> simp
@[simp] theorem answered_cop (s : State) : (answered s).cop = s.cop := by
  unfold answered; split <;> simp
@[simp] theorem answered_addr (s : State) : (answered s).addr = s.addr := by
  unfold answered; split <;> simp
@[simp] theorem answered_cur (s : State) : (answered s).cur = s.cur := by
  unfold answered; split <;> simp
@[simp] theorem answered_idx (s : State) : (answered s).idx = s.idx := by
  unfold answered; split <;> simp
@[simp] theorem answered_rem (s : State) : (answered s).rem = s.rem := by
  unfold answered; split <;> simp
@[simp] theorem answered_n (s : State) : (answered s).n = s.n := by
  unfold answered; split <;> simp
@[simp] theorem answered_cnt (s : State) : (answered s).cnt = s.cnt := by
  unfold answered; split <;> simp
@[simp] theorem answered_k (s : State) : (answered s).k = s.k := by
  unfold answered; split <;> simp
@[simp] theorem answered_own (s : State) : (answered s).own = s.own := by
  unfold answered; split <;> simp
@[simp] theorem answered_cs (s : State) : (answered s).cs = s.cs := by
  unfold answered; split <;> simp
@[simp] theorem answered_wp (s : State) : (answered s).wp = s.wp := by
  unfold answered; split <;> simp
@[simp] theorem answered_rst (s : State) : (answered s).rst = s.rst := by
  unfold answered; split <;> simp
@[simp] theorem answered_cfg (s : State) : (answered s).cfg = s.cfg := by
  unfold answered; split <;> simp
@[simp] theorem answered_hbuf (s : State) : (answered s).hbuf = s.hbuf := by
  unfold answered; split <;> simp
@[simp] theorem answered_dev (s : State) : (answered s).dev = s.dev := by
  unfold answered; split <;> simp
@[simp] theorem answered_moves (s : State) : (answered s).moves = s.moves := by
  unfold answered; split <;> simp
@[simp] theorem answered_trace (s : State) : (answered s).trace = s.trace := by
  unfold answered; split <;> simp
@[simp] theorem answered_reads (s : State) : (answered s).reads = s.reads := by
  unfold answered; split <;> simp

/-! ## `readBuffer`: only the record of reads and the free answers move -/

@[simp] theorem readBuffer_page (i : Word) (s : State) : (readBuffer i s).page = s.page := by
  unfold readBuffer; split <;> simp
@[simp] theorem readBuffer_offset (i : Word) (s : State) : (readBuffer i s).offset = s.offset := by
  unfold readBuffer; split <;> simp
@[simp] theorem readBuffer_size (i : Word) (s : State) : (readBuffer i s).size = s.size := by
  unfold readBuffer; split <;> simp
@[simp] theorem readBuffer_sector (i : Word) (s : State) : (readBuffer i s).sector = s.sector := by
  unfold readBuffer; split <;> simp
@[simp] theorem readBuffer_busy (i : Word) (s : State) : (readBuffer i s).busy = s.busy := by
  unfold readBuffer; split <;> simp
@[simp] theorem readBuffer_diagOk (i : Word) (s : State) : (readBuffer i s).diagOk = s.diagOk := by
  unfold readBuffer; split <;> simp
@[simp] theorem readBuffer_id (i : Word) (s : State) : (readBuffer i s).id = s.id := by
  unfold readBuffer; split <;> simp
@[simp] theorem readBuffer_sr (i : Word) (s : State) : (readBuffer i s).sr = s.sr := by
  unfold readBuffer; split <;> simp
@[simp] theorem readBuffer_seq (i : Word) (s : State) : (readBuffer i s).seq = s.seq := by
  unfold readBuffer; split <;> simp
@[simp] theorem readBuffer_ret (i : Word) (s : State) : (readBuffer i s).ret = s.ret := by
  unfold readBuffer; split <;> simp
@[simp] theorem readBuffer_hret (i : Word) (s : State) : (readBuffer i s).hret = s.hret := by
  unfold readBuffer; split <;> simp
@[simp] theorem readBuffer_cop (i : Word) (s : State) : (readBuffer i s).cop = s.cop := by
  unfold readBuffer; split <;> simp
@[simp] theorem readBuffer_addr (i : Word) (s : State) : (readBuffer i s).addr = s.addr := by
  unfold readBuffer; split <;> simp
@[simp] theorem readBuffer_cur (i : Word) (s : State) : (readBuffer i s).cur = s.cur := by
  unfold readBuffer; split <;> simp
@[simp] theorem readBuffer_idx (i : Word) (s : State) : (readBuffer i s).idx = s.idx := by
  unfold readBuffer; split <;> simp
@[simp] theorem readBuffer_rem (i : Word) (s : State) : (readBuffer i s).rem = s.rem := by
  unfold readBuffer; split <;> simp
@[simp] theorem readBuffer_n (i : Word) (s : State) : (readBuffer i s).n = s.n := by
  unfold readBuffer; split <;> simp
@[simp] theorem readBuffer_cnt (i : Word) (s : State) : (readBuffer i s).cnt = s.cnt := by
  unfold readBuffer; split <;> simp
@[simp] theorem readBuffer_k (i : Word) (s : State) : (readBuffer i s).k = s.k := by
  unfold readBuffer; split <;> simp
@[simp] theorem readBuffer_own (i : Word) (s : State) : (readBuffer i s).own = s.own := by
  unfold readBuffer; split <;> simp
@[simp] theorem readBuffer_cs (i : Word) (s : State) : (readBuffer i s).cs = s.cs := by
  unfold readBuffer; split <;> simp
@[simp] theorem readBuffer_wp (i : Word) (s : State) : (readBuffer i s).wp = s.wp := by
  unfold readBuffer; split <;> simp
@[simp] theorem readBuffer_rst (i : Word) (s : State) : (readBuffer i s).rst = s.rst := by
  unfold readBuffer; split <;> simp
@[simp] theorem readBuffer_cfg (i : Word) (s : State) : (readBuffer i s).cfg = s.cfg := by
  unfold readBuffer; split <;> simp
@[simp] theorem readBuffer_hbuf (i : Word) (s : State) : (readBuffer i s).hbuf = s.hbuf := by
  unfold readBuffer; split <;> simp
@[simp] theorem readBuffer_dev (i : Word) (s : State) : (readBuffer i s).dev = s.dev := by
  unfold readBuffer; split <;> simp
@[simp] theorem readBuffer_moves (i : Word) (s : State) : (readBuffer i s).moves = s.moves := by
  unfold readBuffer; split <;> simp
@[simp] theorem readBuffer_trace (i : Word) (s : State) : (readBuffer i s).trace = s.trace := by
  unfold readBuffer; split <;> simp

/-! ## `exchanged` -/

@[simp] theorem exchanged_page (out : Byte) (s : State) : (exchanged out s).page = s.page := by
  simp [exchanged]
@[simp] theorem exchanged_offset (out : Byte) (s : State) : (exchanged out s).offset = s.offset := by
  simp [exchanged]
@[simp] theorem exchanged_size (out : Byte) (s : State) : (exchanged out s).size = s.size := by
  simp [exchanged]
@[simp] theorem exchanged_sector (out : Byte) (s : State) : (exchanged out s).sector = s.sector := by
  simp [exchanged]
@[simp] theorem exchanged_busy (out : Byte) (s : State) : (exchanged out s).busy = s.busy := by
  simp [exchanged]
@[simp] theorem exchanged_diagOk (out : Byte) (s : State) : (exchanged out s).diagOk = s.diagOk := by
  simp [exchanged]
@[simp] theorem exchanged_id (out : Byte) (s : State) : (exchanged out s).id = s.id := by
  simp [exchanged]
@[simp] theorem exchanged_sr (out : Byte) (s : State) : (exchanged out s).sr = s.sr := by
  simp [exchanged]
@[simp] theorem exchanged_seq (out : Byte) (s : State) : (exchanged out s).seq = s.seq := by
  simp [exchanged]
@[simp] theorem exchanged_ret (out : Byte) (s : State) : (exchanged out s).ret = s.ret := by
  simp [exchanged]
@[simp] theorem exchanged_hret (out : Byte) (s : State) : (exchanged out s).hret = s.hret := by
  simp [exchanged]
@[simp] theorem exchanged_cop (out : Byte) (s : State) : (exchanged out s).cop = s.cop := by
  simp [exchanged]
@[simp] theorem exchanged_addr (out : Byte) (s : State) : (exchanged out s).addr = s.addr := by
  simp [exchanged]
@[simp] theorem exchanged_cur (out : Byte) (s : State) : (exchanged out s).cur = s.cur := by
  simp [exchanged]
@[simp] theorem exchanged_idx (out : Byte) (s : State) : (exchanged out s).idx = s.idx := by
  simp [exchanged]
@[simp] theorem exchanged_rem (out : Byte) (s : State) : (exchanged out s).rem = s.rem := by
  simp [exchanged]
@[simp] theorem exchanged_n (out : Byte) (s : State) : (exchanged out s).n = s.n := by
  simp [exchanged]
@[simp] theorem exchanged_cnt (out : Byte) (s : State) : (exchanged out s).cnt = s.cnt := by
  simp [exchanged]
@[simp] theorem exchanged_k (out : Byte) (s : State) : (exchanged out s).k = s.k := by
  simp [exchanged]
@[simp] theorem exchanged_own (out : Byte) (s : State) : (exchanged out s).own = s.own := by
  simp [exchanged]
@[simp] theorem exchanged_cs (out : Byte) (s : State) : (exchanged out s).cs = s.cs := by
  simp [exchanged]
@[simp] theorem exchanged_wp (out : Byte) (s : State) : (exchanged out s).wp = s.wp := by
  simp [exchanged]
@[simp] theorem exchanged_rst (out : Byte) (s : State) : (exchanged out s).rst = s.rst := by
  simp [exchanged]
@[simp] theorem exchanged_cfg (out : Byte) (s : State) : (exchanged out s).cfg = s.cfg := by
  simp [exchanged]
@[simp] theorem exchanged_hbuf (out : Byte) (s : State) : (exchanged out s).hbuf = s.hbuf := by
  simp [exchanged]
@[simp] theorem exchanged_dev (out : Byte) (s : State) : (exchanged out s).dev = s.dev.receive s.cfg out := (rfl)
@[simp] theorem exchanged_moves (out : Byte) (s : State) : (exchanged out s).moves = s.moves := by
  simp [exchanged]
@[simp] theorem exchanged_answers (out : Byte) (s : State) : (exchanged out s).answers = (answered s).answers := (rfl)
@[simp] theorem exchanged_draws (out : Byte) (s : State) : (exchanged out s).draws = (answered s).draws := (rfl)
@[simp] theorem exchanged_trace (out : Byte) (s : State) : (exchanged out s).trace = s.trace ++ [.x out (answer s)] := by
  simp [exchanged]
@[simp] theorem exchanged_reads (out : Byte) (s : State) : (exchanged out s).reads = s.reads := by
  simp [exchanged]

end Sys2Proof.Machine
end

