-- ==== Sys2Proof/Laws/Device.lean ====
section
/-! SUPPORT. What each operation of the chip can do: which keep a frame open, which fields each leaves alone, which
bytes a run drawn anew covers, and that every one keeps the memories' canonical form. -/

namespace Sys2Proof.Machine

/-- The page of an address, from its bytes (R65). -/
theorem addrPage_eq (a : Addr) : addrPage a = a.a0.toNat % 32 * 128 + a.a1.toNat / 2 := by
  have h0 := a.a0.isLt; have h1 := a.a1.isLt; have h2 := a.a2.isLt
  simp only [addrPage, addrBits, BitVec.extractLsb'_toNat, BitVec.toNat_append, Nat.shiftRight_eq_div_pow]
  rw [← Nat.shiftLeft_add_eq_or_of_lt (by omega), ← Nat.shiftLeft_add_eq_or_of_lt (by omega)]
  simp only [Nat.shiftLeft_eq]
  omega

/-- The sector of an address, from its bytes (R65, R89). -/
theorem addrSector_eq (a : Addr) : addrSector a = a.a0.toNat / 2 % 16 := by
  have h0 := a.a0.isLt; have h1 := a.a1.isLt; have h2 := a.a2.isLt
  simp only [addrSector, addrBits, BitVec.extractLsb'_toNat, BitVec.toNat_append, Nat.shiftRight_eq_div_pow]
  rw [← Nat.shiftLeft_add_eq_or_of_lt (by omega), ← Nat.shiftLeft_add_eq_or_of_lt (by omega)]
  simp only [Nat.shiftLeft_eq]
  omega

/-- Whatever address a cut frame was going to send, the bytes it names lie in `namedRange`. -/
theorem namedRange_covers (c : Cfg) (op : Byte) {got : List Byte} {a : Addr} {p o : Nat}
    (hg : got <+: [a.a0, a.a1, a.a2]) (hp : p < totalPages) (ho : o < pageSize)
    (h : if op = c.opSectorErase then p / sectorPages = addrSector a else p = addrPage a) :
    (namedRange c op got).1 ≤ linear p o ∧
      linear p o < (namedRange c op got).1 + (namedRange c op got).2 := by
  have h1 := a.a1.isLt
  match got, hg with
  | [], _ => simp only [namedRange, linear, totalPages, pageSize] at *; omega
  | a0 :: rest, hg =>
    obtain ⟨rfl, hg⟩ := List.cons_prefix_cons.mp hg
    simp only [namedRange]
    split at h
    · rename_i he
      simp only [if_pos he, Operation.range, addrSector_eq, linear, totalPages, pageSize, sectorPages] at *
      omega
    · rename_i he
      simp only [if_neg he]
      match rest, hg with
      | [], _ =>
        simp only [addrPage_eq, linear, totalPages, pageSize] at *
        simp at *
        omega
      | a1 :: _, hg =>
        obtain ⟨rfl, _⟩ := List.cons_prefix_cons.mp (List.cons_prefix_cons.mp hg).2
        simp only [Operation.range, addrPage_eq, linear, totalPages, pageSize] at *
        omega

end Sys2Proof.Machine

namespace Sys2Proof.Machine.Dev

@[simp] theorem lose_frame (d : Dev) : d.lose.frame = d.frame := by
  unfold lose; split <;> rfl

@[simp] theorem lose_array (d : Dev) : d.lose.array = d.array := by
  unfold lose; split <;> rfl

@[simp] theorem lose_buf1 (d : Dev) : d.lose.buf1 = d.buf1 := by
  unfold lose; split <;> rfl

@[simp] theorem beginFrame_frame (d : Dev) : d.beginFrame.frame = some [] := rfl

@[simp] theorem beginFrame_array (d : Dev) : d.beginFrame.array = d.array := rfl

@[simp] theorem beginFrame_buf1 (d : Dev) : d.beginFrame.buf1 = d.buf1 := rfl

@[simp] theorem endFrame_frame (c : Cfg) (wp : Bool) (d : Dev) : (d.endFrame c wp).frame = none := by
  unfold endFrame
  repeat' split
  all_goals rfl

@[simp] theorem sessionByte_array (c : Cfg) (d : Dev) (op : Byte) (got : List Byte) (b : Byte) :
    (d.sessionByte c op got b).array = d.array := by
  unfold sessionByte storeByte
  repeat' split
  all_goals simp

/-- A byte keeps the frame open. -/
@[simp] theorem receive_frame_isSome (c : Cfg) (d : Dev) (b : Byte) :
    (d.receive c b).frame.isSome = d.frame.isSome := by
  unfold receive
  repeat' split
  all_goals simp_all

/-- A byte is appended to the open frame, whatever the chip makes of it (R82). -/
theorem receive_frame (c : Cfg) {d : Dev} {bytes : List Byte} (b : Byte) (h : d.frame = some bytes) :
    (d.receive c b).frame = some (bytes ++ [b]) := by
  unfold receive
  repeat' split
  all_goals simp_all

/-- A byte never changes the array. -/
@[simp] theorem receive_array (c : Cfg) (d : Dev) (b : Byte) : (d.receive c b).array = d.array := by
  unfold receive
  repeat' split
  all_goals simp

theorem storeByte_buf1_wf {d : Dev} (h : d.buf1.wf) (b : Byte) : (d.storeByte b).buf1.wf := by
  unfold storeByte
  split
  · exact Memory.write_wf h _ _
  · simpa using h

theorem sessionByte_buf1_wf {d : Dev} (h : d.buf1.wf) (c : Cfg) (op : Byte) (got : List Byte) (b : Byte) :
    (d.sessionByte c op got b).buf1.wf := by
  unfold sessionByte
  repeat' split
  all_goals first | exact storeByte_buf1_wf h b | exact h

theorem receive_buf1_wf {d : Dev} (h : d.buf1.wf) (c : Cfg) (b : Byte) : (d.receive c b).buf1.wf := by
  unfold receive
  repeat' split
  all_goals first | exact sessionByte_buf1_wf h _ _ _ _ | simpa using h

theorem endFrame_array_wf {d : Dev} (h : d.array.wf) (c : Cfg) (wp : Bool) : (d.endFrame c wp).array.wf := by
  unfold endFrame
  repeat' split
  all_goals first | exact h | simpa using h | exact Memory.wf_nil

theorem endFrame_buf1_wf {d : Dev} (h : d.buf1.wf) (c : Cfg) (wp : Bool) : (d.endFrame c wp).buf1.wf := by
  unfold endFrame
  repeat' split
  all_goals first | exact h | simpa using h | exact Memory.wf_nil

@[simp] theorem complete_frame (d : Dev) : d.complete.frame = d.frame := by
  unfold complete
  repeat' split
  all_goals rfl

@[simp] theorem complete_buf1 (d : Dev) : d.complete.buf1 = d.buf1 := by
  unfold complete
  repeat' split
  all_goals rfl

theorem complete_array_wf {d : Dev} (h : d.array.wf) : d.complete.array.wf := by
  unfold complete
  repeat' split
  all_goals first | exact h | exact Memory.writeRange_wf h _ _

@[simp] theorem resetPulse_array (d : Dev) : d.resetPulse.array = d.array := by
  unfold resetPulse; split <;> rfl

theorem resetPulse_buf1_wf {d : Dev} (h : d.buf1.wf) : d.resetPulse.buf1.wf := by
  unfold resetPulse
  split
  · exact h
  · exact Memory.wf_nil
  · exact Memory.wf_nil

theorem resetPulse_frame_of_none {d : Dev} (h : d.frame = none) : d.resetPulse.frame = none := by
  unfold resetPulse
  split <;> first | exact h | rfl

@[simp] theorem lose_arrayByte? (d : Dev) (p o : Nat) : d.lose.arrayByte? p o = d.arrayByte? p o := by
  unfold lose; split <;> rfl

/-- A byte of a run drawn anew is that of a new draw. -/
theorem redrawRange_arrayByte?_inside (d : Dev) {x count p o : Nat} (hp : p < totalPages) (ho : o < pageSize)
    (h1 : x ≤ linear p o) (h2 : linear p o < x + count) :
    (d.redrawRange x count).arrayByte? p o = some (Config.blankByte .mainArray d.epochs (linear p o)) := by
  obtain ⟨j, hj⟩ := Nat.exists_eq_add_of_le h1
  have hlt : j < count := by omega
  have := Memory.get?_writeRange_inside d.array x
    ((List.range count).map fun j => Config.blankByte .mainArray d.epochs (x + j)) j (by simpa using hlt)
  simp [arrayByte?, hp, ho, redrawRange, Memory.read, hj, this, hlt]

/-- A byte outside a run drawn anew is as it was. -/
theorem redrawRange_arrayByte?_outside (d : Dev) {x count p o : Nat}
    (h : linear p o < x ∨ x + count ≤ linear p o) :
    (d.redrawRange x count).arrayByte? p o = d.arrayByte? p o := by
  have := Memory.get?_writeRange_outside d.array x
    ((List.range count).map fun j => Config.blankByte .mainArray d.epochs (x + j)) (linear p o) (by simpa using h)
  simp [arrayByte?, redrawRange, Memory.read, this]

theorem disturb_arrayByte?_outside (d : Dev) (range : Option (Nat × Nat)) {p o : Nat}
    (h : ∀ r, range = some r → linear p o < r.1 ∨ r.1 + r.2 ≤ linear p o) :
    (d.disturb range).arrayByte? p o = d.arrayByte? p o := by
  cases range with
  | none => rfl
  | some r => exact redrawRange_arrayByte?_outside d (h r rfl)

theorem disturb_array_wf {d : Dev} (h : d.array.wf) (r : Option (Nat × Nat)) : (d.disturb r).array.wf := by
  unfold disturb
  split
  · exact Memory.writeRange_wf h _ _
  · exact h

@[simp] theorem disturb_buf1 (d : Dev) (r : Option (Nat × Nat)) : (d.disturb r).buf1 = d.buf1 := by
  unfold disturb; split <;> rfl

@[simp] theorem disturb_frame (d : Dev) (r : Option (Nat × Nat)) : (d.disturb r).frame = d.frame := by
  unfold disturb; split <;> rfl

@[simp] theorem disturb_mode (d : Dev) (r : Option (Nat × Nat)) : (d.disturb r).mode = d.mode := by
  unfold disturb; split <;> rfl

@[simp] theorem abandon_frame (c : Cfg) (d : Dev) : (d.abandon c).frame = none := by
  unfold abandon; split <;> rfl

theorem abandon_array_wf {d : Dev} (h : d.array.wf) (c : Cfg) : (d.abandon c).array.wf := by
  unfold abandon
  split
  · exact h
  · exact Memory.wf_nil
  · simpa using disturb_array_wf (disturb_array_wf h _) _

theorem abandon_buf1_wf {d : Dev} (h : d.buf1.wf) (c : Cfg) : (d.abandon c).buf1.wf := by
  unfold abandon
  split
  · exact h
  · exact Memory.wf_nil
  · simpa using h

end Sys2Proof.Machine.Dev
end

