-- ==== Sys2Proof/Laws/Ops.lean ====
section
/-! SUPPORT. The spec lemmas of the shared operations: when each completes and what it then leaves, and how they
chain. -/

namespace Sys2Proof.Machine

@[simp] theorem andThen_of_next (s : State) (f : State → Result) : andThen (.next s) f = f s := rfl

@[simp] theorem andThen_of_fault (e : Fault) (f : State → Result) : andThen (.fault e) f = .fault e := rfl

@[simp] theorem andThen_of_refused (e : Refusal) (f : State → Result) : andThen (.refused e) f = .refused e := rfl

theorem andThen_eq_next {r : Result} {f : State → Result} {t : State} :
    andThen r f = .next t ↔ ∃ s, r = .next s ∧ f s = .next t := by
  cases r <;> simp [andThen]

theorem andThen_assoc (r : Result) (f g : State → Result) :
    andThen (andThen r f) g = andThen r fun s => andThen (f s) g := by
  cases r <;> rfl

@[simp] theorem select_of_cs {o : Owner} {s : State} (h : s.cs = false) : select o s = .next (opened o s) := by
  simp [select, h]

theorem select_eq_next {o : Owner} {s t : State} : select o s = .next t ↔ s.cs = false ∧ t = opened o s := by
  cases h : s.cs <;> simp [select, h, eq_comm]

@[simp] theorem deselect_of_cs {s : State} (h : s.cs = true) : deselect s = .next (closed s) := by
  simp [deselect, h]

theorem deselect_eq_next {s t : State} : deselect s = .next t ↔ s.cs = true ∧ t = closed s := by
  cases h : s.cs <;> simp [deselect, h, eq_comm]

@[simp] theorem xfer_of_cs {out : Byte} {s : State} {k : Byte → State → Result} (h : s.cs = true) :
    xfer out s k = k (answer s) (exchanged out s) := by
  simp [xfer, h]

theorem xfer_eq_next {out : Byte} {s t : State} {k : Byte → State → Result} :
    xfer out s k = .next t ↔ s.cs = true ∧ k (answer s) (exchanged out s) = .next t := by
  cases h : s.cs <;> simp [xfer, h]

@[simp] theorem send_of_cs {out : Byte} {s : State} (h : s.cs = true) : send out s = .next (exchanged out s) := by
  simp [send, h]

theorem send_eq_next {out : Byte} {s t : State} : send out s = .next t ↔ s.cs = true ∧ t = exchanged out s := by
  rw [send, xfer_eq_next]
  constructor <;> rintro ⟨h, h'⟩
  · exact ⟨h, by injection h' with h'; exact h'.symm⟩
  · exact ⟨h, by rw [h']⟩

@[simp] theorem thenGoto_of_next (q : Seq) (s : State) : thenGoto q (.next s) = .next (goto q s) := rfl

theorem sendThen_of_cs {out : Byte} {q : Seq} {s : State} (h : s.cs = true) :
    sendThen out q s = .next (goto q (exchanged out s)) := by
  simp [sendThen, h]

@[simp] theorem completed_of_next (s : State) : completed (.next s) = some s := rfl

theorem completed_eq_some {r : Result} {t : State} : completed r = some t ↔ r = .next t := by
  cases r <;> simp [completed]

/-- The state after a whole header (R150). -/
def headerSent (op : Byte) (a : Addr) (o : Owner) (s : State) : State :=
  exchanged a.a2 (exchanged a.a1 (exchanged a.a0 (exchanged op (opened o (sending op a s)))))

theorem header_of_cs {op : Byte} {a : Addr} {o : Owner} {s : State} (h : s.cs = false) :
    header op a o s = .next (headerSent op a o s) := by
  simp [header, h, headerSent]

@[simp] theorem headerSent_cs (op : Byte) (a : Addr) (o : Owner) (s : State) : (headerSent op a o s).cs = true := by
  simp [headerSent]

@[simp] theorem headerSent_cfg (op : Byte) (a : Addr) (o : Owner) (s : State) :
    (headerSent op a o s).cfg = s.cfg := by
  simp [headerSent]

@[simp] theorem headerSent_page (op : Byte) (a : Addr) (o : Owner) (s : State) :
    (headerSent op a o s).page = s.page := by
  simp [headerSent]

@[simp] theorem headerSent_offset (op : Byte) (a : Addr) (o : Owner) (s : State) :
    (headerSent op a o s).offset = s.offset := by
  simp [headerSent]

@[simp] theorem headerSent_size (op : Byte) (a : Addr) (o : Owner) (s : State) :
    (headerSent op a o s).size = s.size := by
  simp [headerSent]

@[simp] theorem headerSent_sector (op : Byte) (a : Addr) (o : Owner) (s : State) :
    (headerSent op a o s).sector = s.sector := by
  simp [headerSent]

@[simp] theorem headerSent_busy (op : Byte) (a : Addr) (o : Owner) (s : State) :
    (headerSent op a o s).busy = s.busy := by
  simp [headerSent]

@[simp] theorem headerSent_diagOk (op : Byte) (a : Addr) (o : Owner) (s : State) :
    (headerSent op a o s).diagOk = s.diagOk := by
  simp [headerSent]

@[simp] theorem headerSent_id (op : Byte) (a : Addr) (o : Owner) (s : State) :
    (headerSent op a o s).id = s.id := by
  simp [headerSent]

@[simp] theorem headerSent_sr (op : Byte) (a : Addr) (o : Owner) (s : State) :
    (headerSent op a o s).sr = s.sr := by
  simp [headerSent]

@[simp] theorem headerSent_seq (op : Byte) (a : Addr) (o : Owner) (s : State) :
    (headerSent op a o s).seq = s.seq := by
  simp [headerSent]

@[simp] theorem headerSent_ret (op : Byte) (a : Addr) (o : Owner) (s : State) :
    (headerSent op a o s).ret = s.ret := by
  simp [headerSent]

@[simp] theorem headerSent_hret (op : Byte) (a : Addr) (o : Owner) (s : State) :
    (headerSent op a o s).hret = s.hret := by
  simp [headerSent]

@[simp] theorem headerSent_cur (op : Byte) (a : Addr) (o : Owner) (s : State) :
    (headerSent op a o s).cur = s.cur := by
  simp [headerSent]

@[simp] theorem headerSent_idx (op : Byte) (a : Addr) (o : Owner) (s : State) :
    (headerSent op a o s).idx = s.idx := by
  simp [headerSent]

@[simp] theorem headerSent_rem (op : Byte) (a : Addr) (o : Owner) (s : State) :
    (headerSent op a o s).rem = s.rem := by
  simp [headerSent]

@[simp] theorem headerSent_n (op : Byte) (a : Addr) (o : Owner) (s : State) :
    (headerSent op a o s).n = s.n := by
  simp [headerSent]

@[simp] theorem headerSent_cnt (op : Byte) (a : Addr) (o : Owner) (s : State) :
    (headerSent op a o s).cnt = s.cnt := by
  simp [headerSent]

@[simp] theorem headerSent_k (op : Byte) (a : Addr) (o : Owner) (s : State) :
    (headerSent op a o s).k = s.k := by
  simp [headerSent]

@[simp] theorem headerSent_wp (op : Byte) (a : Addr) (o : Owner) (s : State) :
    (headerSent op a o s).wp = s.wp := by
  simp [headerSent]

@[simp] theorem headerSent_rst (op : Byte) (a : Addr) (o : Owner) (s : State) :
    (headerSent op a o s).rst = s.rst := by
  simp [headerSent]

@[simp] theorem headerSent_hbuf (op : Byte) (a : Addr) (o : Owner) (s : State) :
    (headerSent op a o s).hbuf = s.hbuf := by
  simp [headerSent]

@[simp] theorem headerSent_moves (op : Byte) (a : Addr) (o : Owner) (s : State) :
    (headerSent op a o s).moves = s.moves := by
  simp [headerSent]

@[simp] theorem headerSent_reads (op : Byte) (a : Addr) (o : Owner) (s : State) :
    (headerSent op a o s).reads = s.reads := by
  simp [headerSent]

@[simp] theorem headerSent_cop (op : Byte) (a : Addr) (o : Owner) (s : State) :
    (headerSent op a o s).cop = op := by
  simp [headerSent]

@[simp] theorem headerSent_addr (op : Byte) (a : Addr) (o : Owner) (s : State) :
    (headerSent op a o s).addr = a := by
  simp [headerSent]

@[simp] theorem headerSent_own (op : Byte) (a : Addr) (o : Owner) (s : State) :
    (headerSent op a o s).own = o := by
  simp [headerSent]

/-! `owner_of` (R304), under the constraint that the opcodes are pairwise distinct (R6). -/

theorem opcodes_nodup {c : Cfg} (h : c.valid = true) : c.opcodes.Nodup := by
  simp [Cfg.valid] at h; exact h.1.1.1.1.2

theorem ownerOf_opPageErase (c : Cfg) : ownerOf c c.opPageErase = some .erase := by simp [ownerOf]

theorem ownerOf_opSectorErase (c : Cfg) : ownerOf c c.opSectorErase = some .erase := by simp [ownerOf]

theorem ownerOf_opBuf1Write {c : Cfg} (h : c.valid = true) : ownerOf c c.opBuf1Write = some .fill := by
  have := opcodes_nodup h
  simp [Cfg.opcodes] at this
  simp [ownerOf]; aesop

theorem ownerOf_opBuf1CommitErase {c : Cfg} (h : c.valid = true) :
    ownerOf c c.opBuf1CommitErase = some .commit := by
  have := opcodes_nodup h
  simp [Cfg.opcodes] at this
  simp [ownerOf]; aesop

theorem ownerOf_opArrayRead {c : Cfg} (h : c.valid = true) : ownerOf c c.opArrayRead = some .read := by
  have := opcodes_nodup h
  simp [Cfg.opcodes] at this
  simp [ownerOf]; aesop

theorem step_of_no_move {s : State} (h : s.moves = []) : step s = seqStep s := by
  simp [step, h]

theorem step_of_move {s : State} {m : Move} {rest : List Move} (h : s.moves = m :: rest) :
    step s = runMove m (takeMove rest s) := by
  simp [step, h]

end Sys2Proof.Machine

namespace Sys2Proof.Safety

open Sys2Proof.Machine

@[simp] theorem run_zero (s : State) : run 0 s = .next s := rfl

theorem run_succ (k : Nat) (s : State) : run (k + 1) s = andThen (Machine.step s) (run k) := rfl

theorem core_run_of_next (M : Host.Core) {k : Nat} {s t : M.State} (h : M.step s = .next t) :
    M.run (k + 1) s = M.run k t := by
  simp [Host.Core.run, h]

theorem core_run_of_fault (M : Host.Core) {k : Nat} {s : M.State} {e : M.Fault} (h : M.step s = .fault e) :
    M.run (k + 1) s = .fault e := by
  simp [Host.Core.run, h]

theorem core_run_of_refused (M : Host.Core) {k : Nat} {s : M.State} {e : M.Refusal} (h : M.step s = .refused e) :
    M.run (k + 1) s = .refused e := by
  simp [Host.Core.run, h]

theorem run_eq_core_run (k : Nat) (s : State) : run k s = Host.Core.run core k s := by
  induction k generalizing s with
  | zero => rfl
  | succ k ih =>
    rw [run_succ]
    cases h : Machine.step s with
    | next t => exact (ih t).trans (core_run_of_next core h).symm
    | fault e => exact (core_run_of_fault core h).symm
    | refused e => exact (core_run_of_refused core h).symm

theorem run_add (j k : Nat) (s : State) : run (j + k) s = andThen (run j s) (run k) := by
  induction j generalizing s with
  | zero => simp
  | succ j ih =>
    rw [Nat.add_right_comm, run_succ, run_succ, andThen_assoc]
    cases Machine.step s with
    | next t => exact ih t
    | fault e => rfl
    | refused e => rfl

theorem Reaches.refl (s : State) : Reaches s s := ⟨0, rfl⟩

theorem Reaches.trans {s t u : State} (h₁ : Reaches s t) (h₂ : Reaches t u) : Reaches s u := by
  obtain ⟨j, hj⟩ := h₁
  obtain ⟨k, hk⟩ := h₂
  exact ⟨j + k, by simp [run_add, hj, hk]⟩

theorem Reaches.step {s t : State} (h : Machine.step s = .next t) : Reaches s t :=
  ⟨1, by simp [run_succ, h]⟩

theorem Reaches.head {s t u : State} (h : Machine.step s = .next t) (h' : Reaches t u) : Reaches s u :=
  (Reaches.step h).trans h'

/-- Fairness (R91): a chip that is not healthy is dead. -/
theorem deadChip_iff (schedule : Schedule) : deadChip schedule ↔ ¬healthyChip schedule := by
  simp [deadChip, healthyChip]

end Sys2Proof.Safety
end

