-- ==== Sys2Proof/Laws/Sequencer.lean ====
section
/-! SUPPORT. What one step of the sequencer does, one lemma for every row of the tables R302 to R310: under the row's
condition, and with chip-select as the row's operation needs it, the step completes and leaves the named state. -/

namespace Sys2Proof.Machine

variable {s : State}

theorem seqStep_idle (h : s.seq = .idle) : seqStep s = .next s := by
  simp [seqStep, h, seqIdle]

theorem seqStep_done (h : s.seq = .done) : seqStep s = .next (goto .idle (notBusy s)) := by
  simp [seqStep, h, seqDone]

theorem seqStep_pSel (h : s.seq = .pSel) (hc : s.cs = false) :
    seqStep s = .next (goto .pOp (opened .poll s)) := by
  simp [seqStep, h, seqPSel, hc]

theorem seqStep_pOp (h : s.seq = .pOp) (hc : s.cs = true) :
    seqStep s = .next (goto .pRd (exchanged s.cfg.opReadStatus s)) := by
  simp [seqStep, h, seqPOp, sendThen_of_cs hc]

theorem seqStep_pRd (h : s.seq = .pRd) (hc : s.cs = true) :
    seqStep s = .next (goto .pDes (latchStatus (answer s) (exchanged s.cfg.dummyOut s))) := by
  simp [seqStep, h, seqPRd, hc]

theorem seqStep_pDes (h : s.seq = .pDes) (hc : s.cs = true) : seqStep s = .next (goto .pTst (closed s)) := by
  simp [seqStep, h, seqPDes, hc]

theorem seqStep_pTst (h : s.seq = .pTst) :
    seqStep s = .next (goto (if readyBit s.sr then s.ret else .pSel) s) := by
  simp [seqStep, h, seqPTst]

theorem seqStep_hSel {o : Owner} (h : s.seq = .hSel) (hc : s.cs = false) (ho : ownerOf s.cfg s.cop = some o) :
    seqStep s = .next (goto .hOp (opened o s)) := by
  simp [seqStep, h, seqHSel, ho, hc]

theorem seqStep_hOp (h : s.seq = .hOp) (hc : s.cs = true) :
    seqStep s = .next (goto .hA0 (exchanged s.cop s)) := by
  simp [seqStep, h, seqHOp, sendThen_of_cs hc]

theorem seqStep_hA0 (h : s.seq = .hA0) (hc : s.cs = true) :
    seqStep s = .next (goto .hA1 (exchanged s.addr.a0 s)) := by
  simp [seqStep, h, seqHA0, sendThen_of_cs hc]

theorem seqStep_hA1 (h : s.seq = .hA1) (hc : s.cs = true) :
    seqStep s = .next (goto .hA2 (exchanged s.addr.a1 s)) := by
  simp [seqStep, h, seqHA1, sendThen_of_cs hc]

theorem seqStep_hA2 (h : s.seq = .hA2) (hc : s.cs = true) :
    seqStep s = .next (goto s.hret (exchanged s.addr.a2 s)) := by
  simp [seqStep, h, seqHA2, sendThen_of_cs hc]

theorem seqStep_iWp (h : s.seq = .iWp) : seqStep s = .next (goto .iRst1 (setWp true s)) := by
  simp [seqStep, h, seqIWp]

theorem seqStep_iRst1 (h : s.seq = .iRst1) : seqStep s = .next (goto .iDly (setRst true s)) := by
  simp [seqStep, h, seqIRst1]

theorem seqStep_iDly (h : s.seq = .iDly) : seqStep s = .next (goto .iRst0 (delayMs s.cfg.resetHoldMs s)) := by
  simp [seqStep, h, seqIDly]

theorem seqStep_iRst0 (h : s.seq = .iRst0) : seqStep s = .next (goto .done (setRst false s)) := by
  simp [seqStep, h, seqIRst0]

theorem seqStep_ep0 (h : s.seq = .ep0) : seqStep s = .next (callPoll .ep1 s) := by
  simp [seqStep, h, seqEp0]

theorem seqStep_ep1 (h : s.seq = .ep1) :
    seqStep s = .next (callHeader s.cfg.opPageErase (pageEraseAddr s) .ep2 s) := by
  simp [seqStep, h, seqEp1]

theorem seqStep_ep2 (h : s.seq = .ep2) (hc : s.cs = true) : seqStep s = .next (goto .done (closed s)) := by
  simp [seqStep, h, seqEp2, hc]

theorem seqStep_es0_refused (h : s.seq = .es0) (hz : sectorRefused s.sector = true) :
    seqStep s = .next (goto .done s) := by
  simp [seqStep, h, seqEs0, hz]

theorem seqStep_es0 (h : s.seq = .es0) (hz : sectorRefused s.sector = false) :
    seqStep s = .next (callPoll .es1 s) := by
  simp [seqStep, h, seqEs0, hz]

theorem seqStep_es1 (h : s.seq = .es1) :
    seqStep s = .next (callHeader s.cfg.opSectorErase (sectorEraseAddr s) .es2 s) := by
  simp [seqStep, h, seqEs1]

theorem seqStep_es2 (h : s.seq = .es2) (hc : s.cs = true) : seqStep s = .next (goto .done (closed s)) := by
  simp [seqStep, h, seqEs2, hc]

theorem seqStep_w0 (h : s.seq = .w0) : seqStep s = .next (goto .w1 (startWrite (setWp false s))) := by
  simp [seqStep, h, seqW0]

theorem seqStep_w1_ended (h : s.seq = .w1) (hr : s.rem = 0#16) : seqStep s = .next (callPoll .w6 s) := by
  simp [seqStep, h, seqW1, hr]

theorem seqStep_w1 (h : s.seq = .w1) (hr : s.rem ≠ 0#16) : seqStep s = .next (callPoll .w2 (startChunk s)) := by
  simp [seqStep, h, seqW1, hr]

theorem seqStep_w2 (h : s.seq = .w2) :
    seqStep s = .next (callHeader s.cfg.opBuf1Write (bufferAddr 0) .w3 (startCount s)) := by
  simp [seqStep, h, seqW2]

/-- The state after one data byte of a fill: `HRD`, then `X` (R191). -/
def filled (s : State) : State :=
  countByte (exchanged (hostByte s (s.idx + s.cnt)) (memRead (s.idx + s.cnt) s))

theorem fillStep_of_cs (hc : s.cs = true) : fillStep s = .next (filled s) := by
  simp [fillStep, hc, filled]

theorem seqStep_w3 (h : s.seq = .w3) (hc : s.cs = true) (hn : s.cnt < s.n) : seqStep s = .next (filled s) := by
  simp [seqStep, h, seqW3, hn, fillStep_of_cs hc]

theorem seqStep_w3_ended (h : s.seq = .w3) (hc : s.cs = true) (hn : s.cnt = s.n) :
    seqStep s = .next (callPoll .w4 (closed s)) := by
  simp [seqStep, h, seqW3, hn, hc]

theorem seqStep_w4 (h : s.seq = .w4) :
    seqStep s = .next (callHeader s.cfg.opBuf1CommitErase (commitAddr s) .w5 s) := by
  simp [seqStep, h, seqW4]

theorem seqStep_w5 (h : s.seq = .w5) (hc : s.cs = true) :
    seqStep s = .next (goto .w1 (nextChunk (closed s))) := by
  simp [seqStep, h, seqW5, hc]

theorem seqStep_w6 (h : s.seq = .w6) : seqStep s = .next (goto .done (setWp true s)) := by
  simp [seqStep, h, seqW6]

theorem seqStep_r0 (h : s.seq = .r0) : seqStep s = .next (callPoll .r1 s) := by
  simp [seqStep, h, seqR0]

theorem seqStep_r1 (h : s.seq = .r1) :
    seqStep s = .next (callHeader s.cfg.opArrayRead (arrayReadAddr s) .r2 (startCount s)) := by
  simp [seqStep, h, seqR1]

/-- One more dummy sent is one more counted, with either counter (R309, log 12). -/
theorem dummiesSent_countByte_exchanged {s : State} {bytes : List Byte} (b : Byte) (hf : s.dev.frame = some bytes)
    (hl : 4 ≤ bytes.length) (hn : dummiesSent s < s.cfg.nReadDummy) :
    dummiesSent (countByte (exchanged b s)) = dummiesSent s + 1 := by
  have hr := Dev.receive_frame s.cfg b hf
  by_cases hw : s.cfg.nReadDummy < 65536
  · simp only [dummiesSent, hw, ↓reduceIte, countByte_cfg, exchanged_cfg, countByte_cnt, exchanged_cnt] at hn ⊢
    bv_omega
  · simp [dummiesSent, hw, frameBytes, hr, hf]
    omega

theorem seqStep_r2 (h : s.seq = .r2) (hc : s.cs = true) (hn : dummiesSent s < s.cfg.nReadDummy) :
    seqStep s = .next (countByte (exchanged s.cfg.dummyOut s)) := by
  simp [seqStep, h, seqR2, hn, hc]

theorem seqStep_r2_ended (h : s.seq = .r2) (hn : dummiesSent s = s.cfg.nReadDummy) :
    seqStep s = .next (goto .r3 (startCount s)) := by
  simp [seqStep, h, seqR2, hn]

/-- The state after one data byte of a read: `X`, then `HWR` (R213). -/
def readOne (s : State) : State :=
  countByte (memWrite s.cnt (answer s) (exchanged s.cfg.dummyOut s))

theorem readStep_of_cs (hc : s.cs = true) : readStep s = .next (readOne s) := by
  simp [readStep, hc, readOne]

theorem seqStep_r3 (h : s.seq = .r3) (hc : s.cs = true) (hn : s.cnt < s.size) :
    seqStep s = .next (readOne s) := by
  simp [seqStep, h, seqR3, hn, readStep_of_cs hc]

theorem seqStep_r3_ended (h : s.seq = .r3) (hc : s.cs = true) (hn : s.cnt = s.size) :
    seqStep s = .next (goto .done (closed s)) := by
  simp [seqStep, h, seqR3, hn, hc]

theorem seqStep_g0 (h : s.seq = .g0) (hc : s.cs = false) : seqStep s = .next (goto .g1 (opened .diagId s)) := by
  simp [seqStep, h, seqG0, hc]

theorem seqStep_g1 (h : s.seq = .g1) (hc : s.cs = true) :
    seqStep s = .next (goto .g2 (startId (exchanged s.cfg.opReadId s))) := by
  simp [seqStep, h, seqG1, hc]

/-- The state after one identity byte (R220). -/
def idLatched (s : State) : State :=
  latchId (answer s) (exchanged s.cfg.dummyOut s)

theorem idStep_of_cs (hc : s.cs = true) : idStep s = .next (idLatched s) := by
  simp [idStep, hc, idLatched]

theorem seqStep_g2 (h : s.seq = .g2) (hc : s.cs = true) (hk : s.k < 4#3) : seqStep s = .next (idLatched s) := by
  simp [seqStep, h, seqG2, hk, idStep_of_cs hc]

theorem seqStep_g2_ended (h : s.seq = .g2) (hc : s.cs = true) (hk : s.k = 4#3) :
    seqStep s = .next (goto .g3 (closed s)) := by
  simp [seqStep, h, seqG2, hk, hc]

theorem seqStep_g3 (h : s.seq = .g3) (hc : s.cs = false) : seqStep s = .next (goto .g4 (opened .diagSr s)) := by
  simp [seqStep, h, seqG3, hc]

theorem seqStep_g4 (h : s.seq = .g4) (hc : s.cs = true) :
    seqStep s = .next (goto .g5 (exchanged s.cfg.opReadStatus s)) := by
  simp [seqStep, h, seqG4, sendThen_of_cs hc]

theorem seqStep_g5 (h : s.seq = .g5) (hc : s.cs = true) :
    seqStep s = .next (goto .g6 (latchStatus (answer s) (exchanged s.cfg.dummyOut s))) := by
  simp [seqStep, h, seqG5, hc]

theorem seqStep_g6 (h : s.seq = .g6) (hc : s.cs = true) : seqStep s = .next (goto .g7 (closed s)) := by
  simp [seqStep, h, seqG6, hc]

theorem seqStep_g7 (h : s.seq = .g7) : seqStep s = .next (goto .done (latchDiag s)) := by
  simp [seqStep, h, seqG7]

end Sys2Proof.Machine
end

