-- ==== Sys2Proof/Laws/Frames.lean ====
section
/-! SUPPORT. The spec lemmas of the whole frames: each completes when chip-select is not asserted, and leaves the state
that the pure functions below name. -/

namespace Sys2Proof.Machine

/-- The state after the data bytes of a fill. -/
def fills : List Byte → State → State
  | [], s => s
  | b :: bs, s => fills bs (countByte (exchanged b s))

/-- The state after `count` discarded dummy exchanges. -/
def dummies : Nat → State → State
  | 0, s => s
  | count + 1, s => dummies count (countByte (exchanged s.cfg.dummyOut s))

/-- The state after `count` data bytes of a read. -/
def readMany : Nat → State → State
  | 0, s => s
  | count + 1, s => readMany count (readOne s)

/-- The state after `count` identity bytes. -/
def idsLatched : Nat → State → State
  | 0, s => s
  | count + 1, s => idsLatched count (idLatched s)

theorem fillBytes_of_cs (bs : List Byte) {s : State} (h : s.cs = true) : fillBytes bs s = .next (fills bs s) := by
  induction bs generalizing s with
  | nil => rfl
  | cons b bs ih => simp [fillBytes, h, fills, ih]

theorem dummyBytes_of_cs (count : Nat) {s : State} (h : s.cs = true) :
    dummyBytes count s = .next (dummies count s) := by
  induction count generalizing s with
  | zero => rfl
  | succ count ih => simp [dummyBytes, h, dummies, ih]

theorem readBytes_of_cs (count : Nat) {s : State} (h : s.cs = true) :
    readBytes count s = .next (readMany count s) := by
  induction count generalizing s with
  | zero => rfl
  | succ count ih => simp [readBytes, h, readMany, readOne, ih]

theorem latchIdBytes_of_cs (count : Nat) {s : State} (h : s.cs = true) :
    latchIdBytes count s = .next (idsLatched count s) := by
  induction count generalizing s with
  | zero => rfl
  | succ count ih => simp [latchIdBytes, h, idsLatched, idLatched, ih]

/-- A property that every exchange of a data phase keeps, it keeps through the phase. -/
theorem fills_keeps {P : State → Prop} (h : ∀ b s, P s → P (countByte (exchanged b s))) (bs : List Byte)
    {s : State} (hs : P s) : P (fills bs s) := by
  induction bs generalizing s with
  | nil => exact hs
  | cons b bs ih => exact ih (h b s hs)

theorem dummies_keeps {P : State → Prop} (h : ∀ b s, P s → P (countByte (exchanged b s))) (count : Nat)
    {s : State} (hs : P s) : P (dummies count s) := by
  induction count generalizing s with
  | zero => exact hs
  | succ count ih => exact ih (h _ s hs)

theorem readMany_keeps {P : State → Prop} (h : ∀ s, P s → P (readOne s)) (count : Nat) {s : State} (hs : P s) :
    P (readMany count s) := by
  induction count generalizing s with
  | zero => exact hs
  | succ count ih => exact ih (h s hs)

theorem idsLatched_keeps {P : State → Prop} (h : ∀ s, P s → P (idLatched s)) (count : Nat) {s : State} (hs : P s) :
    P (idsLatched count s) := by
  induction count generalizing s with
  | zero => exact hs
  | succ count ih => exact ih (h s hs)

@[simp] theorem fills_cs (bs : List Byte) (s : State) : (fills bs s).cs = s.cs := by
  induction bs generalizing s <;> simp_all [fills]

@[simp] theorem dummies_cs (count : Nat) (s : State) : (dummies count s).cs = s.cs := by
  induction count generalizing s <;> simp_all [dummies]

@[simp] theorem readMany_cs (count : Nat) (s : State) : (readMany count s).cs = s.cs := by
  induction count generalizing s <;> simp_all [readMany, readOne]

@[simp] theorem idsLatched_cs (count : Nat) (s : State) : (idsLatched count s).cs = s.cs := by
  induction count generalizing s <;> simp_all [idsLatched, idLatched]

@[simp] theorem dummies_cfg (count : Nat) (s : State) : (dummies count s).cfg = s.cfg := by
  induction count generalizing s <;> simp_all [dummies]

/-- The state after a whole status read (R170, R221). -/
def statusFrameSent (o : Owner) (s : State) : State :=
  closed (latchStatus (answer (exchanged s.cfg.opReadStatus (opened o s)))
    (exchanged s.cfg.dummyOut (exchanged s.cfg.opReadStatus (opened o s))))

/-- The state after a whole format FA frame. -/
def addressFrameSent (op : Byte) (a : Addr) (o : Owner) (s : State) : State :=
  closed (headerSent op a o s)

/-- The state after a whole identity read (R220). -/
def idFrameSent (s : State) : State :=
  closed (idsLatched 4 (startId (exchanged s.cfg.opReadId (opened .diagId s))))

/-- The state after a whole write session (R190 to R192). -/
def fillFrameSent (a : Addr) (data : List Byte) (s : State) : State :=
  closed (fills data (headerSent s.cfg.opBuf1Write a .fill (startCount s)))

/-- The state after a whole read session (R210 to R212). -/
def readFrameSent (a : Addr) (size : Word) (s : State) : State :=
  closed (readMany size.toNat (startCount (dummies s.cfg.nReadDummy
    (headerSent s.cfg.opArrayRead a .read (startCount s)))))

theorem statusFrame_of_cs {o : Owner} {s : State} (h : s.cs = false) :
    statusFrame o s = .next (statusFrameSent o s) := by
  simp [statusFrame, h, statusFrameSent]

theorem execStatusRead_of_cs {s : State} (h : s.cs = false) :
    execStatusRead s = .next (statusFrameSent .poll s) :=
  statusFrame_of_cs h

theorem addressFrame_of_cs {op : Byte} {a : Addr} {o : Owner} {s : State} (h : s.cs = false) :
    addressFrame op a o s = .next (addressFrameSent op a o s) := by
  simp [addressFrame, header_of_cs h, addressFrameSent]

theorem execIdRead_of_cs {s : State} (h : s.cs = false) : execIdRead s = .next (idFrameSent s) := by
  simp [execIdRead, h, latchIdBytes_of_cs, idFrameSent]

theorem execBuf1Write_of_cs {a : Addr} {data : List Byte} {s : State} (h : s.cs = false) :
    execBuf1Write a data s = .next (fillFrameSent a data s) := by
  simp [execBuf1Write, header_of_cs, h, fillBytes_of_cs, fillFrameSent]

theorem execArrayRead_of_cs {a : Addr} {size : Word} {s : State} (h : s.cs = false) :
    execArrayRead a size s = .next (readFrameSent a size s) := by
  simp [execArrayRead, header_of_cs, h, dummyBytes_of_cs, readBytes_of_cs, readFrameSent]

end Sys2Proof.Machine
end

