-- ==== Sys2Proof/Laws/Links.lean ====
section
/-! SUPPORT. The sequencer's state and its two return registers are bookkeeping: no operation on the bus, on the host
buffer or on a register depends on them. `moved q r h s` is `s` with the three replaced; every operation commutes with
it, so a run of the sequencer is the frame or the program it spells, `moved`. -/

namespace Sys2Proof.Machine

/-- `seq`, `ret` and `hret` replaced. -/
def moved (q r h : Seq) (s : State) : State :=
  { s with seq := q, ret := r, hret := h }

theorem moved_self (s : State) : moved s.seq s.ret s.hret s = s := rfl

section
variable (q r h q' r' h' : Seq) (s : State)

@[simp] theorem moved_seq : (moved q r h s).seq = q := (rfl)
@[simp] theorem moved_ret : (moved q r h s).ret = r := (rfl)
@[simp] theorem moved_hret : (moved q r h s).hret = h := (rfl)
@[simp] theorem moved_page : (moved q r h s).page = s.page := (rfl)
@[simp] theorem moved_offset : (moved q r h s).offset = s.offset := (rfl)
@[simp] theorem moved_size : (moved q r h s).size = s.size := (rfl)
@[simp] theorem moved_sector : (moved q r h s).sector = s.sector := (rfl)
@[simp] theorem moved_busy : (moved q r h s).busy = s.busy := (rfl)
@[simp] theorem moved_diagOk : (moved q r h s).diagOk = s.diagOk := (rfl)
@[simp] theorem moved_id : (moved q r h s).id = s.id := (rfl)
@[simp] theorem moved_sr : (moved q r h s).sr = s.sr := (rfl)
@[simp] theorem moved_cop : (moved q r h s).cop = s.cop := (rfl)
@[simp] theorem moved_addr : (moved q r h s).addr = s.addr := (rfl)
@[simp] theorem moved_cur : (moved q r h s).cur = s.cur := (rfl)
@[simp] theorem moved_idx : (moved q r h s).idx = s.idx := (rfl)
@[simp] theorem moved_rem : (moved q r h s).rem = s.rem := (rfl)
@[simp] theorem moved_n : (moved q r h s).n = s.n := (rfl)
@[simp] theorem moved_cnt : (moved q r h s).cnt = s.cnt := (rfl)
@[simp] theorem dummiesSent_moved : dummiesSent (moved q r h s) = dummiesSent s := (rfl)
@[simp] theorem moved_k : (moved q r h s).k = s.k := (rfl)
@[simp] theorem moved_cs : (moved q r h s).cs = s.cs := (rfl)
@[simp] theorem moved_wp : (moved q r h s).wp = s.wp := (rfl)
@[simp] theorem moved_cfg : (moved q r h s).cfg = s.cfg := (rfl)
@[simp] theorem moved_hbuf : (moved q r h s).hbuf = s.hbuf := (rfl)
@[simp] theorem moved_dev : (moved q r h s).dev = s.dev := (rfl)
@[simp] theorem moved_moves : (moved q r h s).moves = s.moves := (rfl)
@[simp] theorem moved_trace : (moved q r h s).trace = s.trace := (rfl)

@[simp] theorem moved_moved : moved q r h (moved q' r' h' s) = moved q r h s := (rfl)
@[simp] theorem goto_moved : goto q' (moved q r h s) = moved q' r h s := (rfl)
@[simp] theorem callPoll_moved : callPoll r' (moved q r h s) = moved .pSel r' h s := (rfl)
@[simp] theorem callHeader_moved (op : Byte) (a : Addr) :
    callHeader op a h' (moved q r h s) = moved .hSel r h' (sending op a s) := (rfl)
@[simp] theorem began_moved : began q' (moved q r h s) = moved q' r h (began q s) := (rfl)
@[simp] theorem idleWith_moved : Safety.idleWith r' h' (moved q r h s) = Safety.idleWith r' h' s := (rfl)

@[simp] theorem answer_moved : answer (moved q r h s) = answer s := (rfl)
@[simp] theorem hostByte_moved (i : Word) : hostByte (moved q r h s) i = hostByte s i := (rfl)
@[simp] theorem arrayReadAddr_moved : arrayReadAddr (moved q r h s) = arrayReadAddr s := (rfl)
@[simp] theorem commitAddr_moved : commitAddr (moved q r h s) = commitAddr s := (rfl)
@[simp] theorem pageEraseAddr_moved : pageEraseAddr (moved q r h s) = pageEraseAddr s := (rfl)
@[simp] theorem sectorEraseAddr_moved : sectorEraseAddr (moved q r h s) = sectorEraseAddr s := (rfl)

@[simp] theorem emit_moved (e : Event) : emit e (moved q r h s) = moved q r h (emit e s) := (rfl)
@[simp] theorem opened_moved (o : Owner) : opened o (moved q r h s) = moved q r h (opened o s) := (rfl)
@[simp] theorem closed_moved : closed (moved q r h s) = moved q r h (closed s) := (rfl)
@[simp] theorem sending_moved (op : Byte) (a : Addr) :
    sending op a (moved q r h s) = moved q r h (sending op a s) := (rfl)

theorem answered_moved : answered (moved q r h s) = moved q r h (answered s) := by
  unfold answered
  simp only [moved_dev, moved_cfg]
  cases s.dev.answer? s.cfg <;> rfl

@[simp] theorem exchanged_moved (b : Byte) : exchanged b (moved q r h s) = moved q r h (exchanged b s) := by
  unfold exchanged
  rw [answered_moved]
  rfl

@[simp] theorem latchStatus_moved (v : Byte) : latchStatus v (moved q r h s) = moved q r h (latchStatus v s) := (rfl)
@[simp] theorem startCount_moved : startCount (moved q r h s) = moved q r h (startCount s) := (rfl)
@[simp] theorem countByte_moved : countByte (moved q r h s) = moved q r h (countByte s) := (rfl)
@[simp] theorem startId_moved : startId (moved q r h s) = moved q r h (startId s) := (rfl)
@[simp] theorem latchId_moved (v : Byte) : latchId v (moved q r h s) = moved q r h (latchId v s) := (rfl)
@[simp] theorem latchDiag_moved : latchDiag (moved q r h s) = moved q r h (latchDiag s) := (rfl)
@[simp] theorem memWrite_moved (i : Word) (v : Byte) :
    memWrite i v (moved q r h s) = moved q r h (memWrite i v s) := (rfl)
@[simp] theorem memRead_moved (i : Word) : memRead i (moved q r h s) = moved q r h (memRead i s) := (rfl)
@[simp] theorem setWp_moved (b : Bool) : setWp b (moved q r h s) = moved q r h (setWp b s) := (rfl)
@[simp] theorem setRst_moved (b : Bool) : setRst b (moved q r h s) = moved q r h (setRst b s) := (rfl)
@[simp] theorem delayMs_moved (ms : Nat) : delayMs ms (moved q r h s) = moved q r h (delayMs ms s) := (rfl)
@[simp] theorem startWrite_moved : startWrite (moved q r h s) = moved q r h (startWrite s) := (rfl)
@[simp] theorem startChunk_moved : startChunk (moved q r h s) = moved q r h (startChunk s) := (rfl)
@[simp] theorem nextChunk_moved : nextChunk (moved q r h s) = moved q r h (nextChunk s) := (rfl)
@[simp] theorem notBusy_moved : notBusy (moved q r h s) = moved q r h (notBusy s) := (rfl)

@[simp] theorem filled_moved : filled (moved q r h s) = moved q r h (filled s) := by
  simp [filled]

@[simp] theorem readOne_moved : readOne (moved q r h s) = moved q r h (readOne s) := by
  simp [readOne]

@[simp] theorem idLatched_moved : idLatched (moved q r h s) = moved q r h (idLatched s) := by
  simp [idLatched]

end

end Sys2Proof.Machine
end

