-- ==== Sys2Proof/Laws/PerInstr.lean ====
section
/-! SUPPORT. Statements about every instruction as syntax, one lemma a constructor. `FrameLength`: how long an
instruction's encoding is (R101, R104). -/

namespace Sys2Proof.Laws.FrameLength

/-- How many bytes an instruction is encoded in: a host code is one byte written to `CMD` (R101), a frame has its format's
length (R104), and a frame whose format is not given has its opcode and whatever follows (R110). -/
def lengthOf (c : Cfg) : Instr → Nat
  | .init | .erasePage | .eraseSector | .write | .read | .diagnose | .reservedHostCode _ => 1
  | .statusRead => 2
  | .idRead => 5
  | .pageErase _ | .sectorErase _ | .buf1CommitErase _ => 4
  | .buf1Write _ data => 4 + data.length
  | .arrayRead _ size => 4 + c.nReadDummy + size.toNat
  | .chipErase rest => c.opChipErase.length + rest.length
  | .buf2Write rest | .buf1CommitNoerase rest | .pageToBuf1 rest | .pageToBuf2 rest | .powerDown rest
  | .resume rest | .readSecurity rest => 1 + rest.length

/-- The bytes of a code. -/
def bytesIn : Code → List Byte
  | .host code => [code]
  | .frame bytes => bytes

/-- Which rows are bus frames (R100). -/
def isFrameRow : Instr → Bool
  | .init | .erasePage | .eraseSector | .write | .read | .diagnose | .reservedHostCode _ => false
  | .statusRead | .idRead | .pageErase _ | .sectorErase _ | .buf1Write _ _ | .buf1CommitErase _
  | .arrayRead _ _ => true
  | .chipErase _ | .buf2Write _ | .buf1CommitNoerase _ | .pageToBuf1 _ | .pageToBuf2 _ | .powerDown _
  | .resume _ | .readSecurity _ => true

/-- Whether a code is a frame. -/
def isFrame : Code → Bool
  | .host _ => false
  | .frame _ => true

/-- An instruction is encoded at its own level, and its length is the format's. -/
def Statement (i : Instr) : Prop :=
  ∀ c : Cfg, i.wf = true → isFrame (encode c i) = isFrameRow i ∧ (bytesIn (encode c i)).length = lengthOf c i

theorem init : Statement .init :=
  fun _ _ => ⟨rfl, rfl⟩

theorem erasePage : Statement .erasePage :=
  fun _ _ => ⟨rfl, rfl⟩

theorem eraseSector : Statement .eraseSector :=
  fun _ _ => ⟨rfl, rfl⟩

theorem write : Statement .write :=
  fun _ _ => ⟨rfl, rfl⟩

theorem read : Statement .read :=
  fun _ _ => ⟨rfl, rfl⟩

theorem diagnose : Statement .diagnose :=
  fun _ _ => ⟨rfl, rfl⟩

theorem reservedHostCode (code : Byte) : Statement (.reservedHostCode code) :=
  fun _ _ => ⟨rfl, rfl⟩

theorem statusRead : Statement .statusRead :=
  fun _ _ => ⟨rfl, rfl⟩

theorem idRead : Statement .idRead :=
  fun _ _ => ⟨rfl, rfl⟩

theorem pageErase (a : Addr) : Statement (.pageErase a) :=
  fun _ _ => ⟨rfl, rfl⟩

theorem sectorErase (a : Addr) : Statement (.sectorErase a) :=
  fun _ _ => ⟨rfl, rfl⟩

theorem buf1Write (a : Addr) (data : List Byte) : Statement (.buf1Write a data) :=
  fun _ _ => ⟨rfl, by simp [encode, bytesIn, lengthOf, Addr.bytes]; omega⟩

theorem buf1CommitErase (a : Addr) : Statement (.buf1CommitErase a) :=
  fun _ _ => ⟨rfl, rfl⟩

theorem arrayRead (a : Addr) (size : Word) : Statement (.arrayRead a size) :=
  fun _ _ => ⟨rfl, by simp [encode, bytesIn, lengthOf, Addr.bytes]; omega⟩

theorem chipErase (rest : List Byte) : Statement (.chipErase rest) :=
  fun _ _ => ⟨rfl, by simp [encode, bytesIn, lengthOf]⟩

theorem buf2Write (rest : List Byte) : Statement (.buf2Write rest) :=
  fun _ _ => ⟨rfl, by simp [encode, bytesIn, lengthOf]; omega⟩

theorem buf1CommitNoerase (rest : List Byte) : Statement (.buf1CommitNoerase rest) :=
  fun _ _ => ⟨rfl, by simp [encode, bytesIn, lengthOf]; omega⟩

theorem pageToBuf1 (rest : List Byte) : Statement (.pageToBuf1 rest) :=
  fun _ _ => ⟨rfl, by simp [encode, bytesIn, lengthOf]; omega⟩

theorem pageToBuf2 (rest : List Byte) : Statement (.pageToBuf2 rest) :=
  fun _ _ => ⟨rfl, by simp [encode, bytesIn, lengthOf]; omega⟩

theorem powerDown (rest : List Byte) : Statement (.powerDown rest) :=
  fun _ _ => ⟨rfl, by simp [encode, bytesIn, lengthOf]; omega⟩

theorem resume (rest : List Byte) : Statement (.resume rest) :=
  fun _ _ => ⟨rfl, by simp [encode, bytesIn, lengthOf]; omega⟩

theorem readSecurity (rest : List Byte) : Statement (.readSecurity rest) :=
  fun _ _ => ⟨rfl, by simp [encode, bytesIn, lengthOf]; omega⟩

end Sys2Proof.Laws.FrameLength
end

