-- ==== Sys2Proof/Laws/Subroutines.lean ====
section
/-! SUPPORT. The sequencer's two subroutines and its counted loops, run to their end: with no move left, each leads from
its entry to the state that the whole-frame lemmas name. `moved` keeps the control registers apart. -/

namespace Sys2Proof.Safety

open Sys2Proof.Machine

/-- With no move left, one step of the sequencer is one step of the machine. -/
theorem Reaches.seqStep {s t : State} (hm : s.moves = []) (h : seqStep s = .next t) : Reaches s t :=
  Reaches.step (by rw [step_of_no_move hm, h])

theorem bind_eq_some {α β : Type} {o : Option α} {f : α → Option β} {b : β} (h : o.bind f = some b) :
    ∃ a, o = some a ∧ f a = some b := by
  cases o <;> simp_all

/-- One turn of the poll cycle, up to its test (R303). -/
theorem poll_turn {s : State} (r h : Machine.Seq) (hm : s.moves = []) (hc : s.cs = false) :
    Reaches (moved .pSel r h s) (moved .pTst r h (statusFrameSent .poll s)) := by
  refine (Reaches.seqStep (by simpa) (seqStep_pSel (by simp) (by simpa))).trans ?_
  simp
  refine (Reaches.seqStep (by simpa) (seqStep_pOp (by simp) (by simp))).trans ?_
  simp
  refine (Reaches.seqStep (by simpa) (seqStep_pRd (by simp) (by simp))).trans ?_
  simp
  refine (Reaches.seqStep (by simpa) (seqStep_pDes (by simp) (by simp))).trans ?_
  simp
  exact Reaches.refl _

/-- A wait that ends: the poll subroutine returns to its caller with what the wait leaves (R172, R303). -/
theorem wait_run (polls : Nat) {s t : State} (r h : Machine.Seq) (hm : s.moves = []) (hc : s.cs = false)
    (hw : waitUntilReady polls s = some t) :
    Reaches (moved .pSel r h s) (moved r r h t) ∧ t.cs = false ∧ t.moves = [] ∧ t.cfg = s.cfg ∧ t.n = s.n := by
  induction polls generalizing s t r h with
  | zero => simp [waitUntilReady] at hw
  | succ n ih =>
    rw [waitUntilReady, execStatusRead_of_cs hc] at hw
    simp only [completed_of_next] at hw
    have hp := poll_turn r h hm hc
    have f1 : (statusFrameSent .poll s).moves = [] := by simp [statusFrameSent, hm]
    have f2 : (statusFrameSent .poll s).cs = false := by simp [statusFrameSent]
    have f3 : (statusFrameSent .poll s).cfg = s.cfg := by simp [statusFrameSent]
    have f4 : (statusFrameSent .poll s).n = s.n := by simp [statusFrameSent]
    have hst := Reaches.seqStep (s := moved .pTst r h (statusFrameSent .poll s)) (by simpa using f1)
      (seqStep_pTst (by simp))
    simp only [moved_sr, moved_ret, goto_moved] at hst
    split at hw
    · rename_i hr
      injection hw with hw
      subst hw
      rw [if_pos hr] at hst
      exact ⟨hp.trans hst, f2, f1, f3, f4⟩
    · rename_i hr
      rw [if_neg hr] at hst
      obtain ⟨i1, i2, i3, i4, i5⟩ := ih r h f1 f2 hw
      exact ⟨hp.trans (hst.trans i1), i2, i3, i4.trans f3, i5.trans f4⟩

/-- The header subroutine returns to its caller with the header sent (R150, R304). -/
theorem header_run {s : State} {o : Owner} {op : Byte} {a : Addr} (r h : Machine.Seq) (hm : s.moves = [])
    (hc : s.cs = false) (ho : ownerOf s.cfg op = some o) :
    Reaches (moved .hSel r h (sending op a s)) (moved h r h (headerSent op a o s)) := by
  refine (Reaches.seqStep (by simpa) (seqStep_hSel (by simp) (by simpa) (by simpa using ho))).trans ?_
  simp
  refine (Reaches.seqStep (by simpa) (seqStep_hOp (by simp) (by simp))).trans ?_
  simp
  refine (Reaches.seqStep (by simpa) (seqStep_hA0 (by simp) (by simp))).trans ?_
  simp
  refine (Reaches.seqStep (by simpa) (seqStep_hA1 (by simp) (by simp))).trans ?_
  simp
  refine (Reaches.seqStep (by simpa) (seqStep_hA2 (by simp) (by simp))).trans ?_
  simp
  exact Reaches.refl _

/-- The loop of `R_2` (R309). -/
theorem dummies_run (r h : Machine.Seq) (count : Nat) {s : State} (hm : s.moves = []) (hc : s.cs = true)
    {bytes : List Byte} (hf : s.dev.frame = some bytes) (hl : 4 ≤ bytes.length)
    (hn : dummiesSent s + count = s.cfg.nReadDummy) :
    Reaches (moved .r2 r h s) (moved .r2 r h (dummies count s)) := by
  induction count generalizing s bytes with
  | zero => exact Reaches.refl _
  | succ n ih =>
    have hsent := dummiesSent_countByte_exchanged s.cfg.dummyOut hf hl (by omega)
    refine (Reaches.seqStep (by simpa) (seqStep_r2 (by simp) (by simpa) (by simp; omega))).trans ?_
    simp
    exact ih (by simpa) (by simpa) (by simpa using Dev.receive_frame s.cfg s.cfg.dummyOut hf) (by simp; omega)
      (by simp only [hsent, countByte_cfg, exchanged_cfg]; omega)

/-- The loop of `R_3` (R309). -/
theorem readMany_run (r h : Machine.Seq) (count : Nat) {s : State} (hm : s.moves = []) (hc : s.cs = true)
    (hn : s.cnt.toNat + count = s.size.toNat) :
    Reaches (moved .r3 r h s) (moved .r3 r h (readMany count s)) := by
  induction count generalizing s with
  | zero => exact Reaches.refl _
  | succ n ih =>
    refine (Reaches.seqStep (by simpa)
      (seqStep_r3 (by simp) (by simpa) (by simp [BitVec.lt_def]; omega))).trans ?_
    simp
    exact ih (by simpa [readOne]) (by simpa [readOne]) (by simp [readOne]; omega)

/-- The loop of `G_2` (R310). -/
theorem idsLatched_run (r h : Machine.Seq) (count : Nat) {s : State} (hm : s.moves = []) (hc : s.cs = true)
    (hn : s.k.toNat + count = 4) :
    Reaches (moved .g2 r h s) (moved .g2 r h (idsLatched count s)) := by
  induction count generalizing s with
  | zero => exact Reaches.refl _
  | succ n ih =>
    refine (Reaches.seqStep (by simpa)
      (seqStep_g2 (by simp) (by simpa) (by simp [BitVec.lt_def]; omega))).trans ?_
    simp
    exact ih (by simpa [idLatched]) (by simpa [idLatched]) (by simp [idLatched]; omega)

/-- The loop of `W_3` (R308). -/
theorem fill_run (r h : Machine.Seq) (count : Nat) {s t : State} (hm : s.moves = []) (hc : s.cs = true)
    (hn : s.cnt.toNat + count = s.n.toNat) (hf : fillFromHost count s = some t) :
    Reaches (moved .w3 r h s) (moved .w3 r h t) ∧ t.cs = true ∧ t.moves = [] ∧ t.cnt = t.n ∧ t.cfg = s.cfg ∧
      t.n = s.n := by
  induction count generalizing s t with
  | zero =>
    simp [fillFromHost] at hf
    subst hf
    exact ⟨Reaches.refl _, hc, hm, by bv_omega, rfl, rfl⟩
  | succ n ih =>
    rw [fillFromHost, fillStep_of_cs hc] at hf
    simp only [completed_of_next, Option.bind_some] at hf
    obtain ⟨i1, i2, i3, i4, i5, i6⟩ :=
      ih (s := filled s) (by simpa [filled]) (by simpa [filled]) (by simp [filled]; omega) hf
    refine ⟨?_, i2, i3, i4, by simpa [filled] using i5, by simpa [filled] using i6⟩
    refine (Reaches.seqStep (by simpa)
      (seqStep_w3 (by simp) (by simpa) (by simp [BitVec.lt_def]; omega))).trans ?_
    simp
    exact i1

end Sys2Proof.Safety
end

