-- ==== Sys2Proof/Tests/Slice0.lean ====
section
/-! SUPPORT. Small tests of the model on states built here, each with the vector or rule its expected result comes from;
and, for every obligation that has hypotheses, a concrete state and operands that meet them. -/

namespace Sys2Proof.Tests

open Sys2Proof.Machine Sys2Proof.Safety

/-! ## States -/

/-- At rest, with a defined chip that is ready. -/
def ready : State :=
  { State.reset with dev := { Dev.powerUp with mode := .known } }

/-- The same with a busy chip that is erasing page 5. -/
def chipBusy : State :=
  { ready with dev := { ready.dev with busy := true, pending := some (.erasePage 5) } }

/-- A state of the sequencer, with the chip selected or not. -/
def at_ (q : Machine.Seq) (selected : Bool) : State :=
  { ready with busy := true, seq := q, cs := selected }

/-! ## Well-formedness: each check refuses an ill-formed term -/

theorem test_wf_refuses_command_code : (Instr.reservedHostCode 1#8).wf = false := by decide

theorem test_wf_refuses_empty_fill : (Instr.buf1Write ⟨0, 0, 0⟩ []).wf = false := by decide

theorem test_wf_refuses_265_bytes : (Instr.buf1Write ⟨0, 0, 0⟩ (List.replicate 265 0#8)).wf = false := by
  rw [Instr.wf, List.length_replicate]; rfl

theorem test_wf_takes_264_bytes : (Instr.buf1Write ⟨0, 0, 0⟩ (List.replicate 264 0#8)).wf = true := by
  rw [Instr.wf, List.length_replicate]; rfl

/-! ## Decoding: words written out from the encodings of R102 and R104, with the opcodes of `TCFG` (95, section 0) -/

theorem test_decode_host_codes :
    [0x01#8, 0x02#8, 0x03#8, 0x04#8, 0x05#8, 0x06#8, 0x00#8, 0x07#8, 0xFF#8].map decodeHost =
      [.init, .erasePage, .eraseSector, .write, .read, .diagnose, .reservedHostCode 0x00#8,
        .reservedHostCode 0x07#8, .reservedHostCode 0xFF#8] := by decide

/-- Format FS: `op`, `D`. -/
theorem test_decode_status_read : decodeFrame Cfg.family [0xD7#8, 0x00#8] = .ok .statusRead := by rfl

/-- Format FI: `op`, `D` × 4. -/
theorem test_decode_id_read :
    decodeFrame Cfg.family [0x9F#8, 0x00#8, 0x00#8, 0x00#8, 0x00#8] = .ok .idRead := by rfl

/-- V430: ERASE_PAGE of page 5 is `81 00 0A 00`. -/
theorem test_decode_page_erase :
    decodeFrame Cfg.family [0x81#8, 0x00#8, 0x0A#8, 0x00#8] = .ok (.pageErase ⟨0x00, 0x0A, 0x00⟩) := by rfl

/-- V430: ERASE_SECTOR of sector 15 is `7C 1E 00 00`. -/
theorem test_decode_sector_erase :
    decodeFrame Cfg.family [0x7C#8, 0x1E#8, 0x00#8, 0x00#8] = .ok (.sectorErase ⟨0x1E, 0x00, 0x00⟩) := by rfl

/-- V492: a fill of two bytes is `84 00 00 00 3B 42`. -/
theorem test_decode_buf1_write :
    decodeFrame Cfg.family [0x84#8, 0x00#8, 0x00#8, 0x00#8, 0x3B#8, 0x42#8] =
      .ok (.buf1Write ⟨0, 0, 0⟩ [0x3B, 0x42]) := by rfl

/-- V491: the commit to page 10 is `83 00 14 00`. -/
theorem test_decode_commit :
    decodeFrame Cfg.family [0x83#8, 0x00#8, 0x14#8, 0x00#8] = .ok (.buf1CommitErase ⟨0x00, 0x14, 0x00⟩) := by rfl

/-- V450: READ of three bytes from (2, 36) is `03 00 04 24` and three dummies. -/
theorem test_decode_array_read :
    decodeFrame Cfg.family [0x03#8, 0x00#8, 0x04#8, 0x24#8, 0x00#8, 0x00#8, 0x00#8] =
      .ok (.arrayRead ⟨0x00, 0x04, 0x24⟩ 3) := by rfl

/-- With `N_READ_DUMMY = 4` (V450) the same frame has four dummies more. -/
theorem test_decode_array_read_dummies :
    decodeFrame { Cfg.family with nReadDummy := 4 }
      [0x03#8, 0x00#8, 0x04#8, 0x24#8, 0x00#8, 0x00#8, 0x00#8, 0x00#8, 0x00#8] =
      .ok (.arrayRead ⟨0x00, 0x04, 0x24⟩ 1) := by rfl

/-- G1, G7: the opcodes the controller never sends, each with one byte after it. -/
theorem test_decode_unused_opcodes :
    [[0xC7#8, 0x94#8, 0x80#8, 0x9A#8, 0x01#8], [0x87#8, 0x01#8], [0x88#8, 0x01#8], [0x53#8, 0x01#8],
      [0x55#8, 0x01#8], [0xB9#8, 0x01#8], [0xAB#8, 0x01#8], [0x77#8, 0x01#8]].map
        (fun bytes => (decodeFrame Cfg.family bytes).toOption) =
      [some (.chipErase [0x01]), some (.buf2Write [0x01]), some (.buf1CommitNoerase [0x01]),
        some (.pageToBuf1 [0x01]), some (.pageToBuf2 [0x01]), some (.powerDown [0x01]), some (.resume [0x01]),
        some (.readSecurity [0x01])] := by decide

/-- Frames that are no instruction are refused by name. -/
theorem test_decode_refusals :
    decodeFrame Cfg.family [] = .error .emptyFrame ∧
    decodeFrame Cfg.family [0x42#8] = .error .unknownOpcode ∧
    decodeFrame Cfg.family [0x81#8, 0x00#8, 0x0A#8] = .error .wrongLength ∧
    decodeFrame Cfg.family [0xD7#8, 0x01#8] = .error .notDummy ∧
    decodeFrame Cfg.family [0xC7#8, 0x00#8] = .error .chipEraseString := ⟨rfl, rfl, rfl, rfl, rfl⟩

/-! ## The address codec: V410 -/

theorem test_encode_vectors :
    [(1, 0), (128, 0), (0, 263), (127, 263), (2730, 100), (4095, 263), (4096, 0), (0, 264), (0, 512),
      (32769, 0), (65535, 65535)].map (fun x => encodeAddr (BitVec.ofNat 16 x.1) (BitVec.ofNat 16 x.2)) =
      [⟨0x00, 0x02, 0x00⟩, ⟨0x01, 0x00, 0x00⟩, ⟨0x00, 0x01, 0x07⟩, ⟨0x00, 0xFF, 0x07⟩, ⟨0x15, 0x54, 0x64⟩,
        ⟨0x1F, 0xFF, 0x07⟩, ⟨0x20, 0x00, 0x00⟩, ⟨0x00, 0x01, 0x08⟩, ⟨0x00, 0x02, 0x00⟩, ⟨0x00, 0x02, 0x00⟩,
        ⟨0xFF, 0xFF, 0xFF⟩] := by decide

/-- V430: the addresses of sectors 1, 16, 128 and 255. -/
theorem test_sector_addresses :
    [1#8, 16#8, 128#8, 255#8].map (fun s => encodeAddr (sectorPage s) 0) =
      [⟨0x02, 0x00, 0x00⟩, ⟨0x20, 0x00, 0x00⟩, ⟨0x00, 0x00, 0x00⟩, ⟨0xFE, 0x00, 0x00⟩] := by decide

/-! ## Flags -/

/-- V420. -/
theorem test_ready_bit :
    [0x80#8, 0xFF#8, 0xA4#8, 0x7F#8, 0x00#8, 0x24#8].map readyBit = [true, true, true, false, false, false] := by
  decide

/-- V460, rows DG1 to DG9. -/
theorem test_diagnose_rows :
    [(⟨0x1F, 0x25, 0x00, 0x00⟩, 0xA4#8), (⟨0x20, 0x25, 0x00, 0x00⟩, 0xA4#8), (⟨0x1F, 0x25, 0x00, 0x01⟩, 0xA4#8),
      (⟨0x1F, 0x25, 0x01, 0x00⟩, 0xA4#8), (⟨0x1F, 0x24, 0x00, 0x00⟩, 0xA4#8), (⟨0x1F, 0x25, 0x00, 0x00⟩, 0xAC#8),
      (⟨0x1F, 0x25, 0x00, 0x00⟩, 0xE4#8), (⟨0x1F, 0x25, 0x00, 0x00⟩, 0x24#8),
      (⟨0x20, 0x25, 0x00, 0x00⟩, 0xAC#8)].map (fun x => diagResult Cfg.family x.1 x.2) =
      [true, false, true, false, false, false, true, true, false] := by decide

/-- 95, section 0: a ready status byte is `A4`, a busy one `24`. -/
theorem test_status_byte : statusByte false 0x24#7 = 0xA4#8 ∧ statusByte true 0x24#7 = 0x24#8 := by decide

/-- V494: `STATUS` reads `02` after a DIAGNOSE that passed, at rest; V480: bit 0 is 1 while a command runs. -/
theorem test_status_register :
    statusRegister { ready with diagOk := true } = 0x02#8 ∧ statusRegister (at_ .pSel false) = 0x01#8 := by decide

/-! ## Host commands: R302, V480 -/

theorem test_init_accepted : (completed (exec .init ready)).map (·.seq) = some .iWp := by decide
theorem test_erase_page_accepted : (completed (exec .erasePage ready)).map (·.seq) = some .ep0 := by decide
theorem test_erase_sector_accepted : (completed (exec .eraseSector ready)).map (·.seq) = some .es0 := by decide
theorem test_write_accepted : (completed (exec .write ready)).map (·.seq) = some .w0 := by decide
theorem test_read_accepted : (completed (exec .read ready)).map (·.seq) = some .r0 := by decide
theorem test_diagnose_accepted : (completed (exec .diagnose ready)).map (·.busy) = some true := by decide

/-- V480: `W(0, 0xFF)` changes nothing. -/
theorem test_reserved_ignored : completed (hostStep (.write 0 0xFF) ready) = some ready := by decide

/-- V480: `W(1, x)` while `BUSY = 1` is a refused host step. -/
theorem test_write_while_busy : hostStep (.write 1 7) (at_ .pSel false) = .refused .hostAccessWhileBusy := by rfl

/-- R77, R241: the host stores into its buffer while a WRITE runs, and the fill step sends the new byte. -/
theorem test_buffer_change_during_write :
    (completed (hostStep (.bufWrite 1 0xAB) { at_ .w3 true with n := 2, cnt := 1, hbuf := [(1, 0x11)] })).bind
      (fun t => (completed (seqStep t)).map (fun u => sentBytes u.trace)) = some [0xAB] := by decide

/-- R29: `SECTOR` takes the low eight bits. -/
theorem test_sector_register : (completed (hostStep (.write 4 0x1234) ready)).map (·.sector) = some 0x34 := by decide

/-! ## Frames -/

/-- V420: `POLL(A4)` on the ready chip; while it is busy the byte is `24`. -/
theorem test_status_read :
    (completed (exec .statusRead ready)).map (·.sr) = some 0xA4 ∧
    (completed (exec .statusRead chipBusy)).map (·.sr) = some 0x24 := by decide

/-- V494: the identity bytes in the order received. -/
theorem test_id_read :
    (completed (exec .idRead { ready with dev := { ready.dev with ident := ⟨0x20, 0x25, 0x01, 0x02⟩ } })).map
      (·.id) = some ⟨0x20, 0x25, 0x01, 0x02⟩ := by decide

/-- V430: the bytes of `PAGE <- 4095; ERASE_PAGE`'s frame. -/
theorem test_page_erase_bytes :
    (completed (exec (.pageErase (encodeAddr 4095 0)) ready)).map (fun t => sentBytes t.trace) =
      some [0x81, 0x1F, 0xFE, 0x00] := by decide

/-- R88: page 5 is what the chip erases for the address of page 5, also with address bits 23:21 set (R95). -/
theorem test_page_erase_pending :
    (completed (exec (.pageErase (encodeAddr 4101 0)) ready)).map (·.dev.pending) =
      some (some (.erasePage 5)) := by decide

/-- R184, R89: the frame of `SECTOR = 128` erases sector 0 on `DEV`. -/
theorem test_sector_erase_hole :
    (completed (exec (.sectorErase (encodeAddr (sectorPage 128) 0)) ready)).map (·.dev.pending) =
      some (some (.eraseSector 0)) := by decide

/-- V491: the commit of page 10 goes out as `83 00 14 00`, and the chip is busy after it (R193). -/
theorem test_commit :
    (completed (exec (.buf1CommitErase (encodeAddr 10 0)) ready)).map
      (fun t => (sentBytes t.trace, t.dev.busy)) = some ([0x83, 0x00, 0x14, 0x00], true) := by decide

/-- R86: the data bytes go to buffer 1 from the address's offset on. -/
theorem test_buf1_write :
    (completed (exec (.buf1Write (bufferAddr 262) [0xAB, 0xCD]) ready)).map (·.dev.buf1) =
      some [(262, 0xAB), (263, 0xCD)] := by decide

/-- R83: a busy chip drops the frame. -/
theorem test_buf1_write_busy :
    (completed (exec (.buf1Write (bufferAddr 0) [0xAB]) chipBusy)).map (·.dev.buf1) = some [] := by decide

/-- V450: `(4095, 263, 1)` reads the last byte of the array. -/
theorem test_array_read_last :
    (completed (exec (.arrayRead (encodeAddr 4095 263) 1)
      { ready with dev := { ready.dev with array := [(1081343, 0x5A)] } })).map (·.hbuf) = some [(0, 0x5A)] := by
  decide

/-- V450: a read from the last byte of page 2 goes on at byte 0 of page 3. -/
theorem test_array_read_crosses :
    (completed (exec (.arrayRead (encodeAddr 2 263) 2)
      { ready with dev := { ready.dev with array := [(791, 0x11), (792, 0x22)] } })).map (·.hbuf) =
      some [(0, 0x11), (1, 0x22)] := by decide

theorem test_unused_refused : exec (.chipErase []) ready = .refused .chipEraseNotGiven := by rfl

/-! ## The sequencer and the commands -/

/-- V470. -/
theorem test_init_events :
    (initProgram ready).map (·.trace) = some [.wp true, .rst true, .delay 1, .rst false] := by decide

/-- V480: `ERASE_SECTOR 0` is three silent steps. -/
theorem test_sector_zero : completed (seqStep (at_ .es0 false)) = some (at_ .done false) := by decide

/-- V440: the chunk lengths of `SIZE = 792` and of the last chunk of `SIZE = 300`. -/
theorem test_chunk_lengths : chunkLength 792 = 264 ∧ chunkLength 36 = 36 := by decide

/-- V440: `SIZE = 65 535` is 249 chunks, the last of 63 bytes. -/
theorem test_chunks_of_largest_write : chunkCount 65535 = 249 ∧ chunkSize 65535 248 = 63 := by decide

/-- R201: the page counter wraps from 65 535 to 0. -/
theorem test_page_counter_wraps : (nextChunk { ready with cur := 65535 }).cur = 0 := by decide

/-- R308: a fill step reads the host buffer at `idx + cnt` and sends that byte. -/
theorem test_fill_step :
    (completed (seqStep { at_ .w3 true with n := 2, cnt := 1, idx := 264, hbuf := [(265, 0xCD)] })).map
      (fun t => (t.cnt, sentBytes t.trace)) = some (2, [0xCD]) := by decide

/-- A READ with 70 000 dummies, of which the open transaction has carried `sent`. -/
def manyDummies (sent : Nat) : State :=
  { at_ .r2 true with
    cfg := { Cfg.family with nReadDummy := 70000 }
    dev := { ready.dev with frame := some (List.replicate (4 + sent) 0#8) }
    cnt := BitVec.ofNat 16 sent }

theorem manyDummies_dummiesSent (sent : Nat) : dummiesSent (manyDummies sent) = sent := by
  have h : ¬(manyDummies sent).cfg.nReadDummy < 65536 := show ¬70000 < 65536 by decide
  rw [dummiesSent, if_neg h, frameBytes, show (manyDummies sent).dev.frame = some (List.replicate (4 + sent) 0#8) from rfl,
    Option.getD_some, List.length_replicate, Nat.add_sub_cancel_left]

/-- R210: more don't-care bytes than 16 bits count; the last of 70 000 is still sent, and then the data phase begins. -/
theorem test_many_dummies :
    seqStep (manyDummies 69999) = .next (countByte (exchanged 0x00 (manyDummies 69999))) ∧
    seqStep (manyDummies 70000) = .next (goto .r3 (startCount (manyDummies 70000))) :=
  ⟨seqStep_r2 rfl rfl (by rw [manyDummies_dummiesSent]; decide), seqStep_r2_ended rfl (manyDummies_dummiesSent _)⟩

/-- R309: with 4 dummies `cnt` decides, whatever the transaction has carried. -/
theorem test_dummies_by_cnt :
    dummiesSent { at_ .r2 true with cfg := { Cfg.family with nReadDummy := 4 }, cnt := 3 } = 3 := by decide

/-- R310: the last identity byte does not end the transaction; the step after it does. -/
theorem test_identity_counter :
    (completed (seqStep { at_ .g2 true with k := 3 })).map (fun t => (t.seq, t.k)) = some (.g2, 4) ∧
    (completed (seqStep { at_ .g2 true with k := 4 })).map (·.seq) = some .g3 := by decide

/-- R92: the falling edge of the reset line makes the chip defined and ready. -/
theorem test_reset_pulse : (setRst false { State.reset with rst := true }).dev.mode = .known := by decide

/-- The kernel evaluates a fetch of each level: the host reads the model so. -/
theorem test_fetch_word :
    (completed (step (State.reset.withFetchWord 8 0x04))).map (·.seq) = some .w0 ∧
    (completed (step (State.reset.withFetchWord 32 0x000A0081))).map (fun t => sentBytes t.trace) =
      some [0x81, 0x00, 0x0A, 0x00] := by decide

/-! ## Witnesses: for every obligation with hypotheses, values that meet them together -/

/-- The family's configuration with a chip that protects page 4, sector 1 and the programming of page 4. -/
def protectedChip : State :=
  { ready with
    cfg := { Cfg.family with wpBlocks := [(.erasePage, 4), (.eraseSector, 1), (.program, 4)] } }

/-- At rest with write-protect de-asserted, as inside a WRITE. -/
def unprotected : State :=
  { ready with wp := false }

/-- In the middle of a WRITE of 300 bytes to page 7: the first chunk has gone, the second is being filled. -/
def midWrite : State :=
  { ready with
    page := 7, size := 300, cur := 8, idx := 264, rem := 36, n := 36, cnt := 5, busy := true, seq := .w3,
    ret := .w2, hret := .w3, cop := 0x84, own := .fill, cs := true, wp := false,
    dev := (ready.dev.beginFrame).receive Cfg.family 0x84,
    trace := [.wp false, .sel, .x 0x84 0] }

/-- In the middle of the dummies of a READ, with `N_READ_DUMMY = 4` (V450): one is left. -/
def readingDummies : State :=
  { ready with
    cfg := { Cfg.family with nReadDummy := 4 }, busy := true, seq := .r2, ret := .r1, hret := .r2, cop := 0x03,
    cnt := 3, own := .read, cs := true,
    dev := { ready.dev with frame := some [0x03, 0x00, 0x04, 0x24, 0x00, 0x00, 0x00], ptr := (2, 36) } }

/-- A state with no move left, in sequencer state `q`, chip-select as given. -/
def atRow (s : State) (q : Machine.Seq) (selected : Bool) : Bool :=
  s.moves.isEmpty && s.seq == q && s.cs == selected

theorem ready_atRest : AtRest ready := ⟨by decide, rfl, rfl, rfl, rfl⟩

theorem ready_chip : readyChip ready.dev := ⟨rfl, rfl⟩

theorem ready_inv : Inv ready where
  cfg := by decide
  busy := by decide
  cs := by decide
  own := by decide
  frame := by decide
  wp := by decide
  rst := by decide
  ret := by decide
  hret := by decide
  hcnt := by decide
  hbytes := by decide
  chunk := fun h => absurd h (by decide)
  fill := by decide
  dummies := by decide
  dummyBytes := by decide
  dummyCnt := by decide
  data := by decide
  identity := by decide
  hbuf := by decide
  array := by decide
  buf1 := by decide

theorem midWrite_inv : Inv midWrite where
  cfg := by decide
  busy := by decide
  cs := by decide
  own := by decide
  frame := by decide
  wp := by decide
  rst := by decide
  ret := by decide
  hret := by decide
  hcnt := by decide
  hbytes := by decide
  chunk := fun _ => ⟨by decide, by decide, by decide, by decide, by decide⟩
  fill := by decide
  dummies := by decide
  dummyBytes := by decide
  dummyCnt := by decide
  data := by decide
  identity := by decide
  hbuf := by decide
  array := by decide
  buf1 := by decide

theorem readingDummies_inv : Inv readingDummies where
  cfg := by decide
  busy := by decide
  cs := by decide
  own := by decide
  frame := by decide
  wp := by decide
  rst := by decide
  ret := by decide
  hret := by decide
  hcnt := by decide
  hbytes := by decide
  chunk := fun h => absurd h (by decide)
  fill := by decide
  dummies := by decide
  dummyBytes := by decide
  dummyCnt := by decide
  data := by decide
  identity := by decide
  hbuf := by decide
  array := by decide
  buf1 := by decide

theorem witness_EncodeAddrIsShiftedPageOrOffset :
    (4095#16).toNat < totalPages ∧ (263#16).toNat < pageSize ∧ (0#16).toNat < pageSize := by decide

theorem witness_EncodeAddrInjectiveOnGeometry :
    (4095#16).toNat < totalPages ∧ (263#16).toNat < pageSize ∧
      encodeAddr 4095 263 = encodeAddr 4095 263 := by decide

theorem witness_EncodeAddrAliases :
    (4095#16).toNat < totalPages ∧ pageSize ≤ (264#16).toNat ∧ (264#16).toNat < 512 ∧
      pageSize ≤ (511#16).toNat ∧ (511#16).toNat < 512 := by decide

theorem witness_DecodeOfEncode :
    Cfg.family.valid = true ∧ (Instr.arrayRead ⟨0xFF, 0xFF, 0xFF⟩ 65535).wf = true ∧
      (Instr.reservedHostCode 0x07).wf = true ∧ (Instr.buf1Write ⟨0, 0, 0⟩ [0xAB]).wf = true ∧
      (Instr.buf1Write ⟨0, 0, 0⟩ (List.replicate 264 0#8)).wf = true :=
  ⟨by decide, rfl, by decide, by decide, test_wf_takes_264_bytes⟩

theorem witness_EncodeOfDecode :
    decode Cfg.family (.frame [0xD7, 0x00]) = .ok .statusRead ∧ decode Cfg.family (.host 0x06) = .ok .diagnose :=
  ⟨rfl, rfl⟩

theorem witness_StepRunsDecodedInstruction :
    ready.busy = false ∧ ready.moves = [] ∧
      ({ ready with moves := [.host (.write 0 0x0102)] } : State).moves = .host (.write 0 0x0102) :: [] ∧
      decode ready.cfg (.host ((0x0102#16).setWidth 8)) = .ok .erasePage ∧
      decode ready.cfg (.frame [0x81, 0x00, 0x0A, 0x00]) = .ok (.pageErase ⟨0x00, 0x0A, 0x00⟩) ∧
      decode ready.cfg (tableCode ready.cfg 32 0x000A0081) = .ok (.pageErase ⟨0x00, 0x0A, 0x00⟩) :=
  ⟨rfl, rfl, rfl, rfl, rfl, rfl⟩

theorem witness_HostCommandAccepted :
    ready.busy = false ∧ ready.moves = [] ∧ ready.seq = .idle ∧ (at_ .done false).seq = .done ∧
      (0x0101#16).setWidth 8 = 1#8 ∧ (6#16).setWidth 8 = 6#8 := by decide

theorem witness_ReservedCodeIgnored :
    ready.busy = false ∧ (0x0100#16).setWidth 8 = 0#8 ∧ 7 ≤ ((7#16).setWidth 8 : Byte).toNat ∧
      7 ≤ ((255#16).setWidth 8 : Byte).toNat := by decide

theorem witness_HostAccessRule :
    ready.busy = false ∧ 0 ≤ 4 ∧ 4 ≤ 4 ∧ 1 ≤ 1 ∧ 9 ≤ 9 ∧ (at_ .w0 false).busy = true ∧ 6 ≠ 5 ∧
      (at_ .w0 false).moves.head? ≠ some .reset ∧ (completed (step (at_ .w0 false))).isSome = true := by decide

/-- At rest; and, for the read of `STATUS`, which has no hypothesis, while a command runs, with either `DIAG_OK`. -/
theorem witness_RegisterMap :
    ready.busy = false ∧ 10 ≤ 10 ∧
      (completed (hostStep (.read 5) (at_ .pSel false))).map (·.reads) = some [.reg 5 0x0001] ∧
      (completed (hostStep (.read 5) { at_ .pSel false with diagOk := true })).map (·.reads) = some [.reg 5 0x0003] := by
  decide

/-- At rest, at both ends of the index range; at the fill step that reads the index; and inside a READ, where index 2 is
past the bytes it delivers. -/
theorem witness_HostBufferAccess :
    ({ ready with hbuf := [(3, 0x11), (65535, 0x22)] } : State).hbuf.wf ∧ 65535#16 ≠ 3#16 ∧
      beingRead ready 65535 = false ∧
      midWrite.hbuf.wf ∧ midWrite.seq = .w3 ∧ midWrite.cs = true ∧ midWrite.cnt.toNat < midWrite.n.toNat ∧
      269#16 = midWrite.idx + midWrite.cnt ∧ beingRead midWrite 269 = false ∧
      beingRead { at_ .r3 true with size := 2 } 2 = false ∧ beingRead { at_ .r3 true with size := 2 } 1 = true := by
  decide

theorem witness_MemoryIsCanonical :
    Memory.wf [(3, 0x11), (5, 0x22)] ∧ Memory.wf (Memory.write [(5, 0x22)] 3 0x11) ∧
      Memory.write [(5, 0x22)] 3 0x11 = [(3, 0x11), (5, 0x22)] := by decide

theorem witness_BusPrimitives : ready.cs = false ∧ (at_ .w3 true).cs = true := by decide

theorem witness_HeaderSendsOpcodeAndAddress : ready.cs = false := rfl

theorem witness_FrameSendsItsEncoding :
    ready.cs = false ∧ encode ready.cfg .statusRead = .frame [0xD7, 0] ∧
      encode ready.cfg .idRead = .frame [0x9F, 0, 0, 0, 0] ∧
      encode ready.cfg (.pageErase ⟨0, 10, 0⟩) = .frame [0x81, 0, 10, 0] ∧
      encode ready.cfg (.sectorErase ⟨2, 0, 0⟩) = .frame [0x7C, 2, 0, 0] ∧
      encode ready.cfg (.buf1Write ⟨0, 0, 0⟩ [0xAB]) = .frame [0x84, 0, 0, 0, 0xAB] ∧
      encode ready.cfg (.buf1CommitErase ⟨0, 20, 0⟩) = .frame [0x83, 0, 20, 0] ∧
      encode ready.cfg (.arrayRead ⟨0, 4, 36⟩ 2) = .frame [0x03, 0, 4, 36, 0, 0] := by decide

theorem witness_StatusReadResultAndFrame : chipBusy.cs = false := rfl

theorem witness_IdReadResultAndFrame : ready.cs = false := rfl

theorem witness_StatusAndIdentityOnTheChip :
    ready.cfg.valid = true ∧ chipBusy.cfg.valid = true ∧ ready.cs = false ∧ chipBusy.cs = false ∧
      ready.dev.mode = .known ∧ chipBusy.dev.mode = .known ∧ chipBusy.dev.busy = true := by decide

theorem witness_AddressFrameEventsAndFrame :
    ready.cs = false ∧
      ∀ i ∈ [Instr.pageErase ⟨0, 10, 0⟩, .sectorErase ⟨2, 0, 0⟩, .buf1CommitErase ⟨0, 20, 0⟩],
        (completed (exec i ready)).isSome = true := by decide

theorem witness_BufferWriteEventsAndFrame : ready.cs = false := rfl

/-- The last two bytes of the buffer, an empty run at its end, and a whole buffer. -/
theorem witness_BufferWriteOnTheChip :
    ready.cfg.valid = true ∧ ready.cs = false ∧ (ready.dev.mode = .known ∧ ready.dev.busy = false) ∧
      addrOffset (bufferAddr 262) + [0xAB#8, 0xCD#8].length ≤ pageSize ∧
      addrOffset (bufferAddr 264) + ([] : List Byte).length ≤ pageSize ∧
      addrOffset (bufferAddr 0) + 264 ≤ pageSize := by decide

theorem witness_ArrayReadEventsAndFrame :
    ready.cs = false ∧ [0x5A#8][0]? = some 0x5A#8 ∧ (1#16).toNat ≤ (1#16).toNat := by decide

/-- The last byte of the array, and the whole of what one command can read. -/
theorem witness_ArrayReadOnTheChip :
    ready.cfg.valid = true ∧ ready.cs = false ∧ (ready.dev.mode = .known ∧ ready.dev.busy = false) ∧
      addrOffset (encodeAddr 4095 263) < pageSize ∧
      linear (addrPage (encodeAddr 4095 263)) (addrOffset (encodeAddr 4095 263)) + (1#16).toNat ≤
        totalPages * pageSize ∧
      linear (addrPage (encodeAddr 0 0)) (addrOffset (encodeAddr 0 0)) + (65535#16).toNat ≤
        totalPages * pageSize := by decide

/-- Write-protect asserted on a chip that protects other pages, and de-asserted. -/
theorem witness_PageEraseOnTheChip :
    protectedChip.cfg.valid = true ∧ protectedChip.cs = false ∧
      (protectedChip.dev.mode = .known ∧ protectedChip.dev.busy = false) ∧
      (protectedChip.wp && protectedChip.cfg.blocks .erasePage (addrPage (encodeAddr 5 0))) = false ∧
      (unprotected.wp && unprotected.cfg.blocks .erasePage (addrPage (encodeAddr 4095 0))) = false := by decide

theorem witness_SectorEraseOnTheChip :
    protectedChip.cfg.valid = true ∧ protectedChip.cs = false ∧
      (protectedChip.dev.mode = .known ∧ protectedChip.dev.busy = false) ∧
      (protectedChip.wp &&
        protectedChip.cfg.blocks .eraseSector (addrSector (encodeAddr (sectorPage 15) 0))) = false ∧
      4095 / sectorPages = addrSector (encodeAddr (sectorPage 15) 0) ∧
      3839 / sectorPages ≠ addrSector (encodeAddr (sectorPage 15) 0) := by decide

theorem witness_CommitOnTheChip :
    unprotected.cfg.valid = true ∧ unprotected.cs = false ∧
      (unprotected.dev.mode = .known ∧ unprotected.dev.busy = false) ∧
      (unprotected.wp && unprotected.cfg.blocks .program (addrPage (encodeAddr 4 0))) = false ∧
      (protectedChip.wp && protectedChip.cfg.blocks .program (addrPage (encodeAddr 5 0))) = false := by decide

theorem witness_WriteProtectBlocksFrame :
    protectedChip.cfg.valid = true ∧ protectedChip.cs = false ∧ protectedChip.wp = true ∧
      (protectedChip.dev.mode = .known ∧ protectedChip.dev.busy = false) ∧
      protectedChip.cfg.blocks .erasePage (addrPage (encodeAddr 4 0)) = true ∧
      protectedChip.cfg.blocks .eraseSector (addrSector (encodeAddr (sectorPage 1) 0)) = true ∧
      protectedChip.cfg.blocks .program (addrPage (encodeAddr 4 0)) = true := by decide

theorem witness_BusyChipIgnoresFrames :
    chipBusy.cfg.valid = true ∧ chipBusy.cs = false ∧ chipBusy.dev.mode = .known ∧ chipBusy.dev.busy = true := by
  decide

theorem witness_ChipCompletesOnItsOwn :
    ({ chipBusy with moves := [.chipReady] } : State).moves = .chipReady :: [] ∧
      chipBusy.dev.mode = .known ∧ chipBusy.dev.busy = true ∧ ready.dev.busy = false := by decide

theorem witness_UnusedOpcodesRefused : 0xC7#8 ∉ ready.cfg.emitted ∧ 0x42#8 ∉ ready.cfg.emitted := by decide

/-- The last byte of the last page, and a whole page. -/
theorem witness_EraseThenReadGivesAllOnes :
    unprotected.cfg.valid = true ∧ unprotected.cs = false ∧
      (unprotected.dev.mode = .known ∧ unprotected.dev.busy = false) ∧
      (4095#16).toNat < totalPages ∧ (263#16).toNat + (1#16).toNat ≤ pageSize ∧ (263#16).toNat < pageSize ∧
      (0#16).toNat + (264#16).toNat ≤ pageSize ∧
      (unprotected.wp && unprotected.cfg.blocks .erasePage (4095#16).toNat) = false := by decide

theorem witness_WriteCommitReadRoundTrip :
    unprotected.cfg.valid = true ∧ unprotected.cs = false ∧
      (unprotected.dev.mode = .known ∧ unprotected.dev.busy = false) ∧ unprotected.wp = false ∧
      (4095#16).toNat < totalPages ∧ [0xAB#8, 0xCD#8].length ≤ pageSize ∧ 2 ≤ 2 ∧ 263 < pageSize := by decide

theorem witness_SubroutineTables :
    atRow (at_ .pSel false) .pSel false ∧ atRow (at_ .pOp true) .pOp true ∧ atRow (at_ .pRd true) .pRd true ∧
      atRow (at_ .pDes true) .pDes true ∧ atRow (at_ .pTst false) .pTst false ∧
      (0x80#8).getLsbD 7 = true ∧ (0x7F#8).getLsbD 7 = false ∧ atRow (at_ .hSel false) .hSel false ∧
      ownerOf Cfg.family 0x81 = some .erase ∧ atRow (at_ .hOp true) .hOp true ∧
      atRow (at_ .hA0 true) .hA0 true ∧ atRow (at_ .hA1 true) .hA1 true ∧ atRow (at_ .hA2 true) .hA2 true ∧
      Cfg.family.valid = true := by decide

/-- Both ends of each counter's range. -/
theorem witness_WriteTable :
    atRow (at_ .w0 false) .w0 false ∧ atRow { at_ .w1 false with rem := 1 } .w1 false ∧ 0 < (1#16).toNat ∧
      (at_ .w1 false).rem = 0#16 ∧ atRow (at_ .w2 false) .w2 false ∧
      atRow { at_ .w3 true with cnt := 263, n := 264 } .w3 true ∧ (263#16).toNat < (264#16).toNat ∧
      (at_ .w3 true).cnt = (at_ .w3 true).n ∧ atRow (at_ .w4 false) .w4 false ∧ atRow (at_ .w5 true) .w5 true ∧
      atRow (at_ .w6 false) .w6 false := by decide

theorem witness_EraseAndReadTables :
    (Inv readingDummies ∧ readingDummies.seq = .r2) ∧
    (atRow (at_ .ep0 false) .ep0 false ∧ atRow (at_ .ep1 false) .ep1 false ∧ atRow (at_ .ep2 true) .ep2 true ∧
      (at_ .es0 false).sector = 0#8 ∧ ({ at_ .es0 false with sector := 255 } : State).sector ≠ 0#8 ∧
      atRow (at_ .es1 false) .es1 false ∧ atRow (at_ .es2 true) .es2 true ∧ atRow (at_ .r0 false) .r0 false ∧
      atRow (at_ .r1 false) .r1 false ∧
      atRow readingDummies .r2 true ∧ readingDummies.cnt.toNat < readingDummies.cfg.nReadDummy ∧
      readingDummies.cfg.nReadDummy < 65536 ∧ (at_ .r2 true).cnt.toNat = (at_ .r2 true).cfg.nReadDummy ∧
      atRow { at_ .r3 true with size := 65535, cnt := 65534 } .r3 true ∧ (65534#16).toNat < (65535#16).toNat ∧
      (at_ .r3 true).cnt = (at_ .r3 true).size) ∧
    (∀ sent, (manyDummies sent).seq = .r2 ∧ (manyDummies sent).cs = true ∧ (manyDummies sent).moves = [] ∧
      65536 ≤ (manyDummies sent).cfg.nReadDummy ∧
      (manyDummies sent).dev.frame = some (List.replicate (4 + sent) 0#8)) ∧
    (List.replicate (4 + 69999) 0#8).length < 4 + 70000 ∧ (List.replicate (4 + 70000) 0#8).length = 4 + 70000 :=
  ⟨⟨readingDummies_inv, rfl⟩, by decide, fun _ => ⟨rfl, rfl, rfl, show 65536 ≤ 70000 by decide, rfl⟩,
    by rw [List.length_replicate]; decide, List.length_replicate⟩

theorem witness_InitAndDiagnoseTables :
    atRow (at_ .iWp false) .iWp false ∧ atRow (at_ .iRst1 false) .iRst1 false ∧
      atRow (at_ .iDly false) .iDly false ∧ atRow (at_ .iRst0 false) .iRst0 false ∧
      atRow (at_ .g0 false) .g0 false ∧ atRow (at_ .g1 true) .g1 true ∧
      atRow { at_ .g2 true with k := 3 } .g2 true ∧ (3#3).toNat < 4 ∧ atRow { at_ .g2 true with k := 4 } .g2 true ∧
      atRow (at_ .g3 false) .g3 false ∧ atRow (at_ .g4 true) .g4 true ∧ atRow (at_ .g5 true) .g5 true ∧
      atRow (at_ .g6 true) .g6 true ∧ atRow (at_ .g7 false) .g7 false := by decide

theorem witness_WaitIsPollsUntilReady :
    ready.cs = false ∧ (waitUntilReady 1 ready).isSome = true ∧ ready.moves = [] := by decide

theorem witness_DeadChipPollsForEver :
    ({ chipBusy with busy := true, seq := .pSel } : State).cfg.valid = true ∧
      ({ chipBusy with busy := true, seq := .pSel } : State).moves = [] ∧
      ({ chipBusy with busy := true, seq := .pSel } : State).seq = .pSel ∧
      ({ chipBusy with busy := true, seq := .pSel } : State).cs = false ∧
      ({ chipBusy with busy := true, seq := .pSel } : State).dev.mode = .known ∧
      ({ chipBusy with busy := true, seq := .pSel } : State).dev.busy = true := by decide

theorem witness_InitRun : AtRest State.reset ∧ State.reset.dev.mode ≠ .oracle :=
  ⟨⟨by decide, rfl, rfl, rfl, rfl⟩, by decide⟩

theorem witness_DiagnoseRun : AtRest ready := ready_atRest

theorem witness_SectorZeroRefusedSilently : AtRest ready ∧ ready.sector = 0#8 := ⟨ready_atRest, rfl⟩

theorem witness_EraseCommandsRun :
    AtRest { ready with sector := 255, page := 65535 } ∧ readyChip ({ ready with sector := 255 } : State).dev ∧
      ({ ready with sector := 255 } : State).sector ≠ 0#8 ∧ (ready.wp && ready.cfg.blocks .erasePage 4095) = false :=
  ⟨⟨by decide, rfl, rfl, rfl, rfl⟩, ready_chip, by decide, by decide⟩

/-- The last byte of the array; and no byte at all. -/
theorem witness_ReadRun :
    AtRest { ready with page := 4095, offset := 263, size := 1 } ∧ readyChip ready.dev ∧
      (4095#16).toNat < totalPages ∧ (263#16).toNat < pageSize ∧
      linear (4095#16).toNat (263#16).toNat + (1#16).toNat ≤ totalPages * pageSize ∧
      linear (4095#16).toNat (263#16).toNat + (0#16).toNat ≤ totalPages * pageSize :=
  ⟨⟨by decide, rfl, rfl, rfl, rfl⟩, ready_chip, by decide, by decide, by decide, by decide⟩

theorem witness_WriteEventSequence :
    AtRest { ready with size := 1, page := 4095 } ∧
      (commandProgram 1 .write { ready with size := 0 }).isSome = true :=
  ⟨⟨by decide, rfl, rfl, rfl, rfl⟩, by decide⟩

/-- A WRITE of one byte to the last page: the chip completes once, after the commit, and the command ends. -/
theorem witness_WriteStoresItsBytes :
    AtRest { ready with size := 1, page := 4095 } ∧ readyChip ready.dev ∧
      undisturbed (List.replicate 27 .controller ++ .chipReady :: List.replicate 8 .controller) ∧
      linear (4095#16).toNat 0 + (1#16).toNat ≤ totalPages * pageSize ∧
      (completed (exec .write { ready with size := 1, page := 4095 })).bind (fun u =>
        (completed (run 36
          { u with moves := List.replicate 27 .controller ++ .chipReady :: List.replicate 8 .controller })).map
          (·.busy)) = some false := by
  refine ⟨⟨by decide, rfl, rfl, rfl, rfl⟩, ready_chip, ?_, by decide, by decide⟩
  intro m hm; simp at hm; tauto

theorem witness_CommandsAgreeWithPseudocode :
    AtRest ready ∧ ∀ i ∈ [Instr.init, .erasePage, .eraseSector, .write, .read, .diagnose],
      isCommand i = true ∧ (commandProgram 1 i ready).isSome = true :=
  ⟨ready_atRest, by decide⟩

theorem witness_ResetValues :
    ({ midWrite with moves := [.reset] } : State).moves = .reset :: [] ∧ ready.busy = false := by decide

/-- An ERASE_PAGE of page 5 whose frame is cut after `got` of its address. -/
def cutErase (got : List Byte) : State :=
  { at_ .hA2 true with dev := { ready.dev with frame := some (0x81#8 :: got) } }

/-- R65: with `A[0]` and `A[1]` received the frame names page 5; with `A[0]` alone, one of pages 0 to 127; a sector erase
names sector 1 with `A[0]`. -/
theorem test_cut_frame_names :
    (cutErase [0x00, 0x0A]).dev.addressed Cfg.family = some (1320, 264) ∧
    (cutErase [0x00]).dev.addressed Cfg.family = some (0, 33792) ∧
    (cutErase []).dev.addressed Cfg.family = some (0, 1081344) ∧
    namedRange Cfg.family 0x7C [0x02] = (67584, 67584) ∧
    (at_ .hA0 true).dev.addressed Cfg.family = none := by decide

/-- Erasing page 5: byte 263 of it is inside and byte 0 of page 6 outside. Then frames of ERASE_PAGE of page 5: whole,
cut after `A[1]` (byte 263 of page 4 is outside) and cut after `A[0]` (byte 0 of page 128 is outside); and one of
ERASE_SECTOR of sector 1, cut after its opcode, for the last page of the sector. -/
theorem witness_ResetDuringCommand :
    (chipBusy.dev.pending = some (.erasePage 5) ∧ chipBusy.dev.mode = .known ∧
      ({ chipBusy with busy := true } : State).busy = true ∧
      (Operation.erasePage 5).range.1 ≤ linear 5 263 ∧
      linear 5 263 < (Operation.erasePage 5).range.1 + (Operation.erasePage 5).range.2 ∧
      (∀ r, chipBusy.dev.pending.map Operation.range = some r ∨ chipBusy.dev.addressed chipBusy.cfg = some r →
        linear 6 0 < r.1 ∨ r.1 + r.2 ≤ linear 6 0)) ∧
    ((cutErase []).busy = true ∧ (cutErase []).dev.mode = .known ∧ isMutating Cfg.family 0x81 = true ∧
      [0x00#8, 0x0A#8, 0x00#8] <+: [0x00#8, 0x0A#8, 0x00#8] ∧ [0x00#8, 0x0A#8] <+: [0x00#8, 0x0A#8, 0x00#8] ∧
      [0x00#8] <+: [0x00#8, 0x0A#8, 0x00#8] ∧ 0x81#8 ≠ Cfg.family.opSectorErase ∧
      5 = addrPage ⟨0x00, 0x0A, 0x00⟩ ∧
      (∀ r, none = some r ∨ (cutErase [0x00, 0x0A]).dev.addressed Cfg.family = some r →
        linear 4 263 < r.1 ∨ r.1 + r.2 ≤ linear 4 263) ∧
      ∀ r, none = some r ∨ (cutErase [0x00]).dev.addressed Cfg.family = some r →
        linear 128 0 < r.1 ∨ r.1 + r.2 ≤ linear 128 0) ∧
    (isMutating Cfg.family 0x7C = true ∧ ([] : List Byte) <+: [0x02#8, 0x00#8, 0x00#8] ∧
      0x7C#8 = Cfg.family.opSectorErase ∧ 511 / sectorPages = addrSector ⟨0x02, 0x00, 0x00⟩) := by
  refine ⟨⟨rfl, rfl, rfl, by decide, by decide, ?_⟩,
    ⟨rfl, rfl, by decide, by decide, by decide, by decide, by decide, by decide, ?_, ?_⟩,
    by decide, by decide, by decide, by decide⟩
  · rintro r (h | h)
    · obtain rfl : (1320, 264) = r := Option.some.inj h
      decide
    · exact absurd (show (none : Option (Nat × Nat)) = some r from h) (by simp)
  · rintro r (h | h)
    · exact absurd h (by simp)
    · obtain rfl : (1320, 264) = r := Option.some.inj h
      decide
  · rintro r (h | h)
    · exact absurd h (by simp)
    · obtain rfl : (0, 33792) = r := Option.some.inj h
      decide

theorem witness_StepKeepsInvariant :
    Inv midWrite ∧ (completed (step midWrite)).isSome = true ∧ Inv ready ∧ (completed (step ready)).isSome = true :=
  ⟨midWrite_inv, by decide, ready_inv, by decide⟩

theorem witness_NoStepFaults : Inv midWrite := midWrite_inv

theorem witness_ChipSelectStatesAndOwner : Inv midWrite ∧ midWrite.cs = true ∧ Inv ready ∧ ready.cs = false :=
  ⟨midWrite_inv, rfl, ready_inv, rfl⟩

theorem witness_OneEventAStep :
    (completed (seqStep midWrite)).isSome = true ∧
      (completed (seqStep { at_ .r3 true with size := 1 })).isSome = true := by decide

theorem witness_StepKeepsBusGrammar :
    Inv midWrite ∧ phaseOf midWrite.cfg midWrite.trace = some (phaseIn midWrite.seq) ∧
      ¬(midWrite.busy = true ∧ midWrite.moves.head? = some .reset) ∧
      (completed (step midWrite)).isSome = true :=
  ⟨midWrite_inv, by decide, by decide, by decide⟩

theorem witness_NothingCancelsACommand :
    midWrite.busy = true ∧ Move.chipReady ≠ .controller ∧ Move.chipReady ≠ .reset ∧
      (completed (step { midWrite with moves := [.chipReady] })).isSome = true ∧
      (completed (step { midWrite with moves := [.host (.read 5)] })).isSome = true ∧
      (completed (step { midWrite with moves := [.host (.bufWrite 269 0xAB)] })).isSome = true := by decide

/-- The controller and the chip in turn. -/
def inTurn : Schedule :=
  fun k => if k % 2 = 0 then .controller else .chipReady

theorem witness_ControllerReachesIdleOrPoll :
    Inv midWrite ∧ midWrite.moves = [] ∧ AtRest chipBusy ∧ chipBusy.dev.mode = .known ∧ isCommand .write = true ∧
      (∀ k, inTurn k = .controller ∨ inTurn k = .chipReady) ∧ fairController inTurn ∧ healthyChip inTurn ∧
      exec .write chipBusy = .next (began .w0 chipBusy) := by
  refine ⟨midWrite_inv, rfl, ⟨by decide, rfl, rfl, rfl, rfl⟩, rfl, by decide, ?_, ?_, ?_, rfl⟩
  · intro k
    unfold inTurn
    split <;> simp
  · exact fun k => ⟨2 * k, by omega, by simp [inTurn]⟩
  · exact fun k => ⟨2 * k + 1, by omega, by simp [inTurn, Nat.add_mod]⟩

/-- The DIAGNOSE ends after thirteen steps, `DONE` the last. -/
theorem witness_CommandsReadNoLeftovers :
    AtRest ready ∧ AtRest { ready with sr := 5, id := ⟨1, 2, 3, 4⟩, cnt := 9 } ∧ isCommand .diagnose = true ∧
      undisturbed (List.replicate 13 .controller) ∧
      sameButWorking ready { ready with sr := 5, id := ⟨1, 2, 3, 4⟩, cnt := 9 } ∧
      exec .diagnose ready = .next (began .g0 ready) ∧
      exec .diagnose { ready with sr := 5, id := ⟨1, 2, 3, 4⟩, cnt := 9 } =
        .next (began .g0 { ready with sr := 5, id := ⟨1, 2, 3, 4⟩, cnt := 9 }) ∧
      (completed (run 13 { began .g0 ready with moves := List.replicate 13 .controller })).map (·.busy) =
        some false := by
  refine ⟨ready_atRest, ⟨by decide, rfl, rfl, rfl, rfl⟩, by decide, ?_, rfl, rfl, rfl, by decide⟩
  intro m hm
  simp at hm
  exact .inl hm

end Sys2Proof.Tests
end

section
/-! PROOFS. O60: no command reads what an earlier one left. Two machines that differ in working registers run side by
side; `needs` says, for every sequencer state, which registers are still to be read from there before they are written,
and each row of the tables is shown to keep the two machines in agreement on those. A command's first state needs
none. -/

namespace Sys2Proof.NoLeftovers

open Sys2Proof.Machine Sys2Proof.Safety

/-! ## Registers, and two machines that agree on some of them -/

/-- The working registers and results a rule may read. `own` is read by none. `ids` is `k` with the identity bytes
latched so far. -/
inductive Reg where
  | sr | ret | hret | cop | addr | cur | idx | rem | n | cnt | ids | id | diagOk
  deriving DecidableEq

/-- Two latches with the same bytes below `k`. -/
def sameBelow (k : Nat) (b c : IdBytes) : Prop :=
  (0 < k → c.b0 = b.b0) ∧ (1 < k → c.b1 = b.b1) ∧ (2 < k → c.b2 = b.b2) ∧ (3 < k → c.b3 = b.b3)

theorem sameBelow_zero (b c : IdBytes) : sameBelow 0 b c := by
  simp [sameBelow]

theorem eq_of_sameBelow_four {b c : IdBytes} (h : sameBelow 4 b c) : c = b := by
  obtain ⟨h0, h1, h2, h3⟩ := h
  cases b
  cases c
  simp_all

theorem sameBelow_setIdByte {k : Nat} {b c : IdBytes} (h : sameBelow k b c) (hk : k < 4) (v : Byte) :
    sameBelow (k + 1) (setIdByte b k v) (setIdByte c k v) := by
  match k, hk with
  | 0, _ | 1, _ | 2, _ | 3, _ => simp_all [sameBelow, setIdByte]

/-- Two machines hold the same in a register. -/
def Reg.agree (s t : State) : Reg → Prop
  | .sr => t.sr = s.sr
  | .ret => t.ret = s.ret
  | .hret => t.hret = s.hret
  | .cop => t.cop = s.cop
  | .addr => t.addr = s.addr
  | .cur => t.cur = s.cur
  | .idx => t.idx = s.idx
  | .rem => t.rem = s.rem
  | .n => t.n = s.n
  | .cnt => t.cnt = s.cnt
  | .ids => t.k = s.k ∧ sameBelow s.k.toNat s.id t.id
  | .id => t.id = s.id
  | .diagOk => t.diagOk = s.diagOk

/-- `t` with the working registers and results of `s`. -/
def borrowing (s t : State) : State :=
  { t with
    sr := s.sr, ret := s.ret, hret := s.hret, cop := s.cop, addr := s.addr, cur := s.cur, idx := s.idx,
    rem := s.rem, n := s.n, cnt := s.cnt, k := s.k, own := s.own, diagOk := s.diagOk, id := s.id }

/-- Whatever is computed of the second machine with the first's registers borrowed, the first gives too. Where `f` looks
at none of those registers, the left side is `f t` by definition. -/
theorem congr_borrowing {α : Type} {s t : State} (f : State → α) (h : sameButWorking s t) :
    f (borrowing s t) = f s :=
  congrArg f h

theorem exchanged_borrowing (s t : State) (out : Byte) :
    exchanged out (borrowing s t) = borrowing s (exchanged out t) := by
  have hanswer : (borrowing s t).dev.answer? (borrowing s t).cfg = t.dev.answer? t.cfg := rfl
  unfold exchanged answered
  rw [hanswer]
  cases t.dev.answer? t.cfg <;> rfl

theorem borrowing_exchanged (s t : State) (out : Byte) : borrowing (exchanged out s) t = borrowing s t := by
  simp [borrowing]

theorem sameButWorking_exchanged {s t : State} (h : sameButWorking s t) (out : Byte) :
    sameButWorking (exchanged out s) (exchanged out t) :=
  calc borrowing (exchanged out s) (exchanged out t)
    _ = borrowing s (exchanged out t) := borrowing_exchanged s _ out
    _ = exchanged out (borrowing s t) := (exchanged_borrowing s t out).symm
    _ = exchanged out s := congr_borrowing (exchanged out) h

/-- Two machines that run a command under the same undisturbed schedule and differ at most in the working registers and
results outside `R`. -/
structure Same (R : List Reg) (s t : State) : Prop where
  others : sameButWorking s t
  regs : ∀ r ∈ R, r.agree s t
  moves : undisturbed s.moves
  busy : s.busy = true

variable {R R' : List Reg} {s t : State}

theorem Same.mono (h : Same R s t) (hR : R' ⊆ R) : Same R' s t :=
  { h with regs := fun r hr => h.regs r (hR hr) }

theorem Same.seq (h : Same R s t) : t.seq = s.seq := congr_borrowing State.seq h.others
theorem Same.cs (h : Same R s t) : t.cs = s.cs := congr_borrowing State.cs h.others
theorem Same.cfg (h : Same R s t) : t.cfg = s.cfg := congr_borrowing State.cfg h.others
theorem Same.dev (h : Same R s t) : t.dev = s.dev := congr_borrowing State.dev h.others
theorem Same.page (h : Same R s t) : t.page = s.page := congr_borrowing State.page h.others
theorem Same.offset (h : Same R s t) : t.offset = s.offset := congr_borrowing State.offset h.others
theorem Same.size (h : Same R s t) : t.size = s.size := congr_borrowing State.size h.others
theorem Same.sector (h : Same R s t) : t.sector = s.sector := congr_borrowing State.sector h.others
theorem Same.answer (h : Same R s t) : Machine.answer t = Machine.answer s := congr_borrowing Machine.answer h.others

/-! ## What each operation keeps -/

theorem same_opened (h : Same R s t) (o : Owner) : Same R (opened o s) (opened o t) :=
  ⟨congr_borrowing (opened o) h.others, fun r hr => by cases r <;> exact h.regs _ hr, h.moves, h.busy⟩

theorem same_exchanged (h : Same R s t) (out : Byte) : Same R (exchanged out s) (exchanged out t) :=
  ⟨sameButWorking_exchanged h.others out,
    fun r hr => by cases r <;> simpa [Reg.agree] using h.regs _ hr,
    by simpa using h.moves, by simpa using h.busy⟩

theorem same_latchStatus (h : Same R s t) (v : Byte) : Same (.sr :: R) (latchStatus v s) (latchStatus v t) :=
  ⟨congr_borrowing (latchStatus v) h.others, fun r hr => by
    cases r with
    | sr => rfl
    | _ => exact h.regs _ (by simpa using hr), h.moves, h.busy⟩

theorem same_closed (h : Same R s t) : Same R (closed s) (closed t) :=
  ⟨congr_borrowing closed h.others, fun r hr => by cases r <;> exact h.regs _ hr, h.moves, h.busy⟩

theorem same_goto (h : Same R s t) (q : Seq) : Same R (goto q s) (goto q t) :=
  ⟨congr_borrowing (goto q) h.others, fun r hr => by cases r <;> exact h.regs _ hr, h.moves, h.busy⟩

theorem same_setWp (h : Same R s t) (b : Bool) : Same R (setWp b s) (setWp b t) :=
  ⟨congr_borrowing (setWp b) h.others, fun r hr => by cases r <;> exact h.regs _ hr, h.moves, h.busy⟩

theorem same_setRst (h : Same R s t) (b : Bool) : Same R (setRst b s) (setRst b t) :=
  ⟨congr_borrowing (setRst b) h.others, fun r hr => by cases r <;> exact h.regs _ hr, h.moves, h.busy⟩

theorem same_delayMs (h : Same R s t) (ms : Nat) : Same R (delayMs ms s) (delayMs ms t) :=
  ⟨congr_borrowing (delayMs ms) h.others, fun r hr => by cases r <;> exact h.regs _ hr, h.moves, h.busy⟩

theorem same_memRead (h : Same R s t) (i : Word) : Same R (memRead i s) (memRead i t) :=
  ⟨congr_borrowing (memRead i) h.others, fun r hr => by cases r <;> exact h.regs _ hr, h.moves, h.busy⟩

theorem same_memWrite (h : Same R s t) (i : Word) (v : Byte) : Same R (memWrite i v s) (memWrite i v t) :=
  ⟨congr_borrowing (memWrite i v) h.others, fun r hr => by cases r <;> exact h.regs _ hr, h.moves, h.busy⟩

theorem same_startCount (h : Same R s t) : Same (.cnt :: R) (startCount s) (startCount t) :=
  ⟨congr_borrowing startCount h.others, fun r hr => by
    cases r with
    | cnt => rfl
    | _ => exact h.regs _ (by simpa using hr), h.moves, h.busy⟩

theorem same_countByte (h : Same R s t) : Same R (countByte s) (countByte t) :=
  ⟨congr_borrowing countByte h.others, fun r hr => by
    cases r with
    | cnt => exact congrArg (· + 1) (h.regs .cnt hr)
    | _ => exact h.regs _ hr, h.moves, h.busy⟩

theorem same_startWrite (h : Same R s t) :
    Same (.cur :: .idx :: .rem :: R) (startWrite s) (startWrite t) :=
  ⟨congr_borrowing (borrowing (startWrite s)) h.others, fun r hr => by
    cases r with
    | cur => exact h.page
    | idx => rfl
    | rem => exact h.size
    | _ => exact h.regs _ (by simpa using hr), h.moves, h.busy⟩

theorem same_startChunk (h : Same R s t) (hrem : .rem ∈ R) : Same (.n :: R) (startChunk s) (startChunk t) :=
  ⟨congr_borrowing startChunk h.others, fun r hr => by
    cases r with
    | n => exact congrArg chunkLength (h.regs .rem hrem)
    | _ => exact h.regs _ (by simpa using hr), h.moves, h.busy⟩

theorem same_nextChunk (h : Same R s t) (hn : .n ∈ R) : Same R (nextChunk s) (nextChunk t) :=
  ⟨congr_borrowing nextChunk h.others, fun r hr => by
    cases r with
    | cur => exact congrArg (· + 1) (h.regs .cur hr)
    | idx => exact congrArg₂ (· + ·) (h.regs .idx hr) (h.regs .n hn)
    | rem => exact congrArg₂ (· - ·) (h.regs .rem hr) (h.regs .n hn)
    | _ => exact h.regs _ hr, h.moves, h.busy⟩

theorem same_callPoll (h : Same R s t) (q : Seq) : Same (.ret :: R) (callPoll q s) (callPoll q t) :=
  ⟨congr_borrowing (callPoll q) h.others, fun r hr => by
    cases r with
    | ret => rfl
    | _ => exact h.regs _ (by simpa using hr), h.moves, h.busy⟩

theorem same_callHeader (h : Same R s t) (op : Byte) (a : Addr) (q : Seq) :
    Same (.hret :: .cop :: .addr :: R) (callHeader op a q s) (callHeader op a q t) :=
  ⟨congr_borrowing (callHeader op a q) h.others, fun r hr => by
    cases r with
    | hret | cop | addr => rfl
    | _ => exact h.regs _ (by simpa using hr), h.moves, h.busy⟩

theorem same_startId (h : Same [] s t) : Same [.ids] (startId s) (startId t) :=
  ⟨congr_borrowing startId h.others, fun r hr => by
    obtain rfl := List.mem_singleton.mp hr
    exact ⟨rfl, sameBelow_zero _ _⟩, h.moves, h.busy⟩

theorem same_latchId (h : Same [.ids] s t) (hk : s.k < 4#3) (v : Byte) : Same [.ids] (latchId v s) (latchId v t) :=
  ⟨congr_borrowing (latchId v) h.others, fun r hr => by
    obtain rfl := List.mem_singleton.mp hr
    obtain ⟨hkk, hid⟩ := h.regs .ids hr
    have hsucc : (s.k + 1).toNat = s.k.toNat + 1 := by bv_omega
    refine ⟨congrArg (· + 1) hkk, ?_⟩
    simp only [latchId_k, latchId_id, hkk, hsucc]
    exact sameBelow_setIdByte hid (by bv_omega) v, h.moves, h.busy⟩

theorem same_ids_complete (h : Same [.ids] s t) (hk : s.k = 4#3) : Same [.id] s t :=
  { h with
    regs := fun r hr => by
      obtain rfl := List.mem_singleton.mp hr
      obtain ⟨-, hid⟩ := h.regs .ids (List.mem_singleton_self _)
      rw [hk] at hid
      exact eq_of_sameBelow_four hid }

theorem same_latchDiag (h : Same R s t) (hid : .id ∈ R) (hsr : .sr ∈ R) :
    Same (.diagOk :: R) (latchDiag s) (latchDiag t) :=
  ⟨congr_borrowing (borrowing (latchDiag s)) h.others, fun r hr => by
    cases r with
    | diagOk =>
      have hi : t.id = s.id := h.regs .id hid
      have hs : t.sr = s.sr := h.regs .sr hsr
      show diagResult t.cfg t.id t.sr = diagResult s.cfg s.id s.sr
      rw [h.cfg, hi, hs]
    | _ => exact h.regs _ (by simpa using hr), h.moves, h.busy⟩

theorem same_chipDone (h : Same R s t) : Same R (chipDone s) (chipDone t) :=
  ⟨congr_borrowing chipDone h.others, fun r hr => by cases r <;> exact h.regs _ hr, h.moves, h.busy⟩

theorem Same.dummiesSent (h : Same R s t) (hcnt : .cnt ∈ R) : Machine.dummiesSent t = Machine.dummiesSent s := by
  have hc : t.cnt = s.cnt := h.regs .cnt hcnt
  unfold Machine.dummiesSent frameBytes
  rw [h.cfg, h.dev, hc]

theorem Same.hostByte (h : Same R s t) (i : Word) : Machine.hostByte t i = Machine.hostByte s i :=
  congr_borrowing (Machine.hostByte · i) h.others

/-! ## Results -/

/-- Whenever the first completes the second does, in a related state. -/
def Follows (T : State → State → Prop) (r r' : Result) : Prop :=
  ∀ u, r = .next u → ∃ u', r' = .next u' ∧ T u u'

section
variable {T U : State → State → Prop} {f g : State → Result}

theorem follows_next (h : T s t) : Follows T (.next s) (.next t) := by
  rintro u ⟨⟩
  exact ⟨t, rfl, h⟩

theorem follows_fault (e : Fault) (r : Result) : Follows T (.fault e) r := by
  rintro u ⟨⟩

theorem follows_andThen {r r' : Result} (h : Follows T r r') (hf : ∀ s t, T s t → Follows U (f s) (g t)) :
    Follows U (andThen r f) (andThen r' g) := by
  intro u hu
  obtain ⟨s, rfl, hs⟩ := andThen_eq_next.mp hu
  obtain ⟨t, rfl, hst⟩ := h s rfl
  exact hf s t hst u hs

theorem follows_select (h : Same R s t) {o : Owner} (hT : Follows T (f (opened o s)) (g (opened o t))) :
    Follows T (andThen (select o s) f) (andThen (select o t) g) := by
  intro u hu
  obtain ⟨s', hs', hu'⟩ := andThen_eq_next.mp hu
  obtain ⟨hc, rfl⟩ := select_eq_next.mp hs'
  rw [select_of_cs (h.cs.trans hc)]
  exact hT u hu'

theorem follows_deselect (h : Same R s t) (hT : Follows T (f (closed s)) (g (closed t))) :
    Follows T (andThen (deselect s) f) (andThen (deselect t) g) := by
  intro u hu
  obtain ⟨s', hs', hu'⟩ := andThen_eq_next.mp hu
  obtain ⟨hc, rfl⟩ := deselect_eq_next.mp hs'
  rw [deselect_of_cs (h.cs.trans hc)]
  exact hT u hu'

theorem follows_xfer (h : Same R s t) {out : Byte} {k k' : Byte → State → Result}
    (hT : Follows T (k (answer s) (exchanged out s)) (k' (answer s) (exchanged out t))) :
    Follows T (xfer out s k) (xfer out t k') := by
  intro u hu
  obtain ⟨hc, hu'⟩ := xfer_eq_next.mp hu
  rw [xfer_of_cs (h.cs.trans hc), h.answer]
  exact hT u hu'

theorem follows_send (h : Same R s t) {out : Byte} (hT : Follows T (f (exchanged out s)) (g (exchanged out t))) :
    Follows T (andThen (send out s) f) (andThen (send out t) g) := by
  intro u hu
  obtain ⟨s', hs', hu'⟩ := andThen_eq_next.mp hu
  obtain ⟨hc, rfl⟩ := send_eq_next.mp hs'
  rw [send_of_cs (h.cs.trans hc)]
  exact hT u hu'

end

/-! ## What each sequencer state still reads -/

/-- What a DIAGNOSE leaves for the host. -/
def results : Bool → List Reg
  | true => [.id, .diagOk]
  | false => []

/-- The registers a sequencer state and what follows it in the command read before writing them; with `diagnose` the
results count as read at the end. A subroutine's state has its own only: what its caller needs stands at the caller. -/
def needs (diagnose : Bool) : Seq → List Reg
  | .pSel | .pOp | .pRd => [.ret]
  | .pDes | .pTst => [.sr, .ret]
  | .hSel | .hOp | .hA0 | .hA1 | .hA2 => [.hret, .cop, .addr]
  | .w1 => [.cur, .idx, .rem] ++ results diagnose
  | .w2 | .w4 | .w5 => [.n, .cur, .idx, .rem] ++ results diagnose
  | .w3 => [.cnt, .n, .cur, .idx, .rem] ++ results diagnose
  | .r2 | .r3 => .cnt :: results diagnose
  | .g0 | .g1 => []
  | .g2 => [.ids]
  | .g3 | .g4 | .g5 => [.id]
  | .g6 | .g7 => [.sr, .id]
  | .idle | .done | .iWp | .iRst1 | .iDly | .iRst0 | .ep0 | .ep1 | .ep2 | .es0 | .es1 | .es2 | .w0 | .w6 | .r0 | .r1 =>
    results diagnose

/-- The states the frame-header subroutine returns to: every value a command gives `hret` (R306 to R309). -/
def isHeaderReturn (q : Seq) : Bool :=
  q ∈ [Seq.ep2, .es2, .w3, .w5, .r2]

/-- A state of a command's own, of no subroutine. -/
def isPlain (q : Seq) : Bool :=
  !inPoll q && !inHeader q

theorem isPlain_iff {q : Seq} : isPlain q = true ↔ inPoll q = false ∧ inHeader q = false := by
  simp [isPlain]

theorem inHeader_of_inPoll {q : Seq} (h : inPoll q = true) : inHeader q = false := by
  revert h
  cases q <;> decide

theorem inPoll_of_inHeader {q : Seq} (h : inHeader q = true) : inPoll q = false := by
  revert h
  cases q <;> decide

theorem isPlain_of_isPollReturn {q : Seq} (h : isPollReturn q = true) : isPlain q = true := by
  simp only [isPollReturn, List.mem_cons, List.not_mem_nil, or_false, decide_eq_true_eq] at h
  rcases h with rfl | rfl | rfl | rfl | rfl | rfl <;> rfl

theorem isPlain_of_isHeaderReturn {q : Seq} (h : isHeaderReturn q = true) : isPlain q = true := by
  simp only [isHeaderReturn, List.mem_cons, List.not_mem_nil, or_false, decide_eq_true_eq] at h
  rcases h with rfl | rfl | rfl | rfl | rfl <;> rfl

/-! ## The relation the two runs keep -/

/-- While the command runs: the machines agree on what the state, and the command's state a subroutine returns to,
still read. -/
structure Running (d : Bool) (s t : State) : Prop where
  same : Same (needs d s.seq ++ needs d (resumesAt s)) s t
  ret : inPoll s.seq = true → isPollReturn s.ret = true
  hret : inHeader s.seq = true → isHeaderReturn s.hret = true

/-- After the command: the machines agree on the results. -/
structure Ended (d : Bool) (s t : State) : Prop where
  others : sameButWorking s t
  regs : ∀ r ∈ results d, r.agree s t
  moves : undisturbed s.moves
  seq : s.seq = .idle

/-- The relation that every step keeps. -/
def Twin (d : Bool) (s t : State) : Prop :=
  Running d s t ∨ Ended d s t

variable {d : Bool}

theorem Running.plain {q : Seq} (h : Running d s t) (hq : s.seq = q) : Same (needs d q) s t :=
  hq ▸ h.same.mono (List.subset_append_left _ _)

theorem Running.poll {q : Seq} (h : Running d s t) (hq : s.seq = q) (hp : inPoll q = true) :
    Same (needs d q ++ needs d s.ret) s t ∧ isPollReturn s.ret = true := by
  subst hq
  have hsame := h.same
  rw [resumesAt, if_pos hp] at hsame
  exact ⟨hsame, h.ret hp⟩

theorem Running.header {q : Seq} (h : Running d s t) (hq : s.seq = q) (hh : inHeader q = true) :
    Same (needs d q ++ needs d s.hret) s t ∧ isHeaderReturn s.hret = true := by
  subst hq
  have hsame := h.same
  rw [resumesAt, inPoll_of_inHeader hh, if_neg (by decide), if_pos hh] at hsame
  exact ⟨hsame, h.hret hh⟩

theorem twin_of_plain {q : Seq} (h : Same R s t) (hseq : s.seq = q) (hq : isPlain q = true) (hn : needs d q ⊆ R) :
    Twin d s t := by
  subst hseq
  obtain ⟨hp, hh⟩ := isPlain_iff.mp hq
  refine .inl ⟨h.mono ?_, by simp [hp], by simp [hh]⟩
  simpa [resumesAt, hp, hh] using hn

theorem append_subset_append_right {A B : List Reg} (h : A ⊆ B) (C : List Reg) : A ++ C ⊆ B ++ C :=
  List.append_subset.mpr ⟨List.Subset.trans h (List.subset_append_left _ _), List.subset_append_right _ _⟩

theorem twin_of_poll {r : Seq} (h : Same (R ++ needs d r) s t) (hr : s.ret = r) (hp : isPollReturn r = true)
    (hq : inPoll s.seq = true) (hn : needs d s.seq ⊆ R) : Twin d s t := by
  subst hr
  have hh := inHeader_of_inPoll hq
  refine .inl ⟨h.mono ?_, fun _ => hp, by simp [hh]⟩
  rw [resumesAt, if_pos hq]
  exact append_subset_append_right hn _

theorem twin_of_header {r : Seq} (h : Same (R ++ needs d r) s t) (hr : s.hret = r) (hret : isHeaderReturn r = true)
    (hq : inHeader s.seq = true) (hn : needs d s.seq ⊆ R) : Twin d s t := by
  subst hr
  have hp := inPoll_of_inHeader hq
  refine .inl ⟨h.mono ?_, by simp [hp], fun _ => hret⟩
  rw [resumesAt, hp, if_neg (by decide), if_pos hq]
  exact append_subset_append_right hn _

theorem twin_callPoll (h : Same R s t) {q : Seq} (hq : isPollReturn q = true) (hn : needs d q ⊆ R) :
    Twin d (callPoll q s) (callPoll q t) :=
  twin_of_poll (R := [.ret]) ((same_callPoll h q).mono (List.cons_subset_cons _ hn)) rfl hq rfl (List.Subset.refl _)

theorem twin_callHeader (h : Same R s t) (op : Byte) (a : Addr) {q : Seq} (hq : isHeaderReturn q = true)
    (hn : needs d q ⊆ R) : Twin d (callHeader op a q s) (callHeader op a q t) :=
  twin_of_header (R := [.hret, .cop, .addr])
    ((same_callHeader h op a q).mono (List.cons_subset_cons _ (List.cons_subset_cons _ (List.cons_subset_cons _ hn))))
    rfl hq rfl (List.Subset.refl _)

/-! ## The rows of the sequencer -/

/-! The poll subroutine (R303). -/

theorem follows_pSel (h : Running d s t) (hq : s.seq = .pSel) : Follows (Twin d) (seqPSel s) (seqPSel t) := by
  obtain ⟨hs, hr⟩ := h.poll hq rfl
  exact follows_select hs (follows_next (twin_of_poll (same_goto (same_opened hs _) _) rfl hr rfl (List.Subset.refl _)))

theorem follows_pOp (h : Running d s t) (hq : s.seq = .pOp) : Follows (Twin d) (seqPOp s) (seqPOp t) := by
  obtain ⟨hs, hr⟩ := h.poll hq rfl
  rw [seqPOp, seqPOp, hs.cfg]
  exact follows_send hs (follows_next
    (twin_of_poll (same_goto (same_exchanged hs _) _) (by simp) hr rfl (List.Subset.refl _)))

theorem follows_pRd (h : Running d s t) (hq : s.seq = .pRd) : Follows (Twin d) (seqPRd s) (seqPRd t) := by
  obtain ⟨hs, hr⟩ := h.poll hq rfl
  rw [seqPRd, seqPRd, hs.cfg]
  exact follows_xfer hs (follows_next
    (twin_of_poll (same_goto (same_latchStatus (same_exchanged hs _) _) _) (by simp) hr rfl (List.Subset.refl _)))

theorem follows_pDes (h : Running d s t) (hq : s.seq = .pDes) : Follows (Twin d) (seqPDes s) (seqPDes t) := by
  obtain ⟨hs, hr⟩ := h.poll hq rfl
  exact follows_deselect hs (follows_next (twin_of_poll (same_goto (same_closed hs) _) rfl hr rfl (List.Subset.refl _)))

theorem follows_pTst (h : Running d s t) (hq : s.seq = .pTst) : Follows (Twin d) (seqPTst s) (seqPTst t) := by
  obtain ⟨hs, hr⟩ := h.poll hq rfl
  have hsr : t.sr = s.sr := hs.regs .sr (by simp [needs])
  have hret : t.ret = s.ret := hs.regs .ret (by simp [needs])
  rw [seqPTst, seqPTst, hsr, hret]
  refine follows_next ?_
  by_cases hb : readyBit s.sr = true
  · rw [if_pos hb]
    exact twin_of_plain (same_goto hs _) rfl (isPlain_of_isPollReturn hr) (List.subset_append_right _ _)
  · rw [if_neg hb]
    exact twin_of_poll (same_goto hs _) rfl hr rfl (List.subset_cons_self _ _)

/-! The frame-header subroutine (R304). -/

theorem follows_hSel (h : Running d s t) (hq : s.seq = .hSel) : Follows (Twin d) (seqHSel s) (seqHSel t) := by
  obtain ⟨hs, hr⟩ := h.header hq rfl
  have hcop : t.cop = s.cop := hs.regs .cop (by simp [needs])
  rw [seqHSel, seqHSel, hs.cfg, hcop]
  cases ownerOf s.cfg s.cop with
  | none => exact follows_fault _ _
  | some o =>
    exact follows_select hs (follows_next
      (twin_of_header (same_goto (same_opened hs o) _) rfl hr rfl (List.Subset.refl _)))

/-- A header byte, and on to the next state of the subroutine. -/
theorem follows_headerByte {q : Seq} (hs : Same (needs d .hOp ++ needs d s.hret) s t)
    (hr : isHeaderReturn s.hret = true) (out : Byte) (hq : inHeader q = true) (hn : needs d q ⊆ needs d .hOp) :
    Follows (Twin d) (sendThen out q s) (sendThen out q t) :=
  follows_send hs (follows_next (twin_of_header (same_goto (same_exchanged hs _) _) (by simp) hr hq hn))

theorem follows_hOp (h : Running d s t) (hq : s.seq = .hOp) : Follows (Twin d) (seqHOp s) (seqHOp t) := by
  obtain ⟨hs, hr⟩ := h.header hq rfl
  have hcop : t.cop = s.cop := hs.regs .cop (by simp [needs])
  rw [seqHOp, seqHOp, hcop]
  exact follows_headerByte hs hr _ rfl (List.Subset.refl _)

theorem follows_hA0 (h : Running d s t) (hq : s.seq = .hA0) : Follows (Twin d) (seqHA0 s) (seqHA0 t) := by
  obtain ⟨hs, hr⟩ := h.header hq rfl
  have haddr : t.addr = s.addr := hs.regs .addr (by simp [needs])
  rw [seqHA0, seqHA0, haddr]
  exact follows_headerByte hs hr _ rfl (List.Subset.refl _)

theorem follows_hA1 (h : Running d s t) (hq : s.seq = .hA1) : Follows (Twin d) (seqHA1 s) (seqHA1 t) := by
  obtain ⟨hs, hr⟩ := h.header hq rfl
  have haddr : t.addr = s.addr := hs.regs .addr (by simp [needs])
  rw [seqHA1, seqHA1, haddr]
  exact follows_headerByte hs hr _ rfl (List.Subset.refl _)

theorem follows_hA2 (h : Running d s t) (hq : s.seq = .hA2) : Follows (Twin d) (seqHA2 s) (seqHA2 t) := by
  obtain ⟨hs, hr⟩ := h.header hq rfl
  have haddr : t.addr = s.addr := hs.regs .addr (by simp [needs])
  have hhret : t.hret = s.hret := hs.regs .hret (by simp [needs])
  rw [seqHA2, seqHA2, haddr, hhret]
  exact follows_send hs (follows_next (twin_of_plain (same_goto (same_exchanged hs _) _) rfl
    (isPlain_of_isHeaderReturn hr) (List.subset_append_right _ _)))

theorem twin_goto (h : Same R s t) {q : Seq} (hq : isPlain q = true) (hn : needs d q ⊆ R) :
    Twin d (goto q s) (goto q t) :=
  twin_of_plain (same_goto h q) rfl hq hn

/-! Rest and INIT (R302, R305). -/

theorem twin_done (h : Running d s t) (hq : s.seq = .done) :
    Twin d (goto .idle (notBusy s)) (goto .idle (notBusy t)) := by
  have hs := h.plain hq
  exact .inr ⟨congr_borrowing (fun u => goto .idle (notBusy u)) hs.others,
    fun r hr => by cases r <;> exact hs.regs _ hr, hs.moves, rfl⟩

theorem follows_iWp (h : Running d s t) (hq : s.seq = .iWp) : Follows (Twin d) (seqIWp s) (seqIWp t) :=
  follows_next (twin_goto (same_setWp (h.plain hq) _) rfl (List.Subset.refl _))

theorem follows_iRst1 (h : Running d s t) (hq : s.seq = .iRst1) : Follows (Twin d) (seqIRst1 s) (seqIRst1 t) :=
  follows_next (twin_goto (same_setRst (h.plain hq) _) rfl (List.Subset.refl _))

theorem follows_iDly (h : Running d s t) (hq : s.seq = .iDly) : Follows (Twin d) (seqIDly s) (seqIDly t) := by
  rw [seqIDly, seqIDly, h.same.cfg]
  exact follows_next (twin_goto (same_delayMs (h.plain hq) _) rfl (List.Subset.refl _))

theorem follows_iRst0 (h : Running d s t) (hq : s.seq = .iRst0) : Follows (Twin d) (seqIRst0 s) (seqIRst0 t) :=
  follows_next (twin_goto (same_setRst (h.plain hq) _) rfl (List.Subset.refl _))

/-! ERASE_PAGE and ERASE_SECTOR (R306, R307). -/

theorem follows_ep0 (h : Running d s t) (hq : s.seq = .ep0) : Follows (Twin d) (seqEp0 s) (seqEp0 t) :=
  follows_next (twin_callPoll (h.plain hq) rfl (List.Subset.refl _))

theorem follows_ep1 (h : Running d s t) (hq : s.seq = .ep1) : Follows (Twin d) (seqEp1 s) (seqEp1 t) := by
  rw [seqEp1, seqEp1, pageEraseAddr, pageEraseAddr, h.same.cfg, h.same.page]
  exact follows_next (twin_callHeader (h.plain hq) _ _ rfl (List.Subset.refl _))

theorem follows_ep2 (h : Running d s t) (hq : s.seq = .ep2) : Follows (Twin d) (seqEp2 s) (seqEp2 t) :=
  follows_deselect h.same (follows_next (twin_goto (same_closed (h.plain hq)) rfl (List.Subset.refl _)))

theorem follows_es0 (h : Running d s t) (hq : s.seq = .es0) : Follows (Twin d) (seqEs0 s) (seqEs0 t) := by
  have hs := h.plain hq
  rw [seqEs0, seqEs0, hs.sector]
  split
  · exact follows_next (twin_goto hs rfl (List.Subset.refl _))
  · exact follows_next (twin_callPoll hs rfl (List.Subset.refl _))

theorem follows_es1 (h : Running d s t) (hq : s.seq = .es1) : Follows (Twin d) (seqEs1 s) (seqEs1 t) := by
  rw [seqEs1, seqEs1, sectorEraseAddr, sectorEraseAddr, h.same.cfg, h.same.sector]
  exact follows_next (twin_callHeader (h.plain hq) _ _ rfl (List.Subset.refl _))

theorem follows_es2 (h : Running d s t) (hq : s.seq = .es2) : Follows (Twin d) (seqEs2 s) (seqEs2 t) :=
  follows_deselect h.same (follows_next (twin_goto (same_closed (h.plain hq)) rfl (List.Subset.refl _)))

/-! WRITE (R308). -/

theorem follows_w0 (h : Running d s t) (hq : s.seq = .w0) : Follows (Twin d) (seqW0 s) (seqW0 t) :=
  follows_next (twin_goto (same_startWrite (same_setWp (h.plain hq) _)) rfl (List.Subset.refl _))

theorem follows_w1 (h : Running d s t) (hq : s.seq = .w1) : Follows (Twin d) (seqW1 s) (seqW1 t) := by
  have hs := h.plain hq
  have hrem : t.rem = s.rem := hs.regs .rem (by simp [needs])
  rw [seqW1, seqW1, hrem]
  split
  · exact follows_next (twin_callPoll hs rfl (List.subset_append_right _ _))
  · exact follows_next (twin_callPoll (same_startChunk hs (by simp [needs])) rfl (List.Subset.refl _))

theorem follows_w2 (h : Running d s t) (hq : s.seq = .w2) : Follows (Twin d) (seqW2 s) (seqW2 t) := by
  rw [seqW2, seqW2, h.same.cfg]
  exact follows_next (twin_callHeader (same_startCount (h.plain hq)) _ _ rfl (List.Subset.refl _))

theorem follows_fillStep (h : Same (needs d .w3) s t) (hq : s.seq = .w3) :
    Follows (Twin d) (fillStep s) (fillStep t) := by
  have hcnt : t.cnt = s.cnt := h.regs .cnt (by simp [needs])
  have hidx : t.idx = s.idx := h.regs .idx (by simp [needs])
  rw [fillStep, fillStep, hcnt, hidx, h.hostByte]
  exact follows_xfer (same_memRead h _) (follows_next
    (twin_of_plain (q := .w3) (same_countByte (same_exchanged (same_memRead h _) _)) (by simp [hq]) rfl
      (List.Subset.refl _)))

theorem follows_w3 (h : Running d s t) (hq : s.seq = .w3) : Follows (Twin d) (seqW3 s) (seqW3 t) := by
  have hs := h.plain hq
  have hcnt : t.cnt = s.cnt := hs.regs .cnt (by simp [needs])
  have hn : t.n = s.n := hs.regs .n (by simp [needs])
  rw [seqW3, seqW3, hcnt, hn]
  split
  · exact follows_fillStep hs hq
  · split
    · exact follows_deselect hs (follows_next (twin_callPoll (same_closed hs) rfl (List.subset_cons_self _ _)))
    · exact follows_fault _ _

theorem follows_w4 (h : Running d s t) (hq : s.seq = .w4) : Follows (Twin d) (seqW4 s) (seqW4 t) := by
  have hs := h.plain hq
  have hcur : t.cur = s.cur := hs.regs .cur (by simp [needs])
  rw [seqW4, seqW4, commitAddr, commitAddr, hs.cfg, hcur]
  exact follows_next (twin_callHeader hs _ _ rfl (List.Subset.refl _))

theorem follows_w5 (h : Running d s t) (hq : s.seq = .w5) : Follows (Twin d) (seqW5 s) (seqW5 t) := by
  have hs := h.plain hq
  exact follows_deselect hs (follows_next
    (twin_goto (same_nextChunk (same_closed hs) (by simp [needs])) rfl (List.subset_cons_self _ _)))

theorem follows_w6 (h : Running d s t) (hq : s.seq = .w6) : Follows (Twin d) (seqW6 s) (seqW6 t) :=
  follows_next (twin_goto (same_setWp (h.plain hq) _) rfl (List.Subset.refl _))

/-! READ (R309). -/

theorem follows_r0 (h : Running d s t) (hq : s.seq = .r0) : Follows (Twin d) (seqR0 s) (seqR0 t) :=
  follows_next (twin_callPoll (h.plain hq) rfl (List.Subset.refl _))

theorem follows_r1 (h : Running d s t) (hq : s.seq = .r1) : Follows (Twin d) (seqR1 s) (seqR1 t) := by
  rw [seqR1, seqR1, arrayReadAddr, arrayReadAddr, h.same.cfg, h.same.page, h.same.offset]
  exact follows_next (twin_callHeader (same_startCount (h.plain hq)) _ _ rfl (List.Subset.refl _))

theorem follows_r2 (h : Running d s t) (hq : s.seq = .r2) : Follows (Twin d) (seqR2 s) (seqR2 t) := by
  have hs := h.plain hq
  rw [seqR2, seqR2, hs.cfg, hs.dummiesSent (by simp [needs])]
  split
  · exact follows_send hs (follows_next
      (twin_of_plain (q := .r2) (same_countByte (same_exchanged hs _)) (by simp [hq]) rfl
      (List.Subset.refl _)))
  · split
    · exact follows_next (twin_goto (same_startCount hs) rfl (List.subset_cons_self _ _))
    · exact follows_fault _ _

theorem follows_readStep (h : Same (needs d .r3) s t) (hq : s.seq = .r3) :
    Follows (Twin d) (readStep s) (readStep t) := by
  have hcnt : (exchanged s.cfg.dummyOut t).cnt = (exchanged s.cfg.dummyOut s).cnt :=
    (same_exchanged h _).regs .cnt (by simp [needs])
  rw [readStep, readStep, h.cfg]
  refine follows_xfer h ?_
  rw [hcnt]
  exact follows_next
    (twin_of_plain (q := .r3) (same_countByte (same_memWrite (same_exchanged h _) _ _)) (by simp [hq]) rfl
      (List.Subset.refl _))

theorem follows_r3 (h : Running d s t) (hq : s.seq = .r3) : Follows (Twin d) (seqR3 s) (seqR3 t) := by
  have hs := h.plain hq
  have hcnt : t.cnt = s.cnt := hs.regs .cnt (by simp [needs])
  rw [seqR3, seqR3, hcnt, hs.size]
  split
  · exact follows_readStep hs hq
  · split
    · exact follows_deselect hs (follows_next (twin_goto (same_closed hs) rfl (List.subset_cons_self _ _)))
    · exact follows_fault _ _

/-! DIAGNOSE (R310). -/

theorem follows_g0 (h : Running d s t) (hq : s.seq = .g0) : Follows (Twin d) (seqG0 s) (seqG0 t) :=
  follows_select h.same (follows_next (twin_goto (same_opened (h.plain hq) _) rfl (List.Subset.refl _)))

theorem follows_g1 (h : Running d s t) (hq : s.seq = .g1) : Follows (Twin d) (seqG1 s) (seqG1 t) := by
  rw [seqG1, seqG1, h.same.cfg]
  exact follows_send h.same (follows_next
    (twin_goto (same_startId (same_exchanged (h.plain hq) _)) rfl (List.Subset.refl _)))

theorem follows_idStep (h : Same [.ids] s t) (hq : s.seq = .g2) (hk : s.k < 4#3) :
    Follows (Twin d) (idStep s) (idStep t) := by
  rw [idStep, idStep, h.cfg]
  exact follows_xfer h (follows_next
    (twin_of_plain (q := .g2) (same_latchId (same_exchanged h _) (by simpa using hk) _) (by simp [hq]) rfl
      (List.Subset.refl _)))

theorem follows_g2 (h : Running d s t) (hq : s.seq = .g2) : Follows (Twin d) (seqG2 s) (seqG2 t) := by
  have hs : Same [.ids] s t := h.plain hq
  obtain ⟨hk, -⟩ := hs.regs .ids (List.mem_singleton_self _)
  rw [seqG2, seqG2, hk]
  split
  next hlt => exact follows_idStep hs hq hlt
  next =>
    split
    next heq =>
      exact follows_deselect hs (follows_next
        (twin_goto (same_closed (same_ids_complete hs heq)) rfl (List.Subset.refl _)))
    next => exact follows_fault _ _

theorem follows_g3 (h : Running d s t) (hq : s.seq = .g3) : Follows (Twin d) (seqG3 s) (seqG3 t) :=
  follows_select h.same (follows_next (twin_goto (same_opened (h.plain hq) _) rfl (List.Subset.refl _)))

theorem follows_g4 (h : Running d s t) (hq : s.seq = .g4) : Follows (Twin d) (seqG4 s) (seqG4 t) := by
  rw [seqG4, seqG4, h.same.cfg]
  exact follows_send h.same (follows_next (twin_goto (same_exchanged (h.plain hq) _) rfl (List.Subset.refl _)))

theorem follows_g5 (h : Running d s t) (hq : s.seq = .g5) : Follows (Twin d) (seqG5 s) (seqG5 t) := by
  rw [seqG5, seqG5, h.same.cfg]
  exact follows_xfer h.same (follows_next
    (twin_goto (same_latchStatus (same_exchanged (h.plain hq) _) _) rfl (List.Subset.refl _)))

theorem follows_g6 (h : Running d s t) (hq : s.seq = .g6) : Follows (Twin d) (seqG6 s) (seqG6 t) :=
  follows_deselect h.same (follows_next (twin_goto (same_closed (h.plain hq)) rfl (List.Subset.refl _)))

theorem results_subset (d : Bool) : results d ⊆ [.diagOk, .sr, .id] := by
  cases d <;> decide

theorem follows_g7 (h : Running d s t) (hq : s.seq = .g7) : Follows (Twin d) (seqG7 s) (seqG7 t) :=
  follows_next (twin_goto (same_latchDiag (h.plain hq) (by simp [needs]) (by simp [needs])) rfl (results_subset d))

/-! ## Steps and runs -/

/-- One step of the controller while the command runs. In `IDLE` it changes nothing (R302). -/
theorem follows_seqStep (h : Running d s t) : Follows (Twin d) (seqStep s) (seqStep t) := by
  unfold seqStep
  rw [h.same.seq]
  cases hq : s.seq with
  | idle => exact follows_next (.inl h)
  | done => exact follows_next (twin_done h hq)
  | pSel => exact follows_pSel h hq
  | pOp => exact follows_pOp h hq
  | pRd => exact follows_pRd h hq
  | pDes => exact follows_pDes h hq
  | pTst => exact follows_pTst h hq
  | hSel => exact follows_hSel h hq
  | hOp => exact follows_hOp h hq
  | hA0 => exact follows_hA0 h hq
  | hA1 => exact follows_hA1 h hq
  | hA2 => exact follows_hA2 h hq
  | iWp => exact follows_iWp h hq
  | iRst1 => exact follows_iRst1 h hq
  | iDly => exact follows_iDly h hq
  | iRst0 => exact follows_iRst0 h hq
  | ep0 => exact follows_ep0 h hq
  | ep1 => exact follows_ep1 h hq
  | ep2 => exact follows_ep2 h hq
  | es0 => exact follows_es0 h hq
  | es1 => exact follows_es1 h hq
  | es2 => exact follows_es2 h hq
  | w0 => exact follows_w0 h hq
  | w1 => exact follows_w1 h hq
  | w2 => exact follows_w2 h hq
  | w3 => exact follows_w3 h hq
  | w4 => exact follows_w4 h hq
  | w5 => exact follows_w5 h hq
  | w6 => exact follows_w6 h hq
  | r0 => exact follows_r0 h hq
  | r1 => exact follows_r1 h hq
  | r2 => exact follows_r2 h hq
  | r3 => exact follows_r3 h hq
  | g0 => exact follows_g0 h hq
  | g1 => exact follows_g1 h hq
  | g2 => exact follows_g2 h hq
  | g3 => exact follows_g3 h hq
  | g4 => exact follows_g4 h hq
  | g5 => exact follows_g5 h hq
  | g6 => exact follows_g6 h hq
  | g7 => exact follows_g7 h hq

theorem Twin.others (h : Twin d s t) : sameButWorking s t :=
  h.elim (·.same.others) (·.others)

theorem Twin.moves (h : Twin d s t) : undisturbed s.moves :=
  h.elim (·.same.moves) (·.moves)

theorem Twin.results (h : Twin d s t) (hb : s.busy = false) : ∀ r ∈ NoLeftovers.results d, r.agree s t := by
  obtain hr | he := h
  · exact absurd hb (by simp [hr.same.busy])
  · exact he.regs

theorem Twin.controller (h : Twin d s t) : Follows (Twin d) (seqStep s) (seqStep t) := by
  obtain hr | he := h
  · exact follows_seqStep hr
  · have hseq : t.seq = .idle := (congr_borrowing State.seq he.others).trans he.seq
    rw [seqStep_idle he.seq, seqStep_idle hseq]
    exact follows_next (.inr he)

theorem Twin.chipReady (h : Twin d s t) : Twin d (chipDone s) (chipDone t) := by
  obtain hr | he := h
  · exact .inl ⟨same_chipDone hr.same, hr.ret, hr.hret⟩
  · exact .inr ⟨congr_borrowing chipDone he.others,
      fun r hr => by cases r <;> exact he.regs _ hr, he.moves, he.seq⟩

theorem Twin.takeMove (h : Twin d s t) {rest : List Move} (hm : undisturbed rest) :
    Twin d (Machine.takeMove rest s) (Machine.takeMove rest t) := by
  obtain hr | he := h
  · exact .inl ⟨⟨congr_borrowing (Machine.takeMove rest) hr.same.others,
      fun r hr' => by cases r <;> exact hr.same.regs _ hr', hm, hr.same.busy⟩, hr.ret, hr.hret⟩
  · exact .inr ⟨congr_borrowing (Machine.takeMove rest) he.others,
      fun r hr => by cases r <;> exact he.regs _ hr, hm, he.seq⟩

theorem Twin.step (h : Twin d s t) : Follows (Twin d) (Machine.step s) (Machine.step t) := by
  have hmoves : t.moves = s.moves := congr_borrowing State.moves h.others
  have hundisturbed := h.moves
  cases hm : s.moves with
  | nil =>
    rw [step_of_no_move hm, step_of_no_move (hmoves.trans hm)]
    exact h.controller
  | cons m rest =>
    rw [hm] at hundisturbed
    have hrest : undisturbed rest := fun m' hm' => hundisturbed m' (List.mem_cons_of_mem _ hm')
    rw [step_of_move hm, step_of_move (hmoves.trans hm)]
    obtain rfl | rfl := hundisturbed m List.mem_cons_self
    · exact (h.takeMove hrest).controller
    · exact follows_next (h.takeMove hrest).chipReady

theorem Twin.run (h : Twin d s t) (k : Nat) : Follows (Twin d) (Safety.run k s) (Safety.run k t) := by
  induction k generalizing s t with
  | zero => exact follows_next h
  | succ k ih => exact follows_andThen h.step fun _ _ => ih

/-! ## The start of a command -/

/-- The state a command starts in (R302). -/
def firstState : Instr → Seq
  | .init => .iWp
  | .erasePage => .ep0
  | .eraseSector => .es0
  | .write => .w0
  | .read => .r0
  | _ => .g0

theorem isCommand_iff {i : Instr} : isCommand i = true ↔
    i = .init ∨ i = .erasePage ∨ i = .eraseSector ∨ i = .write ∨ i = .read ∨ i = .diagnose := by
  simp [isCommand]

theorem exec_of_isCommand {i : Instr} (hi : isCommand i = true) (s : State) :
    exec i s = accept (firstState i) s := by
  rcases isCommand_iff.mp hi with rfl | rfl | rfl | rfl | rfl | rfl <;> rfl

theorem accept_of_not_busy {q : Seq} (h : s.busy = false) : accept q s = .next (began q s) := by
  rw [accept, whenIdle, h]

/-- No command reads, before it writes it, a register it finds at its start. -/
theorem needs_firstState {i : Instr} (hi : isCommand i = true) :
    isPlain (firstState i) = true ∧ needs (i == .diagnose) (firstState i) = [] := by
  rcases isCommand_iff.mp hi with rfl | rfl | rfl | rfl | rfl | rfl <;> decide

/-- A command accepted, with the moves to come. -/
def beganWith (q : Seq) (schedule : List Move) (s : State) : State :=
  { began q s with moves := schedule }

theorem twin_beganWith {i : Instr} {schedule : List Move} (hi : isCommand i = true) (hm : undisturbed schedule)
    (h : sameButWorking s t) :
    Twin (i == .diagnose) (beganWith (firstState i) schedule s) (beganWith (firstState i) schedule t) := by
  obtain ⟨hplain, hneeds⟩ := needs_firstState hi
  have hsame : Same [] (beganWith (firstState i) schedule s) (beganWith (firstState i) schedule t) :=
    ⟨congr_borrowing (beganWith (firstState i) schedule) h, by simp, hm, rfl⟩
  exact twin_of_plain hsame rfl hplain (List.subset_nil.mpr hneeds)

/-- Settles O60: the two runs keep `Twin`, which holds when the command begins because its first state reads no working
register before it is written. -/
theorem commandsReadNoLeftovers : Obligations.CommandsReadNoLeftovers := by
  unfold Obligations.CommandsReadNoLeftovers
  intro s s' u u' t i schedule k hs hs' hi hm hsame hu hu' hrun
  rw [exec_of_isCommand hi, accept_of_not_busy hs.busy] at hu
  rw [exec_of_isCommand hi, accept_of_not_busy hs'.busy] at hu'
  obtain rfl := Host.Outcome.next.inj hu
  obtain rfl := Host.Outcome.next.inj hu'
  obtain ⟨t', ht', htwin⟩ := (twin_beganWith hi hm hsame).run k t hrun
  have hothers := htwin.others
  refine ⟨t', ht', congr_borrowing State.trace hothers, congr_borrowing State.busy hothers,
    congr_borrowing State.seq hothers, congr_borrowing State.hbuf hothers, congr_borrowing State.wp hothers,
    congr_borrowing State.rst hothers, congr_borrowing State.cs hothers, congr_borrowing State.dev hothers, ?_⟩
  rintro rfl hbusy
  have hresults := htwin.results hbusy
  exact ⟨hresults .diagOk (by decide), hresults .id (by decide)⟩

end Sys2Proof.NoLeftovers
end

section
/-! PROOFS. O26, O27, O29, O33: what a whole frame does on a ready `DEV`. A chip that listens is `heard` of the bytes
received so far; a mutating frame leaves it `started` on an operation, whose completion writes one run of the array; a
read session keeps the pointer at a linear position of the array (`readingAt`). -/

namespace Sys2Proof.Machine

/-! ## The opcodes (R6, R108) -/

theorem emitted_nodup {c : Cfg} (hc : c.valid = true) : c.emitted.Nodup := by
  have hall := opcodes_nodup hc
  simp only [Cfg.opcodes, List.nodup_cons, List.mem_cons, not_or] at hall
  simp [Cfg.emitted, hall]

theorem mem_emitted_of_isMutating {c : Cfg} {op : Byte} (h : isMutating c op = true) : op ∈ c.emitted := by
  simp only [isMutating, Bool.or_eq_true, beq_iff_eq] at h
  obtain (rfl | rfl) | rfl := h <;> simp [Cfg.emitted]

theorem isMutating_of_opensSession {c : Cfg} {op : Byte} (hc : c.valid = true) (h : opensSession c op = true) :
    isMutating c op = false := by
  have hdistinct := emitted_nodup hc
  simp only [Cfg.emitted, List.nodup_cons, List.mem_cons, not_or] at hdistinct
  simp only [opensSession, Bool.or_eq_true, beq_iff_eq] at h
  obtain rfl | rfl := h <;> simp [isMutating, hdistinct, Ne.symm]

theorem opensSession_of_isMutating {c : Cfg} {op : Byte} (hc : c.valid = true) (h : isMutating c op = true) :
    opensSession c op = false := by
  cases hs : opensSession c op with
  | false => rfl
  | true => simp [isMutating_of_opensSession hc hs] at h

theorem opArrayRead_ne_opBuf1Write {c : Cfg} (hc : c.valid = true) : c.opArrayRead ≠ c.opBuf1Write := by
  have hdistinct := emitted_nodup hc
  simp only [Cfg.emitted, List.nodup_cons, List.mem_cons, not_or] at hdistinct
  simp [hdistinct]

/-! ## Places of the array (R62, R215) -/

theorem linear_div {p o : Nat} (ho : o < pageSize) : linear p o / pageSize = p := by
  simp only [linear, pageSize] at *
  omega

theorem linear_mod {p o : Nat} (ho : o < pageSize) : linear p o % pageSize = o := by
  simp only [linear, pageSize] at *
  omega

theorem addrPage_lt (a : Addr) : addrPage a < totalPages :=
  ((addrBits a).extractLsb' 9 12).isLt

/-- The pointer crosses page boundaries: it advances by one linear position (R90). -/
theorem nextReadPtr_linear {x : Nat} (hx : x < totalPages * pageSize) :
    nextReadPtr (x / pageSize, x % pageSize) = ((x + 1) / pageSize, (x + 1) % pageSize) := by
  have hplace : x / pageSize < totalPages ∧ x % pageSize < pageSize := by
    simp only [totalPages, pageSize] at *
    omega
  rw [nextReadPtr, if_pos hplace]
  by_cases hend : x % pageSize + 1 = pageSize
  · rw [if_pos hend, Prod.mk.injEq]
    simp only [pageSize] at *
    omega
  · rw [if_neg hend, Prod.mk.injEq]
    simp only [pageSize] at *
    omega

end Sys2Proof.Machine

namespace Sys2Proof.Machine.Dev

open Sys2Proof.Safety

/-! ## A chip that listens (R82, R83) -/

/-- A chip whose open frame is not ignored and has the bytes received so far. -/
def heard (d : Dev) (bytes : List Byte) : Dev :=
  { d with frame := some bytes, ignored := false }

theorem beginFrame_receive_of_ready {c : Cfg} {d : Dev} {op : Byte} (hd : readyChip d) (hop : op ∈ c.emitted) :
    d.beginFrame.receive c op = d.heard [op] := by
  obtain ⟨_, hbusy⟩ := hd
  simp [receive, beginFrame, heard, hop, hbusy]

/-- Before the third address byte a byte is only heard (R86, R90). -/
theorem heard_receive_of_short {c : Cfg} {d : Dev} {op b : Byte} {got : List Byte} (hd : d.mode = .known)
    (hgot : got.length < 2) : (d.heard (op :: got)).receive c b = d.heard (op :: (got ++ [b])) := by
  have hdata : ¬3 + c.nReadDummy ≤ 1 := by omega
  match got, hgot with
  | [], _ | [_], _ => simp [receive, sessionByte, heard, hd, hdata]

/-- The pointer that a whole header leaves (R86, R90). -/
def headerPtr (c : Cfg) (op : Byte) (a : Addr) (ptr : Nat × Nat) : Nat × Nat :=
  if op = c.opBuf1Write then (0, addrOffset a)
  else if op = c.opArrayRead then (addrPage a, addrOffset a)
  else ptr

theorem headerPtr_of_not_session {c : Cfg} {op : Byte} (a : Addr) (ptr : Nat × Nat)
    (h : opensSession c op = false) : headerPtr c op a ptr = ptr := by
  simp only [opensSession, Bool.or_eq_false_iff, beq_eq_false_iff_ne] at h
  simp [headerPtr, h]

theorem heard_receive_third_address_byte {c : Cfg} {d : Dev} (op : Byte) (a : Addr) (hd : d.mode = .known) :
    (d.heard [op, a.a0, a.a1]).receive c a.a2 =
      ({ d with ptr := headerPtr c op a d.ptr } : Dev).heard [op, a.a0, a.a1, a.a2] := by
  by_cases hfill : op = c.opBuf1Write
  · simp [receive, sessionByte, headerPtr, heard, hd, hfill]
  by_cases hread : op = c.opArrayRead
  · subst hread
    simp [receive, sessionByte, headerPtr, heard, hd, hfill]
  · simp [receive, sessionByte, headerPtr, heard, hd, hfill, hread]

/-! ## The end of a frame, and the operation it starts (R87 to R91) -/

/-- A chip on which a mutating frame has taken effect. -/
def started (d : Dev) (operation : Operation) : Dev :=
  { d with frame := none, ignored := false, busy := true, pending := some operation }

theorem commanded_of_not_mutating {c : Cfg} {d : Dev} {op : Byte} {got : List Byte} (wp : Bool)
    (h : isMutating c op = false) (hf : d.frame = some (op :: got)) : d.commanded c wp = none := by
  simp only [isMutating, Bool.or_eq_false_iff, beq_eq_false_iff_ne] at h
  obtain ⟨⟨herase, hsector⟩, hcommit⟩ := h
  unfold commanded
  rw [hf]
  split
  · rename_i heq
    cases heq
    simp [herase, hsector, hcommit]
  · rfl

theorem heard_endFrame_of_not_mutating {c : Cfg} {d : Dev} {op : Byte} {got : List Byte} (wp : Bool)
    (hd : d.mode = .known) (hop : isMutating c op = false) (hgot : 3 ≤ got.length) :
    (d.heard (op :: got)).endFrame c wp = { d with frame := none, ignored := false } := by
  have hcommand := commanded_of_not_mutating (d := d.heard (op :: got)) wp hop rfl
  have hformed : (d.heard (op :: got)).malformed c = false := by simp [malformed, heard, hop, hgot]
  simp only [endFrame, hcommand, hformed]
  simp [heard, hd]

theorem heard_endFrame_of_commanded {c : Cfg} {d : Dev} {op : Byte} {a : Addr} {wp : Bool} {operation : Operation}
    (hd : d.mode = .known) (hop : isMutating c op = true)
    (hcommand : (d.heard [op, a.a0, a.a1, a.a2]).commanded c wp = some operation) :
    (d.heard [op, a.a0, a.a1, a.a2]).endFrame c wp = d.started operation := by
  have hformed : (d.heard [op, a.a0, a.a1, a.a2]).malformed c = false := by simp [malformed, heard, hop]
  simp only [endFrame, hcommand, hformed]
  simp [heard, hd, started]

theorem commanded_pageErase {c : Cfg} (d : Dev) {wp : Bool} {a : Addr} (hc : c.valid = true)
    (hwp : (wp && c.blocks .erasePage (addrPage a)) = false) :
    (d.heard [c.opPageErase, a.a0, a.a1, a.a2]).commanded c wp = some (.erasePage (addrPage a)) := by
  have hdistinct := emitted_nodup hc
  simp only [Cfg.emitted, List.nodup_cons, List.mem_cons, not_or] at hdistinct
  simp [commanded, heard, hdistinct, hwp]

theorem commanded_commit {c : Cfg} (d : Dev) {wp : Bool} {a : Addr}
    (hwp : (wp && c.blocks .program (addrPage a)) = false) :
    (d.heard [c.opBuf1CommitErase, a.a0, a.a1, a.a2]).commanded c wp =
      some (.programPage (addrPage a) d.buf1Bytes) := by
  simp [commanded, heard, hwp, buf1Bytes]

theorem started_complete {d : Dev} (operation : Operation) (hd : d.mode = .known) :
    (d.started operation).complete =
      { d with
        frame := none, ignored := false, busy := false, pending := none
        array := d.array.writeRange operation.range.1 operation.content } := by
  simp [complete, started, hd]

theorem started_complete_arrayByte?_inside {d : Dev} {operation : Operation} {p o j : Nat} {b : Byte}
    (hd : d.mode = .known) (hp : p < totalPages) (ho : o < pageSize) (hj : linear p o = operation.range.1 + j)
    (hb : operation.content[j]? = some b) : (d.started operation).complete.arrayByte? p o = some b := by
  obtain ⟨hlt, _⟩ := List.getElem?_eq_some_iff.mp hb
  have hread := Memory.get?_writeRange_inside d.array operation.range.1 operation.content j hlt
  simp [started_complete operation hd, arrayByte?, hp, ho, Memory.read, hj, hread, hb]

theorem started_complete_arrayByte?_outside {d : Dev} {operation : Operation} {p o : Nat} (hd : d.mode = .known)
    (h : o < pageSize → linear p o < operation.range.1 ∨
      operation.range.1 + operation.content.length ≤ linear p o) :
    (d.started operation).complete.arrayByte? p o = d.arrayByte? p o := by
  rw [started_complete operation hd]
  unfold arrayByte?
  split
  · rename_i hplace
    have hread := Memory.get?_writeRange_outside d.array operation.range.1 operation.content (linear p o)
      (h hplace.2)
    simp [Memory.read, hread]
  · rfl

/-- An operation on one page writes its content over that page. -/
theorem started_complete_arrayByte?_same_page {d : Dev} {operation : Operation} {page o : Nat} {b : Byte}
    (hd : d.mode = .known) (hpage : page < totalPages) (hrange : operation.range.1 = linear page 0)
    (ho : o < pageSize) (hb : operation.content[o]? = some b) :
    (d.started operation).complete.arrayByte? page o = some b :=
  started_complete_arrayByte?_inside hd hpage ho (by rw [hrange]; rfl) hb

/-- An operation on one page changes no other. -/
theorem started_complete_arrayByte?_other_page {d : Dev} {operation : Operation} {page p : Nat} (o : Nat)
    (hd : d.mode = .known) (hrange : operation.range.1 = linear page 0) (hlen : operation.content.length = pageSize)
    (hp : p ≠ page) : (d.started operation).complete.arrayByte? p o = d.arrayByte? p o := by
  refine started_complete_arrayByte?_outside hd fun ho => ?_
  rw [hrange, hlen]
  simp only [linear, pageSize] at *
  omega

theorem length_buf1Bytes (d : Dev) : d.buf1Bytes.length = pageSize := by
  simp [buf1Bytes, Memory.readRange]

theorem getElem?_buf1Bytes (d : Dev) {j : Nat} (hj : j < pageSize) : d.buf1Bytes[j]? = some (bufferByte d j) := by
  simp [buf1Bytes, Memory.readRange, hj, bufferByte]

/-! ## A read session (R90) -/

/-- A chip in a read session, the pointer at a linear position of the array. -/
def readingAt (c : Cfg) (got : List Byte) (x : Nat) (d : Dev) : Dev :=
  ({ d with ptr := (x / pageSize, x % pageSize) } : Dev).heard (c.opArrayRead :: got)

/-- After the header the dummies only pass; from then on every byte advances the pointer. -/
theorem readingAt_receive {c : Cfg} {d : Dev} {got : List Byte} {x : Nat} (b : Byte) (hc : c.valid = true)
    (hd : d.mode = .known) (h3 : 3 ≤ got.length) :
    (d.readingAt c got x).receive c b =
      if 3 + c.nReadDummy ≤ got.length then
        { d.readingAt c (got ++ [b]) x with ptr := nextReadPtr (x / pageSize, x % pageSize) }
      else d.readingAt c (got ++ [b]) x := by
  have hop := opArrayRead_ne_opBuf1Write hc
  match got, h3 with
  | a0 :: a1 :: a2 :: tail, _ =>
    by_cases hdata : 3 + c.nReadDummy ≤ (a0 :: a1 :: a2 :: tail).length
    · rw [if_pos hdata]
      simp only [List.length_cons] at hdata
      simp [receive, sessionByte, readingAt, heard, hd, hop, hdata]
    · rw [if_neg hdata]
      simp only [List.length_cons] at hdata
      simp [receive, sessionByte, readingAt, heard, hd, hop, hdata]

theorem readingAt_receive_dummy {c : Cfg} {d : Dev} {got : List Byte} {x : Nat} (b : Byte) (hc : c.valid = true)
    (hd : d.mode = .known) (h3 : 3 ≤ got.length) (hgot : got.length < 3 + c.nReadDummy) :
    (d.readingAt c got x).receive c b = d.readingAt c (got ++ [b]) x := by
  rw [readingAt_receive b hc hd h3, if_neg (by omega)]

theorem readingAt_receive_data {c : Cfg} {d : Dev} {got : List Byte} {x : Nat} (b : Byte) (hc : c.valid = true)
    (hd : d.mode = .known) (hgot : 3 + c.nReadDummy ≤ got.length) (hx : x < totalPages * pageSize) :
    (d.readingAt c got x).receive c b = d.readingAt c (got ++ [b]) (x + 1) := by
  rw [readingAt_receive b hc hd (by omega), if_pos hgot, nextReadPtr_linear hx]
  rfl

/-- Every linear position of the array holds a byte. -/
theorem exists_arrayByte? (d : Dev) {x : Nat} (hx : x < totalPages * pageSize) :
    ∃ b, d.arrayByte? (x / pageSize) (x % pageSize) = some b := by
  have hplace : x / pageSize < totalPages ∧ x % pageSize < pageSize := by
    simp only [totalPages, pageSize] at *
    omega
  exact ⟨_, if_pos hplace⟩

theorem readingAt_answer? {c : Cfg} {d : Dev} {got : List Byte} {x : Nat} (hc : c.valid = true)
    (hd : d.mode = .known) (hgot : 3 + c.nReadDummy ≤ got.length) :
    (d.readingAt c got x).answer? c = d.arrayByte? (x / pageSize) (x % pageSize) := by
  have hdistinct := emitted_nodup hc
  simp only [Cfg.emitted, List.nodup_cons, List.mem_cons, not_or] at hdistinct
  simp [answer?, readingAt, heard, hd, hgot, hdistinct, Ne.symm]
  rfl

theorem readingAt_endFrame {c : Cfg} {d : Dev} {got : List Byte} {x : Nat} (wp : Bool) (hc : c.valid = true)
    (hd : d.mode = .known) (hgot : 3 ≤ got.length) :
    (d.readingAt c got x).endFrame c wp =
      { d with frame := none, ignored := false, ptr := (x / pageSize, x % pageSize) } :=
  heard_endFrame_of_not_mutating (d := { d with ptr := (x / pageSize, x % pageSize) }) wp hd
    (isMutating_of_opensSession hc (by simp [opensSession])) hgot

end Sys2Proof.Machine.Dev

namespace Sys2Proof.Machine

open Sys2Proof.Safety

/-! ## Whole frames on a ready chip -/

/-- A header of one of the emitted opcodes, on a ready `DEV` (R82, R150). -/
theorem headerSent_dev_of_ready {s : State} {op : Byte} (a : Addr) (o : Owner) (hd : readyChip s.dev)
    (hop : op ∈ s.cfg.emitted) :
    (headerSent op a o s).dev =
      ({ s.dev with ptr := Dev.headerPtr s.cfg op a s.dev.ptr } : Dev).heard [op, a.a0, a.a1, a.a2] := by
  have hmode := hd.1
  simp only [headerSent, exchanged_dev, exchanged_cfg, opened_dev, opened_cfg, sending_dev, sending_cfg]
  rw [Dev.beginFrame_receive_of_ready hd hop, Dev.heard_receive_of_short hmode (by simp),
    Dev.heard_receive_of_short hmode (by simp)]
  exact Dev.heard_receive_third_address_byte op a hmode

theorem addressFrameSent_dev_of_commanded {s : State} {op : Byte} {a : Addr} (o : Owner) {operation : Operation}
    (hc : s.cfg.valid = true) (hd : readyChip s.dev) (hop : isMutating s.cfg op = true)
    (hcommand : (s.dev.heard [op, a.a0, a.a1, a.a2]).commanded s.cfg s.wp = some operation) :
    (addressFrameSent op a o s).dev = s.dev.started operation := by
  have hheader := headerSent_dev_of_ready a o hd (mem_emitted_of_isMutating hop)
  rw [Dev.headerPtr_of_not_session a s.dev.ptr (opensSession_of_isMutating hc hop)] at hheader
  simp only [addressFrameSent, closed_dev, headerSent_cfg, headerSent_wp, hheader]
  exact Dev.heard_endFrame_of_commanded hd.1 hop hcommand

/-- What every operation has in common, from the end of its frame to its completion: the chip is busy with the array
untouched, then ready, and buffer 1 is kept (R81, R91). -/
theorem busy_then_ready_of_started {s t : State} {operation : Operation} (hd : s.dev.mode = .known)
    (ht : t.dev = s.dev.started operation) :
    t.dev.busy = true ∧ sameArray s.dev t.dev ∧ readyChip (chipDone t).dev ∧ sameBuffer s.dev (chipDone t).dev := by
  rw [chipDone_dev, ht]
  refine ⟨rfl, fun _ _ => rfl, ?_, ?_⟩
  · rw [Dev.started_complete operation hd]
    exact ⟨hd, rfl⟩
  · rw [Dev.started_complete operation hd]
    exact fun _ => rfl

/-! ## The loops of a read session -/

theorem answer_of_some {s : State} {b : Byte} (h : s.dev.answer? s.cfg = some b) : answer s = b := by
  simp [answer, h]

@[simp] theorem readMany_cfg (count : Nat) (s : State) : (readMany count s).cfg = s.cfg := by
  induction count generalizing s <;> simp_all [readMany, readOne]

/-- The dummies leave a read session where it is (R90, R210). -/
theorem dummies_dev_of_readingAt {d : Dev} {x : Nat} (count : Nat) {s : State} {got : List Byte}
    (hc : s.cfg.valid = true) (hd : d.mode = .known) (hs : s.dev = d.readingAt s.cfg got x) (h3 : 3 ≤ got.length)
    (hcount : got.length + count ≤ 3 + s.cfg.nReadDummy) :
    ∃ got' : List Byte, got'.length = got.length + count ∧
      (dummies count s).dev = d.readingAt s.cfg got' x := by
  induction count generalizing s got with
  | zero => exact ⟨got, rfl, hs⟩
  | succ count ih =>
    have hnext : (countByte (exchanged s.cfg.dummyOut s)).dev =
        d.readingAt s.cfg (got ++ [s.cfg.dummyOut]) x := by
      rw [countByte_dev, exchanged_dev, hs, Dev.readingAt_receive_dummy _ hc hd h3 (by omega)]
    have hcfg : (countByte (exchanged s.cfg.dummyOut s)).cfg = s.cfg := by simp
    rw [← hcfg] at hc hcount
    obtain ⟨got', hlen, hdev⟩ := ih (got := got ++ [s.cfg.dummyOut]) hc (by rwa [hcfg])
      (by simp; omega) (by simp only [List.length_append, List.length_singleton]; omega)
    exact ⟨got', by simp only [hlen, List.length_append, List.length_singleton]; omega, by rw [dummies, hdev, hcfg]⟩

theorem readOne_cfg (s : State) : (readOne s).cfg = s.cfg := by
  simp [readOne]

theorem readOne_cnt (s : State) : (readOne s).cnt = s.cnt + 1 := by
  simp [readOne]

theorem readOne_cnt_toNat {s : State} (h : s.cnt.toNat + 1 < 65536) :
    (readOne s).cnt.toNat = s.cnt.toNat + 1 := by
  rw [readOne_cnt]
  bv_omega

theorem readOne_dev_of_readingAt {d : Dev} {s : State} {got : List Byte} {x : Nat}
    (hc : s.cfg.valid = true) (hd : d.mode = .known) (hs : s.dev = d.readingAt s.cfg got x)
    (hgot : 3 + s.cfg.nReadDummy ≤ got.length) (hx : x < totalPages * pageSize) :
    (readOne s).dev = d.readingAt (readOne s).cfg (got ++ [s.cfg.dummyOut]) (x + 1) := by
  rw [readOne_cfg, readOne, countByte_dev, memWrite_dev, exchanged_dev, hs, Dev.readingAt_receive_data _ hc hd hgot hx]

/-- The data bytes move a read session's pointer on, one linear position each (R90). -/
theorem readMany_dev_of_readingAt {d : Dev} (count : Nat) {s : State} {got : List Byte} {x : Nat}
    (hc : s.cfg.valid = true) (hd : d.mode = .known) (hs : s.dev = d.readingAt s.cfg got x)
    (hgot : 3 + s.cfg.nReadDummy ≤ got.length) (hx : x + count ≤ totalPages * pageSize) :
    ∃ got' : List Byte, 3 ≤ got'.length ∧ (readMany count s).dev = d.readingAt s.cfg got' (x + count) := by
  induction count generalizing s got x with
  | zero => exact ⟨got, by omega, hs⟩
  | succ count ih =>
    have hnext := readOne_dev_of_readingAt hc hd hs hgot (by omega)
    rw [← readOne_cfg] at hc hgot
    obtain ⟨got', hlen, hdev⟩ := ih hc hnext (by simp; omega) (by omega)
    exact ⟨got', hlen, by rw [readMany, hdev, readOne_cfg, Nat.add_right_comm, Nat.add_assoc]⟩

theorem hostByte_readOne_same (s : State) : hostByte (readOne s) s.cnt = answer s := by
  simp [hostByte, readOne, Memory.read_write_same]

theorem hostByte_readOne_other {s : State} {i : Word} (h : i ≠ s.cnt) :
    hostByte (readOne s) i = hostByte s i := by
  have haddr : i.toNat ≠ s.cnt.toNat := fun he => h (BitVec.eq_of_toNat_eq he)
  simp [hostByte, readOne, Memory.read_write_other _ _ _ _ _ _ haddr]

/-- A read session stores at its counter and above only. -/
theorem hostByte_readMany_of_lt (count : Nat) {s : State} {i : Word} (hi : i.toNat < s.cnt.toNat)
    (hcount : s.cnt.toNat + count < 65536) : hostByte (readMany count s) i = hostByte s i := by
  induction count generalizing s with
  | zero => rfl
  | succ count ih =>
    have hcnt := readOne_cnt_toNat (s := s) (by omega)
    rw [readMany, ih (by omega) (by omega), hostByte_readOne_other (by bv_omega)]

/-- Each data byte of a read session is the array's at its linear position (R90, R211). -/
theorem hostByte_readMany_of_readingAt {d : Dev} (count : Nat) {s : State} {got : List Byte} {x i : Nat}
    (hc : s.cfg.valid = true) (hd : d.mode = .known) (hs : s.dev = d.readingAt s.cfg got x)
    (hgot : 3 + s.cfg.nReadDummy ≤ got.length) (hx : x + count ≤ totalPages * pageSize)
    (hcount : s.cnt.toNat + count < 65536) (hi : i < count) :
    d.arrayByte? ((x + i) / pageSize) ((x + i) % pageSize) =
      some (hostByte (readMany count s) (s.cnt + BitVec.ofNat 16 i)) := by
  induction count generalizing s got x i with
  | zero => omega
  | succ count ih =>
    have hcnt := readOne_cnt_toNat (s := s) (by omega)
    cases i with
    | zero =>
      have hkept := hostByte_readMany_of_lt count (s := readOne s) (i := s.cnt) (by omega) (by omega)
      obtain ⟨b, hb⟩ := Dev.exists_arrayByte? d (x := x) (by omega)
      have hanswer : answer s = b := answer_of_some (by rw [hs, Dev.readingAt_answer? hc hd hgot, hb])
      rw [readMany, BitVec.add_zero, hkept, hostByte_readOne_same, hanswer]
      exact hb
    | succ i =>
      have hnext := readOne_dev_of_readingAt hc hd hs hgot (by omega)
      rw [← readOne_cfg] at hc hgot
      have hbyte := ih (i := i) hc hnext (by simp; omega) (by omega) (by omega) (by omega)
      have hplace : s.cnt + BitVec.ofNat 16 (i + 1) = (readOne s).cnt + BitVec.ofNat 16 i := by
        rw [readOne_cnt]
        bv_omega
      rw [readMany, hplace, ← hbyte, Nat.add_right_comm, Nat.add_assoc]

/-- The state in which the data bytes of an array read begin (R210). -/
def readOpened (a : Addr) (s : State) : State :=
  startCount (dummies s.cfg.nReadDummy (headerSent s.cfg.opArrayRead a .read (startCount s)))

theorem readFrameSent_eq (a : Addr) (size : Word) (s : State) :
    readFrameSent a size s = closed (readMany size.toNat (readOpened a s)) := rfl

@[simp] theorem readOpened_cfg (a : Addr) (s : State) : (readOpened a s).cfg = s.cfg := by
  simp [readOpened]

@[simp] theorem readOpened_cnt (a : Addr) (s : State) : (readOpened a s).cnt = 0 := rfl

/-- The header and the dummies put a ready `DEV` in a read session at the address, the next byte a data byte (R90). -/
theorem readOpened_dev_of_ready {s : State} {a : Addr} (hc : s.cfg.valid = true) (hd : readyChip s.dev)
    (hoffset : addrOffset a < pageSize) :
    ∃ got : List Byte, got.length = 3 + s.cfg.nReadDummy ∧
      (readOpened a s).dev = s.dev.readingAt (readOpened a s).cfg got (linear (addrPage a) (addrOffset a)) := by
  have hptr : Dev.headerPtr s.cfg s.cfg.opArrayRead a s.dev.ptr = (addrPage a, addrOffset a) := by
    simp [Dev.headerPtr, opArrayRead_ne_opBuf1Write hc]
  have hheader : (headerSent s.cfg.opArrayRead a .read (startCount s)).dev =
      s.dev.readingAt s.cfg [a.a0, a.a1, a.a2] (linear (addrPage a) (addrOffset a)) := by
    rw [headerSent_dev_of_ready a .read (s := startCount s) hd (by simp [Cfg.emitted]), Dev.readingAt,
      linear_div hoffset, linear_mod hoffset, startCount_cfg, startCount_dev, hptr]
  obtain ⟨got, hlen, hdev⟩ := dummies_dev_of_readingAt s.cfg.nReadDummy
    (s := headerSent s.cfg.opArrayRead a .read (startCount s)) (by simpa using hc) hd.1 (by simpa using hheader)
    (by simp) (by simp)
  exact ⟨got, by simp [hlen], by simpa [readOpened] using hdev⟩

/-- What a whole array read does on a ready `DEV`: the bytes it stores, and the chip it leaves (R90). -/
theorem readFrameSent_of_ready {s : State} {a : Addr} {size : Word} (hc : s.cfg.valid = true)
    (hd : readyChip s.dev) (hoffset : addrOffset a < pageSize)
    (hsize : linear (addrPage a) (addrOffset a) + size.toNat ≤ totalPages * pageSize) :
    (∀ i, i < size.toNat →
      s.dev.arrayByte? ((linear (addrPage a) (addrOffset a) + i) / pageSize)
          ((linear (addrPage a) (addrOffset a) + i) % pageSize) =
        some (hostByte (readFrameSent a size s) (BitVec.ofNat 16 i))) ∧
    ∃ ptr, (readFrameSent a size s).dev = { s.dev with frame := none, ignored := false, ptr := ptr } := by
  have hmode := hd.1
  obtain ⟨got, hlen, hopened⟩ := readOpened_dev_of_ready hc hd hoffset
  rw [← readOpened_cfg a s] at hc hlen
  rw [readFrameSent_eq]
  constructor
  · intro i hi
    have hbyte := hostByte_readMany_of_readingAt size.toNat hc hmode hopened hlen.ge hsize
      (by simpa using size.isLt) hi
    simpa [hostByte] using hbyte
  · obtain ⟨got', hgot', hread⟩ := readMany_dev_of_readingAt size.toNat hc hmode hopened hlen.ge hsize
    rw [closed_dev, hread, readMany_cfg, Dev.readingAt_endFrame _ hc hmode hgot']
    exact ⟨_, rfl⟩

end Sys2Proof.Machine

namespace Sys2Proof.ChipFrames

open Sys2Proof.Machine Sys2Proof.Safety

/-- Settles O26: the header puts the pointer at the linear position of the address, the dummies leave it there, and each
data byte is answered from it and moves it on by one. -/
theorem arrayReadOnTheChip : Obligations.ArrayReadOnTheChip := by
  unfold Obligations.ArrayReadOnTheChip
  intro s a size hc hcs hd hoffset hsize
  obtain ⟨hbytes, ptr, hdev⟩ := readFrameSent_of_ready hc hd hoffset hsize
  exact ⟨readFrameSent a size s, execArrayRead_of_cs hcs, hbytes, by rw [hdev]⟩

/-- Settles O27: the frame leaves the chip `started` on the erase, whose completion writes 264 ones over the page. -/
theorem pageEraseOnTheChip : Obligations.PageEraseOnTheChip := by
  unfold Obligations.PageEraseOnTheChip
  intro s a hc hcs hd hwp
  have hdev := addressFrameSent_dev_of_commanded .erase hc hd (by simp [isMutating])
    (Dev.commanded_pageErase s.dev hc hwp)
  obtain ⟨hbusy, harray, hready, hbuffer⟩ := busy_then_ready_of_started hd.1 hdev
  refine ⟨_, addressFrame_of_cs hcs, hbusy, harray, hready, hbuffer, ?_, ?_⟩
  · intro o ho
    rw [chipDone_dev, hdev]
    exact Dev.started_complete_arrayByte?_same_page hd.1 (addrPage_lt a) rfl ho (by simp [Operation.content, ho])
  · intro p o hp
    rw [chipDone_dev, hdev]
    exact Dev.started_complete_arrayByte?_other_page o hd.1 rfl (by simp [Operation.content]) hp

/-- Settles O29: the frame leaves the chip `started` on the commit with a snapshot of buffer 1, and its completion writes
the snapshot over the page. -/
theorem commitOnTheChip : Obligations.CommitOnTheChip := by
  unfold Obligations.CommitOnTheChip
  intro s a hc hcs hd hwp
  have hdev := addressFrameSent_dev_of_commanded .commit hc hd (by simp [isMutating])
    (Dev.commanded_commit s.dev hwp)
  obtain ⟨hbusy, harray, hready, hbuffer⟩ := busy_then_ready_of_started hd.1 hdev
  refine ⟨_, addressFrame_of_cs hcs, hbusy, harray, hready, hbuffer, ?_, ?_⟩
  · intro o ho
    rw [chipDone_dev, hdev]
    exact Dev.started_complete_arrayByte?_same_page hd.1 (addrPage_lt a) rfl ho (s.dev.getElem?_buf1Bytes ho)
  · intro p o hp
    rw [chipDone_dev, hdev]
    exact Dev.started_complete_arrayByte?_other_page o hd.1 rfl s.dev.length_buf1Bytes hp

/-! ## The opcodes that are never emitted (R93, R110) -/

/-- The instructions of the eight opcodes without a frame format. -/
def isNeverEmitted : Instr → Bool
  | .chipErase _ | .buf2Write _ | .buf1CommitNoerase _ | .pageToBuf1 _ | .pageToBuf2 _ | .powerDown _
  | .resume _ | .readSecurity _ => true
  | _ => false

theorem exec_of_isNeverEmitted {i : Instr} (h : isNeverEmitted i = true) (s : State) :
    ∃ why, exec i s = .refused why := by
  cases i with
  | chipErase | buf2Write | buf1CommitNoerase | pageToBuf1 | pageToBuf2 | powerDown | resume | readSecurity =>
    exact ⟨_, rfl⟩
  | _ => simp [isNeverEmitted] at h

/-- What the decoder makes of a frame that opens with none of the seven emitted opcodes. -/
theorem isNeverEmitted_of_decodeFrame {c : Cfg} {op : Byte} {rest : List Byte} {i : Instr} (hop : op ∉ c.emitted)
    (h : decodeFrame c (op :: rest) = .ok i) : isNeverEmitted i = true := by
  simp only [Cfg.emitted, List.mem_cons, not_or] at hop
  simp only [decodeFrame, decodeChipErase, hop, if_false] at h
  repeat' split at h
  all_goals cases h
  all_goals rfl

/-- Settles O33: the decoder has for such a frame an error or an instruction that is never emitted, and each of those
answers a refusal. -/
theorem unusedOpcodesRefused : Obligations.UnusedOpcodesRefused := by
  unfold Obligations.UnusedOpcodesRefused
  refine ⟨fun s op rest hop => ?_, fun s rest => ⟨rfl, rfl, rfl, rfl, rfl, rfl, rfl, rfl⟩⟩
  simp only [runMove, frameMove, decode]
  cases s.busy with
  | true => exact ⟨_, rfl⟩
  | false =>
    cases hdecode : decodeFrame s.cfg (op :: rest) with
    | ok i => exact exec_of_isNeverEmitted (isNeverEmitted_of_decodeFrame hop hdecode) s
    | error e => exact ⟨_, rfl⟩

end Sys2Proof.ChipFrames
end

section
/-! PROOFS. O16: the primitives of the bus transport, each with its effect under its precondition and its fault
without it. -/

namespace Sys2Proof.Machine

/-! ## Without the precondition (R140 to R142) -/

@[simp] theorem select_of_cs_true {o : Owner} {s : State} (h : s.cs = true) :
    select o s = .fault .selectWhileSelected := by
  simp [select, h]

@[simp] theorem deselect_of_cs_false {s : State} (h : s.cs = false) :
    deselect s = .fault .deselectWhileDeselected := by
  simp [deselect, h]

@[simp] theorem xfer_of_cs_false {out : Byte} {s : State} {k : Byte → State → Result} (h : s.cs = false) :
    xfer out s k = .fault .xferWhileDeselected := by
  simp [xfer, h]

/-! ## What an exchange changes (R140) -/

/-- An answer taken moves the free answers and nothing else. -/
theorem answered_eq (s : State) :
    answered s = { s with answers := (answered s).answers, draws := (answered s).draws } := by
  unfold answered
  split
  · rfl
  · rfl

theorem exchanged_eq (out : Byte) (s : State) :
    exchanged out s =
      { s with
        dev := s.dev.receive s.cfg out, answers := (answered s).answers, draws := (answered s).draws,
        trace := s.trace ++ [.x out (answer s)] } := by
  rw [exchanged, answered_eq]
  rfl

/-- The frame of an exchange: the chip, the free answers and the trace apart, the state is the one before. -/
theorem exchanged_unchanged (out : Byte) (s : State) :
    { exchanged out s with dev := s.dev, answers := s.answers, draws := s.draws, trace := s.trace } = s := by
  rw [exchanged_eq]

end Sys2Proof.Machine

namespace Sys2Proof.BusTransport

open Sys2Proof.Machine

/-- Settles O16: each primitive completes in its named successor (`opened`, `closed`, `exchanged`) exactly when
chip-select is as it requires; the lines and the delay have no precondition. -/
theorem busPrimitives : Obligations.BusPrimitives := by
  unfold Obligations.BusPrimitives
  refine ⟨?select, ?deselect, ?xfer, ?selectFault, ?deselectFault, ?xferFault, ?setWp, ?setRst, ?delayMs⟩
  case select => exact fun s o hcs => select_of_cs hcs
  case deselect => exact fun s hcs => deselect_of_cs hcs
  case xfer =>
    intro s out k hcs
    exact ⟨answer s, exchanged out s, xfer_of_cs hcs, exchanged_trace out s, exchanged_dev out s,
      exchanged_unchanged out s⟩
  case selectFault => exact fun s o hcs => select_of_cs_true hcs
  case deselectFault => exact fun s hcs => deselect_of_cs_false hcs
  case xferFault => exact fun s out k hcs => xfer_of_cs_false hcs
  case setWp => exact fun s b => rfl
  case setRst => exact fun s b => ⟨setRst_trace b s, setRst_rst b s, rfl⟩
  case delayMs => exact fun s ms => rfl

end Sys2Proof.BusTransport
end

section
/-! PROOFS. O1, O4: the address codec. The three bytes as numbers, the 24-bit address they make, and the two fields the
chip reads back when the offset is below 512; offset bits 15:9 are what spoils the page (R160 to R163). -/

namespace Sys2Proof.Machine

/-! ## The three bytes (R160) -/

theorem encodeAddr_a0_toNat (page offset : Word) :
    (encodeAddr page offset).a0.toNat = page.toNat / 128 % 256 := by
  simp [encodeAddr, Nat.shiftRight_eq_div_pow]

theorem encodeAddr_a1_toNat (page offset : Word) :
    (encodeAddr page offset).a1.toNat = (page.toNat * 2 ||| offset.toNat / 256) % 256 := by
  have hor (a b : Nat) : (a ||| b) % 256 = a % 256 ||| b % 256 := Nat.or_mod_two_pow (n := 8)
  simp [encodeAddr, Nat.shiftRight_eq_div_pow, Nat.shiftLeft_eq, hor]

theorem encodeAddr_a2_toNat (page offset : Word) :
    (encodeAddr page offset).a2.toNat = offset.toNat % 256 := by
  simp [encodeAddr]

/-- Below 512 the offset reaches bit 0 of `A[1]` only, which the shifted page leaves clear: the OR is a sum (R167). -/
theorem encodeAddr_a1_toNat_of_lt {offset : Word} (page : Word) (ho : offset.toNat < 512) :
    (encodeAddr page offset).a1.toNat = (page.toNat * 2 + offset.toNat / 256) % 256 := by
  have hbit : offset.toNat / 256 < 2 ^ 1 := by omega
  have hsum := Nat.shiftLeft_add_eq_or_of_lt hbit page.toNat
  rw [Nat.shiftLeft_eq, Nat.pow_one] at hsum
  rw [encodeAddr_a1_toNat, hsum]

theorem extractLsb'_ushiftRight (x : Word) (n start len : Nat) :
    (x >>> n).extractLsb' start len = x.extractLsb' (n + start) len := by
  ext i hi
  simp [Nat.add_assoc]

/-- Page bits 14:12 are the upper three bits of `A[0]` (R163). -/
theorem encodeAddr_a0_upper (page offset : Word) :
    (encodeAddr page offset).a0.extractLsb' 5 3 = page.extractLsb' 12 3 := by
  rw [encodeAddr, BitVec.extractLsb'_setWidth_of_le (by decide), extractLsb'_ushiftRight]

/-- Page bits 6:0 and offset bits 15:9 share the upper seven bits of `A[1]` (R163). -/
theorem encodeAddr_a1_upper (page offset : Word) :
    (encodeAddr page offset).a1.extractLsb' 1 7 = page.extractLsb' 0 7 ||| offset.extractLsb' 9 7 := by
  have hpage : (page <<< 1).extractLsb' 1 7 = page.extractLsb' 0 7 := by
    ext i hi
    have hkept : 1 + i < 16 := by omega
    simp [hkept, BitVec.getLsbD_eq_getElem (show i < 16 by omega)]
  rw [encodeAddr, BitVec.extractLsb'_setWidth_of_le (by decide), BitVec.extractLsb'_or, hpage,
    extractLsb'_ushiftRight]

/-- Page bit 15 is lost: `page >> 7` has nine bits and `A[0]` keeps eight (R163). -/
theorem encodeAddr_add_32768 (page offset : Word) :
    encodeAddr (page + 32768#16) offset = encodeAddr page offset := by
  have ha0 : ((page + 32768#16) >>> 7).setWidth 8 = (page >>> 7).setWidth 8 := by bv_omega
  have ha1 : (page + 32768#16) <<< 1 = page <<< 1 := by bv_omega
  rw [encodeAddr, encodeAddr, ha0, ha1]

/-! ## The 24-bit address and its fields (R65, R161, R163) -/

/-- The byte offset of an address, from its bytes (R65). -/
theorem addrOffset_eq (a : Addr) : addrOffset a = a.a1.toNat % 2 * 256 + a.a2.toNat := by
  have h2 := a.a2.isLt
  simp only [addrOffset, addrBits, BitVec.extractLsb'_toNat, BitVec.toNat_append, Nat.shiftRight_eq_div_pow]
  rw [← Nat.shiftLeft_add_eq_or_of_lt a.a1.isLt, ← Nat.shiftLeft_add_eq_or_of_lt h2]
  simp only [Nat.shiftLeft_eq]
  omega

/-- Address bits 23:21 are the upper three bits of `A[0]` (R65). -/
theorem addrBits_upper (a : Addr) : (addrBits a).extractLsb' 21 3 = a.a0.extractLsb' 5 3 := by
  rw [addrBits, BitVec.extractLsb'_append_eq_of_le (by decide), BitVec.extractLsb'_append_eq_of_le (by decide)]

/-- The page field reads the page back (R161). -/
theorem addrPage_encodeAddr {page offset : Word} (hp : page.toNat < totalPages) (ho : offset.toNat < 512) :
    addrPage (encodeAddr page offset) = page.toNat := by
  rw [addrPage_eq, encodeAddr_a0_toNat, encodeAddr_a1_toNat_of_lt page ho]
  simp only [totalPages] at hp
  omega

/-- The offset field reads any offset of nine bits back, also one that names no byte of a page (R163). -/
theorem addrOffset_encodeAddr {offset : Word} (page : Word) (ho : offset.toNat < 512) :
    addrOffset (encodeAddr page offset) = offset.toNat := by
  rw [addrOffset_eq, encodeAddr_a1_toNat_of_lt page ho, encodeAddr_a2_toNat]
  omega

end Sys2Proof.Machine

namespace Sys2Proof.AddressCodec

open Sys2Proof.Machine

/-- Settles O1: each byte of the encoding as a number, and the document's two examples evaluated. -/
theorem encodeAddrComponents : Obligations.EncodeAddrComponents := by
  unfold Obligations.EncodeAddrComponents
  refine ⟨fun page offset => ⟨?a0, ?a1, ?a2⟩, ?examples⟩
  case a0 => exact encodeAddr_a0_toNat page offset
  case a1 => exact encodeAddr_a1_toNat page offset
  case a2 => exact encodeAddr_a2_toNat page offset
  case examples => decide

/-- Settles O4: page bit 15 falls out of `A[0]`, page bits 14:12 are its upper three bits, offset bits 15:9 fall on the
page bits of `A[1]`; an offset below 512 has none of those bits, so both fields read back. -/
theorem encodeAddrAliases : Obligations.EncodeAddrAliases := by
  unfold Obligations.EncodeAddrAliases
  refine ⟨?wraps, ?pageBits, ?sharedBits, ?unnamedByte, ?examples⟩
  case wraps => exact encodeAddr_add_32768
  case pageBits => exact fun page offset => (addrBits_upper _).trans (encodeAddr_a0_upper page offset)
  case sharedBits => exact encodeAddr_a1_upper
  case unnamedByte =>
    exact fun page offset hp _ ho => ⟨addrPage_encodeAddr hp ho, addrOffset_encodeAddr page ho⟩
  case examples => decide

end Sys2Proof.AddressCodec
end

section
/-! PROOFS. O19, O40: the status read and the wait. One status read as four events and a frame; a wait is status reads
in a row, so its events and its frame follow by induction on the polls, and its run in the sequencer is `wait_run`. -/

namespace Sys2Proof.Machine

open Sys2Proof.Safety

/-! ## One status read (R170) -/

theorem statusFrameSent_cs (o : Owner) (s : State) : (statusFrameSent o s).cs = false := rfl

theorem statusFrameSent_cfg (o : Owner) (s : State) : (statusFrameSent o s).cfg = s.cfg := by
  simp [statusFrameSent]

theorem statusFrameSent_trace (o : Owner) (s : State) :
    (statusFrameSent o s).trace = s.trace ++ pollEvents s.cfg (answer (opened o s), (statusFrameSent o s).sr) := by
  simp [statusFrameSent, pollEvents]

/-- `t` with all that a status read may change taken from `s`, `own` apart. -/
def unpolled (s t : State) : State :=
  { t with sr := s.sr, dev := s.dev, answers := s.answers, draws := s.draws, trace := s.trace }

theorem unpolled_exchanged (s t : State) (out : Byte) : unpolled s (exchanged out t) = unpolled s t := by
  rw [exchanged_eq]
  rfl

theorem unpolled_statusFrameSent {s : State} (o : Owner) (hcs : s.cs = false) :
    unpolled s (statusFrameSent o s) = { s with own := .none } :=
  calc unpolled s (statusFrameSent o s)
    _ = { unpolled s (exchanged s.cfg.dummyOut (exchanged s.cfg.opReadStatus (opened o s))) with
          cs := false, own := .none } := by simp only [statusFrameSent]; rfl
    _ = { unpolled s (opened o s) with cs := false, own := .none } := by simp only [unpolled_exchanged]
    _ = { s with own := .none } := by rw [← hcs]; rfl

theorem unpolled_trans {s u t : State} (hu : unpolled s u = { s with own := .none })
    (ht : unpolled u t = { u with own := .none }) : unpolled s t = { s with own := .none } :=
  calc unpolled s t
    _ = unpolled s (unpolled u t) := rfl
    _ = { unpolled s u with own := .none } := by rw [ht]; rfl
    _ = { s with own := .none } := by rw [hu]

/-! ## The wait (R172) -/

theorem waitUntilReady_succ (polls : Nat) {s : State} (hcs : s.cs = false) :
    waitUntilReady (polls + 1) s =
      if readyBit (statusFrameSent .poll s).sr then some (statusFrameSent .poll s)
      else waitUntilReady polls (statusFrameSent .poll s) := by
  rw [waitUntilReady, execStatusRead_of_cs hcs]
  rfl

/-- A wait that ends began with a status read, which was the last if it answered ready. -/
theorem waitUntilReady_cases {polls : Nat} {s t : State} (hcs : s.cs = false)
    (hw : waitUntilReady (polls + 1) s = some t) :
    (readyBit (statusFrameSent .poll s).sr = true ∧ t = statusFrameSent .poll s) ∨
      (readyBit (statusFrameSent .poll s).sr = false ∧ waitUntilReady polls (statusFrameSent .poll s) = some t) := by
  rw [waitUntilReady_succ polls hcs] at hw
  split at hw
  next hready => exact .inl ⟨hready, (Option.some.inj hw).symm⟩
  next hbusy => exact .inr ⟨Bool.eq_false_of_not_eq_true hbusy, hw⟩

theorem waitUntilReady_events (polls : Nat) {s t : State} (hcs : s.cs = false)
    (hw : waitUntilReady polls s = some t) :
    ∃ (busy : List (Byte × Byte)) (a v : Byte), busy.length < polls ∧
      (∀ p ∈ busy, p.2.getLsbD 7 = false) ∧ v.getLsbD 7 = true ∧
      t.trace = s.trace ++ busy.flatMap (pollEvents s.cfg) ++ pollEvents s.cfg (a, v) ∧ t.sr = v := by
  induction polls generalizing s with
  | zero => cases hw
  | succ polls ih =>
    obtain ⟨hready, rfl⟩ | ⟨hbusy, hrest⟩ := waitUntilReady_cases hcs hw
    · exact ⟨[], _, _, by simp, by simp, hready, by simpa using statusFrameSent_trace .poll s, rfl⟩
    · obtain ⟨busy, a, v, hlen, hall, hv, htrace, hsr⟩ := ih (statusFrameSent_cs .poll s) hrest
      refine ⟨(answer (opened .poll s), (statusFrameSent .poll s).sr) :: busy, a, v, by simpa, ?_, hv, ?_, hsr⟩
      · exact List.forall_mem_cons.mpr ⟨hbusy, hall⟩
      · rw [htrace, statusFrameSent_trace, statusFrameSent_cfg]
        simp

theorem waitUntilReady_unchanged (polls : Nat) {s t : State} (hcs : s.cs = false)
    (hw : waitUntilReady polls s = some t) : unpolled s t = { s with own := .none } := by
  induction polls generalizing s with
  | zero => cases hw
  | succ polls ih =>
    have hfirst := unpolled_statusFrameSent .poll hcs
    obtain ⟨-, rfl⟩ | ⟨-, hrest⟩ := waitUntilReady_cases hcs hw
    · exact hfirst
    · exact unpolled_trans hfirst (ih (statusFrameSent_cs .poll s) hrest)

end Sys2Proof.Machine

namespace Sys2Proof.StatusPoller

open Sys2Proof.Machine Sys2Proof.Safety

/-- Settles O19: the status read leaves `statusFrameSent`, whose `sr` is the byte of its second exchange. -/
theorem statusReadResultAndFrame : Obligations.StatusReadResultAndFrame := by
  unfold Obligations.StatusReadResultAndFrame
  intro s hcs
  exact ⟨statusFrameSent .poll s, _, _, execStatusRead_of_cs hcs, statusFrameSent_trace .poll s, rfl, Iff.rfl,
    unpolled_statusFrameSent .poll hcs⟩

/-- Settles O40: events and frame by induction on the polls; the subroutine's run is `wait_run`, with `hret` kept because
the wait keeps it. -/
theorem waitIsPollsUntilReady : Obligations.WaitIsPollsUntilReady := by
  unfold Obligations.WaitIsPollsUntilReady
  intro polls s t r hcs hw
  have hframe := waitUntilReady_unchanged polls hcs hw
  refine ⟨waitUntilReady_events polls hcs hw, hframe, fun hmoves => ?_⟩
  have hhret : t.hret = s.hret := (congrArg State.hret hframe :)
  have hrun : Reaches (moved .pSel r s.hret s) (moved r r t.hret t) := by
    rw [hhret]
    exact (wait_run polls r s.hret hmoves hcs hw).1
  exact hrun

end Sys2Proof.StatusPoller
end

section
/-! PROOFS. O44: the erase of sector 0. The command's first state goes straight to `DONE`, and `DONE` undoes the two
fields that accepting the command has changed. -/

namespace Sys2Proof.Erase

open Sys2Proof.Machine Sys2Proof.Safety

variable {s : State}

/-- Accepting a command changes `BUSY` and `seq` alone, so `DONE` gives back the state at rest (R101, R302). -/
theorem goto_idle_notBusy_began (first : Seq) (hs : AtRest s) :
    goto .idle (notBusy (goto .done (began first s))) = s :=
  calc goto .idle (notBusy (goto .done (began first s)))
    _ = { s with busy := false, seq := .idle } := rfl
    _ = s := by rw [← hs.busy, ← hs.seq]

theorem step_began_es0_sectorZero (hs : AtRest s) (hzero : s.sector = 0#8) :
    step (began .es0 s) = .next (goto .done (began .es0 s)) := by
  have hrefused : sectorRefused (began .es0 s).sector = true := by simp [sectorRefused, began, hzero]
  rw [step_of_no_move (s := began .es0 s) hs.moves, seqStep_es0_refused rfl hrefused]

theorem step_done_began (first : Seq) (hs : AtRest s) : step (goto .done (began first s)) = .next s := by
  rw [step_of_no_move (s := goto .done (began first s)) hs.moves, seqStep_done rfl, goto_idle_notBusy_began first hs]

/-- Settles O44: the two silent steps are `ES0`, which finds `SECTOR = 0`, and `DONE`. -/
theorem sectorZeroRefusedSilently : Obligations.SectorZeroRefusedSilently := by
  unfold Obligations.SectorZeroRefusedSilently
  intro s hs hzero
  have haccepted : exec .eraseSector s = .next (began .es0 s) := NoLeftovers.accept_of_not_busy hs.busy
  have hrun : run 2 (began .es0 s) = .next s := by
    simp [run_succ, step_began_es0_sectorZero hs hzero, step_done_began .es0 hs]
  exact ⟨began .es0 s, haccepted, rfl, hrun⟩

end Sys2Proof.Erase
end

section
/-! PROOFS. O20: the identity read. Its four data bytes are four times the same operation, `idLatched`; the
events of a run of them are by induction on their number, and from `k = 0` four of them fill `ID[0..3]` in order. -/

namespace Sys2Proof.Machine

theorem idLatched_trace (s : State) :
    (idLatched s).trace = s.trace ++ [.x s.cfg.dummyOut (answer s)] := by
  simp [idLatched]

theorem idLatched_id (s : State) : (idLatched s).id = setIdByte s.id s.k.toNat (answer s) := by
  simp [idLatched]

theorem idLatched_k (s : State) : (idLatched s).k = s.k + 1 := by
  simp [idLatched]

/-- The recursion of `idsLatched` read from its end: the last byte is latched after all the others. -/
theorem idsLatched_succ_last (count : Nat) (s : State) :
    idsLatched (count + 1) s = idLatched (idsLatched count s) := by
  induction count generalizing s with
  | zero => rfl
  | succ count ih => exact ih (idLatched s)

@[simp] theorem idsLatched_cfg (count : Nat) (s : State) : (idsLatched count s).cfg = s.cfg :=
  idsLatched_keeps (P := fun t => t.cfg = s.cfg) (fun t ht => by simpa [idLatched] using ht) count rfl

/-- Each identity byte is one exchange of the dummy byte (R220). -/
theorem idsLatched_trace (count : Nat) (s : State) :
    (idsLatched count s).trace =
      s.trace ++ (List.range count).map fun j => .x s.cfg.dummyOut (answer (idsLatched j s)) := by
  induction count with
  | zero => simp [idsLatched]
  | succ count ih => simp [idsLatched_succ_last, idLatched_trace, ih, List.range_succ]

/-- Four bytes latched from `k = 0` are `ID[0..3]` in the order received (R220). -/
theorem idsLatched_four_id {s : State} (hk : s.k = 0) :
    (idsLatched 4 s).id =
      ⟨answer s, answer (idsLatched 1 s), answer (idsLatched 2 s), answer (idsLatched 3 s)⟩ := by
  simp only [idLatched_id, idLatched_k, idsLatched, hk]
  rfl

/-- The state of an identity read in which its first data byte is exchanged: opcode sent, `k` zero (R220). -/
def idOpened (s : State) : State :=
  startId (exchanged s.cfg.opReadId (opened .diagId s))

theorem idFrameSent_eq (s : State) : idFrameSent s = closed (idsLatched 4 (idOpened s)) := rfl

@[simp] theorem idOpened_k (s : State) : (idOpened s).k = 0 := rfl

@[simp] theorem idOpened_cfg (s : State) : (idOpened s).cfg = s.cfg := by
  simp [idOpened]

theorem idOpened_trace (s : State) :
    (idOpened s).trace = s.trace ++ [.sel, .x s.cfg.opReadId (answer (opened .diagId s))] := by
  simp [idOpened]

theorem idFrameSent_id (s : State) :
    (idFrameSent s).id =
      ⟨answer (idOpened s), answer (idsLatched 1 (idOpened s)), answer (idsLatched 2 (idOpened s)),
        answer (idsLatched 3 (idOpened s))⟩ :=
  idsLatched_four_id (idOpened_k s)

/-- The seven events, the four data bytes named by where `idFrameSent` latches them (R220). -/
theorem idFrameSent_trace (s : State) :
    (idFrameSent s).trace = s.trace ++
      [.sel, .x s.cfg.opReadId (answer (opened .diagId s)), .x s.cfg.dummyOut (idFrameSent s).id.b0,
        .x s.cfg.dummyOut (idFrameSent s).id.b1, .x s.cfg.dummyOut (idFrameSent s).id.b2,
        .x s.cfg.dummyOut (idFrameSent s).id.b3, .des] := by
  rw [idFrameSent_id, idFrameSent_eq, closed_trace, idsLatched_trace, idOpened_trace]
  simp [List.range_succ, idsLatched]

/-- `t` with all that an identity read may change taken from `s`, `own` apart. -/
def unidentified (s t : State) : State :=
  { t with id := s.id, k := s.k, dev := s.dev, answers := s.answers, draws := s.draws, trace := s.trace }

theorem unidentified_exchanged (s t : State) (out : Byte) :
    unidentified s (exchanged out t) = unidentified s t := by
  rw [exchanged_eq]
  rfl

theorem unidentified_idLatched (s t : State) : unidentified s (idLatched t) = unidentified s t :=
  unidentified_exchanged s t t.cfg.dummyOut

theorem unidentified_idsLatched (count : Nat) (s t : State) :
    unidentified s (idsLatched count t) = unidentified s t :=
  idsLatched_keeps (P := fun u => unidentified s u = unidentified s t)
    (fun u hu => (unidentified_idLatched s u).trans hu) count rfl

theorem unidentified_idOpened (s : State) : unidentified s (idOpened s) = unidentified s (opened .diagId s) :=
  unidentified_exchanged s (opened .diagId s) s.cfg.opReadId

theorem unidentified_idFrameSent {s : State} (hcs : s.cs = false) :
    unidentified s (idFrameSent s) = { s with own := .none } :=
  calc unidentified s (idFrameSent s)
    _ = { unidentified s (idsLatched 4 (idOpened s)) with cs := false, own := .none } := by
        rw [idFrameSent_eq]; rfl
    _ = { unidentified s (opened .diagId s) with cs := false, own := .none } := by
        rw [unidentified_idsLatched, unidentified_idOpened]
    _ = { s with own := .none } := by rw [← hcs]; rfl

end Sys2Proof.Machine

namespace Sys2Proof.Diagnostics

open Sys2Proof.Machine

/-- Settles O20: the identity read leaves `idFrameSent`, whose `ID[0..3]` are the bytes of its last four exchanges. -/
theorem idReadResultAndFrame : Obligations.IdReadResultAndFrame := by
  unfold Obligations.IdReadResultAndFrame
  intro s hcs
  exact ⟨idFrameSent s, _, _, _, _, _, execIdRead_of_cs hcs, idFrameSent_trace s, rfl, unidentified_idFrameSent hcs⟩

end Sys2Proof.Diagnostics
end

section
/-! PROOFS. O37, O39: the rows of WRITE, INIT and DIAGNOSE. The laws of `seqStep` name the state each row leaves; what
is left is to write those states, and the rows' conditions, as R305, R308 and R310 do. -/

namespace Sys2Proof.Machine

variable {s : State}

/-- The length of a chunk as R308 writes it. -/
theorem chunkLength_eq_min (rem : Word) : chunkLength rem = BitVec.ofNat 16 (min rem.toNat 264) := by
  unfold chunkLength pageSize
  split
  next h => rw [min_eq_left h, BitVec.ofNat_toNat, BitVec.setWidth_eq]
  next h => rw [min_eq_right (Nat.le_of_not_le h)]

theorem filled_eq (s : State) :
    filled s =
      { exchanged (hostByte s (s.idx + s.cnt)) (memRead (s.idx + s.cnt) s) with cnt := s.cnt + 1 } := by
  simp [filled, countByte]

theorem idLatched_eq (s : State) :
    idLatched s =
      { exchanged s.cfg.dummyOut s with id := setIdByte s.id s.k.toNat (answer s), k := s.k + 1 } := by
  simp [idLatched, latchId]

theorem diagResult_eq_true_iff (c : Cfg) (b : IdBytes) (sr : Byte) :
    diagResult c b sr = true ↔
      b.b0 = c.sig0 ∧ b.b1 = c.sig1 ∧ b.b2 = c.sig2 ∧ sr &&& c.statusMask = c.statusExpect := by
  simp [diagResult, idMatches, statusMatches, and_assoc]

end Sys2Proof.Machine

namespace Sys2Proof.Sequencer

open Sys2Proof.Machine

/-- Settles O37: every row is the law of its state; the chunk's length and the fill's data byte are rewritten. -/
theorem writeTable : Obligations.WriteTable := by
  unfold Obligations.WriteTable
  intro s hmoves
  rw [step_of_no_move hmoves]
  refine ⟨seqStep_w0, ?chunk, seqStep_w1_ended, seqStep_w2, ?fill, seqStep_w3_ended, seqStep_w4, seqStep_w5,
    seqStep_w6⟩
  case chunk =>
    intro hq hrem
    have hne : s.rem ≠ 0#16 := fun h => by simp [h] at hrem
    rw [seqStep_w1 hq hne, ← chunkLength_eq_min]
    rfl
  case fill =>
    intro hq hcs hcnt
    refine ⟨_, ?_, rfl⟩
    rw [seqStep_w3 hq hcs hcnt, filled_eq]
    rfl

/-- Settles O39: every row is the law of its state; only the chip is left open where the reset line moves. -/
theorem initAndDiagnoseTables : Obligations.InitAndDiagnoseTables := by
  unfold Obligations.InitAndDiagnoseTables
  intro s hmoves
  rw [step_of_no_move hmoves]
  refine ⟨seqStep_iWp, ?assert, seqStep_iDly, ?deassert, ?select, seqStep_g1, ?identity, seqStep_g4, seqStep_g5,
    ?deselect, ?verdict⟩
  case assert => exact fun hq => ⟨_, seqStep_iRst1 hq, rfl⟩
  case deassert => exact fun hq => ⟨_, seqStep_iRst0 hq, rfl⟩
  case select =>
    rintro o r (⟨hq, rfl, rfl⟩ | ⟨hq, rfl, rfl⟩) hcs
    · exact seqStep_g0 hq hcs
    · exact seqStep_g3 hq hcs
  case identity =>
    intro hq hcs hk
    rw [seqStep_g2 hq hcs hk, idLatched_eq]
  case deselect =>
    rintro r (⟨hq, hk, rfl⟩ | ⟨hq, rfl⟩) hcs
    · exact seqStep_g2_ended hq hcs hk
    · exact seqStep_g6 hq hcs
  case verdict => exact fun hq => ⟨_, seqStep_g7 hq, diagResult_eq_true_iff s.cfg s.id s.sr, rfl⟩

end Sys2Proof.Sequencer
end

section
/-! PROOFS. O58: while a command runs, a host step that completes is a read of `STATUS` or an access to the host buffer,
no frame move completes, and the chip's own move is the chip's. -/

namespace Sys2Proof.Machine

variable {s t : State}

theorem whenIdle_of_busy (h : s.busy = true) (r : Result) : whenIdle s r = .refused .hostAccessWhileBusy := by
  simp [whenIdle, h]

theorem frameMove_of_busy (h : s.busy = true) (bytes : List Byte) :
    frameMove bytes s = .refused .busRequestWhileBusy := by
  simp [frameMove, h]

theorem readRegister_statusNumber (s : State) :
    readRegister statusNumber s = .next (recordRead (.reg 5 ((statusRegister s).setWidth 16)) s) := rfl

/-- What a host step can do while a command runs (R31, R77). -/
theorem hostStep_cases_of_busy {op : HostOp} (h : s.busy = true) (hstep : hostStep op s = .next t) :
    (∃ v, t = recordRead (.reg 5 v) s) ∨ (∃ i v, t = loadBuffer i v s) ∨ ∃ i, t = readBuffer i s := by
  cases op with
  | write number v =>
    rw [hostStep, whenIdle_of_busy h] at hstep
    cases hstep
  | read number =>
    by_cases hn : number = statusNumber
    · rw [hostStep, if_pos hn, hn, readRegister_statusNumber] at hstep
      cases hstep
      exact .inl ⟨_, rfl⟩
    · rw [hostStep, if_neg hn, whenIdle_of_busy h] at hstep
      cases hstep
  | bufWrite i v =>
    cases hstep
    exact .inr (.inl ⟨i, v, rfl⟩)
  | bufRead i =>
    cases hstep
    exact .inr (.inr ⟨i, rfl⟩)

/-- `t` with the chip, the host's buffer, the moves, the record of reads and the free answers of `s`: the controller's
registers and lines, and the trace, are `t`'s own. -/
def inSurroundingsOf (s t : State) : State :=
  { t with
    dev := s.dev, hbuf := s.hbuf, moves := s.moves, reads := s.reads, answers := s.answers, draws := s.draws }

theorem inSurroundingsOf_readBuffer (s t : State) (i : Word) :
    inSurroundingsOf s (readBuffer i t) = inSurroundingsOf s t := by
  unfold readBuffer
  split
  · rfl
  · rfl

theorem inSurroundingsOf_hostStep {u : State} {op : HostOp} (s : State) (h : t.busy = true)
    (hstep : hostStep op t = .next u) : inSurroundingsOf s u = inSurroundingsOf s t := by
  obtain ⟨v, rfl⟩ | ⟨i, v, rfl⟩ | ⟨i, rfl⟩ := hostStep_cases_of_busy h hstep
  · rfl
  · rfl
  · exact inSurroundingsOf_readBuffer s t i

end Sys2Proof.Machine

namespace Sys2Proof.Sequencer

open Sys2Proof.Machine

/-- Settles O58, by the kinds of moves. -/
theorem nothingCancelsACommand : Obligations.NothingCancelsACommand := by
  unfold Obligations.NothingCancelsACommand
  intro s t m rest hbusy hmoves hcontroller hreset hstep
  rw [step_of_move hmoves] at hstep
  show inSurroundingsOf s t = inSurroundingsOf s (takeMove rest s)
  have hbusy' : (takeMove rest s).busy = true := hbusy
  cases m with
  | controller => exact absurd rfl hcontroller
  | reset => exact absurd rfl hreset
  | chipReady =>
    cases hstep
    rfl
  | host op => exact inSurroundingsOf_hostStep s hbusy' hstep
  | frame bytes =>
    rw [runMove, frameMove_of_busy hbusy'] at hstep
    cases hstep

end Sys2Proof.Sequencer
end

section
/-! PROOFS. O17, O18, O22, O23, O25: what a whole frame sends and what it changes of the controller. `unsent` takes away
what every frame changes; the loops of a data phase add their events and their count to that. -/

namespace Sys2Proof.Machine

open Sys2Proof.Safety

/-! ## What a frame changes of the controller (R148) -/

/-- `t` with all that a header may change taken from `s`, the bus itself (`cs`, `own`) apart. -/
def unsent (s t : State) : State :=
  { t with cop := s.cop, addr := s.addr, dev := s.dev, answers := s.answers, draws := s.draws, trace := s.trace }

theorem unsent_exchanged (s t : State) (out : Byte) : unsent s (exchanged out t) = unsent s t := by
  rw [exchanged_eq]
  rfl

theorem unsent_countByte_exchanged (s t : State) (out : Byte) :
    unsent s (countByte (exchanged out t)) = { unsent s t with cnt := t.cnt + 1 } := by
  rw [exchanged_eq]
  rfl

theorem unsent_headerSent (op : Byte) (a : Addr) (o : Owner) (s : State) :
    unsent s (headerSent op a o s) = { s with cs := true, own := o } := by
  simp only [headerSent, unsent_exchanged]
  rfl

theorem word_add_one_add (x : Word) (n : Nat) : x + 1 + BitVec.ofNat 16 n = x + BitVec.ofNat 16 (n + 1) := by
  bv_omega

theorem unsent_fills (bs : List Byte) (s t : State) :
    unsent s (fills bs t) = { unsent s t with cnt := t.cnt + BitVec.ofNat 16 bs.length } := by
  induction bs generalizing t with
  | nil => simp [fills, unsent]
  | cons b bs ih =>
    rw [fills, ih, unsent_countByte_exchanged, countByte_cnt, exchanged_cnt, word_add_one_add]
    rfl

theorem unsent_dummies (count : Nat) (s t : State) :
    unsent s (dummies count t) = { unsent s t with cnt := t.cnt + BitVec.ofNat 16 count } := by
  induction count generalizing t with
  | zero => simp [dummies, unsent]
  | succ count ih =>
    rw [dummies, ih, unsent_countByte_exchanged, countByte_cnt, exchanged_cnt, word_add_one_add]

/-- A read session changes the counter and the host buffer. -/
theorem unsent_readMany (count : Nat) (s t : State) :
    unsent s (readMany count t) =
      { unsent s t with cnt := t.cnt + BitVec.ofNat 16 count, hbuf := (readMany count t).hbuf } := by
  induction count generalizing t with
  | zero => simp [readMany, unsent]
  | succ count ih =>
    have hone : unsent s (readOne t) = { unsent s t with cnt := t.cnt + 1, hbuf := (readOne t).hbuf } := by
      rw [readOne, exchanged_eq]
      rfl
    rw [readMany, ih, hone, readOne_cnt, word_add_one_add]

theorem unsent_closed (s t : State) : unsent s (closed t) = { unsent s t with cs := false, own := .none } := rfl

theorem unsent_addressFrameSent {s : State} (op : Byte) (a : Addr) (o : Owner) (hcs : s.cs = false) :
    unsent s (addressFrameSent op a o s) = { s with own := .none } := by
  rw [addressFrameSent, unsent_closed, unsent_headerSent, ← hcs]

theorem unsent_fillFrameSent {s : State} (a : Addr) (data : List Byte) (hcs : s.cs = false) :
    unsent s (fillFrameSent a data s) = { s with own := .none, cnt := BitVec.ofNat 16 data.length } := by
  have hheader : unsent s (headerSent s.cfg.opBuf1Write a .fill (startCount s)) =
      { s with cs := true, own := .fill, cnt := 0 } :=
    unsent_headerSent s.cfg.opBuf1Write a .fill (startCount s)
  rw [fillFrameSent, unsent_closed, unsent_fills, hheader, headerSent_cnt, startCount_cnt, ← hcs]
  simp

theorem unsent_readFrameSent {s : State} (a : Addr) (size : Word) (hcs : s.cs = false) :
    unsent s (readFrameSent a size s) =
      { s with own := .none, cnt := size, hbuf := (readFrameSent a size s).hbuf } := by
  have hheader : unsent s (headerSent s.cfg.opArrayRead a .read (startCount s)) =
      { s with cs := true, own := .read, cnt := 0 } :=
    unsent_headerSent s.cfg.opArrayRead a .read (startCount s)
  have hopened : unsent s (readOpened a s) = { s with cs := true, own := .read, cnt := 0 } :=
    calc unsent s (readOpened a s)
      _ = { unsent s (dummies s.cfg.nReadDummy (headerSent s.cfg.opArrayRead a .read (startCount s))) with
            cnt := 0 } := rfl
      _ = _ := by rw [unsent_dummies, hheader]
  rw [readFrameSent_eq, unsent_closed, unsent_readMany, hopened, readOpened_cnt, closed_hbuf, ← hcs]
  simp

/-! ## The events of a frame (R150, R191, R210, R211) -/

theorem headerSent_trace (op : Byte) (a : Addr) (o : Owner) (s : State) :
    ∃ b0 b1 b2 b3 : Byte, (headerSent op a o s).trace =
      s.trace ++ [.sel, .x op b0, .x a.a0 b1, .x a.a1 b2, .x a.a2 b3] := by
  simp only [headerSent, exchanged_trace, opened_trace, sending_trace, List.append_assoc]
  exact ⟨_, _, _, _, rfl⟩

theorem fills_trace (bs : List Byte) (s : State) :
    ∃ inps : List Byte, inps.length = bs.length ∧ (fills bs s).trace = s.trace ++ List.zipWith Event.x bs inps := by
  induction bs generalizing s with
  | nil => exact ⟨[], rfl, (List.append_nil _).symm⟩
  | cons b bs ih =>
    obtain ⟨inps, hlen, htrace⟩ := ih (countByte (exchanged b s))
    exact ⟨answer s :: inps, by simp [hlen], by simp [fills, htrace]⟩

theorem dummies_trace (count : Nat) (s : State) :
    ∃ discarded : List Byte, discarded.length = count ∧
      (dummies count s).trace = s.trace ++ discarded.map (fun v => .x s.cfg.dummyOut v) := by
  induction count generalizing s with
  | zero => exact ⟨[], rfl, (List.append_nil _).symm⟩
  | succ count ih =>
    obtain ⟨discarded, hlen, htrace⟩ := ih (countByte (exchanged s.cfg.dummyOut s))
    exact ⟨answer s :: discarded, by simp [hlen], by simp [dummies, htrace]⟩

/-- The two events of a data byte of an array read, with the index it goes to (R211). -/
def readByteEvents (dummyOut : Byte) (v : Byte × Nat) : List Event :=
  [.x dummyOut v.1, .hwr (BitVec.ofNat 16 v.2) v.1]

/-- The kept bytes come each with its two events, and stand in the host buffer at the end. -/
theorem readMany_trace (count : Nat) {s : State} (hcount : s.cnt.toNat + count < 65536) :
    ∃ kept : List Byte, kept.length = count ∧
      (readMany count s).trace =
        s.trace ++ (kept.zipIdx s.cnt.toNat).flatMap (readByteEvents s.cfg.dummyOut) ∧
      ∀ i v, kept[i]? = some v → hostByte (readMany count s) (BitVec.ofNat 16 (s.cnt.toNat + i)) = v := by
  induction count generalizing s with
  | zero => exact ⟨[], rfl, (List.append_nil _).symm, by simp⟩
  | succ count ih =>
    have hcnt := readOne_cnt_toNat (s := s) (by omega)
    obtain ⟨kept, hlen, htrace, hkept⟩ := ih (s := readOne s) (by omega)
    refine ⟨answer s :: kept, by simp [hlen], ?_, fun i v hv => ?_⟩
    · rw [readMany, htrace, hcnt, readOne_cfg]
      simp [readOne, readByteEvents]
    · cases i with
      | zero =>
        have hself : BitVec.ofNat 16 (s.cnt.toNat + 0) = s.cnt := by simp
        rw [readMany, hself, hostByte_readMany_of_lt count (by omega) (by omega), hostByte_readOne_same]
        simpa using hv
      | succ i =>
        have hplace : s.cnt.toNat + (i + 1) = (readOne s).cnt.toNat + i := by omega
        rw [readMany, hplace]
        exact hkept i v (by simpa using hv)

/-- A read session stores below its last counter only. -/
theorem hostByte_readMany_of_ge (count : Nat) {s : State} {i : Word} (hi : s.cnt.toNat + count ≤ i.toNat) :
    hostByte (readMany count s) i = hostByte s i := by
  induction count generalizing s with
  | zero => rfl
  | succ count ih =>
    have hlt := i.isLt
    have hcnt := readOne_cnt_toNat (s := s) (by omega)
    rw [readMany, ih (by omega), hostByte_readOne_other (by rintro rfl; omega)]

theorem readOpened_hostByte (a : Addr) (s : State) (i : Word) : hostByte (readOpened a s) i = hostByte s i := by
  have hdummies (count : Nat) (t : State) : (dummies count t).hbuf = t.hbuf :=
    dummies_keeps (P := fun u => u.hbuf = t.hbuf) (fun _ _ h => by simpa using h) count rfl
  simp [hostByte, readOpened, hdummies]

theorem readOpened_trace (a : Addr) (s : State) :
    ∃ (b0 b1 b2 b3 : Byte) (discarded : List Byte), discarded.length = s.cfg.nReadDummy ∧
      (readOpened a s).trace = s.trace ++ [.sel, .x s.cfg.opArrayRead b0, .x a.a0 b1, .x a.a1 b2, .x a.a2 b3] ++
        discarded.map (fun v => .x s.cfg.dummyOut v) := by
  obtain ⟨b0, b1, b2, b3, hheader⟩ := headerSent_trace s.cfg.opArrayRead a .read (startCount s)
  obtain ⟨discarded, hlen, hdummies⟩ :=
    dummies_trace s.cfg.nReadDummy (headerSent s.cfg.opArrayRead a .read (startCount s))
  refine ⟨b0, b1, b2, b3, discarded, hlen, ?_⟩
  rw [readOpened, startCount_trace, hdummies, hheader]
  simp

/-- The state in which the data bytes of a buffer write begin (R190). -/
def fillOpened (a : Addr) (s : State) : State :=
  headerSent s.cfg.opBuf1Write a .fill (startCount s)

theorem fillFrameSent_eq (a : Addr) (data : List Byte) (s : State) :
    fillFrameSent a data s = closed (fills data (fillOpened a s)) := rfl

theorem unanswered_fillBytes {data inps : List Byte} (hlen : inps.length = data.length) :
    (List.zipWith Event.x data inps).map unanswered = data.map fun b => .x b 0 := by
  induction data generalizing inps with
  | nil => simp
  | cons b data ih =>
    obtain ⟨inp, inps, rfl⟩ := List.exists_cons_of_length_eq_add_one hlen
    simp [unanswered, ih (by simpa using hlen)]

/-! ## What the controller sends in a transaction (R104) -/

/-- An event that belongs inside a transaction (R143). -/
def isData : Event → Bool
  | .x _ _ | .hrd _ _ | .hwr _ _ => true
  | .sel | .des | .wp _ | .rst _ | .delay _ => false

/-- Events inside one transaction that send exactly these bytes, one coming back for each. -/
structure Sends (inside : List Event) (bytes : List Byte) : Prop where
  data : ∀ e ∈ inside, isData e = true
  sent : sentBytes inside = bytes
  received : (receivedBytes inside).length = bytes.length

theorem Sends.nil : Sends [] [] := by
  constructor <;> simp [sentBytes, receivedBytes]

theorem Sends.x (out inp : Byte) : Sends [.x out inp] [out] := by
  constructor <;> simp [sentBytes, receivedBytes, isData]

theorem Sends.append {events events' : List Event} {bytes bytes' : List Byte} (h : Sends events bytes)
    (h' : Sends events' bytes') : Sends (events ++ events') (bytes ++ bytes') where
  data := List.forall_mem_append.mpr ⟨h.data, h'.data⟩
  sent := by rw [← h.sent, ← h'.sent, sentBytes, List.filterMap_append]; rfl
  received := by
    rw [List.length_append, ← h.received, ← h'.received, receivedBytes, List.filterMap_append,
      List.length_append]
    rfl

theorem sends_address (b0 b1 b2 : Byte) (a : Addr) : Sends [.x a.a0 b0, .x a.a1 b1, .x a.a2 b2] a.bytes :=
  ((Sends.x a.a0 b0).append (.x a.a1 b1)).append (.x a.a2 b2)

theorem sends_zipWith {data inps : List Byte} (hlen : inps.length = data.length) :
    Sends (List.zipWith Event.x data inps) data := by
  induction data generalizing inps with
  | nil => simpa using Sends.nil
  | cons b data ih =>
    obtain ⟨inp, inps, rfl⟩ := List.exists_cons_of_length_eq_add_one hlen
    exact (Sends.x b inp).append (ih (by simpa using hlen))

theorem sends_dummies (dummyOut : Byte) (discarded : List Byte) :
    Sends (discarded.map fun v => .x dummyOut v) (List.replicate discarded.length dummyOut) := by
  induction discarded with
  | nil => exact Sends.nil
  | cons v discarded ih => exact (Sends.x dummyOut v).append ih

theorem sends_readBytes (dummyOut : Byte) (kept : List (Byte × Nat)) :
    Sends (kept.flatMap (readByteEvents dummyOut)) (List.replicate kept.length dummyOut) := by
  have hone (v : Byte × Nat) : Sends (readByteEvents dummyOut v) [dummyOut] := by
    constructor <;> simp [readByteEvents, sentBytes, receivedBytes, isData]
  induction kept with
  | nil => exact Sends.nil
  | cons v kept ih => exact (hone v).append ih

/-- The second state is the first after one whole transaction of an opcode and these bytes (R105). -/
def Transacted (s t : State) (op : Byte) (bytes : List Byte) : Prop :=
  ∃ (inp : Byte) (inside : List Event), t.trace = s.trace ++ .sel :: .x op inp :: inside ++ [.des] ∧
    Sends inside bytes ∧ t.cs = false ∧ t.own = .none

theorem transacted_closed {s u : State} {op inp : Byte} {inside : List Event} {bytes : List Byte}
    (hsends : Sends inside bytes) (htrace : u.trace = s.trace ++ .sel :: .x op inp :: inside) :
    Transacted s (closed u) op bytes :=
  ⟨inp, inside, by rw [closed_trace, htrace], hsends, rfl, rfl⟩

theorem transacted_statusFrameSent (o : Owner) (s : State) :
    Transacted s (statusFrameSent o s) s.cfg.opReadStatus [s.cfg.dummyOut] :=
  transacted_closed (.x _ _) (by simp; exact ⟨rfl, rfl⟩)

theorem transacted_idFrameSent (s : State) :
    Transacted s (idFrameSent s) s.cfg.opReadId (List.replicate 4 s.cfg.dummyOut) := by
  have hsends := sends_dummies s.cfg.dummyOut ((List.range 4).map fun j => answer (idsLatched j (idOpened s)))
  rw [idFrameSent_eq]
  refine transacted_closed (inp := answer (opened .diagId s)) hsends ?_
  rw [idsLatched_trace, idOpened_trace, idOpened_cfg, List.map_map, List.append_assoc]
  rfl

theorem transacted_addressFrameSent (op : Byte) (a : Addr) (o : Owner) (s : State) :
    Transacted s (addressFrameSent op a o s) op a.bytes := by
  obtain ⟨b0, b1, b2, b3, htrace⟩ := headerSent_trace op a o s
  exact transacted_closed (sends_address b1 b2 b3 a) htrace

theorem transacted_fillFrameSent (a : Addr) (data : List Byte) (s : State) :
    Transacted s (fillFrameSent a data s) s.cfg.opBuf1Write (a.bytes ++ data) := by
  obtain ⟨b0, b1, b2, b3, hheader⟩ := headerSent_trace s.cfg.opBuf1Write a .fill (startCount s)
  obtain ⟨inps, hlen, hfill⟩ := fills_trace data (fillOpened a s)
  rw [fillFrameSent_eq]
  refine transacted_closed (inp := b0) ((sends_address b1 b2 b3 a).append (sends_zipWith hlen)) ?_
  rw [hfill, fillOpened, hheader]
  simp

theorem transacted_readFrameSent (a : Addr) (size : Word) (s : State) :
    Transacted s (readFrameSent a size s) s.cfg.opArrayRead
      (a.bytes ++ List.replicate (s.cfg.nReadDummy + size.toNat) s.cfg.dummyOut) := by
  obtain ⟨b0, b1, b2, b3, discarded, hlen, hopened⟩ := readOpened_trace a s
  obtain ⟨kept, hkept, hread, -⟩ := readMany_trace size.toNat (s := readOpened a s) (by simpa using size.isLt)
  have hsends := (sends_address b1 b2 b3 a).append ((sends_dummies s.cfg.dummyOut discarded).append
    (sends_readBytes s.cfg.dummyOut (kept.zipIdx (readOpened a s).cnt.toNat)))
  rw [hlen, List.length_zipIdx, hkept, List.replicate_append_replicate] at hsends
  rw [readFrameSent_eq]
  refine transacted_closed (inp := b0) hsends ?_
  rw [hread, hopened, readOpened_cfg]
  simp

end Sys2Proof.Machine

namespace Sys2Proof.WholeFrames

open Sys2Proof.Machine Sys2Proof.Safety

/-- Settles O17: the header leaves `headerSent`. -/
theorem headerSendsOpcodeAndAddress : Obligations.HeaderSendsOpcodeAndAddress := by
  unfold Obligations.HeaderSendsOpcodeAndAddress
  intro s op a o hcs
  obtain ⟨b0, b1, b2, b3, htrace⟩ := headerSent_trace op a o s
  refine ⟨headerSent op a o s, b0, b1, b2, b3, header_of_cs hcs, htrace, by simp, by simp, by simp, by simp, ?_⟩
  show { unsent s (headerSent op a o s) with cs := s.cs, own := s.own } = s
  rw [unsent_headerSent]

/-- Settles O22: the three frames are one `addressFrameSent`, the header and `DES`. -/
theorem addressFrameEventsAndFrame : Obligations.AddressFrameEventsAndFrame := by
  unfold Obligations.AddressFrameEventsAndFrame
  intro s a i op hcs hi
  have hexec : ∃ o, exec i s = .next (addressFrameSent op a o s) := by
    simp only [List.mem_cons, Prod.mk.injEq, List.not_mem_nil, or_false] at hi
    obtain ⟨rfl, rfl⟩ | ⟨rfl, rfl⟩ | ⟨rfl, rfl⟩ := hi
    · exact ⟨.erase, addressFrame_of_cs hcs⟩
    · exact ⟨.erase, addressFrame_of_cs hcs⟩
    · exact ⟨.commit, addressFrame_of_cs hcs⟩
  obtain ⟨o, hnext⟩ := hexec
  obtain ⟨b0, b1, b2, b3, htrace⟩ := headerSent_trace op a o s
  exact ⟨addressFrameSent op a o s, b0, b1, b2, b3, hnext, by simp [addressFrameSent, htrace],
    by simp [addressFrameSent], by simp [addressFrameSent], unsent_addressFrameSent op a o hcs⟩

/-- Settles O23: the header, then the data bytes by induction on them. -/
theorem bufferWriteEventsAndFrame : Obligations.BufferWriteEventsAndFrame := by
  unfold Obligations.BufferWriteEventsAndFrame
  intro s a data hcs
  have hframe := unsent_fillFrameSent a data hcs
  obtain ⟨b0, b1, b2, b3, hheader⟩ := headerSent_trace s.cfg.opBuf1Write a .fill (startCount s)
  obtain ⟨inps, hlen, hfill⟩ := fills_trace data (fillOpened a s)
  have hcop (t : State) : (fills data t).cop = t.cop :=
    fills_keeps (P := fun u => u.cop = t.cop) (fun _ _ h => by simpa using h) data rfl
  have haddr (t : State) : (fills data t).addr = t.addr :=
    fills_keeps (P := fun u => u.addr = t.addr) (fun _ _ h => by simpa using h) data rfl
  refine ⟨fillFrameSent a data s,
    [.sel, .x s.cfg.opBuf1Write b0, .x a.a0 b1, .x a.a1 b2, .x a.a2 b3] ++ List.zipWith Event.x data inps ++ [.des],
    execBuf1Write_of_cs hcs, ?trace, ?events, by simp [fillFrameSent, hcop], by simp [fillFrameSent, haddr],
    congrArg State.cnt hframe, ?frame⟩
  case trace =>
    rw [fillFrameSent_eq, closed_trace, hfill, fillOpened, hheader]
    simp
  case events =>
    rw [List.map_append, List.map_append, unanswered_fillBytes hlen]
    rfl
  case frame =>
    show { unsent s (fillFrameSent a data s) with cnt := s.cnt } = { s with own := .none }
    rw [hframe]

/-- Settles O25: the header, the dummies, and the data bytes by induction on their number. -/
theorem arrayReadEventsAndFrame : Obligations.ArrayReadEventsAndFrame := by
  unfold Obligations.ArrayReadEventsAndFrame
  intro s a size hcs
  have hframe := unsent_readFrameSent a size hcs
  obtain ⟨b0, b1, b2, b3, discarded, hlen, hopened⟩ := readOpened_trace a s
  obtain ⟨kept, hkept, hread, hbytes⟩ := readMany_trace size.toNat (s := readOpened a s) (by simpa using size.isLt)
  have hcop (count : Nat) (t : State) : (readMany count t).cop = t.cop :=
    readMany_keeps (P := fun u => u.cop = t.cop) (fun _ h => by simpa [readOne] using h) count rfl
  have haddr (count : Nat) (t : State) : (readMany count t).addr = t.addr :=
    readMany_keeps (P := fun u => u.addr = t.addr) (fun _ h => by simpa [readOne] using h) count rfl
  have hdcop (count : Nat) (t : State) : (dummies count t).cop = t.cop :=
    dummies_keeps (P := fun u => u.cop = t.cop) (fun _ _ h => by simpa using h) count rfl
  have hdaddr (count : Nat) (t : State) : (dummies count t).addr = t.addr :=
    dummies_keeps (P := fun u => u.addr = t.addr) (fun _ _ h => by simpa using h) count rfl
  refine ⟨readFrameSent a size s, b0, b1, b2, b3, discarded, kept, execArrayRead_of_cs hcs, hlen, hkept, ?trace,
    ?stored, ?others, by simp [readFrameSent, hcop, hdcop], by simp [readFrameSent, haddr, hdaddr],
    congrArg State.cnt hframe, ?frame⟩
  case trace =>
    rw [readFrameSent_eq, closed_trace, hread, hopened, readOpened_cfg]
    rfl
  case stored =>
    intro i v hv
    simpa [hostByte, readFrameSent_eq] using hbytes i v hv
  case others =>
    intro i hi
    have hkeep := hostByte_readMany_of_ge size.toNat (s := readOpened a s) (i := i) (by simpa using hi)
    rw [readOpened_hostByte] at hkeep
    exact hkeep
  case frame =>
    show { unsent s (readFrameSent a size s) with cnt := s.cnt, hbuf := s.hbuf } = { s with own := .none }
    rw [hframe]

/-- Settles O18: each of the seven frames is `Transacted` with its encoding. -/
theorem frameSendsItsEncoding : Obligations.FrameSendsItsEncoding := by
  unfold Obligations.FrameSendsItsEncoding
  intro s i bytes hcs hi hbytes
  have hsent : ∃ t op rest, exec i s = .next t ∧ bytes = op :: rest ∧ Transacted s t op rest := by
    obtain rfl | rfl | ⟨a, rfl⟩ | ⟨a, rfl⟩ | ⟨a, data, rfl⟩ | ⟨a, rfl⟩ | ⟨a, size, rfl⟩ := hi <;>
      obtain rfl := Code.frame.inj hbytes
    · exact ⟨_, _, _, execStatusRead_of_cs hcs, rfl, transacted_statusFrameSent .poll s⟩
    · exact ⟨_, _, _, execIdRead_of_cs hcs, rfl, transacted_idFrameSent s⟩
    · exact ⟨_, _, _, addressFrame_of_cs hcs, rfl, transacted_addressFrameSent _ a .erase s⟩
    · exact ⟨_, _, _, addressFrame_of_cs hcs, rfl, transacted_addressFrameSent _ a .erase s⟩
    · exact ⟨_, _, _, execBuf1Write_of_cs hcs, rfl, transacted_fillFrameSent a data s⟩
    · exact ⟨_, _, _, addressFrame_of_cs hcs, rfl, transacted_addressFrameSent _ a .commit s⟩
    · exact ⟨_, _, _, execArrayRead_of_cs hcs, rfl, transacted_readFrameSent a size s⟩
  obtain ⟨t, op, rest, hexec, rfl, inp, inside, htrace, hsends, ht, hown⟩ := hsent
  obtain ⟨hdata, hs, hr⟩ := (Sends.x op inp).append hsends
  exact ⟨t, .x op inp :: inside, hexec, htrace, fun hsel => absurd (hdata _ hsel) (by simp [isData]),
    fun hdes => absurd (hdata _ hdes) (by simp [isData]), hs, hr, ht, hown⟩

end Sys2Proof.WholeFrames
end

section
/-! PROOFS. The rows of the tables R302 to R310 as a relation: `Row s t` says which row takes `s` to `t`, guards
included. A step of the controller is exactly a row (`seqStep_eq_next_iff`); what holds of every step is shown by cases
on it. -/

namespace Sys2Proof.Machine

/-- One row of the sequencer's tables. -/
inductive Row (s : State) : State → Prop
  | idle (hq : s.seq = .idle) : Row s s
  | done (hq : s.seq = .done) : Row s (goto .idle (notBusy s))
  | pSel (hq : s.seq = .pSel) (hc : s.cs = false) : Row s (goto .pOp (opened .poll s))
  | pOp (hq : s.seq = .pOp) (hc : s.cs = true) : Row s (goto .pRd (exchanged s.cfg.opReadStatus s))
  | pRd (hq : s.seq = .pRd) (hc : s.cs = true) :
      Row s (goto .pDes (latchStatus (answer s) (exchanged s.cfg.dummyOut s)))
  | pDes (hq : s.seq = .pDes) (hc : s.cs = true) : Row s (goto .pTst (closed s))
  | pTst (hq : s.seq = .pTst) : Row s (goto (if readyBit s.sr then s.ret else .pSel) s)
  | hSel (o : Owner) (hq : s.seq = .hSel) (hc : s.cs = false) (ho : ownerOf s.cfg s.cop = some o) :
      Row s (goto .hOp (opened o s))
  | hOp (hq : s.seq = .hOp) (hc : s.cs = true) : Row s (goto .hA0 (exchanged s.cop s))
  | hA0 (hq : s.seq = .hA0) (hc : s.cs = true) : Row s (goto .hA1 (exchanged s.addr.a0 s))
  | hA1 (hq : s.seq = .hA1) (hc : s.cs = true) : Row s (goto .hA2 (exchanged s.addr.a1 s))
  | hA2 (hq : s.seq = .hA2) (hc : s.cs = true) : Row s (goto s.hret (exchanged s.addr.a2 s))
  | iWp (hq : s.seq = .iWp) : Row s (goto .iRst1 (setWp true s))
  | iRst1 (hq : s.seq = .iRst1) : Row s (goto .iDly (setRst true s))
  | iDly (hq : s.seq = .iDly) : Row s (goto .iRst0 (delayMs s.cfg.resetHoldMs s))
  | iRst0 (hq : s.seq = .iRst0) : Row s (goto .done (setRst false s))
  | ep0 (hq : s.seq = .ep0) : Row s (callPoll .ep1 s)
  | ep1 (hq : s.seq = .ep1) : Row s (callHeader s.cfg.opPageErase (pageEraseAddr s) .ep2 s)
  | ep2 (hq : s.seq = .ep2) (hc : s.cs = true) : Row s (goto .done (closed s))
  | es0Refused (hq : s.seq = .es0) (hz : sectorRefused s.sector = true) : Row s (goto .done s)
  | es0 (hq : s.seq = .es0) (hz : sectorRefused s.sector = false) : Row s (callPoll .es1 s)
  | es1 (hq : s.seq = .es1) : Row s (callHeader s.cfg.opSectorErase (sectorEraseAddr s) .es2 s)
  | es2 (hq : s.seq = .es2) (hc : s.cs = true) : Row s (goto .done (closed s))
  | w0 (hq : s.seq = .w0) : Row s (goto .w1 (startWrite (setWp false s)))
  | w1Ended (hq : s.seq = .w1) (hr : s.rem = 0#16) : Row s (callPoll .w6 s)
  | w1 (hq : s.seq = .w1) (hr : s.rem ≠ 0#16) : Row s (callPoll .w2 (startChunk s))
  | w2 (hq : s.seq = .w2) : Row s (callHeader s.cfg.opBuf1Write (bufferAddr 0) .w3 (startCount s))
  | w3 (hq : s.seq = .w3) (hc : s.cs = true) (hn : s.cnt < s.n) : Row s (filled s)
  | w3Ended (hq : s.seq = .w3) (hc : s.cs = true) (hn : s.cnt = s.n) : Row s (callPoll .w4 (closed s))
  | w4 (hq : s.seq = .w4) : Row s (callHeader s.cfg.opBuf1CommitErase (commitAddr s) .w5 s)
  | w5 (hq : s.seq = .w5) (hc : s.cs = true) : Row s (goto .w1 (nextChunk (closed s)))
  | w6 (hq : s.seq = .w6) : Row s (goto .done (setWp true s))
  | r0 (hq : s.seq = .r0) : Row s (callPoll .r1 s)
  | r1 (hq : s.seq = .r1) : Row s (callHeader s.cfg.opArrayRead (arrayReadAddr s) .r2 (startCount s))
  | r2 (hq : s.seq = .r2) (hc : s.cs = true) (hn : dummiesSent s < s.cfg.nReadDummy) :
      Row s (countByte (exchanged s.cfg.dummyOut s))
  | r2Ended (hq : s.seq = .r2) (hn : dummiesSent s = s.cfg.nReadDummy) : Row s (goto .r3 (startCount s))
  | r3 (hq : s.seq = .r3) (hc : s.cs = true) (hn : s.cnt < s.size) : Row s (readOne s)
  | r3Ended (hq : s.seq = .r3) (hc : s.cs = true) (hn : s.cnt = s.size) : Row s (goto .done (closed s))
  | g0 (hq : s.seq = .g0) (hc : s.cs = false) : Row s (goto .g1 (opened .diagId s))
  | g1 (hq : s.seq = .g1) (hc : s.cs = true) : Row s (goto .g2 (startId (exchanged s.cfg.opReadId s)))
  | g2 (hq : s.seq = .g2) (hc : s.cs = true) (hk : s.k < 4#3) : Row s (idLatched s)
  | g2Ended (hq : s.seq = .g2) (hc : s.cs = true) (hk : s.k = 4#3) : Row s (goto .g3 (closed s))
  | g3 (hq : s.seq = .g3) (hc : s.cs = false) : Row s (goto .g4 (opened .diagSr s))
  | g4 (hq : s.seq = .g4) (hc : s.cs = true) : Row s (goto .g5 (exchanged s.cfg.opReadStatus s))
  | g5 (hq : s.seq = .g5) (hc : s.cs = true) :
      Row s (goto .g6 (latchStatus (answer s) (exchanged s.cfg.dummyOut s)))
  | g6 (hq : s.seq = .g6) (hc : s.cs = true) : Row s (goto .g7 (closed s))
  | g7 (hq : s.seq = .g7) : Row s (goto .done (latchDiag s))

variable {s t : State}

/-- The laws of `seqStep` say that each row is what the step does. -/
theorem seqStep_of_row (h : Row s t) : seqStep s = .next t := by
  cases h with
  | idle hq => exact seqStep_idle hq
  | done hq => exact seqStep_done hq
  | pSel hq hc => exact seqStep_pSel hq hc
  | pOp hq hc => exact seqStep_pOp hq hc
  | pRd hq hc => exact seqStep_pRd hq hc
  | pDes hq hc => exact seqStep_pDes hq hc
  | pTst hq => exact seqStep_pTst hq
  | hSel o hq hc ho => exact seqStep_hSel hq hc ho
  | hOp hq hc => exact seqStep_hOp hq hc
  | hA0 hq hc => exact seqStep_hA0 hq hc
  | hA1 hq hc => exact seqStep_hA1 hq hc
  | hA2 hq hc => exact seqStep_hA2 hq hc
  | iWp hq => exact seqStep_iWp hq
  | iRst1 hq => exact seqStep_iRst1 hq
  | iDly hq => exact seqStep_iDly hq
  | iRst0 hq => exact seqStep_iRst0 hq
  | ep0 hq => exact seqStep_ep0 hq
  | ep1 hq => exact seqStep_ep1 hq
  | ep2 hq hc => exact seqStep_ep2 hq hc
  | es0Refused hq hz => exact seqStep_es0_refused hq hz
  | es0 hq hz => exact seqStep_es0 hq hz
  | es1 hq => exact seqStep_es1 hq
  | es2 hq hc => exact seqStep_es2 hq hc
  | w0 hq => exact seqStep_w0 hq
  | w1Ended hq hr => exact seqStep_w1_ended hq hr
  | w1 hq hr => exact seqStep_w1 hq hr
  | w2 hq => exact seqStep_w2 hq
  | w3 hq hc hn => exact seqStep_w3 hq hc hn
  | w3Ended hq hc hn => exact seqStep_w3_ended hq hc hn
  | w4 hq => exact seqStep_w4 hq
  | w5 hq hc => exact seqStep_w5 hq hc
  | w6 hq => exact seqStep_w6 hq
  | r0 hq => exact seqStep_r0 hq
  | r1 hq => exact seqStep_r1 hq
  | r2 hq hc hn => exact seqStep_r2 hq hc hn
  | r2Ended hq hn => exact seqStep_r2_ended hq hn
  | r3 hq hc hn => exact seqStep_r3 hq hc hn
  | r3Ended hq hc hn => exact seqStep_r3_ended hq hc hn
  | g0 hq hc => exact seqStep_g0 hq hc
  | g1 hq hc => exact seqStep_g1 hq hc
  | g2 hq hc hk => exact seqStep_g2 hq hc hk
  | g2Ended hq hc hk => exact seqStep_g2_ended hq hc hk
  | g3 hq hc => exact seqStep_g3 hq hc
  | g4 hq hc => exact seqStep_g4 hq hc
  | g5 hq hc => exact seqStep_g5 hq hc
  | g6 hq hc => exact seqStep_g6 hq hc
  | g7 hq => exact seqStep_g7 hq

/-! What a step needs to complete: an operation of the bus completes with chip-select as it requires, a counted loop
within its bound. -/

theorem thenGoto_eq_next {q : Seq} {r : Result} : thenGoto q r = .next t ↔ ∃ u, r = .next u ∧ goto q u = t := by
  simp [thenGoto, andThen_eq_next]

theorem thenGoto_select_eq_next {q : Seq} {o : Owner} :
    thenGoto q (select o s) = .next t ↔ s.cs = false ∧ goto q (opened o s) = t := by
  simp [thenGoto_eq_next, select_eq_next, and_assoc]

theorem andThen_deselect_eq_next {f : State → State} :
    andThen (deselect s) (fun u => .next (f u)) = .next t ↔ s.cs = true ∧ f (closed s) = t := by
  simp [andThen_eq_next, deselect_eq_next, and_assoc]

theorem andThen_send_eq_next {out : Byte} {f : State → State} :
    andThen (send out s) (fun u => .next (f u)) = .next t ↔ s.cs = true ∧ f (exchanged out s) = t := by
  simp [andThen_eq_next, send_eq_next, and_assoc]

theorem xfer_next_eq_next {out : Byte} {k : Byte → State → State} :
    xfer out s (fun v u => .next (k v u)) = .next t ↔ s.cs = true ∧ k (answer s) (exchanged out s) = t := by
  simp [xfer_eq_next]

/-- A step of the controller that completes is a row of its tables. -/
theorem row_of_seqStep (h : seqStep s = .next t) : Row s t := by
  unfold seqStep at h
  cases hq : s.seq <;> rw [hq] at h
  case idle => cases h; exact .idle hq
  case done => cases h; exact .done hq
  case pSel => obtain ⟨hc, rfl⟩ := thenGoto_select_eq_next.mp h; exact .pSel hq hc
  case pOp => obtain ⟨hc, rfl⟩ := andThen_send_eq_next.mp h; exact .pOp hq hc
  case pRd => obtain ⟨hc, rfl⟩ := xfer_next_eq_next.mp h; exact .pRd hq hc
  case pDes => obtain ⟨hc, rfl⟩ := andThen_deselect_eq_next.mp h; exact .pDes hq hc
  case pTst => cases h; exact .pTst hq
  case hSel =>
    simp only [seqHSel] at h
    split at h
    next o ho => obtain ⟨hc, rfl⟩ := thenGoto_select_eq_next.mp h; exact .hSel o hq hc ho
    next => cases h
  case hOp => obtain ⟨hc, rfl⟩ := andThen_send_eq_next.mp h; exact .hOp hq hc
  case hA0 => obtain ⟨hc, rfl⟩ := andThen_send_eq_next.mp h; exact .hA0 hq hc
  case hA1 => obtain ⟨hc, rfl⟩ := andThen_send_eq_next.mp h; exact .hA1 hq hc
  case hA2 => obtain ⟨hc, rfl⟩ := andThen_send_eq_next.mp h; exact .hA2 hq hc
  case iWp => cases h; exact .iWp hq
  case iRst1 => cases h; exact .iRst1 hq
  case iDly => cases h; exact .iDly hq
  case iRst0 => cases h; exact .iRst0 hq
  case ep0 => cases h; exact .ep0 hq
  case ep1 => cases h; exact .ep1 hq
  case ep2 => obtain ⟨hc, rfl⟩ := andThen_deselect_eq_next.mp h; exact .ep2 hq hc
  case es0 =>
    simp only [seqEs0] at h
    split at h
    next hz => cases h; exact .es0Refused hq hz
    next hz => cases h; exact .es0 hq (Bool.eq_false_of_not_eq_true hz)
  case es1 => cases h; exact .es1 hq
  case es2 => obtain ⟨hc, rfl⟩ := andThen_deselect_eq_next.mp h; exact .es2 hq hc
  case w0 => cases h; exact .w0 hq
  case w1 =>
    simp only [seqW1] at h
    split at h
    next hr => cases h; exact .w1Ended hq hr
    next hr => cases h; exact .w1 hq hr
  case w2 => cases h; exact .w2 hq
  case w3 =>
    simp only [seqW3] at h
    split at h
    next hn =>
      obtain ⟨hc, rfl⟩ := xfer_next_eq_next.mp h
      exact .w3 hq hc hn
    next =>
      split at h
      next hn => obtain ⟨hc, rfl⟩ := andThen_deselect_eq_next.mp h; exact .w3Ended hq hc hn
      next => cases h
  case w4 => cases h; exact .w4 hq
  case w5 => obtain ⟨hc, rfl⟩ := (andThen_deselect_eq_next (f := fun u => goto .w1 (nextChunk u))).mp h; exact .w5 hq hc
  case w6 => cases h; exact .w6 hq
  case r0 => cases h; exact .r0 hq
  case r1 => cases h; exact .r1 hq
  case r2 =>
    simp only [seqR2] at h
    split at h
    next hn => obtain ⟨hc, rfl⟩ := andThen_send_eq_next.mp h; exact .r2 hq hc hn
    next =>
      split at h
      next hn => cases h; exact .r2Ended hq hn
      next => cases h
  case r3 =>
    simp only [seqR3] at h
    split at h
    next hn =>
      obtain ⟨hc, rfl⟩ := (xfer_next_eq_next (k := fun v u => countByte (memWrite u.cnt v u))).mp h
      rw [exchanged_cnt]
      exact .r3 hq hc hn
    next =>
      split at h
      next hn => obtain ⟨hc, rfl⟩ := andThen_deselect_eq_next.mp h; exact .r3Ended hq hc hn
      next => cases h
  case g0 => obtain ⟨hc, rfl⟩ := thenGoto_select_eq_next.mp h; exact .g0 hq hc
  case g1 =>
    obtain ⟨hc, rfl⟩ := (andThen_send_eq_next (f := fun u => goto .g2 (startId u))).mp h
    exact .g1 hq hc
  case g2 =>
    simp only [seqG2] at h
    split at h
    next hk => obtain ⟨hc, rfl⟩ := xfer_next_eq_next.mp h; exact .g2 hq hc hk
    next =>
      split at h
      next hk => obtain ⟨hc, rfl⟩ := andThen_deselect_eq_next.mp h; exact .g2Ended hq hc hk
      next => cases h
  case g3 => obtain ⟨hc, rfl⟩ := thenGoto_select_eq_next.mp h; exact .g3 hq hc
  case g4 => obtain ⟨hc, rfl⟩ := andThen_send_eq_next.mp h; exact .g4 hq hc
  case g5 => obtain ⟨hc, rfl⟩ := xfer_next_eq_next.mp h; exact .g5 hq hc
  case g6 => obtain ⟨hc, rfl⟩ := andThen_deselect_eq_next.mp h; exact .g6 hq hc
  case g7 => cases h; exact .g7 hq

theorem seqStep_eq_next_iff : seqStep s = .next t ↔ Row s t :=
  ⟨row_of_seqStep, seqStep_of_row⟩

end Sys2Proof.Machine
end

section
/-! PROOFS. O52, O53, O54: the invariant. `Inv` is taken apart into what is visible of the controller from outside
(`Wired`: lines, bus owner, chip and memories), the chunk arithmetic, and the counters and return registers of the one
sequencer state they belong to. Each operation has one lemma about `Wired`; a row then is the composition of them. -/

namespace Sys2Proof.Safety

open Sys2Proof.Machine

/-! ## The parts of the invariant -/

/-- The fields that the lines of the invariant speak of. -/
structure Surface where
  busy : Bool
  own : Owner
  cs : Bool
  wp : Bool
  rst : Bool
  cfg : Cfg
  hbuf : Memory
  dev : Dev

/-- What is visible of a state. The registers are not: an operation on them leaves the surface, by definition. -/
def surface (s : State) : Surface :=
  ⟨s.busy, s.own, s.cs, s.wp, s.rst, s.cfg, s.hbuf, s.dev⟩

/-- The lines and the owner have the given values, and chip and memories are as the invariant has them. -/
structure Wired (running selected : Bool) (o : Owner) (open_ pulsing : Bool) (u : Surface) : Prop where
  cfg : u.cfg.valid = true
  busy : u.busy = running
  cs : u.cs = selected
  own : u.own = o
  frame : u.dev.frame.isSome = selected
  wp : u.wp = !open_
  rst : u.rst = pulsing
  hbuf : u.hbuf.wf
  array : u.dev.array.wf
  buf1 : u.dev.buf1.wf

/-- The requester that holds the bus in a sequencer state, `cop` being what is sent (R304). -/
def ownerAt (c : Cfg) (cop : Byte) : Machine.Seq → Owner
  | .pOp | .pRd | .pDes => .poll
  | .hOp | .hA0 | .hA1 | .hA2 => (ownerOf c cop).getD .none
  | .ep2 | .es2 => .erase
  | .w3 => .fill
  | .w5 => .commit
  | .r2 | .r3 => .read
  | .g1 | .g2 => .diagId
  | .g4 | .g5 | .g6 => .diagSr
  | _ => .none

theorem ownerIn_eq (c : Cfg) (s : State) : ownerIn c s = ownerAt c s.cop s.seq := by
  unfold ownerIn ownerAt
  cases s.seq <;> rfl

/-- Where the reset line is asserted (R305). -/
def resetting (q : Machine.Seq) : Bool :=
  decide (q = .iDly ∨ q = .iRst0)

/-- The registers of the chunk loop with the arguments they come from (R195). -/
structure Numbers where
  page : Word
  size : Word
  cur : Word
  idx : Word
  rem : Word
  n : Word

def numbers (s : State) : Numbers :=
  ⟨s.page, s.size, s.cur, s.idx, s.rem, s.n⟩

/-- The chunk arithmetic of R196 in the command's state `c`. -/
structure ChunkAt (c : Machine.Seq) (x : Numbers) : Prop where
  total : x.idx.toNat + x.rem.toNat = x.size.toNat
  base : x.rem ≠ 0#16 → x.idx.toNat % pageSize = 0
  page : x.cur = x.page + BitVec.ofNat 16 ((x.idx.toNat + (pageSize - 1)) / pageSize)
  length : inChunk c = true → x.rem ≠ 0#16 ∧ x.n = chunkLength x.rem
  ended : c = .w6 → x.rem = 0#16

theorem chunkInv_iff (s : State) : ChunkInv s ↔ ChunkAt (resumesAt s) (numbers s) :=
  ⟨fun ⟨h1, h2, h3, h4, h5⟩ => ⟨h1, h2, h3, h4, h5⟩, fun ⟨h1, h2, h3, h4, h5⟩ => ⟨h1, h2, h3, h4, h5⟩⟩

/-- What a sequencer state and the command's state stand for, counters and return registers apart. -/
structure Standing (q c : Machine.Seq) (s : State) : Prop where
  wired : Wired (decide (q ≠ .idle)) (selectedIn q) (ownerAt s.cfg s.cop q) (writing c) (resetting q) (surface s)
  chunk : writing c = true → ChunkAt c (numbers s)

/-- The bounds of the counted loops (R312). -/
structure Counted (s : State) : Prop where
  fill : s.seq = .w3 → s.cnt.toNat ≤ s.n.toNat
  dummies : s.seq = .r2 → dummiesSent s ≤ s.cfg.nReadDummy
  dummyBytes : s.seq = .r2 → frameBytes s = 4 + dummiesSent s
  dummyCnt : s.seq = .r2 → s.cnt = BitVec.ofNat 16 (dummiesSent s)
  data : s.seq = .r3 → s.cnt.toNat ≤ s.size.toNat
  identity : s.seq = .g2 → s.k.toNat ≤ 4

/-- The registers of the header subroutine while it runs (R304). -/
structure Heading (q r : Machine.Seq) (s : State) : Prop where
  opcode : headerOpcode s.cfg r = some s.cop
  count : r = .w3 ∨ r = .r2 → s.cnt = 0
  bytes : ∀ sent, headerSentIn q = some sent → frameBytes s = sent

variable {s t : State} {q r c : Machine.Seq}

theorem counted_of_not_counting (hq : t.seq = q) (hn : q ∉ [Machine.Seq.w3, .r2, .r3, .g2]) : Counted t := by
  subst hq
  simp only [List.mem_cons, List.not_mem_nil, or_false, not_or] at hn
  obtain ⟨h1, h2, h3, h4⟩ := hn
  constructor <;> intro h <;> contradiction

/-- A state of the command's own, from its parts. -/
theorem inv_of_plain (hq : t.seq = q) (hplain : NoLeftovers.isPlain q = true) (h : Standing q q t)
    (hcount : Counted t) : Inv t := by
  subst hq
  obtain ⟨hp, hh⟩ := NoLeftovers.isPlain_iff.mp hplain
  have hresume : resumesAt t = t.seq := by simp [resumesAt, hp, hh]
  have hsent : headerSentIn t.seq = none := by
    revert hh
    cases t.seq <;> simp [headerSentIn, inHeader]
  obtain ⟨hw, hchunk⟩ := h
  exact
    { hcount with
      cfg := hw.cfg, busy := hw.busy, cs := hw.cs, own := hw.own.trans (ownerIn_eq _ _).symm
      frame := hw.frame.trans hw.cs.symm
      wp := by rw [hresume]; exact hw.wp
      rst := hw.rst
      ret := by simp [hp]
      hret := by simp [hh]
      hcnt := by simp [hh]
      hbytes := by simp [hsent]
      chunk := by rw [chunkInv_iff, hresume]; exact hchunk
      hbuf := hw.hbuf, array := hw.array, buf1 := hw.buf1 }

/-- A state of the poll subroutine, from its parts. -/
theorem inv_of_poll (hq : t.seq = q) (hp : inPoll q = true) (hr : t.ret = r) (hpr : isPollReturn r = true)
    (h : Standing q r t) : Inv t := by
  subst hq hr
  have hh := NoLeftovers.inHeader_of_inPoll hp
  have hresume : resumesAt t = t.ret := by simp [resumesAt, hp]
  have hsent : headerSentIn t.seq = none := by
    revert hh
    cases t.seq <;> simp [headerSentIn, inHeader]
  have hcount : Counted t := counted_of_not_counting rfl fun h => by
    revert h hp
    cases t.seq <;> decide
  obtain ⟨hw, hchunk⟩ := h
  exact
    { hcount with
      cfg := hw.cfg, busy := hw.busy, cs := hw.cs, own := hw.own.trans (ownerIn_eq _ _).symm
      frame := hw.frame.trans hw.cs.symm
      wp := by rw [hresume]; exact hw.wp
      rst := hw.rst
      ret := fun _ => hpr
      hret := by simp [hh]
      hcnt := by simp [hh]
      hbytes := by simp [hsent]
      chunk := by rw [chunkInv_iff, hresume]; exact hchunk
      hbuf := hw.hbuf, array := hw.array, buf1 := hw.buf1 }

/-- A state of the header subroutine, from its parts. -/
theorem inv_of_header (hq : t.seq = q) (hh : inHeader q = true) (hr : t.hret = r) (hhead : Heading q r t)
    (h : Standing q r t) : Inv t := by
  subst hq hr
  have hp := NoLeftovers.inPoll_of_inHeader hh
  have hresume : resumesAt t = t.hret := by simp [resumesAt, hp, hh]
  have hcount : Counted t := counted_of_not_counting rfl fun h => by
    revert h hh
    cases t.seq <;> decide
  obtain ⟨hw, hchunk⟩ := h
  exact
    { hcount with
      cfg := hw.cfg, busy := hw.busy, cs := hw.cs, own := hw.own.trans (ownerIn_eq _ _).symm
      frame := hw.frame.trans hw.cs.symm
      wp := by rw [hresume]; exact hw.wp
      rst := hw.rst
      ret := by simp [hp]
      hret := fun _ => hhead.opcode
      hcnt := fun _ => hhead.count
      hbytes := hhead.bytes
      chunk := by rw [chunkInv_iff, hresume]; exact hchunk
      hbuf := hw.hbuf, array := hw.array, buf1 := hw.buf1 }

theorem Inv.standing (h : Inv s) : Standing s.seq (resumesAt s) s where
  wired :=
    { cfg := h.cfg, busy := h.busy, cs := h.cs, own := h.own.trans (ownerIn_eq _ _)
      frame := h.frame.trans h.cs
      wp := h.wp, rst := h.rst, hbuf := h.hbuf, array := h.array, buf1 := h.buf1 }
  chunk hw := (chunkInv_iff s).mp (h.chunk hw)

theorem Inv.plain (h : Inv s) (hq : s.seq = q) (hplain : NoLeftovers.isPlain q = true) : Standing q q s := by
  subst hq
  obtain ⟨hp, hh⟩ := NoLeftovers.isPlain_iff.mp hplain
  have hs := h.standing
  rwa [resumesAt, if_neg (by simp [hp]), if_neg (by simp [hh])] at hs

theorem Inv.poll (h : Inv s) (hq : s.seq = q) (hp : inPoll q = true) :
    isPollReturn s.ret = true ∧ Standing q s.ret s := by
  subst hq
  have hs := h.standing
  rw [resumesAt, if_pos hp] at hs
  exact ⟨h.ret hp, hs⟩

theorem Inv.header (h : Inv s) (hq : s.seq = q) (hh : inHeader q = true) :
    Heading q s.hret s ∧ Standing q s.hret s := by
  subst hq
  have hs := h.standing
  rw [resumesAt, if_neg (by simp [NoLeftovers.inPoll_of_inHeader hh]), if_pos hh] at hs
  exact ⟨⟨h.hret hh, h.hcnt hh, h.hbytes⟩, hs⟩

/-! ## What each operation does to the surface -/

section
variable {b cs w x : Bool} {o : Owner}

theorem Wired.opened (h : Wired b false .none w x (surface s)) (o : Owner) :
    Wired b true o w x (surface (opened o s)) :=
  { h with cs := rfl, own := rfl, frame := rfl }

theorem Wired.closed (h : Wired b true o w x (surface s)) : Wired b false .none w x (surface (closed s)) :=
  { h with
    cs := rfl, own := rfl
    frame := by rw [surface, closed_dev, Dev.endFrame_frame]; rfl
    array := Dev.endFrame_array_wf h.array _ _
    buf1 := Dev.endFrame_buf1_wf h.buf1 _ _ }

theorem surface_exchanged (out : Byte) (s : State) :
    surface (exchanged out s) = { surface s with dev := s.dev.receive s.cfg out } := by
  simp [surface]

theorem numbers_exchanged (out : Byte) (s : State) : numbers (exchanged out s) = numbers s := by
  simp [numbers]

theorem Wired.exchanged (h : Wired b cs o w x (surface s)) (out : Byte) :
    Wired b cs o w x (surface (exchanged out s)) := by
  rw [surface_exchanged]
  exact
    { h with
      frame := (Dev.receive_frame_isSome s.cfg s.dev out).trans h.frame
      array := by rw [Dev.receive_array]; exact h.array
      buf1 := Dev.receive_buf1_wf h.buf1 s.cfg out }

theorem Wired.memWrite (h : Wired b cs o w x (surface s)) (i : Word) (v : Byte) :
    Wired b cs o w x (surface (memWrite i v s)) :=
  { h with hbuf := Memory.write_wf h.hbuf i.toNat v }

theorem Wired.setWp (h : Wired b cs o w x (surface s)) (level : Bool) :
    Wired b cs o (!level) x (surface (setWp level s)) :=
  { h with wp := (Bool.not_not level).symm }

theorem Wired.setRst (h : Wired b false o w x (surface s)) (level : Bool) :
    Wired b false o w level (surface (setRst level s)) := by
  have hdeselected : s.dev.frame.isSome = false := h.frame
  have hframe : s.dev.frame = none := by simpa using hdeselected
  by_cases hpulse : (s.rst && !level) = true
  · have hdev : (Machine.setRst level s).dev = s.dev.resetPulse := by simp [hpulse]
    exact
      { h with
        rst := rfl
        frame := by rw [surface, hdev, Dev.resetPulse_frame_of_none hframe]; rfl
        array := by rw [surface, hdev, Dev.resetPulse_array]; exact h.array
        buf1 := by rw [surface, hdev]; exact Dev.resetPulse_buf1_wf h.buf1 }
  · have hdev : (Machine.setRst level s).dev = s.dev := by simp [hpulse]
    exact
      { h with
        rst := rfl
        frame := by rw [surface, hdev]; exact h.frame
        array := by rw [surface, hdev]; exact h.array
        buf1 := by rw [surface, hdev]; exact h.buf1 }

end

theorem frameBytes_exchanged (out : Byte) (h : s.dev.frame.isSome = true) :
    frameBytes (exchanged out s) = frameBytes s + 1 := by
  obtain ⟨bytes, hbytes⟩ := Option.isSome_iff_exists.mp h
  simp [frameBytes, Dev.receive_frame s.cfg out hbytes, hbytes]

/-! ## The chunk arithmetic (R196) -/

theorem chunkLength_toNat (rem : Word) : (chunkLength rem).toNat = min rem.toNat pageSize := by
  rw [chunkLength_eq_min, BitVec.toNat_ofNat, pageSize, Nat.mod_eq_of_lt (by omega)]

theorem chunkAt_startWrite (s : State) : ChunkAt .w1 (numbers (startWrite s)) where
  total := by simp [numbers]
  base _ := rfl
  page := by simp [numbers, pageSize]
  length h := by simp [inChunk] at h
  ended h := by simp at h

theorem chunkAt_startChunk (h : ChunkAt .w1 (numbers s)) (hrem : s.rem ≠ 0#16) :
    ChunkAt .w2 (numbers (startChunk s)) :=
  { h with length := fun _ => ⟨hrem, rfl⟩, ended := fun h => by simp at h }

theorem chunkAt_ended (h : ChunkAt .w1 (numbers s)) (hrem : s.rem = 0#16) : ChunkAt .w6 (numbers s) :=
  { h with length := fun h => by simp [inChunk] at h, ended := fun _ => hrem }

/-- Inside one turn of the loop the numbers stay. -/
theorem chunkAt_inChunk {c' : Machine.Seq} {y : Numbers} (h : ChunkAt c y) (hc : inChunk c = true)
    (hc' : inChunk c' = true) : ChunkAt c' y :=
  { h with length := fun _ => h.length hc, ended := fun he => by rw [he] at hc'; simp [inChunk] at hc' }

theorem chunkAt_nextChunk (h : ChunkAt .w5 (numbers s)) : ChunkAt .w1 (numbers (nextChunk s)) := by
  obtain ⟨htotal, hbase, hpage, hlength, -⟩ := h
  obtain ⟨hrem, hn⟩ := hlength rfl
  simp only [numbers] at htotal hbase hpage hrem hn
  have hnlen : s.n.toNat = min s.rem.toNat 264 := by rw [hn, chunkLength_toNat]; rfl
  have hrem0 : s.rem.toNat ≠ 0 := fun h0 => hrem (BitVec.eq_of_toNat_eq h0)
  have hmod : s.idx.toNat % 264 = 0 := hbase hrem
  have hsize := s.size.isLt
  have hidx : (s.idx + s.n).toNat = s.idx.toNat + s.n.toNat := by rw [BitVec.toNat_add, Nat.mod_eq_of_lt (by omega)]
  have hrest : (s.rem - s.n).toNat = s.rem.toNat - s.n.toNat := BitVec.toNat_sub_of_le (by rw [BitVec.le_def]; omega)
  refine ⟨?_, fun hne => ?_, ?_, fun hc => by simp [inChunk] at hc, fun hc => by simp at hc⟩
  · simp only [numbers, nextChunk_idx, nextChunk_rem, nextChunk_size]
    omega
  · have hne' : (s.rem - s.n).toNat ≠ 0 := fun h0 => hne (BitVec.eq_of_toNat_eq h0)
    simp only [numbers, nextChunk_idx, pageSize]
    omega
  · have hchunks : (s.idx.toNat + s.n.toNat + 263) / 264 = (s.idx.toNat + 263) / 264 + 1 := by omega
    simp only [numbers, nextChunk_cur, nextChunk_page, nextChunk_idx, pageSize, hidx, hpage]
    rw [hchunks, ← word_add_one_add, BitVec.add_assoc, BitVec.add_assoc, BitVec.add_comm 1]

/-! ## The two subroutines -/

/-- A state that the poll subroutine returns to is quiet and counts nothing. -/
theorem quiet_of_isPollReturn (h : isPollReturn r = true) :
    selectedIn r = false ∧ (∀ c cop, ownerAt c cop r = .none) ∧ resetting r = false ∧ r ≠ .idle ∧
      r ∉ [Machine.Seq.w3, .r2, .r3, .g2] := by
  simp only [isPollReturn, List.mem_cons, List.not_mem_nil, or_false, decide_eq_true_eq] at h
  rcases h with rfl | rfl | rfl | rfl | rfl | rfl <;> exact ⟨rfl, fun _ _ => rfl, rfl, by decide, by decide⟩

theorem isHeaderReturn_of_headerOpcode {c : Cfg} {op : Byte} (h : headerOpcode c r = some op) :
    NoLeftovers.isHeaderReturn r = true := by
  unfold headerOpcode at h
  split at h
  all_goals first | rfl | cases h

/-- In a state that the header subroutine returns to the owner is the opcode's (R304). -/
theorem owner_of_headerOpcode {c : Cfg} {op : Byte} (hc : c.valid = true) (h : headerOpcode c r = some op) :
    (ownerOf c op).getD .none = ownerAt c op r ∧ (ownerOf c op).isSome = true := by
  unfold headerOpcode at h
  split at h
  · cases h; rw [ownerOf_opPageErase]; exact ⟨rfl, rfl⟩
  · cases h; rw [ownerOf_opSectorErase]; exact ⟨rfl, rfl⟩
  · cases h; rw [ownerOf_opBuf1Write hc]; exact ⟨rfl, rfl⟩
  · cases h; rw [ownerOf_opBuf1CommitErase hc]; exact ⟨rfl, rfl⟩
  · cases h; rw [ownerOf_opArrayRead hc]; exact ⟨rfl, rfl⟩
  · cases h

/-- A command's own quiet state enters the poll subroutine. -/
theorem inv_callPoll (hw : Wired true false .none (writing r) false (surface s)) (hr : isPollReturn r = true)
    (hchunk : writing r = true → ChunkAt r (numbers s)) : Inv (callPoll r s) :=
  inv_of_poll (q := .pSel) rfl rfl rfl hr ⟨hw, hchunk⟩

/-- A command's own quiet state enters the header subroutine. -/
theorem inv_callHeader {op : Byte} (a : Addr) (hw : Wired true false .none (writing r) false (surface s))
    (hop : headerOpcode s.cfg r = some op) (hcnt : r = .w3 ∨ r = .r2 → s.cnt = 0)
    (hchunk : writing r = true → ChunkAt r (numbers s)) : Inv (callHeader op a r s) :=
  inv_of_header (q := .hSel) rfl rfl rfl ⟨hop, hcnt, fun _ h => by simp [headerSentIn] at h⟩ ⟨hw, hchunk⟩

/-- One byte of a header, and on to the next state of the subroutine. -/
theorem inv_headerByte (h : Inv s) (hq : s.seq = q) {q' : Machine.Seq} {sent : Nat} (hh : inHeader q = true)
    (hh' : inHeader q' = true) (hsel : selectedIn q = true) (hsel' : selectedIn q' = true)
    (hsent : headerSentIn q = some sent) (hsent' : headerSentIn q' = some (sent + 1)) (out : Byte) :
    Inv (goto q' (exchanged out s)) := by
  obtain ⟨hhead, hwired, hchunk⟩ := h.header hq hh
  have hown : ∀ q, inHeader q = true → selectedIn q = true →
      ∀ c cop, ownerAt c cop q = (ownerOf c cop).getD .none ∧ resetting q = false ∧ decide (q ≠ .idle) = true := by
    intro q hh hsel
    cases q <;> first | exact fun _ _ => ⟨rfl, rfl, rfl⟩ | simp [inHeader, selectedIn] at hh hsel
  obtain ⟨ho, hx, hi⟩ := hown q hh hsel s.cfg s.cop
  obtain ⟨ho', hx', hi'⟩ := hown q' hh' hsel' s.cfg s.cop
  have hopen : s.dev.frame.isSome = true := hwired.frame.trans hsel
  refine inv_of_header (q := q') (r := s.hret) rfl hh' (by simp)
    ⟨by simpa using hhead.opcode, by simpa using hhead.count, fun n hn => ?_⟩ ⟨?_, ?_⟩
  · rw [hsent'] at hn
    cases hn
    show frameBytes (exchanged out s) = sent + 1
    rw [frameBytes_exchanged out hopen, hhead.bytes sent hsent]
  · rw [ho, hx, hsel, hi] at hwired
    rw [goto_cfg, goto_cop, exchanged_cfg, exchanged_cop, ho', hx', hsel', hi']
    exact hwired.exchanged out
  · show writing s.hret = true → ChunkAt s.hret (numbers (exchanged out s))
    rw [numbers_exchanged]
    exact hchunk

/-! ## The rows -/

theorem not_writing {P : Prop} (h : writing q = false) : writing q = true → P :=
  fun h' => absurd (h.symm.trans h') Bool.false_ne_true

/-- A quiet state outside a WRITE, in which nothing is counted. -/
theorem inv_of_quiet (hq : t.seq = q) (hplain : NoLeftovers.isPlain q = true) (hcalm : writing q = false)
    (hn : q ∉ [Machine.Seq.w3, .r2, .r3, .g2])
    (hw : Wired (decide (q ≠ .idle)) (selectedIn q) (ownerAt t.cfg t.cop q) (writing q) (resetting q) (surface t)) :
    Inv t :=
  inv_of_plain hq hplain ⟨hw, not_writing hcalm⟩ (counted_of_not_counting hq hn)

theorem counted_of_filling (hq : t.seq = .w3) (h : t.cnt.toNat ≤ t.n.toNat) : Counted t := by
  constructor <;> simp [hq, h]

theorem counted_of_reading (hq : t.seq = .r3) (h : t.cnt.toNat ≤ t.size.toNat) : Counted t := by
  constructor <;> simp [hq, h]

theorem counted_of_identifying (hq : t.seq = .g2) (h : t.k.toNat ≤ 4) : Counted t := by
  constructor <;> simp [hq, h]

theorem counted_of_dummies (hq : t.seq = .r2) (hle : dummiesSent t ≤ t.cfg.nReadDummy)
    (hbytes : frameBytes t = 4 + dummiesSent t) (hcnt : t.cnt = BitVec.ofNat 16 (dummiesSent t)) : Counted t := by
  constructor <;> simp [hq, hle, hbytes, ← hcnt]

/-- The poll cycle's test: back to the caller, or round again (R303). -/
theorem inv_pTst (h : Inv s) (hq : s.seq = .pTst) : Inv (goto (if readyBit s.sr then s.ret else .pSel) s) := by
  obtain ⟨hr, hw, hchunk⟩ := h.poll hq rfl
  split
  · obtain ⟨hsel, hown, hrst, hidle, hn⟩ := quiet_of_isPollReturn hr
    refine inv_of_plain (q := s.ret) rfl (NoLeftovers.isPlain_of_isPollReturn hr) ⟨?_, hchunk⟩
      (counted_of_not_counting rfl hn)
    rw [decide_eq_true hidle, hsel, hown, hrst]
    exact hw
  · exact inv_of_poll (q := .pSel) (r := s.ret) rfl rfl rfl hr ⟨hw, hchunk⟩

/-- The last byte of a header: on to the caller, which finds its counter at 0 (R304, R308, R309). -/
theorem inv_hA2 (h : Inv s) (hq : s.seq = .hA2) : Inv (goto s.hret (exchanged s.addr.a2 s)) := by
  obtain ⟨hhead, hw, hchunk⟩ := h.header hq rfl
  have hopcode := hhead.opcode
  have hcount := hhead.count
  have hown := (owner_of_headerOpcode (c := s.cfg) hw.cfg hopcode).1
  have hopen : s.dev.frame.isSome = true := hw.frame
  have hbytes : frameBytes (exchanged s.addr.a2 s) = 4 := by
    rw [frameBytes_exchanged _ hopen, hhead.bytes 3 rfl]
  have hx := hw.exchanged s.addr.a2
  rw [ownerAt, hown] at hx
  rw [← numbers_exchanged s.addr.a2 s] at hchunk
  have hr := isHeaderReturn_of_headerOpcode hopcode
  generalize s.hret = r at *
  simp only [NoLeftovers.isHeaderReturn, List.mem_cons, List.not_mem_nil, or_false, decide_eq_true_eq] at hr
  rcases hr with rfl | rfl | rfl | rfl | rfl
  · exact inv_of_quiet (q := .ep2) rfl rfl rfl (by decide) hx
  · exact inv_of_quiet (q := .es2) rfl rfl rfl (by decide) hx
  · exact inv_of_plain (q := .w3) rfl rfl ⟨hx, hchunk⟩ (counted_of_filling rfl (by simp [hcount]))
  · exact inv_of_plain (q := .w5) rfl rfl ⟨hx, hchunk⟩ (counted_of_not_counting (q := .w5) rfl (by decide))
  · have hcnt : (goto .r2 (exchanged s.addr.a2 s)).cnt = 0 := by simpa using hcount (.inr rfl)
    have hframe : frameBytes (goto .r2 (exchanged s.addr.a2 s)) = 4 := hbytes
    have hsent : dummiesSent (goto .r2 (exchanged s.addr.a2 s)) = 0 := by
      rw [dummiesSent, hcnt, hframe]
      split <;> rfl
    exact inv_of_plain (q := .r2) rfl rfl ⟨hx, not_writing rfl⟩
      (counted_of_dummies rfl (by rw [hsent]; exact Nat.zero_le _) (by rw [hframe, hsent]) (by rw [hcnt, hsent]; rfl))

theorem inv_filled (h : Inv s) (hq : s.seq = .w3) (hn : s.cnt < s.n) : Inv (filled s) := by
  obtain ⟨hw, hchunk⟩ := h.plain hq rfl
  have hnumbers : numbers (filled s) = numbers s := by simp [numbers, filled]
  refine inv_of_plain (q := .w3) (by simp [filled, hq]) rfl ⟨?_, fun _ => ?_⟩
    (counted_of_filling (by simp [filled, hq]) ?_)
  · exact Wired.exchanged (s := memRead (s.idx + s.cnt) s) hw _
  · rw [hnumbers]
    exact hchunk rfl
  · simp only [filled, countByte_cnt, exchanged_cnt, memRead_cnt, countByte_n, exchanged_n, memRead_n]
    bv_omega

theorem inv_dummy (h : Inv s) (hq : s.seq = .r2) (hn : dummiesSent s < s.cfg.nReadDummy) :
    Inv (countByte (exchanged s.cfg.dummyOut s)) := by
  obtain ⟨hw, -⟩ := h.plain hq rfl
  have hopen : s.dev.frame.isSome = true := hw.frame
  have hbytes := h.dummyBytes hq
  obtain ⟨bytes, hframe⟩ := Option.isSome_iff_exists.mp hopen
  have hlen : 4 ≤ bytes.length := by
    simp only [frameBytes, hframe, Option.getD_some] at hbytes
    omega
  have hsent := dummiesSent_countByte_exchanged s.cfg.dummyOut hframe hlen hn
  refine inv_of_plain (q := .r2) (by simp [hq]) rfl ⟨hw.exchanged _, not_writing rfl⟩
    (counted_of_dummies (by simp [hq]) ?_ ?_ ?_)
  · rw [hsent]
    simpa using hn
  · show frameBytes (exchanged s.cfg.dummyOut s) = _
    rw [hsent, frameBytes_exchanged _ hopen, hbytes, Nat.add_assoc]
  · rw [hsent, countByte_cnt, exchanged_cnt, h.dummyCnt hq, BitVec.ofNat_add]
    rfl

theorem inv_readOne (h : Inv s) (hq : s.seq = .r3) (hn : s.cnt < s.size) : Inv (readOne s) := by
  obtain ⟨hw, -⟩ := h.plain hq rfl
  have hx : Wired true true .read false false (surface (readOne s)) :=
    Wired.memWrite (s := exchanged s.cfg.dummyOut s) (hw.exchanged _) s.cnt (answer s)
  refine inv_of_plain (q := .r3) (by simp [readOne, hq]) rfl ⟨hx, not_writing rfl⟩
    (counted_of_reading (by simp [readOne, hq]) ?_)
  simp only [readOne, countByte_cnt, memWrite_cnt, exchanged_cnt, countByte_size, memWrite_size, exchanged_size]
  bv_omega

theorem inv_idLatched (h : Inv s) (hq : s.seq = .g2) (hk : s.k < 4#3) : Inv (idLatched s) := by
  obtain ⟨hw, -⟩ := h.plain hq rfl
  refine inv_of_plain (q := .g2) (by simp [idLatched, hq]) rfl ⟨hw.exchanged _, not_writing rfl⟩
    (counted_of_identifying (by simp [idLatched, hq]) ?_)
  rw [idLatched_k]
  bv_omega

/-- Every row keeps the invariant. -/
theorem inv_of_row (h : Inv s) (hrow : Row s t) : Inv t := by
  cases hrow with
  | idle _ => exact h
  | done hq => exact inv_of_quiet (q := .idle) rfl rfl rfl (by decide) { (h.plain hq rfl).wired with busy := rfl }
  | pSel hq _ =>
    obtain ⟨hr, hw, hchunk⟩ := h.poll hq rfl
    exact inv_of_poll (q := .pOp) rfl rfl rfl hr ⟨hw.opened .poll, hchunk⟩
  | pOp hq _ =>
    obtain ⟨hr, hw, hchunk⟩ := h.poll hq rfl
    rw [← numbers_exchanged s.cfg.opReadStatus s] at hchunk
    exact inv_of_poll (q := .pRd) rfl rfl (by simp) hr ⟨hw.exchanged _, hchunk⟩
  | pRd hq _ =>
    obtain ⟨hr, hw, hchunk⟩ := h.poll hq rfl
    rw [← numbers_exchanged s.cfg.dummyOut s] at hchunk
    exact inv_of_poll (q := .pDes) rfl rfl (by simp) hr ⟨hw.exchanged _, hchunk⟩
  | pDes hq _ =>
    obtain ⟨hr, hw, hchunk⟩ := h.poll hq rfl
    exact inv_of_poll (q := .pTst) rfl rfl rfl hr ⟨hw.closed, hchunk⟩
  | pTst hq => exact inv_pTst h hq
  | hSel o hq _ ho =>
    obtain ⟨hhead, hw, hchunk⟩ := h.header hq rfl
    have hown : ownerAt s.cfg s.cop .hOp = o := by rw [ownerAt, ho]; rfl
    refine inv_of_header (q := .hOp) rfl rfl rfl ⟨hhead.opcode, hhead.count, fun n hn => ?_⟩ ⟨?_, hchunk⟩
    · cases hn
      rfl
    · rw [goto_cfg, goto_cop, opened_cfg, opened_cop, hown]
      exact hw.opened o
  | hOp hq _ => exact inv_headerByte h hq rfl rfl rfl rfl rfl rfl _
  | hA0 hq _ => exact inv_headerByte h hq rfl rfl rfl rfl rfl rfl _
  | hA1 hq _ => exact inv_headerByte h hq rfl rfl rfl rfl rfl rfl _
  | hA2 hq _ => exact inv_hA2 h hq
  | iWp hq => exact inv_of_quiet (q := .iRst1) rfl rfl rfl (by decide) ((h.plain hq rfl).wired.setWp true)
  | iRst1 hq => exact inv_of_quiet (q := .iDly) rfl rfl rfl (by decide) ((h.plain hq rfl).wired.setRst true)
  | iDly hq => exact inv_of_quiet (q := .iRst0) rfl rfl rfl (by decide) (h.plain hq rfl).wired
  | iRst0 hq => exact inv_of_quiet (q := .done) rfl rfl rfl (by decide) ((h.plain hq rfl).wired.setRst false)
  | ep0 hq => exact inv_callPoll (h.plain hq rfl).wired rfl (not_writing rfl)
  | ep1 hq => exact inv_callHeader _ (h.plain hq rfl).wired rfl (by simp) (not_writing rfl)
  | ep2 hq _ => exact inv_of_quiet (q := .done) rfl rfl rfl (by decide) (h.plain hq rfl).wired.closed
  | es0Refused hq _ => exact inv_of_quiet (q := .done) rfl rfl rfl (by decide) (h.plain hq rfl).wired
  | es0 hq _ => exact inv_callPoll (h.plain hq rfl).wired rfl (not_writing rfl)
  | es1 hq => exact inv_callHeader _ (h.plain hq rfl).wired rfl (by simp) (not_writing rfl)
  | es2 hq _ => exact inv_of_quiet (q := .done) rfl rfl rfl (by decide) (h.plain hq rfl).wired.closed
  | w0 hq =>
    exact inv_of_plain (q := .w1) rfl rfl
      ⟨(h.plain hq rfl).wired.setWp false, fun _ => chunkAt_startWrite (setWp false s)⟩
      (counted_of_not_counting (q := .w1) rfl (by decide))
  | w1Ended hq hr =>
    obtain ⟨hw, hchunk⟩ := h.plain hq rfl
    exact inv_callPoll hw rfl fun _ => chunkAt_ended (hchunk rfl) hr
  | w1 hq hr =>
    obtain ⟨hw, hchunk⟩ := h.plain hq rfl
    exact inv_callPoll (s := startChunk s) hw rfl fun _ => chunkAt_startChunk (hchunk rfl) hr
  | w2 hq =>
    obtain ⟨hw, hchunk⟩ := h.plain hq rfl
    exact inv_callHeader (s := startCount s) _ hw rfl (fun _ => rfl) fun _ => chunkAt_inChunk (hchunk rfl) rfl rfl
  | w3 hq _ hn => exact inv_filled h hq hn
  | w3Ended hq _ _ =>
    obtain ⟨hw, hchunk⟩ := h.plain hq rfl
    exact inv_callPoll (s := closed s) hw.closed rfl fun _ => chunkAt_inChunk (hchunk rfl) rfl rfl
  | w4 hq =>
    obtain ⟨hw, hchunk⟩ := h.plain hq rfl
    exact inv_callHeader _ hw rfl (by simp) fun _ => chunkAt_inChunk (hchunk rfl) rfl rfl
  | w5 hq _ =>
    obtain ⟨hw, hchunk⟩ := h.plain hq rfl
    exact inv_of_plain (q := .w1) rfl rfl ⟨hw.closed, fun _ => chunkAt_nextChunk (s := closed s) (hchunk rfl)⟩
      (counted_of_not_counting (q := .w1) rfl (by decide))
  | w6 hq => exact inv_of_quiet (q := .done) rfl rfl rfl (by decide) ((h.plain hq rfl).wired.setWp true)
  | r0 hq => exact inv_callPoll (h.plain hq rfl).wired rfl (not_writing rfl)
  | r1 hq =>
    exact inv_callHeader (s := startCount s) _ (h.plain hq rfl).wired rfl (fun _ => rfl) (not_writing rfl)
  | r2 hq _ hn => exact inv_dummy h hq hn
  | r2Ended hq _ =>
    exact inv_of_plain (q := .r3) rfl rfl ⟨(h.plain hq rfl).wired, not_writing rfl⟩
      (counted_of_reading rfl (Nat.zero_le _))
  | r3 hq _ hn => exact inv_readOne h hq hn
  | r3Ended hq _ _ => exact inv_of_quiet (q := .done) rfl rfl rfl (by decide) (h.plain hq rfl).wired.closed
  | g0 hq _ => exact inv_of_quiet (q := .g1) rfl rfl rfl (by decide) ((h.plain hq rfl).wired.opened .diagId)
  | g1 hq _ =>
    exact inv_of_plain (q := .g2) rfl rfl ⟨(h.plain hq rfl).wired.exchanged _, not_writing rfl⟩
      (counted_of_identifying rfl (Nat.zero_le _))
  | g2 hq _ hk => exact inv_idLatched h hq hk
  | g2Ended hq _ _ => exact inv_of_quiet (q := .g3) rfl rfl rfl (by decide) (h.plain hq rfl).wired.closed
  | g3 hq _ => exact inv_of_quiet (q := .g4) rfl rfl rfl (by decide) ((h.plain hq rfl).wired.opened .diagSr)
  | g4 hq _ => exact inv_of_quiet (q := .g5) rfl rfl rfl (by decide) ((h.plain hq rfl).wired.exchanged _)
  | g5 hq _ => exact inv_of_quiet (q := .g6) rfl rfl rfl (by decide) ((h.plain hq rfl).wired.exchanged _)
  | g6 hq _ => exact inv_of_quiet (q := .g7) rfl rfl rfl (by decide) (h.plain hq rfl).wired.closed
  | g7 hq => exact inv_of_quiet (q := .done) rfl rfl rfl (by decide) (h.plain hq rfl).wired

/-! ## Whole frames at rest -/

/-- What a whole frame keeps of a controller at rest: it is at rest again, with the lines as they were. -/
theorem inv_of_whole_frame (h : Inv s) (hidle : s.seq = .idle) (hseq : t.seq = s.seq)
    (hw : Wired false false .none false false (surface s) → Wired false false .none false false (surface t)) :
    Inv t :=
  inv_of_quiet (q := .idle) (hseq.trans hidle) rfl rfl (by decide) (hw (h.plain hidle rfl).wired)

section
variable {b cs w x : Bool} {o : Owner}

theorem Wired.headerSent (h : Wired b false .none w x (surface s)) (op : Byte) (a : Addr) (o : Owner) :
    Wired b true o w x (surface (headerSent op a o s)) :=
  ((((Wired.opened (s := sending op a s) h o).exchanged _).exchanged _).exchanged _).exchanged _

theorem Wired.fills (h : Wired b cs o w x (surface s)) (data : List Byte) :
    Wired b cs o w x (surface (fills data s)) :=
  fills_keeps (P := fun u => Wired b cs o w x (surface u)) (fun byte _ hu => hu.exchanged byte) data h

theorem Wired.dummies (h : Wired b cs o w x (surface s)) (count : Nat) :
    Wired b cs o w x (surface (dummies count s)) :=
  dummies_keeps (P := fun u => Wired b cs o w x (surface u)) (fun byte _ hu => hu.exchanged byte) count h

theorem Wired.readOne (h : Wired b cs o w x (surface s)) : Wired b cs o w x (surface (readOne s)) :=
  Wired.memWrite (s := Machine.exchanged s.cfg.dummyOut s) (h.exchanged _) s.cnt (answer s)

theorem Wired.readMany (h : Wired b cs o w x (surface s)) (count : Nat) :
    Wired b cs o w x (surface (readMany count s)) :=
  readMany_keeps (P := fun u => Wired b cs o w x (surface u)) (fun _ hu => hu.readOne) count h

theorem Wired.idsLatched (h : Wired b cs o w x (surface s)) (count : Nat) :
    Wired b cs o w x (surface (idsLatched count s)) :=
  idsLatched_keeps (P := fun u => Wired b cs o w x (surface u)) (fun u hu => hu.exchanged u.cfg.dummyOut) count h

end

theorem inv_statusFrameSent (h : Inv s) (hidle : s.seq = .idle) (o : Owner) : Inv (statusFrameSent o s) :=
  inv_of_whole_frame h hidle (by simp [statusFrameSent]) fun hw =>
    Wired.closed (s := latchStatus (answer (exchanged s.cfg.opReadStatus (opened o s)))
      (exchanged s.cfg.dummyOut (exchanged s.cfg.opReadStatus (opened o s))))
      (((hw.opened o).exchanged s.cfg.opReadStatus).exchanged s.cfg.dummyOut)

theorem idFrameSent_seq (s : State) : (idFrameSent s).seq = s.seq :=
  idsLatched_keeps (P := fun u => u.seq = s.seq) (fun u hu => by simpa [idLatched] using hu) 4 (by simp)

theorem inv_idFrameSent (h : Inv s) (hidle : s.seq = .idle) : Inv (idFrameSent s) :=
  inv_of_whole_frame h hidle (idFrameSent_seq s) fun hw =>
    (Wired.idsLatched (s := idOpened s) ((hw.opened .diagId).exchanged s.cfg.opReadId) 4).closed

theorem inv_addressFrameSent (h : Inv s) (hidle : s.seq = .idle) (op : Byte) (a : Addr) (o : Owner) :
    Inv (addressFrameSent op a o s) :=
  inv_of_whole_frame h hidle (by simp [addressFrameSent]) fun hw => (hw.headerSent op a o).closed

theorem inv_fillFrameSent (h : Inv s) (hidle : s.seq = .idle) (a : Addr) (data : List Byte) :
    Inv (fillFrameSent a data s) :=
  inv_of_whole_frame h hidle (congrArg State.seq (unsent_fillFrameSent a data (h.cs.trans (by rw [hidle]; rfl))) :)
    fun hw => ((Wired.headerSent (s := startCount s) hw _ a .fill).fills data).closed

theorem inv_readFrameSent (h : Inv s) (hidle : s.seq = .idle) (a : Addr) (size : Word) :
    Inv (readFrameSent a size s) :=
  inv_of_whole_frame h hidle (congrArg State.seq (unsent_readFrameSent a size (h.cs.trans (by rw [hidle]; rfl))) :)
    fun hw => (Wired.readMany (s := readOpened a s)
      ((Wired.headerSent (s := startCount s) hw _ a .read).dummies _) size.toNat).closed

/-! ## The other agents -/

theorem Inv.seq_of_not_busy (h : Inv s) (hb : s.busy = false) : s.seq = .idle := by
  simpa [h.busy] using hb

/-- A command accepted at rest enters a quiet state of its own (R302). -/
theorem inv_began (h : Inv s) (hb : s.busy = false) {i : Instr} (hi : isCommand i = true) :
    Inv (began (NoLeftovers.firstState i) s) := by
  have hw : Wired true false .none false false (surface (began (NoLeftovers.firstState i) s)) :=
    { (h.plain (h.seq_of_not_busy hb) rfl).wired with busy := rfl }
  rcases NoLeftovers.isCommand_iff.mp hi with rfl | rfl | rfl | rfl | rfl | rfl
  · exact inv_of_quiet (q := .iWp) rfl rfl rfl (by decide) hw
  · exact inv_of_quiet (q := .ep0) rfl rfl rfl (by decide) hw
  · exact inv_of_quiet (q := .es0) rfl rfl rfl (by decide) hw
  · exact inv_of_quiet (q := .w0) rfl rfl rfl (by decide) hw
  · exact inv_of_quiet (q := .r0) rfl rfl rfl (by decide) hw
  · exact inv_of_quiet (q := .g0) rfl rfl rfl (by decide) hw

/-- What `exec` of any instruction does at rest: it accepts a command, ignores a reserved code, sends a whole frame, or
is refused (R302, R103, R114, R93). -/
inductive Executed (s : State) (i : Instr) : Result → Prop
  | accepted (hi : isCommand i = true) : Executed s i (.next (began (NoLeftovers.firstState i) s))
  | ignored : Executed s i (.next s)
  | status : Executed s i (.next (statusFrameSent .poll s))
  | identity : Executed s i (.next (idFrameSent s))
  | address (op : Byte) (hop : op ∈ s.cfg.emitted) (a : Addr) (o : Owner) :
      Executed s i (.next (addressFrameSent op a o s))
  | fill (a : Addr) (data : List Byte) : Executed s i (.next (fillFrameSent a data s))
  | read (a : Addr) (size : Word) : Executed s i (.next (readFrameSent a size s))
  | refused (why : Refusal) : Executed s i (.refused why)

theorem Executed.of_eq {i : Instr} {r r' : Result} (h : r = r') (h' : Executed s i r') : Executed s i r :=
  h ▸ h'

theorem executed_of_rest (hb : s.busy = false) (hcs : s.cs = false) (i : Instr) : Executed s i (exec i s) := by
  have haccept (q : Machine.Seq) : accept q s = .next (began q s) := NoLeftovers.accept_of_not_busy hb
  cases i with
  | init | erasePage | eraseSector | write | read | diagnose =>
    exact .of_eq (haccept _) (.accepted (by decide))
  | reservedHostCode code =>
    have hignore : exec (.reservedHostCode code) s = .next s := by
      simp [exec, execReservedHostCode, whenIdle, hb]
    exact .of_eq hignore .ignored
  | statusRead => exact .of_eq (execStatusRead_of_cs hcs) (.status)
  | idRead => exact .of_eq (execIdRead_of_cs hcs) (.identity)
  | pageErase a => exact .of_eq (addressFrame_of_cs hcs) (.address _ (by simp [Cfg.emitted]) a .erase)
  | sectorErase a => exact .of_eq (addressFrame_of_cs hcs) (.address _ (by simp [Cfg.emitted]) a .erase)
  | buf1CommitErase a => exact .of_eq (addressFrame_of_cs hcs) (.address _ (by simp [Cfg.emitted]) a .commit)
  | buf1Write a data => exact .of_eq (execBuf1Write_of_cs hcs) (.fill a data)
  | arrayRead a size => exact .of_eq (execArrayRead_of_cs hcs) (.read a size)
  | chipErase | buf2Write | buf1CommitNoerase | pageToBuf1 | pageToBuf2 | powerDown | resume | readSecurity =>
    exact .refused _

theorem Inv.cs_of_not_busy (h : Inv s) (hb : s.busy = false) : s.cs = false := by
  rw [h.cs, h.seq_of_not_busy hb]
  rfl

theorem Inv.executed (h : Inv s) (hb : s.busy = false) (i : Instr) : Executed s i (exec i s) :=
  executed_of_rest hb (h.cs_of_not_busy hb) i

theorem inv_exec (h : Inv s) (hb : s.busy = false) {i : Instr} (hexec : exec i s = .next t) : Inv t := by
  have hidle := h.seq_of_not_busy hb
  have hcase := h.executed hb i
  rw [hexec] at hcase
  cases hcase with
  | accepted hi => exact inv_began h hb hi
  | ignored => exact h
  | status => exact inv_statusFrameSent h hidle .poll
  | identity => exact inv_idFrameSent h hidle
  | address op _ a o => exact inv_addressFrameSent h hidle op a o
  | fill a data => exact inv_fillFrameSent h hidle a data
  | read a size => exact inv_readFrameSent h hidle a size

/-- The invariant does not speak of the moves to come, the free answers, the events and the reads. -/
theorem inv_of_record (h : Inv s) (moves : List Move) (answers : List Byte) (draws : Nat) (trace : List Event)
    (reads : List HostRead) :
    Inv { s with moves := moves, answers := answers, draws := draws, trace := trace, reads := reads } := by
  obtain ⟨h1, h2, h3, h4, h5, h6, h7, h8, h9, h10, h11, h12, h13, h14, h15, h16, h17, h18, h19, h20, h21⟩ := h
  exact ⟨h1, h2, h3, h4, h5, h6, h7, h8, h9, h10, h11,
    fun hw => (chunkInv_iff _).mpr ((chunkInv_iff s).mp (h12 hw)), h13, h14, h15, h16, h17, h18, h19, h20, h21⟩

theorem inv_takeMove (h : Inv s) (rest : List Move) : Inv (takeMove rest s) :=
  inv_of_record h rest s.answers s.draws s.trace s.reads

theorem inv_recordRead (h : Inv s) (r : HostRead) : Inv (recordRead r s) :=
  inv_of_record h s.moves s.answers s.draws s.trace (s.reads ++ [r])

theorem inv_drawn (h : Inv s) : Inv (drawn s) :=
  inv_of_record h s.moves s.answers.tail (if s.answers.isEmpty then s.draws + 1 else s.draws) s.trace s.reads

theorem inv_loadBuffer (h : Inv s) (i : Word) (v : Byte) : Inv (loadBuffer i v s) := by
  obtain ⟨h1, h2, h3, h4, h5, h6, h7, h8, h9, h10, h11, h12, h13, h14, h15, h16, h17, h18, h19, h20, h21⟩ := h
  exact ⟨h1, h2, h3, h4, h5, h6, h7, h8, h9, h10, h11,
    fun hw => (chunkInv_iff _).mpr ((chunkInv_iff s).mp (h12 hw)), h13, h14, h15, h16, h17, h18,
    Memory.write_wf h19 i.toNat v, h20, h21⟩

/-- The chip's own move keeps its frame and its memories' form (R91). -/
theorem inv_chipDone (h : Inv s) : Inv (chipDone s) := by
  have hbytes : frameBytes (chipDone s) = frameBytes s := by simp [frameBytes]
  have hsent : dummiesSent (chipDone s) = dummiesSent s := by rw [dummiesSent, hbytes]; rfl
  obtain ⟨h1, h2, h3, h4, h5, h6, h7, h8, h9, h10, h11, h12, h13, h14, h15, h16, h17, h18, h19, h20, h21⟩ := h
  exact ⟨h1, h2, h3, h4, by simpa using h5, h6, h7, h8, h9, h10, by rw [hbytes]; exact h11,
    fun hw => (chunkInv_iff _).mpr ((chunkInv_iff s).mp (h12 hw)), h13, by rw [hsent]; exact h14,
    by rw [hbytes, hsent]; exact h15, by rw [hsent]; exact h16, h17, h18, h19, Dev.complete_array_wf h20,
    by simpa using h21⟩

theorem inv_controllerReset (h : Inv s) : Inv (controllerReset s) := by
  refine inv_of_quiet (q := .idle) rfl rfl rfl (by decide) ?_
  cases hb : s.busy with
  | true =>
    have hdev : (controllerReset s).dev = s.dev.abandon s.cfg := if_pos hb
    exact
      { cfg := h.cfg, busy := rfl, cs := rfl, own := rfl, wp := rfl, rst := rfl, hbuf := h.hbuf
        frame := by rw [surface, hdev, Dev.abandon_frame]; rfl
        array := by rw [surface, hdev]; exact Dev.abandon_array_wf h.array s.cfg
        buf1 := by rw [surface, hdev]; exact Dev.abandon_buf1_wf h.buf1 s.cfg }
  | false =>
    have hdev : (controllerReset s).dev = s.dev := if_neg (by simp [hb])
    exact
      { cfg := h.cfg, busy := rfl, cs := rfl, own := rfl, wp := rfl, rst := rfl, hbuf := h.hbuf
        frame := by rw [surface, hdev]; exact h.frame.trans (h.cs_of_not_busy hb)
        array := by rw [surface, hdev]; exact h.array
        buf1 := by rw [surface, hdev]; exact h.buf1 }

/-- The argument registers are read by the invariant inside a WRITE only. -/
theorem inv_of_rest (h : Inv s) (hb : s.busy = false) (hseq : t.seq = s.seq) (hsurface : surface t = surface s) :
    Inv t :=
  inv_of_whole_frame h (h.seq_of_not_busy hb) hseq fun hw => by rwa [hsurface]

/-- What a host step can do (R29 to R31, R61). -/
inductive HostDone (s : State) : State → Prop
  | executed (i : Instr) {t : State} (hb : s.busy = false) (h : exec i s = .next t) : HostDone s t
  | loaded {t : State} (hb : s.busy = false) (hseq : t.seq = s.seq) (h : surface t = surface s)
      (htrace : t.trace = s.trace) : HostDone s t
  | registerRead (r : HostRead) : HostDone s (recordRead r s)
  | freeRead (r : HostRead) : HostDone s (recordRead r (drawn s))
  | stored (i : Word) (v : Byte) : HostDone s (loadBuffer i v s)

theorem whenIdle_eq_next {r : Result} : whenIdle s r = .next t ↔ s.busy = false ∧ r = .next t := by
  cases h : s.busy <;> simp [whenIdle, h]

theorem hostDone_of_writeRegister {number : Nat} {v : Word} (hb : s.busy = false)
    (h : writeRegister number v s = .next t) : HostDone s t := by
  unfold writeRegister at h
  split at h
  · exact .executed _ hb h
  · cases h; exact .loaded hb rfl rfl rfl
  · cases h; exact .loaded hb rfl rfl rfl
  · cases h; exact .loaded hb rfl rfl rfl
  · cases h; exact .loaded hb rfl rfl rfl
  all_goals cases h

theorem hostDone_of_readRegister {number : Nat} (h : readRegister number s = .next t) : HostDone s t := by
  unfold readRegister at h
  split at h
  · cases h; exact .registerRead _
  · split at h
    · cases h; exact .freeRead _
    · cases h

theorem hostDone_of_hostStep {op : HostOp} (h : hostStep op s = .next t) : HostDone s t := by
  cases op with
  | write number v =>
    obtain ⟨hb, hwrite⟩ := whenIdle_eq_next.mp h
    exact hostDone_of_writeRegister hb hwrite
  | read number =>
    rw [hostStep] at h
    split at h
    · exact hostDone_of_readRegister h
    · exact hostDone_of_readRegister (whenIdle_eq_next.mp h).2
  | bufWrite i v => cases h; exact .stored i v
  | bufRead i =>
    cases h
    unfold readBuffer
    split
    · exact .registerRead _
    · exact .freeRead _

theorem inv_hostDone (h : Inv s) (hdone : HostDone s t) : Inv t := by
  cases hdone with
  | executed i hb hexec => exact inv_exec h hb hexec
  | loaded hb hseq hsurface _ => exact inv_of_rest h hb hseq hsurface
  | registerRead r => exact inv_recordRead h r
  | freeRead r => exact inv_recordRead (inv_drawn h) r
  | stored i v => exact inv_loadBuffer h i v

/-- A frame move that completes is `exec` of what it decodes to, at rest (log 10). -/
theorem exec_of_frameMove {bytes : List Byte} (h : frameMove bytes s = .next t) :
    s.busy = false ∧ ∃ i, exec i s = .next t := by
  unfold frameMove at h
  split at h
  · cases h
  · rename_i hb
    split at h
    · exact ⟨hb, _, h⟩
    · cases h

theorem inv_runMove (h : Inv s) {m : Move} (hmove : runMove m s = .next t) : Inv t := by
  cases m with
  | controller => exact inv_of_row h (row_of_seqStep hmove)
  | chipReady => cases hmove; exact inv_chipDone h
  | reset => cases hmove; exact inv_controllerReset h
  | host op => exact inv_hostDone h (hostDone_of_hostStep hmove)
  | frame bytes =>
    obtain ⟨hb, i, hexec⟩ := exec_of_frameMove hmove
    exact inv_exec h hb hexec

theorem inv_step (h : Inv s) (hstep : step s = .next t) : Inv t := by
  cases hm : s.moves with
  | nil =>
    rw [step_of_no_move hm] at hstep
    exact inv_of_row h (row_of_seqStep hstep)
  | cons m rest =>
    rw [step_of_move hm] at hstep
    exact inv_runMove (inv_takeMove h rest) hstep

end Sys2Proof.Safety

namespace Sys2Proof.Invariant

open Sys2Proof.Machine Sys2Proof.Safety

/-- Settles O53, by the agents; the controller's step by the rows of its tables. -/
theorem stepKeepsInvariant : Obligations.StepKeepsInvariant := by
  unfold Obligations.StepKeepsInvariant
  exact fun s t h hstep => inv_step h hstep

/-- Settles O52: the reset state is at rest. -/
theorem resetMeetsInvariant : Obligations.ResetMeetsInvariant := by
  unfold Obligations.ResetMeetsInvariant
  have hw : Wired false false .none false false (surface State.reset) :=
    ⟨by decide, rfl, rfl, rfl, rfl, rfl, rfl, Memory.wf_nil, Memory.wf_nil, Memory.wf_nil⟩
  exact ⟨inv_of_quiet (q := .idle) rfl rfl rfl (by decide) hw, rfl⟩

end Sys2Proof.Invariant
end

section
/-! PROOFS. O54 to O57: from the invariant the controller always has a row; what a row emits; and the grammar of the
bus. -/

namespace Sys2Proof.Safety

open Sys2Proof.Machine

variable {s t : State} {q : Machine.Seq}

/-! ## The controller always has a row -/

theorem Inv.cs_of_seq (h : Inv s) (hq : s.seq = q) : s.cs = selectedIn q :=
  h.cs.trans (by rw [hq])

theorem Inv.owner_of_hSel (h : Inv s) (hq : s.seq = .hSel) : ∃ o, ownerOf s.cfg s.cop = some o :=
  Option.isSome_iff_exists.mp (owner_of_headerOpcode h.cfg (h.hret (by rw [hq]; rfl))).2

theorem exists_row (h : Inv s) : ∃ t, Row s t := by
  cases hq : s.seq with
  | idle => exact ⟨_, .idle hq⟩
  | done => exact ⟨_, .done hq⟩
  | pSel => exact ⟨_, .pSel hq (h.cs_of_seq hq)⟩
  | pOp => exact ⟨_, .pOp hq (h.cs_of_seq hq)⟩
  | pRd => exact ⟨_, .pRd hq (h.cs_of_seq hq)⟩
  | pDes => exact ⟨_, .pDes hq (h.cs_of_seq hq)⟩
  | pTst => exact ⟨_, .pTst hq⟩
  | hSel =>
    obtain ⟨o, ho⟩ := h.owner_of_hSel hq
    exact ⟨_, .hSel o hq (h.cs_of_seq hq) ho⟩
  | hOp => exact ⟨_, .hOp hq (h.cs_of_seq hq)⟩
  | hA0 => exact ⟨_, .hA0 hq (h.cs_of_seq hq)⟩
  | hA1 => exact ⟨_, .hA1 hq (h.cs_of_seq hq)⟩
  | hA2 => exact ⟨_, .hA2 hq (h.cs_of_seq hq)⟩
  | iWp => exact ⟨_, .iWp hq⟩
  | iRst1 => exact ⟨_, .iRst1 hq⟩
  | iDly => exact ⟨_, .iDly hq⟩
  | iRst0 => exact ⟨_, .iRst0 hq⟩
  | ep0 => exact ⟨_, .ep0 hq⟩
  | ep1 => exact ⟨_, .ep1 hq⟩
  | ep2 => exact ⟨_, .ep2 hq (h.cs_of_seq hq)⟩
  | es0 =>
    cases hz : sectorRefused s.sector with
    | true => exact ⟨_, .es0Refused hq hz⟩
    | false => exact ⟨_, .es0 hq hz⟩
  | es1 => exact ⟨_, .es1 hq⟩
  | es2 => exact ⟨_, .es2 hq (h.cs_of_seq hq)⟩
  | w0 => exact ⟨_, .w0 hq⟩
  | w1 =>
    by_cases hr : s.rem = 0#16
    · exact ⟨_, .w1Ended hq hr⟩
    · exact ⟨_, .w1 hq hr⟩
  | w2 => exact ⟨_, .w2 hq⟩
  | w3 =>
    obtain hn | hn := Nat.lt_or_eq_of_le (h.fill hq)
    · exact ⟨_, .w3 hq (h.cs_of_seq hq) hn⟩
    · exact ⟨_, .w3Ended hq (h.cs_of_seq hq) (BitVec.eq_of_toNat_eq hn)⟩
  | w4 => exact ⟨_, .w4 hq⟩
  | w5 => exact ⟨_, .w5 hq (h.cs_of_seq hq)⟩
  | w6 => exact ⟨_, .w6 hq⟩
  | r0 => exact ⟨_, .r0 hq⟩
  | r1 => exact ⟨_, .r1 hq⟩
  | r2 =>
    obtain hn | hn := Nat.lt_or_eq_of_le (h.dummies hq)
    · exact ⟨_, .r2 hq (h.cs_of_seq hq) hn⟩
    · exact ⟨_, .r2Ended hq hn⟩
  | r3 =>
    obtain hn | hn := Nat.lt_or_eq_of_le (h.data hq)
    · exact ⟨_, .r3 hq (h.cs_of_seq hq) hn⟩
    · exact ⟨_, .r3Ended hq (h.cs_of_seq hq) (BitVec.eq_of_toNat_eq hn)⟩
  | g0 => exact ⟨_, .g0 hq (h.cs_of_seq hq)⟩
  | g1 => exact ⟨_, .g1 hq (h.cs_of_seq hq)⟩
  | g2 =>
    obtain hk | hk := Nat.lt_or_eq_of_le (h.identity hq)
    · exact ⟨_, .g2 hq (h.cs_of_seq hq) hk⟩
    · exact ⟨_, .g2Ended hq (h.cs_of_seq hq) (BitVec.eq_of_toNat_eq hk)⟩
  | g3 => exact ⟨_, .g3 hq (h.cs_of_seq hq)⟩
  | g4 => exact ⟨_, .g4 hq (h.cs_of_seq hq)⟩
  | g5 => exact ⟨_, .g5 hq (h.cs_of_seq hq)⟩
  | g6 => exact ⟨_, .g6 hq (h.cs_of_seq hq)⟩
  | g7 => exact ⟨_, .g7 hq⟩

/-! ## No agent's step is a fault -/

/-- The result is no fault of the model. -/
def NoFault (r : Result) : Prop :=
  ∀ e, r ≠ .fault e

theorem noFault_next (s : State) : NoFault (.next s) := fun _ => by simp
theorem noFault_refused (e : Refusal) : NoFault (.refused e) := fun _ => by simp

theorem noFault_exec (h : Inv s) (hb : s.busy = false) (i : Instr) : NoFault (exec i s) := by
  have hcase := h.executed hb i
  generalize exec i s = r at hcase
  cases hcase with
  | refused why => exact noFault_refused why
  | _ => exact noFault_next _

theorem noFault_whenIdle {r : Result} (hr : s.busy = false → NoFault r) : NoFault (whenIdle s r) := by
  unfold whenIdle
  split
  next hb => exact hr hb
  next => exact noFault_refused _

theorem noFault_writeRegister (h : Inv s) (hb : s.busy = false) (number : Nat) (v : Word) :
    NoFault (writeRegister number v s) := by
  unfold writeRegister
  split
  · exact noFault_exec h hb _
  all_goals first | exact noFault_next _ | exact noFault_refused _

theorem noFault_readRegister (number : Nat) (s : State) : NoFault (readRegister number s) := by
  unfold readRegister
  split
  · exact noFault_next _
  · split
    · exact noFault_next _
    · exact noFault_refused _

theorem noFault_hostStep (h : Inv s) (op : HostOp) : NoFault (hostStep op s) := by
  cases op with
  | write number v => exact noFault_whenIdle fun hb => noFault_writeRegister h hb number v
  | read number =>
    rw [hostStep]
    split
    · exact noFault_readRegister number s
    · exact noFault_whenIdle fun _ => noFault_readRegister number s
  | bufWrite i v => exact noFault_next _
  | bufRead i => exact noFault_next _

theorem noFault_frameMove (h : Inv s) (bytes : List Byte) : NoFault (frameMove bytes s) := by
  unfold frameMove
  split
  next => exact noFault_refused _
  next hb =>
    split
    · exact noFault_exec h hb _
    · exact noFault_refused _

theorem noFault_seqStep (h : Inv s) : NoFault (seqStep s) := by
  obtain ⟨t, hrow⟩ := exists_row h
  rw [seqStep_of_row hrow]
  exact noFault_next t

theorem noFault_step (h : Inv s) : NoFault (step s) := by
  cases hm : s.moves with
  | nil => rw [step_of_no_move hm]; exact noFault_seqStep h
  | cons m rest =>
    have h' := inv_takeMove h rest
    rw [step_of_move hm]
    cases m with
    | controller => exact noFault_seqStep h'
    | chipReady => exact noFault_next _
    | reset => exact noFault_next _
    | host op => exact noFault_hostStep h' op
    | frame bytes => exact noFault_frameMove h' bytes

/-! ## What a row emits (R301) -/

/-- The events of one step of the controller, and the level of chip-select each needs. -/
inductive Emits (s : State) : List Event → Prop
  | nothing : Emits s []
  | sel (hc : s.cs = false) : Emits s [.sel]
  | des (hc : s.cs = true) : Emits s [.des]
  | x (out inp : Byte) (hc : s.cs = true) : Emits s [.x out inp]
  | filled (i : Word) (v inp : Byte) (hc : s.cs = true) : Emits s [.hrd i v, .x v inp]
  | read (i : Word) (v out : Byte) (hc : s.cs = true) : Emits s [.x out v, .hwr i v]
  | wp (level : Bool) : Emits s [.wp level]
  | rst (level : Bool) : Emits s [.rst level]
  | delay (ms : Nat) : Emits s [.delay ms]

theorem filled_trace (s : State) :
    (filled s).trace = s.trace ++
      [.hrd (s.idx + s.cnt) (hostByte s (s.idx + s.cnt)),
        .x (hostByte s (s.idx + s.cnt)) (answer (memRead (s.idx + s.cnt) s))] := by
  simp [filled]

theorem readOne_trace (s : State) :
    (readOne s).trace = s.trace ++ [.x s.cfg.dummyOut (answer s), .hwr s.cnt (answer s)] := by
  simp [readOne]

theorem emits_of_row (hrow : Row s t) : ∃ new, t.trace = s.trace ++ new ∧ Emits s new := by
  cases hrow with
  | idle | done | pTst | ep0 | ep1 | es0Refused | es0 | es1 | w1Ended | w1 | w2 | w4 | r0 | r1 | r2Ended | g7 =>
    exact ⟨[], (List.append_nil _).symm, .nothing⟩
  | pSel _ hc | hSel _ _ hc | g0 _ hc | g3 _ hc => exact ⟨[.sel], rfl, .sel hc⟩
  | pDes _ hc | ep2 _ hc | es2 _ hc | w3Ended _ hc | w5 _ hc | r3Ended _ hc | g2Ended _ hc | g6 _ hc =>
    exact ⟨[.des], rfl, .des hc⟩
  | pOp _ hc | pRd _ hc | hOp _ hc | hA0 _ hc | hA1 _ hc | hA2 _ hc | r2 _ hc | g1 _ hc | g4 _ hc | g5 _ hc =>
    exact ⟨_, exchanged_trace _ s, .x _ _ hc⟩
  | g2 _ hc => exact ⟨_, idLatched_trace s, .x _ _ hc⟩
  | w3 _ hc => exact ⟨_, filled_trace s, .filled _ _ _ hc⟩
  | r3 _ hc => exact ⟨_, readOne_trace s, .read _ _ _ hc⟩
  | iWp | w6 | w0 => exact ⟨[.wp _], rfl, .wp _⟩
  | iRst1 | iRst0 => exact ⟨[.rst _], rfl, .rst _⟩
  | iDly => exact ⟨[.delay _], rfl, .delay _⟩

/-! ## The owner of the bus (R34, R144) -/

theorem ownerOf_ne_none (c : Cfg) (op : Byte) : ownerOf c op ≠ some .none := by
  unfold ownerOf
  repeat' split
  all_goals decide

theorem ownerAt_eq_none_iff {c : Cfg} {cop : Byte}
    (h : inHeader q = true → ∃ o, ownerOf c cop = some o) : ownerAt c cop q = .none ↔ selectedIn q = false := by
  have hne := ownerOf_ne_none c cop
  cases q with
  | hOp | hA0 | hA1 | hA2 =>
    obtain ⟨o, ho⟩ := h rfl
    simp [ownerAt, selectedIn, ho] at hne ⊢
    exact hne
  | _ => simp [ownerAt, selectedIn]

theorem Inv.own_eq_none_iff (h : Inv s) : s.own = .none ↔ s.cs = false := by
  rw [h.own, ownerIn_eq, h.cs]
  exact ownerAt_eq_none_iff fun hh =>
    Option.isSome_iff_exists.mp (owner_of_headerOpcode h.cfg (h.hret hh)).2

theorem selectedIn_iff : selectedIn q = true ↔ q ∈ [Machine.Seq.pOp, .pRd, .pDes, .hOp, .hA0, .hA1, .hA2, .ep2, .es2,
    .w3, .w5, .r2, .r3, .g1, .g2, .g4, .g5, .g6] := by
  cases q <;> decide

/-! ## The grammar of the bus (R110, R143) -/

theorem phaseOf_append (c : Cfg) (old new : List Event) :
    phaseOf c (old ++ new) = new.foldl (advance c) (phaseOf c old) :=
  List.foldl_append

/-- A step of the controller whose events lead from the phase of its state to that of the next. -/
theorem phase_of_events (hp : phaseOf s.cfg s.trace = some (phaseIn s.seq)) (hq : s.seq = q) (new : List Event)
    (hcfg : t.cfg = s.cfg) (htrace : t.trace = s.trace ++ new)
    (hnew : new.foldl (advance s.cfg) (some (phaseIn q)) = some (phaseIn t.seq)) :
    phaseOf t.cfg t.trace = some (phaseIn t.seq) := by
  rw [hcfg, htrace, phaseOf_append, hp, hq, hnew]

/-- A step without an event, between two states of one phase. -/
theorem phase_of_silence (hp : phaseOf s.cfg s.trace = some (phaseIn s.seq)) (hq : s.seq = q) (hcfg : t.cfg = s.cfg)
    (htrace : t.trace = s.trace) (hphase : phaseIn q = phaseIn t.seq) :
    phaseOf t.cfg t.trace = some (phaseIn t.seq) := by
  rw [hcfg, htrace, hp, hq, hphase]

/-- The first byte of a frame is one of the seven opcodes. -/
theorem advance_opcode {c : Cfg} {op : Byte} (inp : Byte) (hop : op ∈ c.emitted) :
    [Event.x op inp].foldl (advance c) (some .opening) = some .inside :=
  if_pos hop

theorem mem_emitted_of_headerOpcode {c : Cfg} {op : Byte} (h : headerOpcode c q = some op) : op ∈ c.emitted := by
  unfold headerOpcode at h
  split at h <;> cases h <;> simp [Cfg.emitted]

theorem phaseIn_of_isPollReturn (h : isPollReturn q = true) : phaseIn q = .quiet := by
  rw [phaseIn, (quiet_of_isPollReturn h).1]
  rfl

theorem phaseIn_of_headerOpcode {c : Cfg} {op : Byte} (h : headerOpcode c q = some op) : phaseIn q = .inside := by
  have hr := isHeaderReturn_of_headerOpcode h
  simp only [NoLeftovers.isHeaderReturn, List.mem_cons, List.not_mem_nil, or_false, decide_eq_true_eq] at hr
  rcases hr with rfl | rfl | rfl | rfl | rfl <;> rfl

/-- Every row keeps the grammar: its events lead from its state's phase to the next one's. -/
theorem phase_of_row (h : Inv s) (hrow : Row s t) (hp : phaseOf s.cfg s.trace = some (phaseIn s.seq)) :
    phaseOf t.cfg t.trace = some (phaseIn t.seq) := by
  cases hrow with
  | idle => exact hp
  | done hq | ep0 hq | ep1 hq | es0Refused hq | es0 hq | es1 hq | w1Ended hq | w1 hq | w2 hq | w4 hq | r0 hq | r1 hq
  | r2Ended hq | g7 hq => exact phase_of_silence hp hq rfl rfl rfl
  | pTst hq =>
    refine phase_of_silence hp hq rfl rfl ?_
    rw [goto_seq]
    split
    · exact (phaseIn_of_isPollReturn (h.ret (by rw [hq]; rfl))).symm
    · rfl
  | pSel hq | hSel _ hq | g0 hq | g3 hq => exact phase_of_events hp hq [.sel] rfl rfl rfl
  | pDes hq | ep2 hq | es2 hq | w3Ended hq | w5 hq | r3Ended hq | g2Ended hq | g6 hq =>
    exact phase_of_events hp hq [.des] rfl rfl rfl
  | pOp hq | g1 hq | g4 hq =>
    exact phase_of_events hp hq _ (by simp) (exchanged_trace _ s) (advance_opcode _ (by simp [Cfg.emitted]))
  | hOp hq =>
    exact phase_of_events hp hq _ (by simp) (exchanged_trace _ s)
      (advance_opcode _ (mem_emitted_of_headerOpcode (h.hret (by rw [hq]; rfl))))
  | pRd hq | hA0 hq | hA1 hq | g5 hq =>
    exact phase_of_events hp hq _ (by simp) (exchanged_trace _ s) rfl
  | hA2 hq =>
    refine phase_of_events hp hq _ (by simp) (exchanged_trace _ s) ?_
    rw [goto_seq, phaseIn_of_headerOpcode (h.hret (by rw [hq]; rfl))]
    rfl
  | r2 hq => exact phase_of_events hp hq _ (by simp) (exchanged_trace _ s) (by simp [hq]; rfl)
  | g2 hq => exact phase_of_events hp hq _ (by simp [idLatched]) (idLatched_trace s) (by simp [idLatched, hq]; rfl)
  | w3 hq =>
    exact phase_of_events hp hq _ (by simp [filled]) (filled_trace s) (by simp [filled, hq]; rfl)
  | r3 hq =>
    exact phase_of_events hp hq _ (readOne_cfg s) (readOne_trace s) (by simp [readOne, hq]; rfl)
  | iWp hq | w6 hq | w0 hq => exact phase_of_events hp hq [.wp _] rfl rfl rfl
  | iRst1 hq | iRst0 hq => exact phase_of_events hp hq [.rst _] rfl rfl rfl
  | iDly hq => exact phase_of_events hp hq [.delay _] rfl rfl rfl

theorem advance_of_isData {c : Cfg} {e : Event} (h : isData e = true) : advance c (some .inside) e = some .inside := by
  cases e with
  | x | hrd | hwr => rfl
  | _ => cases h

theorem foldl_advance_of_isData {c : Cfg} {inside : List Event} (h : ∀ e ∈ inside, isData e = true) :
    inside.foldl (advance c) (some .inside) = some .inside := by
  induction inside with
  | nil => rfl
  | cons e inside ih =>
    obtain ⟨he, hrest⟩ := List.forall_mem_cons.mp h
    rw [List.foldl_cons, advance_of_isData he, ih hrest]

/-- A whole transaction of an emitted opcode leads from quiet to quiet. -/
theorem phase_of_transacted {op : Byte} {bytes : List Byte} (hp : phaseOf s.cfg s.trace = some .quiet)
    (hop : op ∈ s.cfg.emitted) (ht : Transacted s t op bytes) : phaseOf s.cfg t.trace = some .quiet := by
  obtain ⟨inp, inside, htrace, hsends, -, -⟩ := ht
  have hopen : advance s.cfg (some .opening) (.x op inp) = some .inside := if_pos hop
  rw [htrace, List.append_assoc, phaseOf_append, hp, List.cons_append, List.cons_append, List.foldl_cons,
    List.foldl_cons, List.foldl_append]
  show List.foldl _ (List.foldl _ (advance s.cfg (some .opening) (.x op inp)) inside) [Event.des] = _
  rw [hopen, foldl_advance_of_isData hsends.data]
  rfl

/-- At rest the phase is quiet, before and after. -/
theorem phase_of_rest (hidle : s.seq = .idle) (hp : phaseOf s.cfg s.trace = some (phaseIn s.seq)) :
    phaseOf s.cfg s.trace = some .quiet := by
  rw [hp, hidle]
  rfl

theorem phase_of_whole_frame {op : Byte} {bytes : List Byte} (hidle : s.seq = .idle)
    (hp : phaseOf s.cfg s.trace = some (phaseIn s.seq)) (hop : op ∈ s.cfg.emitted) (ht : Transacted s t op bytes)
    (hcfg : t.cfg = s.cfg) (hseq : t.seq = s.seq) : phaseOf t.cfg t.trace = some (phaseIn t.seq) := by
  rw [hcfg, hseq, hidle]
  exact phase_of_transacted (phase_of_rest hidle hp) hop ht

theorem idFrameSent_cfg (s : State) : (idFrameSent s).cfg = s.cfg := by
  simp [idFrameSent_eq]

theorem phase_of_exec {i : Instr} (h : Inv s) (hb : s.busy = false)
    (hp : phaseOf s.cfg s.trace = some (phaseIn s.seq)) (hexec : exec i s = .next t) :
    phaseOf t.cfg t.trace = some (phaseIn t.seq) := by
  have hidle := h.seq_of_not_busy hb
  have hcs := h.cs_of_not_busy hb
  have hcase := h.executed hb i
  rw [hexec] at hcase
  cases hcase with
  | accepted hi =>
    refine phase_of_silence hp hidle rfl rfl ?_
    rcases NoLeftovers.isCommand_iff.mp hi with rfl | rfl | rfl | rfl | rfl | rfl <;> rfl
  | ignored => exact hp
  | status =>
    exact phase_of_whole_frame hidle hp (by simp [Cfg.emitted]) (transacted_statusFrameSent .poll s)
      (statusFrameSent_cfg .poll s) (by simp [statusFrameSent])
  | identity =>
    exact phase_of_whole_frame hidle hp (by simp [Cfg.emitted]) (transacted_idFrameSent s) (idFrameSent_cfg s)
      (idFrameSent_seq s)
  | address op hop a o =>
    exact phase_of_whole_frame hidle hp hop (transacted_addressFrameSent op a o s) (by simp [addressFrameSent])
      (by simp [addressFrameSent])
  | fill a data =>
    have hkeep := unsent_fillFrameSent a data hcs
    exact phase_of_whole_frame hidle hp (by simp [Cfg.emitted]) (transacted_fillFrameSent a data s)
      (congrArg State.cfg hkeep :) (congrArg State.seq hkeep :)
  | read a size =>
    have hkeep := unsent_readFrameSent a size hcs
    exact phase_of_whole_frame hidle hp (by simp [Cfg.emitted]) (transacted_readFrameSent a size s)
      (congrArg State.cfg hkeep :) (congrArg State.seq hkeep :)

theorem phase_of_hostDone (h : Inv s) (hdone : HostDone s t) (hp : phaseOf s.cfg s.trace = some (phaseIn s.seq)) :
    phaseOf t.cfg t.trace = some (phaseIn t.seq) := by
  cases hdone with
  | executed i hb hexec => exact phase_of_exec h hb hp hexec
  | loaded _ hseq hsurface htrace =>
    have hcfg : t.cfg = s.cfg := congrArg Surface.cfg hsurface
    rw [hcfg, htrace, hseq, hp]
  | registerRead | freeRead | stored => exact hp

theorem phase_of_runMove {m : Move} (h : Inv s) (hp : phaseOf s.cfg s.trace = some (phaseIn s.seq))
    (hreset : ¬(s.busy = true ∧ m = .reset)) (hmove : runMove m s = .next t) :
    phaseOf t.cfg t.trace = some (phaseIn t.seq) := by
  cases m with
  | controller => exact phase_of_row h (row_of_seqStep hmove) hp
  | chipReady => cases hmove; exact hp
  | reset =>
    cases hmove
    have hb : s.busy = false := by simpa using hreset
    exact phase_of_rest (s := s) (h.seq_of_not_busy hb) hp
  | host op => exact phase_of_hostDone h (hostDone_of_hostStep hmove) hp
  | frame bytes =>
    obtain ⟨hb, i, hexec⟩ := exec_of_frameMove hmove
    exact phase_of_exec h hb hp hexec

end Sys2Proof.Safety

namespace Sys2Proof.Invariant

open Sys2Proof.Machine Sys2Proof.Safety

/-- Settles O57, by the agents; the controller's step by the rows of its tables, a frame as one whole transaction. -/
theorem stepKeepsBusGrammar : Obligations.StepKeepsBusGrammar := by
  unfold Obligations.StepKeepsBusGrammar
  intro s t h hp hreset hstep
  cases hm : s.moves with
  | nil =>
    rw [step_of_no_move hm] at hstep
    exact phase_of_row h (row_of_seqStep hstep) hp
  | cons m rest =>
    rw [step_of_move hm] at hstep
    refine phase_of_runMove (s := takeMove rest s) (inv_takeMove h rest) hp (fun ⟨hb, hr⟩ => hreset ⟨hb, ?_⟩) hstep
    rw [hm, hr]
    rfl

/-- Settles O54, by the agents; the controller has a row by `exists_row`. -/
theorem noStepFaults : Obligations.NoStepFaults := by
  unfold Obligations.NoStepFaults
  intro s h
  obtain ⟨t, hrow⟩ := exists_row h
  exact ⟨noFault_step h, t, seqStep_of_row hrow⟩

/-- Settles O55: the row that the invariant gives, and what a row emits. -/
theorem chipSelectStatesAndOwner : Obligations.ChipSelectStatesAndOwner := by
  unfold Obligations.ChipSelectStatesAndOwner
  intro s h
  obtain ⟨t, hrow⟩ := exists_row h
  obtain ⟨new, htrace, hnew⟩ := emits_of_row hrow
  refine ⟨by rw [h.cs]; exact selectedIn_iff, h.own_eq_none_iff, t, new, seqStep_of_row hrow, htrace, ?_⟩
  cases hnew with
  | nothing | wp | rst | delay => simp [sentBytes]
  | sel hc | des hc | x _ _ hc | filled _ _ _ hc | read _ _ _ hc => simp [sentBytes, hc]

/-- Settles O56: what a row emits. -/
theorem oneEventAStep : Obligations.OneEventAStep := by
  unfold Obligations.OneEventAStep
  intro s t hstep
  obtain ⟨new, htrace, hnew⟩ := emits_of_row (row_of_seqStep hstep)
  refine ⟨new, htrace, ?_⟩
  cases hnew with
  | nothing => exact .inl rfl
  | sel | des | x | wp | rst | delay => exact .inr (.inl ⟨_, rfl, by simp, by simp⟩)
  | filled i v inp => exact .inr (.inr (.inl ⟨i, v, inp, rfl⟩))
  | read i v out => exact .inr (.inr (.inr ⟨i, v, out, rfl⟩))

end Sys2Proof.Invariant
end

section
/-! PROOFS. O2, O3, O5: the address codec as one 24-bit number, its inverse on the geometry, and the sector's
addresses. -/

namespace Sys2Proof.Machine

/-! ## The 24-bit address (R161) -/

theorem addrBits_toNat (a : Addr) :
    (addrBits a).toNat = a.a0.toNat * 65536 + a.a1.toNat * 256 + a.a2.toNat := by
  have h1 := a.a1.isLt
  have h2 := a.a2.isLt
  simp only [addrBits, BitVec.toNat_append]
  rw [← Nat.shiftLeft_add_eq_or_of_lt h2, ← Nat.shiftLeft_add_eq_or_of_lt h1]
  simp only [Nat.shiftLeft_eq]
  omega

/-- Bit by bit: each of the three bytes is eight bits of the shifted page, `A[1]` with the offset's upper byte, `A[2]`
with its lower. -/
theorem addrBits_encodeAddr (page offset : Word) :
    addrBits (encodeAddr page offset) = (page.setWidth 24 <<< 9) ||| offset.setWidth 24 := by
  apply BitVec.eq_of_getLsbD_eq
  intro i hi
  simp only [addrBits, encodeAddr, BitVec.getLsbD_append, BitVec.getLsbD_setWidth, BitVec.getLsbD_or,
    BitVec.getLsbD_shiftLeft, BitVec.getLsbD_ushiftRight]
  obtain h8 | h16 | h24 : i < 8 ∨ (8 ≤ i ∧ i < 16) ∨ 16 ≤ i := by omega
  · have h9 : i < 9 := by omega
    simp [h8, h9, hi]
  · obtain ⟨hlow, hhigh⟩ := h16
    have h8 : ¬i < 8 := by omega
    have hbyte : i - 8 < 8 := by omega
    have hplace : 8 + (i - 8) = i := by omega
    have hshift : i - 8 - 1 = i - 9 := by omega
    have hbit : i - 8 < 1 ↔ i < 9 := by omega
    have hword : i - 8 < 16 := by omega
    have hpage : i - 9 < 24 := by omega
    simp [h8, hi, hbyte, hplace, hshift, hbit, hword, hpage]
  · have h8 : ¬i < 8 := by omega
    have hbyte : ¬i - 8 < 8 := by omega
    have h9 : ¬i < 9 := by omega
    have hplace : 7 + (i - 8 - 8) = i - 9 := by omega
    have hbyte' : i - 8 - 8 < 8 := by omega
    have hoffset : offset.getLsbD i = false := BitVec.getLsbD_of_ge _ _ h24
    have hpage : i - 9 < 24 := by omega
    simp [h8, hi, hbyte, hbyte', h9, hplace, hoffset, hpage]

/-! ## The geometry (R161, R162) -/

theorem shifted_and_offset_eq_zero (page : Word) {offset : Word} (ho : offset.toNat < 512) :
    (page.setWidth 24 <<< 9) &&& offset.setWidth 24 = 0#24 := by
  apply BitVec.eq_of_getLsbD_eq
  intro i hi
  by_cases h9 : i < 9
  · simp [h9]
  · have hoffset : offset.getLsbD i = false := by
      rw [BitVec.getLsbD, Nat.testBit_lt_two_pow]
      exact lt_of_lt_of_le ho (Nat.pow_le_pow_right (by decide) (Nat.le_of_not_lt h9) : 2 ^ 9 ≤ 2 ^ i)
    simp [hoffset]

/-- A page of the geometry has no bit above its address field: bits 23:21 are zero. -/
theorem addrBits_upper_eq_zero {page : Word} (offset : Word) (hp : page.toNat < totalPages) :
    (addrBits (encodeAddr page offset)).extractLsb' 21 3 = 0#3 := by
  rw [addrBits_upper, encodeAddr_a0_upper]
  apply BitVec.eq_of_toNat_eq
  simp only [totalPages] at hp
  simp only [BitVec.extractLsb'_toNat, Nat.shiftRight_eq_div_pow, BitVec.toNat_ofNat]
  omega

theorem offset_high_byte {offset : Word} (ho : offset.toNat < 512) : offset >>> 8 = 0#16 ∨ offset >>> 8 = 1#16 := by
  have hhigh : (offset >>> 8).toNat = offset.toNat / 256 := by
    rw [BitVec.toNat_ushiftRight, Nat.shiftRight_eq_div_pow]
  obtain h | h : offset.toNat / 256 = 0 ∨ offset.toNat / 256 = 1 := by omega
  · exact .inl (BitVec.eq_of_toNat_eq (by rw [hhigh, h]; rfl))
  · exact .inr (BitVec.eq_of_toNat_eq (by rw [hhigh, h]; rfl))

theorem lt_512_of_lt_pageSize {offset : Word} (ho : offset.toNat < pageSize) : offset.toNat < 512 := by
  simp only [pageSize] at ho
  omega

/-- On the geometry the chip's two fields determine the arguments (R162). -/
theorem encodeAddr_inj {page offset page' offset' : Word} (hp : page.toNat < totalPages)
    (ho : offset.toNat < pageSize) (hp' : page'.toNat < totalPages) (ho' : offset'.toNat < pageSize)
    (h : encodeAddr page offset = encodeAddr page' offset') : page = page' ∧ offset = offset' := by
  replace ho := lt_512_of_lt_pageSize ho
  replace ho' := lt_512_of_lt_pageSize ho'
  constructor
  · apply BitVec.eq_of_toNat_eq
    rw [← addrPage_encodeAddr hp ho, h, addrPage_encodeAddr hp' ho']
  · apply BitVec.eq_of_toNat_eq
    rw [← addrOffset_encodeAddr page ho, h, addrOffset_encodeAddr page' ho']

/-- The page field is `A[0][4:0]` and `A[1][7:1]` (R162). -/
theorem addrPage_eq_append (a : Addr) : addrPage a = (a.a0.extractLsb' 0 5 ++ a.a1.extractLsb' 1 7).toNat := by
  have hlow : (a.a1.extractLsb' 1 7).toNat = a.a1.toNat / 2 := by
    have h1 := a.a1.isLt
    simp only [BitVec.extractLsb'_toNat, Nat.shiftRight_eq_div_pow]
    omega
  rw [addrPage_eq, BitVec.toNat_append, ← Nat.shiftLeft_add_eq_or_of_lt (BitVec.isLt _), hlow]
  simp [Nat.shiftLeft_eq]

/-- The offset field is `A[1][0]` and `A[2]` (R162). -/
theorem addrOffset_eq_append (a : Addr) : addrOffset a = (a.a1.extractLsb' 0 1 ++ a.a2).toNat := by
  rw [addrOffset_eq, BitVec.toNat_append, ← Nat.shiftLeft_add_eq_or_of_lt a.a2.isLt]
  simp [Nat.shiftLeft_eq]

/-- The encoding of a place of the geometry. -/
def encodePlace (x : Fin totalPages × Fin pageSize) : Addr :=
  encodeAddr (BitVec.ofNat 16 x.1) (BitVec.ofNat 16 x.2)

theorem encodePlace_injective : Function.Injective encodePlace := by
  rintro ⟨page, offset⟩ ⟨page', offset'⟩ h
  have hword {n : Nat} (hn : n < 65536) : (BitVec.ofNat 16 n).toNat = n := by
    rw [BitVec.toNat_ofNat, Nat.mod_eq_of_lt hn]
  have hpage (p : Fin totalPages) : (BitVec.ofNat 16 p).toNat = p := hword (p.isLt.trans (by decide))
  have hoffset (o : Fin pageSize) : (BitVec.ofNat 16 o).toNat = o := hword (o.isLt.trans (by decide))
  obtain ⟨hp, ho⟩ := encodeAddr_inj (by rw [hpage]; exact page.isLt) (by rw [hoffset]; exact offset.isLt)
    (by rw [hpage]; exact page'.isLt) (by rw [hoffset]; exact offset'.isLt) h
  rw [Prod.mk.injEq]
  exact ⟨Fin.ext (by rw [← hpage, hp, hpage]), Fin.ext (by rw [← hoffset, ho, hoffset])⟩

/-! ## The sector's page and address (R182, R184) -/

theorem sectorPage_toNat (sector : Byte) : (sectorPage sector).toNat = sector.toNat * 256 := by
  have h := sector.isLt
  simp only [sectorPage, BitVec.toNat_mul, BitVec.toNat_setWidth, BitVec.toNat_ofNat]
  omega

theorem encodeAddr_sectorPage (sector : Byte) : encodeAddr (sectorPage sector) 0 = ⟨sector <<< 1, 0, 0⟩ := by
  have h := sector.isLt
  have h0 : (encodeAddr (sectorPage sector) 0).a0 = sector <<< 1 := by
    apply BitVec.eq_of_toNat_eq
    rw [encodeAddr_a0_toNat, sectorPage_toNat, BitVec.toNat_shiftLeft, Nat.shiftLeft_eq]
    omega
  have h1 : (encodeAddr (sectorPage sector) 0).a1 = 0 := by
    apply BitVec.eq_of_toNat_eq
    rw [encodeAddr_a1_toNat_of_lt _ (by decide), sectorPage_toNat]
    simp
    omega
  have h2 : (encodeAddr (sectorPage sector) 0).a2 = 0 := rfl
  calc encodeAddr (sectorPage sector) 0
    _ = ⟨(encodeAddr (sectorPage sector) 0).a0, (encodeAddr (sectorPage sector) 0).a1,
          (encodeAddr (sectorPage sector) 0).a2⟩ := rfl
    _ = ⟨sector <<< 1, 0, 0⟩ := by rw [h0, h1, h2]

/-- A sector's address is of its low seven bits: 128 sectors up is the same address. -/
theorem shiftLeft_add_128 (sector : Byte) : (sector + 128#8) <<< 1 = sector <<< 1 := by
  bv_omega

end Sys2Proof.Machine

namespace Sys2Proof.AddressCodec

open Sys2Proof.Machine

/-- Settles O2: the 24 bits one by one; below 512 the offset has no bit of the page's, so that both fields read back. -/
theorem encodeAddrIsShiftedPageOrOffset : Obligations.EncodeAddrIsShiftedPageOrOffset := by
  unfold Obligations.EncodeAddrIsShiftedPageOrOffset
  intro page offset
  refine ⟨addrBits_encodeAddr page offset, fun hp ho => ?_⟩
  replace ho := lt_512_of_lt_pageSize ho
  exact ⟨shifted_and_offset_eq_zero page ho, addrBits_upper_eq_zero offset hp, addrPage_encodeAddr hp ho,
    addrOffset_encodeAddr page ho, offset_high_byte ho⟩

/-- Settles O3: the two fields read the arguments back, so the encoding is injective on the 4096 × 264 places. -/
theorem encodeAddrInjectiveOnGeometry : Obligations.EncodeAddrInjectiveOnGeometry := by
  unfold Obligations.EncodeAddrInjectiveOnGeometry
  refine ⟨fun page offset page' offset' => encodeAddr_inj, fun page offset hp ho => ⟨?page, ?offset⟩, ?count⟩
  case page =>
    apply BitVec.eq_of_toNat_eq
    rw [BitVec.toNat_setWidth, ← addrPage_eq_append, addrPage_encodeAddr hp (lt_512_of_lt_pageSize ho),
      Nat.mod_eq_of_lt page.isLt]
  case offset =>
    apply BitVec.eq_of_toNat_eq
    rw [BitVec.toNat_setWidth, ← addrOffset_eq_append, addrOffset_encodeAddr page (lt_512_of_lt_pageSize ho),
      Nat.mod_eq_of_lt offset.isLt]
  case count =>
    calc (Finset.univ.image encodePlace).card
      _ = Fintype.card (Fin totalPages × Fin pageSize) := Finset.card_image_of_injective _ encodePlace_injective
      _ = totalPages * pageSize := by rw [Fintype.card_prod, Fintype.card_fin, Fintype.card_fin]
      _ = 1081344 := rfl

/-- Settles O5: the sector's page is a multiple of 256, so that its address is the sector shifted into `A[0]`. -/
theorem sectorAddressArithmetic : Obligations.SectorAddressArithmetic := by
  unfold Obligations.SectorAddressArithmetic
  intro sector
  refine ⟨sectorPage_toNat sector, encodeAddr_sectorPage sector, ?wraps, ?geometry, ?sector, by simp [sectorRefused],
    encodeAddr_sectorPage 128#8, encodeAddr_sectorPage 16#8⟩
  case wraps => rw [encodeAddr_sectorPage, encodeAddr_sectorPage, shiftLeft_add_128]
  case geometry =>
    rw [sectorPage_toNat, totalPages]
    omega
  case sector =>
    have h := sector.isLt
    rw [encodeAddr_sectorPage, addrSector_eq, BitVec.toNat_shiftLeft, Nat.shiftLeft_eq]
    omega

end Sys2Proof.AddressCodec
end

section
/-! PROOFS. O6, O7, O8: the decoder and the encoder. Each format's decoder takes exactly its encodings (an equation for
what it takes, an inversion for what it gives); the opcodes, pairwise distinct, choose the format. -/

namespace Sys2Proof

open Sys2Proof.Machine

variable {c : Cfg} {i : Instr} {rest : List Byte}

/-! ## The formats (R104) -/

theorem decodeAddressOnly_bytes (mk : Addr → Instr) (a : Addr) : decodeAddressOnly mk a.bytes = .ok (mk a) := rfl

theorem of_decodeAddressOnly {mk : Addr → Instr} (h : decodeAddressOnly mk rest = .ok i) :
    ∃ a, i = mk a ∧ rest = a.bytes := by
  unfold decodeAddressOnly at h
  split at h
  · rename_i a0 a1 a2
    cases h
    exact ⟨⟨a0, a1, a2⟩, rfl, rfl⟩
  · cases h

theorem all_beq_iff_eq_replicate {d : Byte} {n : Nat} (hn : rest.length = n) :
    rest.all (· == d) = true ↔ rest = List.replicate n d := by
  simp [List.eq_replicate_iff, hn]

theorem decodeDummies_replicate (count : Nat) :
    decodeDummies c count i (List.replicate count c.dummyOut) = .ok i := by
  simp [decodeDummies]

theorem of_decodeDummies {count : Nat} {j : Instr} (h : decodeDummies c count j rest = .ok i) :
    i = j ∧ rest = List.replicate count c.dummyOut := by
  unfold decodeDummies at h
  split at h
  · cases h
  · rename_i hlen
    split at h
    · rename_i hall
      cases h
      exact ⟨rfl, (all_beq_iff_eq_replicate (not_not.mp hlen)).mp hall⟩
    · cases h

theorem decodeFill_bytes {data : List Byte} (a : Addr) (h : isFillLength data.length = true) :
    decodeFill (a.bytes ++ data) = .ok (.buf1Write a data) := by
  simp [decodeFill, Addr.bytes, h]

theorem of_decodeFill (h : decodeFill rest = .ok i) :
    ∃ a data, i = .buf1Write a data ∧ rest = a.bytes ++ data ∧ isFillLength data.length = true := by
  unfold decodeFill at h
  split at h
  · rename_i a0 a1 a2 data
    split at h
    · rename_i hlen
      cases h
      exact ⟨⟨a0, a1, a2⟩, data, rfl, rfl, hlen⟩
    · cases h
  · cases h

theorem decodeArrayRead_bytes (a : Addr) (size : Word) :
    decodeArrayRead c (a.bytes ++ List.replicate (c.nReadDummy + size.toNat) c.dummyOut) =
      .ok (.arrayRead a size) := by
  have hsize : ¬65536 ≤ size.toNat := Nat.not_le.mpr size.isLt
  simp [decodeArrayRead, Addr.bytes, hsize]

theorem of_decodeArrayRead (h : decodeArrayRead c rest = .ok i) :
    ∃ a size, i = .arrayRead a size ∧
      rest = a.bytes ++ List.replicate (c.nReadDummy + size.toNat) c.dummyOut := by
  unfold decodeArrayRead at h
  split at h
  · rename_i a0 a1 a2 tail
    split at h
    · cases h
    · rename_i hshort
      split at h
      · cases h
      · rename_i hlong
        split at h
        · rename_i hall
          cases h
          have hsize : (BitVec.ofNat 16 (tail.length - c.nReadDummy)).toNat = tail.length - c.nReadDummy := by
            rw [BitVec.toNat_ofNat, Nat.mod_eq_of_lt (by omega)]
          have hlen : tail.length = c.nReadDummy + (tail.length - c.nReadDummy) := by omega
          refine ⟨⟨a0, a1, a2⟩, _, rfl, ?_⟩
          rw [hsize, ← (all_beq_iff_eq_replicate hlen).mp hall]
          rfl
        · cases h
  · cases h

theorem decodeChipErase_append (c : Cfg) (rest : List Byte) :
    decodeChipErase c (c.opChipErase ++ rest) = .ok (.chipErase rest) := by
  simp [decodeChipErase]

theorem of_decodeChipErase {bytes : List Byte} (h : decodeChipErase c bytes = .ok i) :
    ∃ rest, i = .chipErase rest ∧ bytes = c.opChipErase ++ rest := by
  unfold decodeChipErase at h
  split at h
  · rename_i hstring
    cases h
    refine ⟨_, rfl, ?_⟩
    conv_lhs => rw [← List.take_append_drop c.opChipErase.length bytes, hstring]
  · cases h

/-! ## Host codes (R102, R103) -/

theorem decodeHost_reserved {code : Byte} (h : isReservedCode code = true) :
    decodeHost code = .reservedHostCode code := by
  have hne : ∀ n : Byte, 1 ≤ n.toNat → n.toNat ≤ 6 → code ≠ n := by
    rintro n h1 h6 rfl
    simp only [isReservedCode, Bool.or_eq_true, beq_iff_eq, decide_eq_true_eq] at h
    bv_omega
  simp [decodeHost, hne]

theorem of_decodeHost {code : Byte} (h : decodeHost code = i) : encode c i = .host code ∧ i.wf = true := by
  subst h
  unfold decodeHost
  split
  next h => subst h; exact ⟨rfl, rfl⟩
  split
  next h => subst h; exact ⟨rfl, rfl⟩
  split
  next h => subst h; exact ⟨rfl, rfl⟩
  split
  next h => subst h; exact ⟨rfl, rfl⟩
  split
  next h => subst h; exact ⟨rfl, rfl⟩
  split
  next h => subst h; exact ⟨rfl, rfl⟩
  next h1 h2 h3 h4 h5 h6 =>
    refine ⟨rfl, ?_⟩
    simp only [Instr.wf, isReservedCode, Bool.or_eq_true, beq_iff_eq, decide_eq_true_eq]
    bv_omega

/-! ## Frames (R104, R108) -/

theorem opChipErase_eq_cons (hc : c.valid = true) : ∃ tail, c.opChipErase = c.opChipErase.headD 0 :: tail := by
  cases hstring : c.opChipErase with
  | nil => simp [Cfg.valid, hstring] at hc
  | cons op tail => exact ⟨tail, rfl⟩

/-- Apart from these pairs the decoder tests the opcodes in the order of R108. -/
theorem tested_earlier (hc : c.valid = true) :
    c.opChipErase.headD 0 ≠ c.opArrayRead ∧ c.opChipErase.headD 0 ≠ c.opBuf1Write ∧
      c.opChipErase.headD 0 ≠ c.opBuf1CommitErase ∧ c.opBuf2Write ≠ c.opBuf1CommitErase := by
  have hdistinct := opcodes_nodup hc
  simp only [Cfg.opcodes, List.nodup_cons, List.mem_cons, not_or] at hdistinct
  simp only [ne_eq, hdistinct, not_false_eq_true, and_self]

/-- The frame of a well-formed instruction decodes to it. -/
theorem decodeFrame_encode {bytes : List Byte} (hc : c.valid = true) (hi : i.wf = true)
    (h : encode c i = .frame bytes) : decodeFrame c bytes = .ok i := by
  have hdistinct := List.nodup_reverse.mpr (opcodes_nodup hc)
  simp only [Cfg.opcodes, List.reverse_cons, List.reverse_nil, List.nil_append, List.cons_append, List.nodup_cons,
    List.mem_cons, List.not_mem_nil, or_false, not_or] at hdistinct
  have hlater := tested_earlier hc
  cases i with
  | init | erasePage | eraseSector | write | read | diagnose | reservedHostCode => cases h
  | statusRead =>
    cases h
    simp only [decodeFrame, hdistinct, ↓reduceIte]
    exact decodeDummies_replicate 1
  | idRead =>
    cases h
    simp only [decodeFrame, if_true]
    exact decodeDummies_replicate 4
  | pageErase a =>
    cases h
    simp only [decodeFrame, hdistinct, ↓reduceIte]
    exact decodeAddressOnly_bytes .pageErase a
  | sectorErase a =>
    cases h
    simp only [decodeFrame, hdistinct, ↓reduceIte]
    exact decodeAddressOnly_bytes .sectorErase a
  | buf1Write a data =>
    cases h
    simp only [List.cons_append, decodeFrame, hdistinct, ↓reduceIte]
    exact decodeFill_bytes a hi
  | buf1CommitErase a =>
    cases h
    simp only [decodeFrame, hdistinct, ↓reduceIte]
    exact decodeAddressOnly_bytes .buf1CommitErase a
  | arrayRead a size =>
    cases h
    simp only [List.cons_append, decodeFrame, hdistinct, ↓reduceIte]
    exact decodeArrayRead_bytes a size
  | chipErase rest =>
    cases h
    obtain ⟨tail, htail⟩ := opChipErase_eq_cons hc
    have hbytes := decodeChipErase_append c rest
    rw [htail, List.cons_append] at hbytes ⊢
    simp only [decodeFrame, hdistinct, hlater, ↓reduceIte]
    exact hbytes
  | buf2Write | buf1CommitNoerase | pageToBuf1 | pageToBuf2 | powerDown | resume | readSecurity =>
    cases h
    simp only [decodeFrame, hdistinct, hlater, ↓reduceIte]

/-- Whatever a frame decodes to is well-formed, and the frame is its encoding. -/
theorem of_decodeFrame {bytes : List Byte} (h : decodeFrame c bytes = .ok i) :
    encode c i = .frame bytes ∧ i.wf = true := by
  cases bytes with
  | nil => cases h
  | cons op rest =>
    rw [decodeFrame] at h
    obtain ⟨hop, h⟩ | ⟨-, h⟩ := ite_eq_iff.mp h
    · obtain ⟨rfl, rfl⟩ := of_decodeDummies h
      exact ⟨by rw [hop]; rfl, rfl⟩
    obtain ⟨hop, h⟩ | ⟨-, h⟩ := ite_eq_iff.mp h
    · obtain ⟨rfl, rfl⟩ := of_decodeDummies h
      exact ⟨by rw [hop]; rfl, rfl⟩
    obtain ⟨hop, h⟩ | ⟨-, h⟩ := ite_eq_iff.mp h
    · obtain ⟨a, rfl, rfl⟩ := of_decodeAddressOnly h
      exact ⟨by rw [hop]; rfl, rfl⟩
    obtain ⟨hop, h⟩ | ⟨-, h⟩ := ite_eq_iff.mp h
    · obtain ⟨a, rfl, rfl⟩ := of_decodeAddressOnly h
      exact ⟨by rw [hop]; rfl, rfl⟩
    obtain ⟨hop, h⟩ | ⟨-, h⟩ := ite_eq_iff.mp h
    · obtain ⟨a, size, rfl, rfl⟩ := of_decodeArrayRead h
      exact ⟨by rw [hop]; rfl, rfl⟩
    obtain ⟨hop, h⟩ | ⟨-, h⟩ := ite_eq_iff.mp h
    · obtain ⟨a, data, rfl, rfl, hlen⟩ := of_decodeFill h
      exact ⟨by rw [hop]; rfl, hlen⟩
    obtain ⟨hop, h⟩ | ⟨-, h⟩ := ite_eq_iff.mp h
    · obtain ⟨a, rfl, rfl⟩ := of_decodeAddressOnly h
      exact ⟨by rw [hop]; rfl, rfl⟩
    obtain ⟨-, h⟩ | ⟨-, h⟩ := ite_eq_iff.mp h
    · obtain ⟨rest, rfl, hbytes⟩ := of_decodeChipErase h
      exact ⟨by rw [hbytes]; rfl, rfl⟩
    iterate 7
      obtain ⟨hop, h⟩ | ⟨-, h⟩ := ite_eq_iff.mp h
      · cases h
        exact ⟨by rw [hop]; rfl, rfl⟩
    cases h

end Sys2Proof

namespace Sys2Proof.Encoding

open Sys2Proof

/-- Settles O6: a host code by the six comparisons, a frame by its opcode and its format. -/
theorem decodeOfEncode : Obligations.DecodeOfEncode := by
  unfold Obligations.DecodeOfEncode
  intro c i hc hi
  cases h : encode c i with
  | frame bytes => exact decodeFrame_encode hc hi h
  | host code =>
    cases i with
    | init | erasePage | eraseSector | write | read | diagnose => cases h; rfl
    | reservedHostCode code' =>
      cases h
      exact congrArg Except.ok (decodeHost_reserved hi)
    | _ => cases h

/-- Settles O7, by the two levels of code. -/
theorem encodeOfDecode : Obligations.EncodeOfDecode := by
  unfold Obligations.EncodeOfDecode
  intro c code i h
  cases code with
  | host code => exact of_decodeHost (Except.ok.inj h)
  | frame bytes => exact of_decodeFrame h

/-- Settles O8: the eight words, evaluated. -/
theorem tableWordsDecode : Obligations.TableWordsDecode := by
  unfold Obligations.TableWordsDecode
  decide

end Sys2Proof.Encoding
end

section
/-! PROOFS. O15: the canonical form of a memory. -/

namespace Sys2Proof.Machine.Memory

theorem get?_cons_self (a : Nat) (v : Byte) (m : Memory) : get? ((a, v) :: m) a = some v := if_pos rfl

theorem get?_cons_of_ne {a x : Nat} (v : Byte) (m : Memory) (h : a ≠ x) : get? ((a, v) :: m) x = get? m x := if_neg h

/-- A canonical memory records nothing below its first address, nor that address again. -/
theorem get?_eq_none_of_le {a x : Nat} {v : Byte} {m : Memory} (h : wf ((a, v) :: m)) (hx : x ≤ a) : get? m x = none :=
  get?_eq_none_of_forall fun c hc => by
    have := (List.pairwise_cons.mp h).1 c hc
    omega

theorem first_addr_le_of_get?_eq {a b : Nat} {v w : Byte} {m m' : Memory} (h : wf ((a, v) :: m))
    (heq : ∀ x, get? ((a, v) :: m) x = get? ((b, w) :: m') x) : a ≤ b := by
  by_contra hlt
  have hb := heq b
  rw [get?_cons_self, get?_cons_of_ne v m (by omega), get?_eq_none_of_le h (by omega)] at hb
  cases hb

theorem eq_of_get?_eq {m m' : Memory} (h : m.wf) (h' : m'.wf) (heq : ∀ x, get? m x = get? m' x) : m = m' := by
  induction m generalizing m' with
  | nil =>
    cases m' with
    | nil => rfl
    | cons c m' =>
      obtain ⟨b, w⟩ := c
      have hb := heq b
      rw [get?_cons_self] at hb
      cases hb
  | cons c m ih =>
    obtain ⟨a, v⟩ := c
    cases m' with
    | nil =>
      have ha := heq a
      rw [get?_cons_self] at ha
      cases ha
    | cons c' m' =>
      obtain ⟨b, w⟩ := c'
      obtain rfl : a = b :=
        Nat.le_antisymm (first_addr_le_of_get?_eq h heq) (first_addr_le_of_get?_eq h' fun x => (heq x).symm)
      have hv : v = w := by
        have ha := heq a
        rwa [get?_cons_self, get?_cons_self, Option.some.injEq] at ha
      have hrest : m = m' := ih (List.pairwise_cons.mp h).2 (List.pairwise_cons.mp h').2 fun x => by
        by_cases hx : a = x
        · rw [← hx, get?_eq_none_of_le h le_rfl, get?_eq_none_of_le h' le_rfl]
        · have hcell := heq x
          rwa [get?_cons_of_ne v m hx, get?_cons_of_ne w m' hx] at hcell
      rw [hv, hrest]

end Sys2Proof.Machine.Memory

namespace Sys2Proof.Memories

open Sys2Proof.Machine

/-- Settles O15: equal memories by induction, the first cells having the least address recorded. -/
theorem memoryIsCanonical : Obligations.MemoryIsCanonical := by
  unfold Obligations.MemoryIsCanonical
  exact ⟨fun m x v h => Memory.write_wf h x v, fun m x vs h => Memory.writeRange_wf h x vs,
    fun m m' h h' heq => Memory.eq_of_get?_eq h h' heq⟩

end Sys2Proof.Memories
end

section
/-! PROOFS. O9 to O14: the host side. -/

namespace Sys2Proof.Machine

variable {s t : State}

theorem whenIdle_of_not_busy (h : s.busy = false) (r : Result) : whenIdle s r = r := by
  simp [whenIdle, h]

/-! ## What a move runs (R101, R114) -/

theorem hostStep_write_zero (v : Word) (h : s.busy = false) :
    hostStep (.write 0 v) s = exec (decodeHost (v.setWidth 8)) s :=
  whenIdle_of_not_busy h _

theorem decodeHost_isCommand_or_reserved (code : Byte) :
    Safety.isCommand (decodeHost code) = true ∨ decodeHost code = .reservedHostCode code := by
  unfold decodeHost
  repeat' split
  all_goals simp [Safety.isCommand]

/-- At rest every code is taken: a command is accepted, a reserved code ignored. -/
theorem exec_decodeHost_of_not_busy (code : Byte) (h : s.busy = false) : ∃ t, exec (decodeHost code) s = .next t := by
  obtain hc | hr := decodeHost_isCommand_or_reserved code
  · exact ⟨_, (NoLeftovers.exec_of_isCommand hc s).trans (NoLeftovers.accept_of_not_busy h)⟩
  · rw [hr]
    exact ⟨s, whenIdle_of_not_busy h _⟩

theorem frameMove_of_decode {bytes : List Byte} {i : Instr} (h : s.busy = false)
    (hdecode : decode s.cfg (.frame bytes) = .ok i) : frameMove bytes s = exec i s := by
  simp [frameMove, h, hdecode]

/-- The move that runs a code runs what the code decodes to. -/
theorem runMove_moveOf {code : Code} {i : Instr} (h : s.busy = false) (hdecode : decode s.cfg code = .ok i) :
    runMove (moveOf code) s = exec i s := by
  cases code with
  | host code =>
    have hlow : (code.setWidth 16).setWidth 8 = code := by simp
    obtain rfl : decodeHost code = i := Except.ok.inj hdecode
    rw [moveOf, runMove, hostStep_write_zero _ h, hlow]
  | frame bytes => exact frameMove_of_decode h hdecode

/-! ## The argument registers (R22) -/

/-- The registers a command takes its operands from. -/
def arguments (s : State) : Word × Word × Word × Byte :=
  (s.page, s.offset, s.size, s.sector)

/-- No row of the sequencer writes an argument register. -/
theorem arguments_of_row (h : Row s t) : arguments t = arguments s := by
  cases h with
  | pOp | pRd | hOp | hA0 | hA1 | hA2 | r2 | r3 | g1 | g2 | g4 | g5 => simp [arguments, readOne, idLatched]
  | w3 => simp [arguments, filled]
  | _ => rfl

/-- While a command runs, only the controller's reset changes an argument register (R31). -/
theorem arguments_of_step (hb : s.busy = true) (hreset : s.moves.head? ≠ some .reset) (hstep : step s = .next t) :
    arguments t = arguments s := by
  cases hm : s.moves with
  | nil =>
    rw [step_of_no_move hm] at hstep
    exact arguments_of_row (row_of_seqStep hstep)
  | cons m rest =>
    by_cases hc : m = .controller
    · subst hc
      rw [step_of_move hm] at hstep
      exact arguments_of_row (s := takeMove rest s) (row_of_seqStep hstep)
    · have hr : m ≠ .reset := fun hr => hreset (by rw [hm, hr]; rfl)
      have h := congrArg arguments (Sequencer.nothingCancelsACommand s t m rest hb hm hc hr hstep)
      exact h

/-! ## Reads (R29, R30) -/

theorem readRegister_of_value {number : Nat} {v : Word} (h : registerValue number s = some v) :
    readRegister number s = .next (recordRead (.reg number v) s) := by
  simp [readRegister, h]

theorem hostStep_read_status (s : State) :
    hostStep (.read 5) s = .next (recordRead (.reg 5 ((statusRegister s).setWidth 16)) s) := rfl

theorem hostStep_read_of_value {number : Nat} {v : Word} (hb : s.busy = false)
    (h : registerValue number s = some v) :
    hostStep (.read number) s = .next (recordRead (.reg number v) s) := by
  rw [hostStep, whenIdle_of_not_busy hb, readRegister_of_value h, ite_self]

theorem statusRegister_bits (s : State) :
    ((statusRegister s).setWidth 16).getLsbD 0 = s.busy ∧ ((statusRegister s).setWidth 16).getLsbD 1 = s.diagOk ∧
      ∀ i, 2 ≤ i → ((statusRegister s).setWidth 16).getLsbD i = false := by
  simp only [statusRegister, BitVec.getLsbD_setWidth, BitVec.getLsbD_append, BitVec.getLsbD_ofBool]
  refine ⟨by simp, by simp, fun i hi => ?_⟩
  have h1 : ¬i < 1 := by omega
  have h2 : ¬i - 1 < 1 := by omega
  simp [h1, h2]

theorem registerValue_of_ten_le {number : Nat} (h : 10 ≤ number) : registerValue number s = none := by
  unfold registerValue
  split
  all_goals first | omega | rfl

theorem writeRegister_of_ten_le {number : Nat} (v : Word) (h : 10 ≤ number) :
    writeRegister number v s = .refused (.noSuchRegister number) := by
  unfold writeRegister
  split
  all_goals first | omega | rfl

theorem registerValue_isSome {number : Nat} (h1 : 1 ≤ number) (h9 : number ≤ 9) :
    ∃ v, registerValue number s = some v := by
  interval_cases number <;> exact ⟨_, rfl⟩

/-! ## The host's buffer (R61, R77, R217) -/

theorem hostByte_loadBuffer_same (s : State) (i : Word) (v : Byte) : hostByte (loadBuffer i v s) i = v :=
  Memory.read_write_same s.hbuf .hostBuffer 0 i.toNat v

theorem hostByte_loadBuffer_other {i j : Word} (v : Byte) (h : j ≠ i) :
    hostByte (loadBuffer i v s) j = hostByte s j :=
  Memory.read_write_other s.hbuf .hostBuffer 0 i.toNat j.toNat v fun he => h (BitVec.eq_of_toNat_eq he)

theorem hostStep_bufRead_of_not_beingRead {i : Word} (h : beingRead s i = false) :
    hostStep (.bufRead i) s = .next (recordRead (.buf i (hostByte s i)) s) := by
  simp [hostStep, readBuffer, h]

theorem hostStep_bufRead_of_beingRead {i : Word} (h : beingRead s i = true) :
    hostStep (.bufRead i) s = .next (recordRead (.buf i (freeAnswer s)) (drawn s)) := by
  simp [hostStep, readBuffer, h]

/-- No command but a READ delivers bytes, and a READ none at `SIZE` or above. -/
theorem beingRead_eq_false {i : Word}
    (h : s.busy = false ∨ Safety.writing (resumesAt s) = true ∨ s.size.toNat ≤ i.toNat) : beingRead s i = false := by
  obtain hb | hw | hi := h
  · simp [beingRead, hb]
  · have hnot : resumesAt s ∉ [Seq.r0, .r1, .r2, .r3, .done] := by
      revert hw
      cases resumesAt s <;> decide
    rw [beingRead, decide_eq_false hnot, Bool.and_false, Bool.false_and]
  · simp [beingRead, hi]

end Sys2Proof.Machine

namespace Sys2Proof.HostSide

open Sys2Proof.Machine Sys2Proof.Safety

/-- Settles O9: a code's move runs what the code decodes to, the move taken off the list. -/
theorem stepRunsDecodedInstruction : Obligations.StepRunsDecodedInstruction := by
  unfold Obligations.StepRunsDecodedInstruction
  intro s i
  refine ⟨fun v rest hm hb hdecode => ?host, fun bytes rest hm hb hdecode => ?frame, fun nbits w hb hdecode => ?word,
    step_of_no_move⟩
  case host =>
    obtain rfl : decodeHost (v.setWidth 8) = i := Except.ok.inj hdecode
    rw [step_of_move hm]
    exact hostStep_write_zero (s := takeMove rest s) v hb
  case frame =>
    rw [step_of_move hm]
    exact frameMove_of_decode (s := takeMove rest s) hb hdecode
  case word =>
    rw [step_of_move (s := s.withFetchWord nbits w) rfl]
    exact runMove_moveOf hb hdecode

/-- Settles O10: the six codes decode to their commands, each accepted in its first state. -/
theorem hostCommandAccepted : Obligations.HostCommandAccepted := by
  unfold Obligations.HostCommandAccepted
  refine ⟨fun s code i first hmem hb => ?_, fun s hm hq => ?_, fun s hm hq => ?_⟩
  · have hcommand : isCommand i = true ∧ NoLeftovers.firstState i = first ∧ decodeHost code = i := by
      simp only [List.mem_cons, Prod.mk.injEq, List.not_mem_nil, or_false] at hmem
      rcases hmem with ⟨rfl, rfl, rfl⟩ | ⟨rfl, rfl, rfl⟩ | ⟨rfl, rfl, rfl⟩ | ⟨rfl, rfl, rfl⟩ | ⟨rfl, rfl, rfl⟩ |
        ⟨rfl, rfl, rfl⟩ <;> decide
    obtain ⟨hi, rfl, hdecode⟩ := hcommand
    refine ⟨?_, fun v hv => ?_⟩
    · rw [NoLeftovers.exec_of_isCommand hi, NoLeftovers.accept_of_not_busy hb]
      rfl
    · rw [hostStep_write_zero v hb, hv, hdecode]
  · rw [step_of_no_move hm, seqStep_idle hq]
  · rw [step_of_no_move hm, seqStep_done hq]
    rfl

/-- Settles O11: such a code decodes to the reserved row, which is ignored. -/
theorem reservedCodeIgnored : Obligations.ReservedCodeIgnored := by
  unfold Obligations.ReservedCodeIgnored
  intro s v hb hv
  have hreserved : isReservedCode (v.setWidth 8) = true := by
    simp only [isReservedCode, Bool.or_eq_true, beq_iff_eq, decide_eq_true_eq]
    exact hv.imp_right fun h => BitVec.lt_def.mpr h
  have hignored : exec (.reservedHostCode (v.setWidth 8)) s = .next s := whenIdle_of_not_busy hb _
  rw [hostStep_write_zero v hb, decodeHost_reserved hreserved]
  exact ⟨hignored, hignored⟩

/-- Settles O12, by the kinds of access; the last clause by the agents. -/
theorem hostAccessRule : Obligations.HostAccessRule := by
  unfold Obligations.HostAccessRule
  refine ⟨fun s n v hb hn => ?writes, fun s n hb h1 h9 => ?reads, fun s => ⟨_, hostStep_read_status s⟩,
    fun s n v hb => whenIdle_of_busy hb _, fun s n hb hn => ?refused, fun s t hb hreset hstep => ?arguments⟩
  case writes =>
    rw [hostStep, whenIdle_of_not_busy hb]
    interval_cases n
    · exact exec_decodeHost_of_not_busy (v.setWidth 8) hb
    all_goals exact ⟨_, rfl⟩
  case reads =>
    obtain ⟨v, hv⟩ := registerValue_isSome (s := s) h1 h9
    exact ⟨_, hostStep_read_of_value hb hv⟩
  case refused =>
    have hne : n ≠ statusNumber := hn
    rw [hostStep, if_neg hne, whenIdle_of_busy hb]
  case arguments =>
    have h := arguments_of_step hb hreset hstep
    simp only [arguments, Prod.mk.injEq] at h
    exact h

/-- Settles O13, register by register. -/
theorem registerMap : Obligations.RegisterMap := by
  unfold Obligations.RegisterMap
  refine ⟨fun s => ⟨_, hostStep_read_status s, statusRegister_bits s⟩, fun s hb => ?_⟩
  refine ⟨fun v => whenIdle_of_not_busy hb _, fun v => whenIdle_of_not_busy hb _, fun v => whenIdle_of_not_busy hb _,
    fun v => whenIdle_of_not_busy hb _, fun n v hmem => ?fields, ?command, fun n v hn => ⟨?_, ?_⟩⟩
  case fields =>
    simp only [List.mem_cons, Prod.mk.injEq, List.not_mem_nil, or_false] at hmem
    rcases hmem with ⟨rfl, rfl⟩ | ⟨rfl, rfl⟩ | ⟨rfl, rfl⟩ | ⟨rfl, rfl⟩ | ⟨rfl, rfl⟩ | ⟨rfl, rfl⟩ | ⟨rfl, rfl⟩ |
      ⟨rfl, rfl⟩ <;> exact hostStep_read_of_value hb rfl
  case command => exact ⟨_, _, whenIdle_of_not_busy hb _, rfl, rfl⟩
  · rw [hostStep, whenIdle_of_not_busy hb, writeRegister_of_ten_le v hn]
  · have hne : n ≠ 0 := by omega
    rw [hostStep, whenIdle_of_not_busy hb, readRegister, registerValue_of_ten_le hn, ite_self]
    exact if_neg hne

/-- Settles O14: the buffer is the host's own at any time; the fill step reads the byte it finds. -/
theorem hostBufferAccess : Obligations.HostBufferAccess := by
  unfold Obligations.HostBufferAccess
  refine ⟨fun s i v hwf => ?store, fun s i => ⟨beingRead_eq_false, ?read⟩⟩
  case store =>
    refine ⟨loadBuffer i v s, rfl, Memory.write_wf hwf _ v, hostByte_loadBuffer_same s i v,
      fun j hj => hostByte_loadBuffer_other v hj, rfl, fun hnot => ?_, fun hq hcs hn hi => ?_⟩
    · rw [hostStep_bufRead_of_not_beingRead hnot, hostByte_loadBuffer_same]
      rfl
    · have hbyte : hostByte (loadBuffer i v s) ((loadBuffer i v s).idx + (loadBuffer i v s).cnt) = v := by
        have hsame := hostByte_loadBuffer_same s i v
        nth_rw 2 [hi] at hsame
        exact hsame
      refine ⟨_, answer (memRead i (loadBuffer i v s)), seqStep_w3 (s := loadBuffer i v s) hq hcs hn, ?_⟩
      rw [filled_trace, hbyte, hi]
      rfl
  case read =>
    cases hreading : beingRead s i with
    | false => exact ⟨_, _, hostStep_bufRead_of_not_beingRead hreading, rfl, rfl, fun _ => ⟨rfl, rfl, rfl⟩⟩
    | true => exact ⟨_, _, hostStep_bufRead_of_beingRead hreading, rfl, rfl, fun h => by cases h⟩

end Sys2Proof.HostSide
end

section
/-! PROOFS. O32, O36, O38, O50: the chip's own move, the rows of the two subroutines, of the erases and of READ, and
the controller's reset. The laws of `seqStep` name the state each row leaves; what is left is to write those states as
R303 to R309 do. -/

namespace Sys2Proof.Machine.Dev

variable {d : Dev}

theorem complete_of_not_busy (h : d.busy = false) : d.complete = d := by
  unfold complete
  split <;> simp [h]

theorem complete_busy (h : d.mode = .known) : d.complete.busy = false := by
  cases hb : d.busy with
  | false => rw [complete_of_not_busy hb, hb]
  | true =>
    rw [complete, h]
    simp only [hb, ↓reduceIte]
    cases d.pending <;> rfl

theorem complete_pending (h : d.mode = .known) (hb : d.busy = true) : d.complete.pending = none := by
  rw [complete, h]
  simp only [hb, ↓reduceIte]
  cases d.pending <;> simp

@[simp] theorem complete_buf1Epoch (d : Dev) : d.complete.buf1Epoch = d.buf1Epoch := by
  unfold complete
  repeat' split
  all_goals rfl

theorem sameBuffer_complete (d : Dev) : Safety.sameBuffer d d.complete := by
  intro j
  simp [Safety.bufferByte]

end Sys2Proof.Machine.Dev

namespace Sys2Proof.Machine

variable {s : State}

theorem countByte_exchanged_eq (out : Byte) (s : State) :
    countByte (exchanged out s) = { exchanged out s with cnt := s.cnt + 1 } := by
  simp [countByte]

theorem readOne_eq (s : State) :
    readOne s =
      { exchanged s.cfg.dummyOut s with
        hbuf := s.hbuf.write s.cnt.toNat (answer s)
        trace := (exchanged s.cfg.dummyOut s).trace ++ [.hwr s.cnt (answer s)]
        cnt := s.cnt + 1 } := by
  simp [readOne, countByte, memWrite, emit]

/-- Where 16 bits hold the number of dummies, `cnt` counts them (R309). -/
theorem dummiesSent_of_narrow (h : s.cfg.nReadDummy < 65536) : dummiesSent s = s.cnt.toNat := if_pos h

/-- Beyond 16 bits the bytes of the open transaction are counted (log 12). -/
theorem dummiesSent_of_wide (h : 65536 ≤ s.cfg.nReadDummy) : dummiesSent s = frameBytes s - 4 :=
  if_neg (Nat.not_lt.mpr h)

theorem frameBytes_of_some {bytes : List Byte} (h : s.dev.frame = some bytes) : frameBytes s = bytes.length := by
  simp [frameBytes, h]

end Sys2Proof.Machine

namespace Sys2Proof.Sequencer

open Sys2Proof.Machine

/-- Settles O32: a completion is the chip's alone. -/
theorem chipCompletesOnItsOwn : Obligations.ChipCompletesOnItsOwn := by
  unfold Obligations.ChipCompletesOnItsOwn
  intro s rest hmoves
  exact ⟨_, step_of_move hmoves, rfl, rfl, Dev.complete_busy, Dev.complete_pending, Dev.complete_of_not_busy,
    Dev.complete_frame s.dev, Dev.sameBuffer_complete s.dev⟩

/-- Settles O36: every row is the law of its state. -/
theorem subroutineTables : Obligations.SubroutineTables := by
  unfold Obligations.SubroutineTables
  refine ⟨fun s hmoves => ?_, fun c hc => ⟨ownerOf_opPageErase c, ownerOf_opSectorErase c, ownerOf_opBuf1Write hc,
    ownerOf_opBuf1CommitErase hc, ownerOf_opArrayRead hc⟩⟩
  rw [step_of_no_move hmoves]
  refine ⟨seqStep_pSel, seqStep_pOp, seqStep_pRd, seqStep_pDes, ?ready, ?notReady, fun o => seqStep_hSel, seqStep_hOp,
    seqStep_hA0, seqStep_hA1, seqStep_hA2⟩
  case ready =>
    intro hq hr
    rw [seqStep_pTst hq, readyBit, hr]
    rfl
  case notReady =>
    intro hq hr
    rw [seqStep_pTst hq, readyBit, hr]
    rfl

/-- Settles O38: every row is the law of its state; what counts the dummies of R_2 is the invariant's. -/
theorem eraseAndReadTables : Obligations.EraseAndReadTables := by
  unfold Obligations.EraseAndReadTables
  intro s hmoves
  rw [step_of_no_move hmoves]
  refine ⟨seqStep_ep0, seqStep_ep1, ?refused, ?sector, seqStep_es1, seqStep_r0, seqStep_r1, ?dummy, ?dummiesEnd,
    ?wideDummy, ?wideEnd, ?counted, ?data, ?deselect⟩
  case refused => exact fun hq hz => seqStep_es0_refused hq (decide_eq_true hz)
  case sector => exact fun hq hz => seqStep_es0 hq (decide_eq_false hz)
  case dummy =>
    intro hq hcs hnarrow hn
    rw [← countByte_exchanged_eq]
    exact seqStep_r2 hq hcs (by rwa [dummiesSent_of_narrow hnarrow])
  case dummiesEnd =>
    intro hq hnarrow hn
    exact seqStep_r2_ended hq (by rwa [dummiesSent_of_narrow hnarrow])
  case wideDummy =>
    intro bytes hq hcs hwide hf hn
    rw [← countByte_exchanged_eq]
    exact seqStep_r2 hq hcs (by rw [dummiesSent_of_wide hwide, frameBytes_of_some hf]; omega)
  case wideEnd =>
    intro bytes hq hwide hf hn
    exact seqStep_r2_ended hq (by rw [dummiesSent_of_wide hwide, frameBytes_of_some hf]; omega)
  case counted =>
    intro hinv hq
    obtain ⟨bytes, hf⟩ := Option.isSome_iff_exists.mp (hinv.frame.trans (by rw [hinv.cs, hq]; rfl))
    exact ⟨bytes, dummiesSent s, hf, (frameBytes_of_some hf).symm.trans (hinv.dummyBytes hq), hinv.dummies hq,
      hinv.dummyCnt hq⟩
  case data =>
    intro hq hcs hn
    exact ⟨_, rfl, by rw [seqStep_r3 hq hcs hn, readOne_eq]⟩
  case deselect =>
    rintro (hq | hq | ⟨hq, hcnt⟩) hcs
    · exact seqStep_ep2 hq hcs
    · exact seqStep_es2 hq hcs
    · exact seqStep_r3_ended hq hcs hcnt

/-- Settles O50: the reset writes each of them, whatever the state. -/
theorem resetValues : Obligations.ResetValues := by
  unfold Obligations.ResetValues
  refine ⟨?values, fun s rest hmoves => step_of_move hmoves, fun s => ⟨rfl, rfl⟩, fun s hb => ?chip⟩
  case values =>
    rintro t (rfl | ⟨s, rfl⟩) <;> exact ⟨rfl, rfl, rfl, rfl, rfl, rfl⟩
  case chip => simp [controllerReset, hb]

end Sys2Proof.Sequencer
end

section
/-! PROOFS. O21, O24, O28, O30, O31, O34, O35: more of what whole frames do on `DEV`. A status or identity read and a
frame that is not obeyed leave the chip `rested`; a chip that is busy is `muted` for every other frame; the data bytes
of a buffer write are `stored` from the address's offset on. -/

namespace Sys2Proof.Machine.Dev

open Sys2Proof.Safety

variable {c : Cfg} {d : Dev} {op : Byte} {got : List Byte}

/-- The chip after a frame it listened to that changed nothing of it. -/
def rested (d : Dev) : Dev :=
  { d with frame := none, ignored := false }

/-! ## Status and identity (R83 to R85) -/

/-- Busy or ready, the chip listens to the opcodes it answers (R83, D22). -/
theorem beginFrame_receive_of_answeredBusy (hop : op ∈ c.emitted) (h : answeredBusy c op = true) :
    d.beginFrame.receive c op = d.heard [op] := by
  simp [receive, beginFrame, heard, hop, h]

/-- Outside a session every byte after the opcode is only heard. -/
theorem heard_receive_of_not_session {b : Byte} (hd : d.mode = .known) (h : opensSession c op = false) :
    (d.heard (op :: got)).receive c b = d.heard (op :: (got ++ [b])) := by
  simp only [opensSession, Bool.or_eq_false_iff, beq_eq_false_iff_ne] at h
  have hsession : (d.heard (op :: got)).sessionByte c op got b = d.heard (op :: got) := by
    unfold sessionByte
    split <;> simp [h]
  have hreceive : (d.heard (op :: got)).receive c b =
      { (d.heard (op :: got)).sessionByte c op got b with frame := some (op :: got ++ [b]) } := by
    have hmode : (d.heard (op :: got)).mode = .known := hd
    rw [receive, hmode]
    rfl
  rw [hreceive, hsession]
  rfl

theorem heard_endFrame_of_plain (wp : Bool) (hd : d.mode = .known) (hm : isMutating c op = false)
    (hs : opensSession c op = false) : (d.heard (op :: got)).endFrame c wp = d.rested := by
  have hcommand := commanded_of_not_mutating (d := d.heard (op :: got)) wp hm rfl
  have hformed : (d.heard (op :: got)).malformed c = false := by simp [malformed, heard, hm, hs]
  simp only [endFrame, hcommand, hformed]
  simp [heard, hd, rested]

/-- The two opcodes a busy chip answers neither change the array nor open a session (R6, R108). -/
theorem plain_of_answeredBusy (hc : c.valid = true) (h : answeredBusy c op = true) :
    op ∈ c.emitted ∧ isMutating c op = false ∧ opensSession c op = false := by
  have hdistinct := emitted_nodup hc
  simp only [Cfg.emitted, List.nodup_cons, List.mem_cons, not_or] at hdistinct
  simp only [answeredBusy, Bool.or_eq_true, beq_iff_eq] at h
  obtain rfl | rfl := h <;> simp [Cfg.emitted, isMutating, opensSession, hdistinct]

theorem heard_answer?_status (hd : d.mode = .known) : (d.heard [c.opReadStatus]).answer? c = some d.status := by
  simp [answer?, heard, hd]
  rfl

theorem heard_answer?_identity (hc : c.valid = true) (hd : d.mode = .known) :
    (d.heard (c.opReadId :: got)).answer? c = idByte d.ident got.length := by
  have hdistinct := emitted_nodup hc
  simp only [Cfg.emitted, List.nodup_cons, List.mem_cons, not_or] at hdistinct
  simp [answer?, heard, hd, hdistinct, Ne.symm]

theorem status_bit7 (d : Dev) : d.status.getLsbD 7 = !d.busy := by
  simp only [status, statusByte, BitVec.getLsbD_append, BitVec.getLsbD_ofBool]
  simp

theorem status_low_bits (d : Dev) {i : Nat} (hi : i < 7) : d.status.getLsbD i = d.stat6.getLsbD i := by
  simp only [status, statusByte, BitVec.getLsbD_append]
  simp [hi]

/-! ## Frames that are not obeyed (R83, R96) -/

theorem heard_endFrame_of_blocked {a : Addr} {wp : Bool} (hd : d.mode = .known) (hop : isMutating c op = true)
    (hcommand : (d.heard [op, a.a0, a.a1, a.a2]).commanded c wp = none) :
    (d.heard [op, a.a0, a.a1, a.a2]).endFrame c wp = d.rested := by
  have hformed : (d.heard [op, a.a0, a.a1, a.a2]).malformed c = false := by simp [malformed, heard, hop]
  simp only [endFrame, hcommand, hformed]
  simp [heard, hd, rested]

/-- A chip whose open frame the busy rule drops. -/
def muted (d : Dev) (bytes : List Byte) : Dev :=
  { d with frame := some bytes, ignored := true }

theorem beginFrame_receive_of_busy (hb : d.busy = true) (hop : op ∈ c.emitted) (h : answeredBusy c op = false) :
    d.beginFrame.receive c op = d.muted [op] := by
  simp [receive, beginFrame, muted, hop, h, hb]

theorem muted_receive (b : Byte) (hd : d.mode = .known) :
    (d.muted (op :: got)).receive c b = d.muted (op :: (got ++ [b])) := by
  simp [receive, muted, hd]

theorem muted_endFrame (c : Cfg) (bytes : List Byte) (wp : Bool) (hd : d.mode = .known) :
    (d.muted bytes).endFrame c wp = { d with frame := none, ignored := true } := by
  simp [endFrame, muted, hd]

/-- No mutating opcode and no opcode of a session is one a busy chip answers (R83). -/
theorem answeredBusy_eq_false (hc : c.valid = true) (h : isMutating c op = true ∨ opensSession c op = true) :
    answeredBusy c op = false := by
  cases ha : answeredBusy c op with
  | false => rfl
  | true =>
    obtain ⟨_, hm, hs⟩ := plain_of_answeredBusy hc ha
    simp [hm, hs] at h

/-! ## Buffer 1 (R86) -/

/-- A chip in a write session, the pointer at a place of buffer 1. -/
def filling (c : Cfg) (got : List Byte) (x : Nat) (d : Dev) : Dev :=
  ({ d with ptr := (0, x) } : Dev).heard (c.opBuf1Write :: got)

/-- A chip with bytes written into buffer 1 from a place on. -/
def stored : List Byte → Nat → Dev → Dev
  | [], _, d => d
  | b :: bs, x, d => stored bs (x + 1) { d with buf1 := d.buf1.write x b }

theorem filling_receive {x : Nat} (b : Byte) (hd : d.mode = .known) (hgot : 3 ≤ got.length) (hx : x < pageSize) :
    (d.filling c got x).receive c b =
      ({ d with buf1 := d.buf1.write x b } : Dev).filling c (got ++ [b]) (x + 1) := by
  have hdata : ∀ a0 a1, got ≠ [a0, a1] := by
    rintro a0 a1 rfl
    simp at hgot
  simp [receive, sessionByte, storeByte, filling, heard, hd, hgot, hx]

theorem filling_endFrame {x : Nat} (wp : Bool) (hc : c.valid = true) (hd : d.mode = .known) (hgot : 3 ≤ got.length) :
    (d.filling c got x).endFrame c wp = { d with frame := none, ignored := false, ptr := (0, x) } :=
  heard_endFrame_of_not_mutating (d := { d with ptr := (0, x) }) wp hd
    (isMutating_of_opensSession hc (by simp [opensSession])) hgot

/-- Nothing but buffer 1 is written. -/
theorem stored_eq (bs : List Byte) (x : Nat) (d : Dev) : stored bs x d = { d with buf1 := (stored bs x d).buf1 } := by
  induction bs generalizing x d with
  | nil => rfl
  | cons b bs ih =>
    rw [stored, ih]

theorem stored_mode (bs : List Byte) (x : Nat) (d : Dev) : (stored bs x d).mode = d.mode := by
  rw [stored_eq]

theorem stored_busy (bs : List Byte) (x : Nat) (d : Dev) : (stored bs x d).busy = d.busy := by
  rw [stored_eq]

theorem bufferByte_write_same (d : Dev) (x : Nat) (b : Byte) :
    bufferByte { d with buf1 := d.buf1.write x b } x = b :=
  Memory.read_write_same d.buf1 .buffer1 d.buf1Epoch x b

theorem bufferByte_write_other (d : Dev) {x j : Nat} (b : Byte) (h : j ≠ x) :
    bufferByte { d with buf1 := d.buf1.write x b } j = bufferByte d j :=
  Memory.read_write_other d.buf1 .buffer1 d.buf1Epoch x j b h

theorem bufferByte_stored_outside (bs : List Byte) {x j : Nat} (d : Dev) (h : j < x ∨ x + bs.length ≤ j) :
    bufferByte (stored bs x d) j = bufferByte d j := by
  induction bs generalizing x d with
  | nil => rfl
  | cons b bs ih =>
    rw [List.length_cons] at h
    rw [stored, ih _ (by omega), bufferByte_write_other d b (by omega)]

theorem bufferByte_stored_inside {bs : List Byte} {x j : Nat} {b : Byte} (d : Dev) (h : bs[j]? = some b) :
    bufferByte (stored bs x d) (x + j) = b := by
  induction bs generalizing x d j with
  | nil => simp at h
  | cons b' bs ih =>
    cases j with
    | zero =>
      obtain rfl : b' = b := by simpa using h
      rw [stored, bufferByte_stored_outside bs _ (by omega), Nat.add_zero, bufferByte_write_same]
    | succ j =>
      have hplace : x + (j + 1) = x + 1 + j := by omega
      rw [stored, hplace]
      exact ih _ (by simpa using h)

/-! ## The sector erase (R89) -/

theorem commanded_sectorErase (d : Dev) {wp : Bool} {a : Addr} (hc : c.valid = true)
    (hwp : (wp && c.blocks .eraseSector (addrSector a)) = false) :
    (d.heard [c.opSectorErase, a.a0, a.a1, a.a2]).commanded c wp = some (.eraseSector (addrSector a)) := by
  have hdistinct := emitted_nodup hc
  simp only [Cfg.emitted, List.nodup_cons, List.mem_cons, not_or] at hdistinct
  simp [commanded, heard, hdistinct, Ne.symm, hwp]

/-- The frame of each kind that `WP_BLOCKS` names commands nothing while write-protect is asserted (R96). -/
theorem commanded_of_blocked (d : Dev) {a : Addr} (hc : c.valid = true)
    (h : (op = c.opPageErase ∧ c.blocks .erasePage (addrPage a) = true) ∨
      (op = c.opSectorErase ∧ c.blocks .eraseSector (addrSector a) = true) ∨
      (op = c.opBuf1CommitErase ∧ c.blocks .program (addrPage a) = true)) :
    (d.heard [op, a.a0, a.a1, a.a2]).commanded c true = none := by
  have hdistinct := emitted_nodup hc
  simp only [Cfg.emitted, List.nodup_cons, List.mem_cons, not_or] at hdistinct
  obtain ⟨rfl, hb⟩ | ⟨rfl, hb⟩ | ⟨rfl, hb⟩ := h <;> simp [commanded, heard, hdistinct, Ne.symm, hb]

end Sys2Proof.Machine.Dev

namespace Sys2Proof.Machine

open Sys2Proof.Safety

variable {s : State}

/-! ## Status and identity frames -/

theorem opened_exchanged_dev_of_answeredBusy {op : Byte} (o : Owner) (hc : s.cfg.valid = true)
    (h : answeredBusy s.cfg op = true) : (exchanged op (opened o s)).dev = s.dev.heard [op] := by
  rw [exchanged_dev, opened_dev, opened_cfg,
    Dev.beginFrame_receive_of_answeredBusy (Dev.plain_of_answeredBusy hc h).1 h]

/-- A status read returns the status byte and leaves the chip at rest, busy or ready (R84). -/
theorem statusFrameSent_of_known (o : Owner) (hc : s.cfg.valid = true) (hd : s.dev.mode = .known) :
    (statusFrameSent o s).sr = s.dev.status ∧ (statusFrameSent o s).dev = s.dev.rested := by
  have hop : answeredBusy s.cfg s.cfg.opReadStatus = true := by simp [answeredBusy]
  obtain ⟨_, hm, hs⟩ := Dev.plain_of_answeredBusy hc hop
  have hdev := opened_exchanged_dev_of_answeredBusy o hc hop
  constructor
  · have hanswer := Dev.heard_answer?_status (c := s.cfg) hd
    exact answer_of_some (by rw [hdev]; simpa using hanswer)
  · simp only [statusFrameSent, closed_dev, latchStatus_dev, latchStatus_cfg, latchStatus_wp,
      exchanged_dev (s.cfg.dummyOut), exchanged_cfg, opened_cfg, hdev]
    rw [Dev.heard_receive_of_not_session hd hs, Dev.heard_endFrame_of_plain _ hd hm hs]

theorem idsLatched_dev_of_heard {d : Dev} (count : Nat) {s : State} {got : List Byte} (hc : s.cfg.valid = true)
    (hd : d.mode = .known) (hs : s.dev = d.heard (s.cfg.opReadId :: got)) :
    ∃ got' : List Byte, got'.length = got.length + count ∧
      (idsLatched count s).dev = d.heard (s.cfg.opReadId :: got') := by
  induction count with
  | zero => exact ⟨got, rfl, hs⟩
  | succ count ih =>
    obtain ⟨got', hlen, hdev⟩ := ih
    have hplain := (Dev.plain_of_answeredBusy hc (op := s.cfg.opReadId) (by simp [answeredBusy])).2.2
    refine ⟨got' ++ [s.cfg.dummyOut], by simp only [List.length_append, List.length_singleton]; omega, ?_⟩
    rw [idsLatched_succ_last, idLatched, latchId_dev, exchanged_dev, idsLatched_cfg, hdev,
      Dev.heard_receive_of_not_session hd hplain]

/-- Each byte of an identity read is the identity's (R85). -/
theorem idByte_answer_idsLatched {d : Dev} {j : Nat} {s : State} (hc : s.cfg.valid = true) (hd : d.mode = .known)
    (hs : s.dev = d.heard [s.cfg.opReadId]) {b : Byte} (hb : idByte d.ident j = some b) :
    answer (idsLatched j s) = b := by
  obtain ⟨got, hlen, hdev⟩ := idsLatched_dev_of_heard j hc hd hs
  refine answer_of_some ?_
  rw [hdev, idsLatched_cfg, Dev.heard_answer?_identity hc hd, hlen, List.length_nil, Nat.zero_add, hb]

/-- An identity read returns the identity and leaves the chip at rest, busy or ready (R85, D22). -/
theorem idFrameSent_of_known (hc : s.cfg.valid = true) (hd : s.dev.mode = .known) :
    (idFrameSent s).id = s.dev.ident ∧ (idFrameSent s).dev = s.dev.rested := by
  have hop : answeredBusy s.cfg s.cfg.opReadId = true := by simp [answeredBusy]
  obtain ⟨_, hm, hs⟩ := Dev.plain_of_answeredBusy hc hop
  have hdev : (idOpened s).dev = s.dev.heard [(idOpened s).cfg.opReadId] := by
    rw [idOpened_cfg]
    exact opened_exchanged_dev_of_answeredBusy .diagId hc hop
  have hc' : (idOpened s).cfg.valid = true := by rwa [idOpened_cfg]
  constructor
  · rw [idFrameSent_id, idByte_answer_idsLatched (j := 1) hc' hd hdev rfl,
      idByte_answer_idsLatched (j := 2) hc' hd hdev rfl, idByte_answer_idsLatched (j := 3) hc' hd hdev rfl]
    have hfirst := idByte_answer_idsLatched (j := 0) hc' hd hdev rfl
    rw [idsLatched] at hfirst
    rw [hfirst]
  · obtain ⟨got, _, hlatched⟩ := idsLatched_dev_of_heard 4 hc' hd hdev
    rw [idFrameSent_eq, closed_dev, hlatched, idsLatched_cfg, idOpened_cfg, Dev.heard_endFrame_of_plain _ hd hm hs]

/-! ## Frames that are not obeyed -/

theorem addressFrameSent_dev_of_blocked {op : Byte} {a : Addr} (o : Owner) (hc : s.cfg.valid = true)
    (hd : readyChip s.dev) (hop : isMutating s.cfg op = true)
    (hcommand : (s.dev.heard [op, a.a0, a.a1, a.a2]).commanded s.cfg s.wp = none) :
    (addressFrameSent op a o s).dev = s.dev.rested := by
  have hheader := headerSent_dev_of_ready a o hd (mem_emitted_of_isMutating hop)
  rw [Dev.headerPtr_of_not_session a s.dev.ptr (opensSession_of_isMutating hc hop)] at hheader
  simp only [addressFrameSent, closed_dev, headerSent_cfg, headerSent_wp, hheader]
  exact Dev.heard_endFrame_of_blocked hd.1 hop hcommand

/-- The open frame is one the busy rule drops; the chip is otherwise `d`. -/
def Muted (d : Dev) (s : State) : Prop :=
  ∃ op got, s.dev = d.muted (op :: got)

theorem Muted.exchanged {d : Dev} (hd : d.mode = .known) (h : Muted d s) (out : Byte) : Muted d (exchanged out s) := by
  obtain ⟨op, got, hs⟩ := h
  exact ⟨op, got ++ [out], by rw [exchanged_dev, hs, Dev.muted_receive out hd]⟩

theorem Muted.headerSent {op : Byte} (hd : s.dev.mode = .known) (hb : s.dev.busy = true) (hc : s.cfg.valid = true)
    (hop : isMutating s.cfg op = true ∨ opensSession s.cfg op = true) (hmem : op ∈ s.cfg.emitted) (a : Addr)
    (o : Owner) : Muted s.dev (headerSent op a o s) := by
  have hopcode : Muted s.dev (Machine.exchanged op (opened o (sending op a s))) :=
    ⟨op, [], by
      rw [exchanged_dev, opened_dev, opened_cfg, sending_dev, sending_cfg]
      exact Dev.beginFrame_receive_of_busy hb hmem (Dev.answeredBusy_eq_false hc hop)⟩
  exact ((hopcode.exchanged hd a.a0).exchanged hd a.a1).exchanged hd a.a2

theorem Muted.closed {d : Dev} (hd : d.mode = .known) (h : Muted d s) :
    (closed s).dev = { d with frame := none, ignored := true } := by
  obtain ⟨op, got, hs⟩ := h
  rw [closed_dev, hs, Dev.muted_endFrame s.cfg _ s.wp hd]

/-! ## A buffer write -/

theorem fillOpened_dev_of_ready (a : Addr) (hd : readyChip s.dev) :
    (fillOpened a s).dev = s.dev.filling s.cfg [a.a0, a.a1, a.a2] (addrOffset a) := by
  rw [fillOpened, headerSent_dev_of_ready a .fill (s := startCount s) hd (by simp [Cfg.emitted])]
  simp [Dev.headerPtr, Dev.filling]

/-- The data bytes go into buffer 1 one after another (R86). -/
theorem fills_dev_of_filling {d : Dev} (data : List Byte) {s : State} {got : List Byte} {x : Nat}
    (hd : d.mode = .known) (hs : s.dev = d.filling s.cfg got x) (hgot : 3 ≤ got.length)
    (hx : x + data.length ≤ pageSize) :
    ∃ got' : List Byte, 3 ≤ got'.length ∧
      (fills data s).dev = (Dev.stored data x d).filling s.cfg got' (x + data.length) := by
  induction data generalizing d s got x with
  | nil => exact ⟨got, hgot, hs⟩
  | cons b data ih =>
    rw [List.length_cons] at hx
    have hnext : (countByte (exchanged b s)).dev =
        ({ d with buf1 := d.buf1.write x b } : Dev).filling (countByte (exchanged b s)).cfg (got ++ [b]) (x + 1) := by
      rw [countByte_dev, countByte_cfg, exchanged_cfg, exchanged_dev, hs, Dev.filling_receive b hd hgot (by omega)]
    obtain ⟨got', hlen, hdev⟩ := ih (d := { d with buf1 := d.buf1.write x b }) hd hnext
      (by simp only [List.length_append]; omega) (by omega)
    refine ⟨got', hlen, ?_⟩
    rw [fills, hdev, countByte_cfg, exchanged_cfg, List.length_cons, Nat.add_right_comm, Nat.add_assoc]
    rfl

/-- A whole buffer write on a ready `DEV` (R86). -/
theorem fillFrameSent_dev_of_ready {a : Addr} {data : List Byte} (hc : s.cfg.valid = true) (hd : readyChip s.dev)
    (hsize : addrOffset a + data.length ≤ pageSize) :
    ∃ ptr, (fillFrameSent a data s).dev =
      { Dev.stored data (addrOffset a) s.dev with frame := none, ignored := false, ptr := ptr } := by
  have hcfg : (fillOpened a s).cfg = s.cfg := by simp [fillOpened]
  have hopened := fillOpened_dev_of_ready a hd
  rw [← hcfg] at hopened
  obtain ⟨got, hgot, hfilled⟩ := fills_dev_of_filling data hd.1 hopened (by simp) hsize
  have hend : (fills data (fillOpened a s)).cfg = s.cfg :=
    fills_keeps (P := fun t => t.cfg = s.cfg) (fun b t ht => by simpa using ht) data hcfg
  rw [fillFrameSent_eq, closed_dev, hfilled, hend, hcfg,
    Dev.filling_endFrame _ hc (by rw [Dev.stored_mode, hd.1]) hgot]
  exact ⟨_, rfl⟩

/-- After a buffer write the chip is ready and holds the bytes in buffer 1 (R86). -/
theorem fillFrameSent_of_ready {a : Addr} {data : List Byte} (hc : s.cfg.valid = true) (hd : readyChip s.dev)
    (hsize : addrOffset a + data.length ≤ pageSize) :
    readyChip (fillFrameSent a data s).dev ∧
      ∀ j, bufferByte (fillFrameSent a data s).dev j = bufferByte (Dev.stored data (addrOffset a) s.dev) j := by
  obtain ⟨ptr, hdev⟩ := fillFrameSent_dev_of_ready hc hd hsize
  rw [hdev]
  exact ⟨⟨(Dev.stored_mode _ _ _).trans hd.1, (Dev.stored_busy _ _ _).trans hd.2⟩, fun j => rfl⟩

theorem fillFrameSent_cfg_wp (a : Addr) (data : List Byte) (s : State) :
    (fillFrameSent a data s).cfg = s.cfg ∧ (fillFrameSent a data s).wp = s.wp :=
  fills_keeps (P := fun t => t.cfg = s.cfg ∧ t.wp = s.wp) (fun b t ht => by simpa using ht) data
    (s := fillOpened a s) (by simp [fillOpened])

/-! ## A read inside one page -/

/-- The bytes an array read inside one page stores are the page's (R75, R211). -/
theorem arrayByte?_readFrameSent {page offset size : Word} (hc : s.cfg.valid = true) (hd : readyChip s.dev)
    (hpage : page.toNat < totalPages) (hoffset : offset.toNat < pageSize)
    (hsize : offset.toNat + size.toNat ≤ pageSize) {i : Nat} (hi : i < size.toNat) :
    s.dev.arrayByte? page.toNat (offset.toNat + i) =
      some (hostByte (readFrameSent (encodeAddr page offset) size s) (BitVec.ofNat 16 i)) := by
  have hoffset' : offset.toNat < 512 := lt_512_of_lt_pageSize hoffset
  have hp := addrPage_encodeAddr hpage hoffset'
  have ho := addrOffset_encodeAddr page hoffset'
  have hend : linear page.toNat offset.toNat + size.toNat ≤ totalPages * pageSize := by
    simp only [linear, totalPages, pageSize] at *
    omega
  have hread := (readFrameSent_of_ready (a := encodeAddr page offset) hc hd (by rwa [ho]) (by rwa [hp, ho])).1 i hi
  have hplace : linear page.toNat offset.toNat + i = linear page.toNat (offset.toNat + i) := Nat.add_assoc _ _ _
  rwa [hp, ho, hplace, linear_div (by omega), linear_mod (by omega)] at hread

/-- A completed commit puts buffer 1 on its page, where a read finds it (R75, R87). -/
theorem hostByte_commit_then_read {page : Word} (hc : s.cfg.valid = true) (hd : readyChip s.dev)
    (hpage : page.toNat < totalPages) (hwp : s.wp = false) {i : Nat} (hi : i < pageSize) :
    hostByte (readFrameSent (encodeAddr page 0) (BitVec.ofNat 16 pageSize)
      (chipDone (addressFrameSent s.cfg.opBuf1CommitErase (encodeAddr page 0) .commit s))) (BitVec.ofNat 16 i) =
      bufferByte s.dev i := by
  have hp := addrPage_encodeAddr (offset := 0) hpage (by decide)
  have hdev := addressFrameSent_dev_of_commanded .commit hc hd (by simp [isMutating])
    (Dev.commanded_commit s.dev (a := encodeAddr page 0) (by rw [hwp, Bool.false_and]))
  obtain ⟨_, _, hready, _⟩ := busy_then_ready_of_started hd.1 hdev
  have hread := arrayByte?_readFrameSent (offset := 0) (size := BitVec.ofNat 16 pageSize)
    (by simpa [addressFrameSent] using hc) hready hpage (by decide) (by decide) (i := i) (by simpa [pageSize] using hi)
  have hcommitted := Dev.started_complete_arrayByte?_same_page hd.1
    (operation := .programPage (addrPage (encodeAddr page 0)) s.dev.buf1Bytes) (addrPage_lt _) rfl hi
    (s.dev.getElem?_buf1Bytes hi)
  have hzero : (0 : Word).toNat + i = i := Nat.zero_add i
  rw [hzero, chipDone_dev, hdev, ← hp, hcommitted] at hread
  exact (Option.some.inj hread).symm

end Sys2Proof.Machine

namespace Sys2Proof.ChipFrames

open Sys2Proof.Machine Sys2Proof.Safety

/-- Settles O21: both frames are listened to, busy or ready, and answered byte by byte. -/
theorem statusAndIdentityOnTheChip : Obligations.StatusAndIdentityOnTheChip := by
  unfold Obligations.StatusAndIdentityOnTheChip
  intro s hc hcs hd
  obtain ⟨hsr, hstatus⟩ := statusFrameSent_of_known .poll hc hd
  obtain ⟨hid, hidentity⟩ := idFrameSent_of_known hc hd
  refine ⟨⟨_, execStatusRead_of_cs hcs, ?_, fun i hi => ?_, ?_⟩, ⟨_, execIdRead_of_cs hcs, hid, ?_⟩⟩
  · rw [hsr, Dev.status_bit7]
  · rw [hsr, Dev.status_low_bits s.dev hi]
  · rw [hstatus]
    rfl
  · rw [hidentity]
    rfl

/-- Settles O24: the header puts the pointer at the address's offset, and each data byte is stored there in turn. -/
theorem bufferWriteOnTheChip : Obligations.BufferWriteOnTheChip := by
  unfold Obligations.BufferWriteOnTheChip
  intro s a data hc hcs hd hsize
  obtain ⟨ptr, hdev⟩ := fillFrameSent_dev_of_ready hc hd hsize
  obtain ⟨hready, hbytes⟩ := fillFrameSent_of_ready hc hd hsize
  have hstored := Dev.stored_eq data (addrOffset a) s.dev
  refine ⟨_, execBuf1Write_of_cs hcs, hready, by rw [hdev], fun j b hb => ?_, fun j hj => ?_, fun p o => ?_, ?_⟩
  · rw [hbytes, Dev.bufferByte_stored_inside _ hb]
  · rw [hbytes, Dev.bufferByte_stored_outside _ _ hj]
  · rw [hdev, hstored]
    rfl
  · rw [hdev, hstored]

/-- Settles O28: the frame leaves the chip `started` on the erase, whose completion writes ones over 256 pages in a
row. -/
theorem sectorEraseOnTheChip : Obligations.SectorEraseOnTheChip := by
  unfold Obligations.SectorEraseOnTheChip
  intro s a hc hcs hd hwp
  have hdev := addressFrameSent_dev_of_commanded .erase hc hd (by simp [isMutating])
    (Dev.commanded_sectorErase s.dev hc hwp)
  obtain ⟨hbusy, harray, hready, hbuffer⟩ := busy_then_ready_of_started hd.1 hdev
  have hsector : addrSector a < 16 := by rw [addrSector_eq]; omega
  refine ⟨_, addressFrame_of_cs hcs, hbusy, harray, hready, hbuffer, fun p o hp ho => ?_, fun p o hp => ?_⟩
  · have hplace : linear p o = linear (sectorPages * addrSector a) 0 + linear (p % sectorPages) o := by
      simp only [linear, pageSize, sectorPages] at *
      omega
    have hlt : linear (p % sectorPages) o < sectorPages * pageSize := by
      simp only [linear, pageSize, sectorPages] at *
      omega
    rw [chipDone_dev, hdev]
    refine Dev.started_complete_arrayByte?_inside hd.1 ?_ ho hplace (by simp [Operation.content, hlt])
    simp only [sectorPages, totalPages] at *
    omega
  · rw [chipDone_dev, hdev]
    refine Dev.started_complete_arrayByte?_outside hd.1 fun ho => ?_
    simp only [Operation.range, Operation.content, List.length_replicate, linear, pageSize, sectorPages] at *
    omega

/-- Settles O30: each of the three frames is whole, but commands nothing. -/
theorem writeProtectBlocksFrame : Obligations.WriteProtectBlocksFrame := by
  unfold Obligations.WriteProtectBlocksFrame
  intro s a i kind p hc hcs hd hwp hmem hblocks
  have hblocked : ∀ op o, isMutating s.cfg op = true →
      ((op = s.cfg.opPageErase ∧ s.cfg.blocks .erasePage (addrPage a) = true) ∨
        (op = s.cfg.opSectorErase ∧ s.cfg.blocks .eraseSector (addrSector a) = true) ∨
        (op = s.cfg.opBuf1CommitErase ∧ s.cfg.blocks .program (addrPage a) = true)) →
      ∃ t, addressFrame op a o s = .next t ∧
        { t.dev with ignored := s.dev.ignored } = { s.dev with frame := none } := by
    intro op o hop h
    refine ⟨_, addressFrame_of_cs hcs, ?_⟩
    rw [addressFrameSent_dev_of_blocked o hc hd hop (by rw [hwp]; exact Dev.commanded_of_blocked s.dev hc h)]
    rfl
  simp only [List.mem_cons, Prod.mk.injEq, List.not_mem_nil, or_false] at hmem
  obtain ⟨rfl, rfl, rfl⟩ | ⟨rfl, rfl, rfl⟩ | ⟨rfl, rfl, rfl⟩ := hmem
  · exact hblocked _ _ (by simp [isMutating]) (.inl ⟨rfl, hblocks⟩)
  · exact hblocked _ _ (by simp [isMutating]) (.inr (.inl ⟨rfl, hblocks⟩))
  · exact hblocked _ _ (by simp [isMutating]) (.inr (.inr ⟨rfl, hblocks⟩))

/-- Settles O31: the opcode mutes the frame, and no later byte is obeyed. -/
theorem busyChipIgnoresFrames : Obligations.BusyChipIgnoresFrames := by
  unfold Obligations.BusyChipIgnoresFrames
  intro s i hc hcs hd hb hi
  have hend : ∀ {t : State}, Muted s.dev t →
      { (closed t).dev with ignored := s.dev.ignored } = { s.dev with frame := none } := by
    intro t ht
    rw [ht.closed hd]
  have hbyte : ∀ (b : Byte) (t : State), Muted s.dev t → Muted s.dev (countByte (exchanged b t)) :=
    fun b t ht => ht.exchanged hd b
  have haddress : ∀ op a o, isMutating s.cfg op = true → ∃ t, addressFrame op a o s = .next t ∧
      { t.dev with ignored := s.dev.ignored } = { s.dev with frame := none } := fun op a o hop =>
    ⟨_, addressFrame_of_cs hcs, hend (Muted.headerSent hd hb hc (.inl hop) (mem_emitted_of_isMutating hop) a o)⟩
  obtain ⟨a, rfl⟩ | ⟨a, rfl⟩ | ⟨a, data, rfl⟩ | ⟨a, rfl⟩ | ⟨a, size, rfl⟩ := hi
  · exact haddress _ a _ (by simp [isMutating])
  · exact haddress _ a _ (by simp [isMutating])
  · have hheader := Muted.headerSent (s := startCount s) hd hb hc (op := s.cfg.opBuf1Write)
      (.inr (by simp [opensSession])) (by simp [Cfg.emitted]) a .fill
    exact ⟨_, execBuf1Write_of_cs hcs, hend (fills_keeps hbyte data hheader)⟩
  · exact haddress _ a _ (by simp [isMutating])
  · have hheader := Muted.headerSent (s := startCount s) hd hb hc (op := s.cfg.opArrayRead)
      (.inr (by simp [opensSession])) (by simp [Cfg.emitted]) a .read
    have hread : ∀ t, Muted s.dev t → Muted s.dev (readOne t) := fun t ht => ht.exchanged hd t.cfg.dummyOut
    exact ⟨_, execArrayRead_of_cs hcs,
      hend (readMany_keeps hread size.toNat (s := startCount _) (dummies_keeps hbyte s.cfg.nReadDummy hheader))⟩

/-- Settles O34: the completed erase has written ones over the page, and the read's bytes are the page's. -/
theorem eraseThenReadGivesAllOnes : Obligations.EraseThenReadGivesAllOnes := by
  unfold Obligations.EraseThenReadGivesAllOnes
  intro s page offset size hc hcs hd hpage hsize hoffset hwp
  have hp := addrPage_encodeAddr (offset := 0) hpage (by decide)
  rw [← hp] at hwp
  have hdev := addressFrameSent_dev_of_commanded .erase hc hd (by simp [isMutating])
    (Dev.commanded_pageErase s.dev hc hwp)
  obtain ⟨_, _, hready, _⟩ := busy_then_ready_of_started hd.1 hdev
  refine ⟨_, _, addressFrame_of_cs hcs, execArrayRead_of_cs rfl, fun i hi => ?_⟩
  have hread := arrayByte?_readFrameSent (by simpa [addressFrameSent] using hc) hready hpage hoffset hsize hi
  have hplace : offset.toNat + i < pageSize := by omega
  have herased := Dev.started_complete_arrayByte?_same_page (b := 0xFF#8) hd.1
    (operation := .erasePage (addrPage (encodeAddr page 0))) (addrPage_lt _) rfl hplace
    (by simp [Operation.content, hplace])
  rw [chipDone_dev, hdev, ← hp, herased] at hread
  exact (Option.some.inj hread).symm

/-- Settles O35: the fill stores the bytes at the head of buffer 1, the completed commit writes the whole buffer over
the page, and the read's bytes are the page's. -/
theorem writeCommitReadRoundTrip : Obligations.WriteCommitReadRoundTrip := by
  unfold Obligations.WriteCommitReadRoundTrip
  intro s page data hc hcs hd hpage hdata hwp
  have ho : addrOffset (bufferAddr 0) = 0 := by decide
  obtain ⟨hready, hbuffer⟩ := fillFrameSent_of_ready (a := bufferAddr 0) (data := data) hc hd
    (by rwa [ho, Nat.zero_add])
  obtain ⟨hcfg, hwp'⟩ := fillFrameSent_cfg_wp (bufferAddr 0) data s
  rw [ho] at hbuffer
  rw [← hcfg] at hc
  rw [← hwp'] at hwp
  refine ⟨_, _, _, execBuf1Write_of_cs hcs, addressFrame_of_cs rfl, execArrayRead_of_cs rfl, fun i b hb => ?_,
    fun i hi hsize => ?_⟩
  · obtain ⟨hi, _⟩ := List.getElem?_eq_some_iff.mp hb
    rw [hostByte_commit_then_read hc hready hpage hwp (by omega), hbuffer]
    simpa using Dev.bufferByte_stored_inside (x := 0) s.dev hb
  · rw [hostByte_commit_then_read hc hready hpage hwp hsize, hbuffer]
    exact Dev.bufferByte_stored_outside _ _ (.inr (by omega))

end Sys2Proof.ChipFrames
end

section
/-! PROOFS. O51: what a reset that abandons a command leaves of the chip. Two runs of the array are drawn anew, that of
the pending operation and that which the open frame names. -/

namespace Sys2Proof.Machine.Dev

open Sys2Proof.Safety

variable {d e : Dev} {p o : Nat}

/-- A byte of a run drawn anew is one of a new draw (U14). -/
theorem drawnAnew_disturb_inside {r : Nat × Nat} (he : d.epochs ≤ e.epochs) (hp : p < totalPages) (ho : o < pageSize)
    (h1 : r.1 ≤ linear p o) (h2 : linear p o < r.1 + r.2) : drawnAnew d (e.disturb (some r)) p o :=
  ⟨e.epochs, he, redrawRange_arrayByte?_inside e hp ho h1 h2⟩

/-- What is drawn anew stays so when another run is drawn after it. -/
theorem drawnAnew_disturb (he : d.epochs ≤ e.epochs) (hp : p < totalPages) (ho : o < pageSize)
    (h : drawnAnew d e p o) (range : Option (Nat × Nat)) : drawnAnew d (e.disturb range) p o := by
  by_cases hin : ∃ r, range = some r ∧ r.1 ≤ linear p o ∧ linear p o < r.1 + r.2
  · obtain ⟨r, rfl, h1, h2⟩ := hin
    exact drawnAnew_disturb_inside he hp ho h1 h2
  · obtain ⟨epoch, hepoch, hbyte⟩ := h
    refine ⟨epoch, hepoch, ?_⟩
    rw [disturb_arrayByte?_outside e range, hbyte]
    intro r hr
    by_contra hout
    exact hin ⟨r, hr, by omega, by omega⟩

theorem epochs_le_disturb (d : Dev) (range : Option (Nat × Nat)) : d.epochs ≤ (d.disturb range).epochs := by
  cases range with
  | none => exact Nat.le_refl _
  | some r => exact Nat.le_succ _

theorem abandon_of_known (c : Cfg) (h : d.mode = .known) :
    d.abandon c =
      { ((d.disturb (d.pending.map Operation.range)).disturb (d.addressed c)).lose with frame := none } := by
  rw [abandon, h]

theorem abandon_mode_of_known (c : Cfg) (h : d.mode = .known) : (d.abandon c).mode = .unknown := by
  rw [abandon_of_known c h]
  simp [lose, h]

theorem abandon_arrayByte?_of_known (c : Cfg) (h : d.mode = .known) (p o : Nat) :
    (d.abandon c).arrayByte? p o =
      ((d.disturb (d.pending.map Operation.range)).disturb (d.addressed c)).arrayByte? p o := by
  rw [abandon_of_known c h, ← lose_arrayByte? ((d.disturb (d.pending.map Operation.range)).disturb (d.addressed c))]
  rfl

end Sys2Proof.Machine.Dev

namespace Sys2Proof.ChipFrames

open Sys2Proof.Machine Sys2Proof.Safety

/-- Settles O51: each clause follows the two runs that are drawn anew, in their order. -/
theorem resetDuringCommand : Obligations.ResetDuringCommand := by
  unfold Obligations.ResetDuringCommand
  intro s hb hd
  have hdev : (controllerReset s).dev = s.dev.abandon s.cfg := by simp [controllerReset, hb]
  have hbyte := Dev.abandon_arrayByte?_of_known s.cfg hd
  have hepochs := Dev.epochs_le_disturb s.dev (s.dev.pending.map Operation.range)
  rw [hdev]
  refine ⟨Dev.abandon_mode_of_known s.cfg hd, Dev.abandon_frame s.cfg s.dev, ?pending, ?named, ?rest⟩
  case pending =>
    intro op p o hop hp ho h1 h2
    rw [drawnAnew, hbyte, hop]
    rw [hop] at hepochs
    exact Dev.drawnAnew_disturb hepochs hp ho (Dev.drawnAnew_disturb_inside (Nat.le_refl _) hp ho h1 h2) _
  case named =>
    intro op got a p o hframe hgot hop hp ho hplace
    obtain ⟨h1, h2⟩ := namedRange_covers s.cfg op hgot hp ho hplace
    have haddressed : s.dev.addressed s.cfg = some (namedRange s.cfg op got) := by simp [Dev.addressed, hframe, hop]
    rw [drawnAnew, hbyte, haddressed]
    exact Dev.drawnAnew_disturb_inside hepochs hp ho h1 h2
  case rest =>
    intro p o hout
    rw [hbyte, Dev.disturb_arrayByte?_outside _ _ fun r hr => hout r (.inr hr),
      Dev.disturb_arrayByte?_outside _ _ fun r hr => hout r (.inl hr)]

end Sys2Proof.ChipFrames
end

section
/-! PROOFS. O49, O42, O43, O45, O46: the runs of the commands. `BUSY` is bookkeeping, as the control registers are: the
pseudocode does the same on a state whose `BUSY` is set (`raised`). So the sequencer's run of a command is that of its
pseudocode, and the run of INIT, of DIAGNOSE and, on a ready `DEV`, of the erases and of READ follows from it. -/

namespace Sys2Proof.Machine

/-- `BUSY` set. -/
def raised (s : State) : State :=
  { s with busy := true }

section
variable (s : State)

@[simp] theorem raised_cs : (raised s).cs = s.cs := (rfl)
@[simp] theorem raised_cfg : (raised s).cfg = s.cfg := (rfl)
@[simp] theorem raised_dev : (raised s).dev = s.dev := (rfl)
@[simp] theorem raised_moves : (raised s).moves = s.moves := (rfl)
@[simp] theorem raised_sr : (raised s).sr = s.sr := (rfl)
@[simp] theorem raised_rem : (raised s).rem = s.rem := (rfl)
@[simp] theorem raised_n : (raised s).n = s.n := (rfl)
@[simp] theorem raised_cnt : (raised s).cnt = s.cnt := (rfl)
@[simp] theorem raised_size : (raised s).size = s.size := (rfl)
@[simp] theorem raised_sector : (raised s).sector = s.sector := (rfl)
@[simp] theorem answer_raised : answer (raised s) = answer s := (rfl)
@[simp] theorem pageEraseAddr_raised : pageEraseAddr (raised s) = pageEraseAddr s := (rfl)
@[simp] theorem sectorEraseAddr_raised : sectorEraseAddr (raised s) = sectorEraseAddr s := (rfl)
@[simp] theorem arrayReadAddr_raised : arrayReadAddr (raised s) = arrayReadAddr s := (rfl)
@[simp] theorem commitAddr_raised : commitAddr (raised s) = commitAddr s := (rfl)

@[simp] theorem opened_raised (o : Owner) : opened o (raised s) = raised (opened o s) := (rfl)
@[simp] theorem closed_raised : closed (raised s) = raised (closed s) := (rfl)
@[simp] theorem sending_raised (op : Byte) (a : Addr) : sending op a (raised s) = raised (sending op a s) := (rfl)
@[simp] theorem latchStatus_raised (v : Byte) : latchStatus v (raised s) = raised (latchStatus v s) := (rfl)
@[simp] theorem startCount_raised : startCount (raised s) = raised (startCount s) := (rfl)
@[simp] theorem countByte_raised : countByte (raised s) = raised (countByte s) := (rfl)
@[simp] theorem startId_raised : startId (raised s) = raised (startId s) := (rfl)
@[simp] theorem latchId_raised (v : Byte) : latchId v (raised s) = raised (latchId v s) := (rfl)
@[simp] theorem latchDiag_raised : latchDiag (raised s) = raised (latchDiag s) := (rfl)
@[simp] theorem memWrite_raised (i : Word) (v : Byte) : memWrite i v (raised s) = raised (memWrite i v s) := (rfl)
@[simp] theorem setWp_raised (b : Bool) : setWp b (raised s) = raised (setWp b s) := (rfl)
@[simp] theorem setRst_raised (b : Bool) : setRst b (raised s) = raised (setRst b s) := (rfl)
@[simp] theorem delayMs_raised (ms : Nat) : delayMs ms (raised s) = raised (delayMs ms s) := (rfl)
@[simp] theorem startWrite_raised : startWrite (raised s) = raised (startWrite s) := (rfl)
@[simp] theorem startChunk_raised : startChunk (raised s) = raised (startChunk s) := (rfl)
@[simp] theorem nextChunk_raised : nextChunk (raised s) = raised (nextChunk s) := (rfl)

@[simp] theorem exchanged_raised (out : Byte) : exchanged out (raised s) = raised (exchanged out s) := by
  have hanswered : answered (raised s) = raised (answered s) := by
    unfold answered
    simp only [raised_dev, raised_cfg]
    cases s.dev.answer? s.cfg <;> rfl
  rw [exchanged, hanswered]
  rfl

@[simp] theorem headerSent_raised (op : Byte) (a : Addr) (o : Owner) :
    headerSent op a o (raised s) = raised (headerSent op a o s) := by
  simp [headerSent]

@[simp] theorem statusFrameSent_raised (o : Owner) : statusFrameSent o (raised s) = raised (statusFrameSent o s) := by
  simp [statusFrameSent]

@[simp] theorem addressFrameSent_raised (op : Byte) (a : Addr) (o : Owner) :
    addressFrameSent op a o (raised s) = raised (addressFrameSent op a o s) := by
  simp [addressFrameSent]

@[simp] theorem filled_raised : filled (raised s) = raised (filled s) :=
  congrArg countByte (exchanged_raised (memRead (s.idx + s.cnt) s) (hostByte s (s.idx + s.cnt)))

@[simp] theorem readOne_raised : readOne (raised s) = raised (readOne s) := by
  simp [readOne]

@[simp] theorem idLatched_raised : idLatched (raised s) = raised (idLatched s) := by
  simp [idLatched]

end

@[simp] theorem dummies_raised (count : Nat) (s : State) : dummies count (raised s) = raised (dummies count s) := by
  induction count generalizing s <;> simp_all [dummies]

@[simp] theorem readMany_raised (count : Nat) (s : State) : readMany count (raised s) = raised (readMany count s) := by
  induction count generalizing s <;> simp_all [readMany]

@[simp] theorem idsLatched_raised (count : Nat) (s : State) :
    idsLatched count (raised s) = raised (idsLatched count s) := by
  induction count generalizing s <;> simp_all [idsLatched]

@[simp] theorem idFrameSent_raised (s : State) : idFrameSent (raised s) = raised (idFrameSent s) := by
  simp [idFrameSent]

@[simp] theorem readFrameSent_raised (a : Addr) (size : Word) (s : State) :
    readFrameSent a size (raised s) = raised (readFrameSent a size s) := by
  simp [readFrameSent]

/-! ## The pseudocode from de-selection -/

theorem waitUntilReady_raised (polls : Nat) {s : State} (hcs : s.cs = false) :
    waitUntilReady polls (raised s) = (waitUntilReady polls s).map raised := by
  induction polls generalizing s with
  | zero => rfl
  | succ polls ih =>
    rw [waitUntilReady_succ polls hcs, waitUntilReady_succ polls (s := raised s) hcs, statusFrameSent_raised,
      raised_sr, ih (statusFrameSent_cs .poll s)]
    split <;> rfl

theorem fillFromHost_raised (count : Nat) {s : State} (hcs : s.cs = true) :
    fillFromHost count (raised s) = (fillFromHost count s).map raised := by
  induction count generalizing s with
  | zero => rfl
  | succ count ih =>
    have hnext : (filled s).cs = true := by simpa [filled] using hcs
    simp only [fillFromHost, fillStep_of_cs hcs, fillStep_of_cs (s := raised s) hcs, filled_raised, completed_of_next,
      Option.bind_some, ih hnext]

end Sys2Proof.Machine

namespace Sys2Proof.Safety

open Sys2Proof.Machine

/-! ## Runs of the subroutines with `BUSY` set -/

variable {s t : State} {polls : Nat} {o : Owner} {op : Byte} {a : Addr} {r h : Machine.Seq}

/-- A row of the sequencer's tables, taken in a command. -/
theorem Reaches.row {u : State} {q : Machine.Seq} (hm : s.moves = [])
    (hstep : Machine.seqStep (moved q r h (raised s)) = .next u) : Reaches (moved q r h (raised s)) u :=
  Reaches.seqStep hm hstep

theorem wait_run_raised (hm : s.moves = []) (hcs : s.cs = false) (hw : waitUntilReady polls s = some t) :
    Reaches (moved .pSel r h (raised s)) (moved r r h (raised t)) ∧ t.cs = false ∧ t.moves = [] ∧ t.cfg = s.cfg ∧
      t.n = s.n := by
  have hw' : waitUntilReady polls (raised s) = some (raised t) := by rw [waitUntilReady_raised polls hcs, hw]; rfl
  exact wait_run polls r h (s := raised s) hm hcs hw'

theorem header_run_raised (hm : s.moves = []) (hcs : s.cs = false) (ho : ownerOf s.cfg op = some o) :
    Reaches (moved .hSel r h (sending op a (raised s))) (moved h r h (raised (headerSent op a o s))) := by
  rw [← headerSent_raised]
  exact header_run r h (s := raised s) hm hcs ho

/-- A frame whose caller, in the state the header returns to, ends the transaction and the command. -/
theorem frame_run (hend : ∀ {u : State}, u.seq = h → u.cs = true → seqStep u = .next (goto .done (closed u)))
    (hm : s.moves = []) (hcs : s.cs = false) (ho : ownerOf s.cfg op = some o) :
    Reaches (moved .hSel r h (sending op a (raised s))) (moved .done r h (raised (addressFrameSent op a o s))) := by
  have hheader : Reaches _ _ := header_run_raised (a := a) (r := r) (h := h) hm hcs ho
  have hclose : Reaches (moved h r h (raised (headerSent op a o s)))
      (moved .done r h (raised (addressFrameSent op a o s))) :=
    Reaches.seqStep (by simpa using hm) (hend rfl (by simp))
  exact hheader.trans hclose

/-- The last step of every command (R302). -/
theorem done_run (hm : t.moves = []) : Reaches (moved .done r h (raised t)) (idleWith r h t) :=
  Reaches.seqStep hm (seqStep_done rfl)

/-! ## INIT, the erases and DIAGNOSE -/

theorem init_run (hm : s.moves = []) :
    Reaches (moved .iWp r h (raised s))
      (moved .done r h (raised (setRst false (delayMs s.cfg.resetHoldMs (setRst true (setWp true s)))))) := by
  have hwp := seqStep_iWp (s := moved .iWp r h (raised s)) rfl
  have hassert := seqStep_iRst1 (s := moved .iRst1 r h (raised (setWp true s))) rfl
  have hdelay := seqStep_iDly (s := moved .iDly r h (raised (setRst true (setWp true s)))) rfl
  have hdeassert := seqStep_iRst0
    (s := moved .iRst0 r h (raised (delayMs s.cfg.resetHoldMs (setRst true (setWp true s))))) rfl
  simp only [setWp_moved, setWp_raised, goto_moved] at hwp
  simp only [setRst_moved, setRst_raised, goto_moved] at hassert hdeassert
  simp only [delayMs_moved, delayMs_raised, goto_moved, moved_cfg, raised_cfg, setRst_cfg, setWp_cfg] at hdelay
  exact (((Reaches.row hm hwp).trans (Reaches.row (by simpa) hassert)).trans
    (Reaches.row (by simpa) hdelay)).trans (Reaches.row (by simpa) hdeassert)

theorem erasePage_run (hm : s.moves = []) (hcs : s.cs = false) (hw : waitUntilReady polls s = some t) :
    Reaches (moved .ep0 r h (raised s))
      (moved .done .ep1 .ep2 (raised (addressFrameSent t.cfg.opPageErase (pageEraseAddr t) .erase t))) := by
  have hcall : Reaches (moved .ep0 r h (raised s)) (moved .pSel .ep1 h (raised s)) :=
    Reaches.seqStep hm (seqStep_ep0 rfl)
  obtain ⟨hwait, hcs', hm', _, _⟩ := wait_run_raised (r := .ep1) (h := h) hm hcs hw
  have hheader : Reaches (moved .ep1 .ep1 h (raised t))
      (moved .hSel .ep1 .ep2 (sending t.cfg.opPageErase (pageEraseAddr t) (raised t))) :=
    Reaches.seqStep hm' (seqStep_ep1 rfl)
  exact ((hcall.trans hwait).trans hheader).trans (frame_run seqStep_ep2 hm' hcs' (ownerOf_opPageErase t.cfg))

theorem eraseSector_run (hm : s.moves = []) (hcs : s.cs = false) (hz : sectorRefused s.sector = false)
    (hw : waitUntilReady polls s = some t) :
    Reaches (moved .es0 r h (raised s))
      (moved .done .es1 .es2 (raised (addressFrameSent t.cfg.opSectorErase (sectorEraseAddr t) .erase t))) := by
  have hcall : Reaches (moved .es0 r h (raised s)) (moved .pSel .es1 h (raised s)) :=
    Reaches.seqStep hm (seqStep_es0 rfl hz)
  obtain ⟨hwait, hcs', hm', _, _⟩ := wait_run_raised (r := .es1) (h := h) hm hcs hw
  have hheader : Reaches (moved .es1 .es1 h (raised t))
      (moved .hSel .es1 .es2 (sending t.cfg.opSectorErase (sectorEraseAddr t) (raised t))) :=
    Reaches.seqStep hm' (seqStep_es1 rfl)
  exact ((hcall.trans hwait).trans hheader).trans (frame_run seqStep_es2 hm' hcs' (ownerOf_opSectorErase t.cfg))

theorem idsLatched_k_toNat (count : Nat) {s : State} (h : s.k.toNat + count < 8) :
    (idsLatched count s).k.toNat = s.k.toNat + count := by
  induction count generalizing s with
  | zero => rfl
  | succ count ih =>
    have hk : (idLatched s).k.toNat = s.k.toNat + 1 := by
      rw [idLatched_k]
      bv_omega
    rw [idsLatched, ih (by omega)]
    omega

theorem idsLatched_moves (count : Nat) (s : State) : (idsLatched count s).moves = s.moves :=
  idsLatched_keeps (P := fun t => t.moves = s.moves) (fun t ht => by simpa [idLatched] using ht) count rfl

/-- The identity transaction of DIAGNOSE (R310). -/
theorem identity_run (hm : s.moves = []) (hcs : s.cs = false) :
    Reaches (moved .g0 r h (raised s)) (moved .g3 r h (raised (idFrameSent s))) := by
  have hselect : Reaches (moved .g0 r h (raised s)) (moved .g1 r h (raised (opened .diagId s))) :=
    Reaches.seqStep hm (seqStep_g0 rfl hcs)
  have hopcode : Reaches (moved .g1 r h (raised (opened .diagId s))) (moved .g2 r h (raised (idOpened s))) := by
    have hstep := seqStep_g1 (s := moved .g1 r h (raised (opened .diagId s))) rfl rfl
    simp only [exchanged_moved, exchanged_raised] at hstep
    exact Reaches.seqStep hm hstep
  have hmoves : (idOpened s).moves = [] := by simpa [idOpened] using hm
  have hopen : (idOpened s).cs = true := by simp [idOpened]
  have hids : Reaches (moved .g2 r h (raised (idOpened s))) (moved .g2 r h (raised (idsLatched 4 (idOpened s)))) := by
    rw [← idsLatched_raised]
    exact idsLatched_run r h 4 (s := raised (idOpened s)) hmoves hopen rfl
  have hfour : (idsLatched 4 (idOpened s)).k = 4#3 :=
    BitVec.eq_of_toNat_eq (idsLatched_k_toNat 4 (s := idOpened s) (by simp))
  have hclose : Reaches (moved .g2 r h (raised (idsLatched 4 (idOpened s)))) (moved .g3 r h (raised (idFrameSent s))) :=
    Reaches.seqStep ((idsLatched_moves 4 _).trans hmoves)
      (seqStep_g2_ended rfl ((idsLatched_cs 4 (idOpened s)).trans hopen) hfour)
  exact ((hselect.trans hopcode).trans hids).trans hclose

/-- The status transaction of DIAGNOSE, and its verdict (R310). -/
theorem verdict_run (hm : s.moves = []) (hcs : s.cs = false) :
    Reaches (moved .g3 r h (raised s)) (moved .done r h (raised (latchDiag (statusFrameSent .diagSr s)))) := by
  have hselect : Reaches (moved .g3 r h (raised s)) (moved .g4 r h (raised (opened .diagSr s))) :=
    Reaches.seqStep hm (seqStep_g3 rfl hcs)
  have hopcode : Reaches (moved .g4 r h (raised (opened .diagSr s)))
      (moved .g5 r h (raised (exchanged s.cfg.opReadStatus (opened .diagSr s)))) := by
    have hstep := seqStep_g4 (s := moved .g4 r h (raised (opened .diagSr s))) rfl rfl
    simp only [exchanged_moved, exchanged_raised] at hstep
    exact Reaches.seqStep hm hstep
  have hstatus := seqStep_g5 (s := moved .g5 r h (raised (exchanged s.cfg.opReadStatus (opened .diagSr s)))) rfl
    (by simp)
  have hclose := seqStep_g6 (s := moved .g6 r h (raised (latchStatus
    (answer (exchanged s.cfg.opReadStatus (opened .diagSr s)))
    (exchanged s.cfg.dummyOut (exchanged s.cfg.opReadStatus (opened .diagSr s)))))) rfl (by simp)
  have hverdict := seqStep_g7 (s := moved .g7 r h (raised (statusFrameSent .diagSr s))) rfl
  simp only [moved_cfg, raised_cfg, exchanged_cfg, opened_cfg, exchanged_moved, exchanged_raised, latchStatus_moved,
    latchStatus_raised, answer_moved, answer_raised, goto_moved] at hstatus
  simp only [closed_moved, closed_raised, goto_moved] at hclose
  simp only [latchDiag_moved, latchDiag_raised, goto_moved] at hverdict
  exact (((hselect.trans hopcode).trans (Reaches.row (by simpa) hstatus)).trans
    (Reaches.row (by simpa) hclose)).trans (Reaches.row (by simpa [statusFrameSent]) hverdict)

/-! ## READ -/

theorem dummiesSent_startCount_headerSent (op : Byte) (a : Addr) (o : Owner) (s : State) :
    (∃ bytes : List Byte, (headerSent op a o (startCount s)).dev.frame = some bytes ∧ bytes.length = 4) ∧
      dummiesSent (headerSent op a o (startCount s)) = 0 := by
  have hopened : (opened o (sending op a (startCount s))).dev.frame = some [] := rfl
  have hframe : (headerSent op a o (startCount s)).dev.frame = some [op, a.a0, a.a1, a.a2] := by
    simp only [headerSent, exchanged_dev]
    exact Dev.receive_frame _ _ (Dev.receive_frame _ _ (Dev.receive_frame _ _ (Dev.receive_frame _ _ hopened)))
  refine ⟨⟨_, hframe, rfl⟩, ?_⟩
  unfold dummiesSent
  split
  · simp
  · simp [frameBytes, hframe]

theorem dummiesSent_dummies (count : Nat) {s : State} {bytes : List Byte} (hf : s.dev.frame = some bytes)
    (hl : 4 ≤ bytes.length) (hn : dummiesSent s + count ≤ s.cfg.nReadDummy) :
    dummiesSent (dummies count s) = dummiesSent s + count := by
  induction count generalizing s bytes with
  | zero => rfl
  | succ count ih =>
    have hsent := dummiesSent_countByte_exchanged s.cfg.dummyOut hf hl (by omega)
    have hframe : (countByte (exchanged s.cfg.dummyOut s)).dev.frame = some (bytes ++ [s.cfg.dummyOut]) := by
      simpa using Dev.receive_frame s.cfg s.cfg.dummyOut hf
    rw [dummies, ih hframe (by simp; omega) (by simp only [hsent, countByte_cfg, exchanged_cfg]; omega), hsent]
    omega

theorem readMany_cnt_toNat (count : Nat) {s : State} (h : s.cnt.toNat + count < 65536) :
    (readMany count s).cnt.toNat = s.cnt.toNat + count := by
  induction count generalizing s with
  | zero => rfl
  | succ count ih =>
    have hcnt := readOne_cnt_toNat (s := s) (by omega)
    rw [readMany, ih (by omega), hcnt]
    omega

theorem dummies_moves_size (count : Nat) (s : State) :
    (dummies count s).moves = s.moves ∧ (dummies count s).size = s.size :=
  dummies_keeps (P := fun t => t.moves = s.moves ∧ t.size = s.size) (fun b t ht => by simpa using ht) count
    ⟨rfl, rfl⟩

theorem readMany_moves_size (count : Nat) (s : State) :
    (readMany count s).moves = s.moves ∧ (readMany count s).size = s.size :=
  readMany_keeps (P := fun t => t.moves = s.moves ∧ t.size = s.size) (fun t ht => by simpa [readOne] using ht) count
    ⟨rfl, rfl⟩

/-- From the header of an array read on (R309). -/
theorem readFrame_run (hm : s.moves = []) (hcs : s.cs = false) (hc : s.cfg.valid = true) :
    Reaches (moved .r1 r h (raised s)) (moved .done r .r2 (raised (readFrameSent (arrayReadAddr s) s.size s))) := by
  have hcall : Reaches (moved .r1 r h (raised s))
      (moved .hSel r .r2 (sending s.cfg.opArrayRead (arrayReadAddr s) (raised (startCount s)))) :=
    Reaches.seqStep hm (seqStep_r1 rfl)
  have hheader := header_run_raised (s := startCount s) (a := arrayReadAddr s) (r := r) (h := .r2) hm hcs
    (ownerOf_opArrayRead hc)
  obtain ⟨⟨bytes, hframe, hlen⟩, hzero⟩ :=
    dummiesSent_startCount_headerSent s.cfg.opArrayRead (arrayReadAddr s) .read s
  have hmoves : (headerSent s.cfg.opArrayRead (arrayReadAddr s) .read (startCount s)).moves = [] := by simpa using hm
  have hcfg : (headerSent s.cfg.opArrayRead (arrayReadAddr s) .read (startCount s)).cfg = s.cfg := by simp
  have hdummies := dummies_run r .r2 s.cfg.nReadDummy
    (s := raised (headerSent s.cfg.opArrayRead (arrayReadAddr s) .read (startCount s))) hmoves (by simp) hframe hlen.ge
    (by rw [raised_cfg, hcfg]; exact (congrArg (· + s.cfg.nReadDummy) hzero).trans (Nat.zero_add _))
  have hall := dummiesSent_dummies s.cfg.nReadDummy hframe hlen.ge (by rw [hzero, hcfg, Nat.zero_add])
  obtain ⟨hmoves', hsize⟩ := dummies_moves_size s.cfg.nReadDummy
    (headerSent s.cfg.opArrayRead (arrayReadAddr s) .read (startCount s))
  have hdata := seqStep_r2_ended (s := moved .r2 r .r2 (raised (dummies s.cfg.nReadDummy
    (headerSent s.cfg.opArrayRead (arrayReadAddr s) .read (startCount s))))) rfl
    (by rw [dummiesSent_moved, moved_cfg, raised_cfg, dummies_cfg, hcfg]
        exact hall.trans (by rw [hzero, Nat.zero_add]))
  simp only [startCount_moved, startCount_raised, goto_moved] at hdata
  rw [hmoves] at hmoves'
  have hsize' : (readOpened (arrayReadAddr s) s).size = s.size := hsize.trans (by simp)
  have hread := readMany_run r .r2 s.size.toNat (s := raised (readOpened (arrayReadAddr s) s)) hmoves'
    (by simp [readOpened]) (by rw [raised_cnt, readOpened_cnt, raised_size, hsize']; exact Nat.zero_add _)
  obtain ⟨hmoves'', hsize''⟩ := readMany_moves_size s.size.toNat (readOpened (arrayReadAddr s) s)
  have hcnt : (readMany s.size.toNat (readOpened (arrayReadAddr s) s)).cnt =
      (readMany s.size.toNat (readOpened (arrayReadAddr s) s)).size := by
    refine BitVec.eq_of_toNat_eq ?_
    rw [readMany_cnt_toNat s.size.toNat (by simpa using s.size.isLt), hsize'', hsize', readOpened_cnt]
    exact Nat.zero_add _
  have hend := seqStep_r3_ended
    (s := moved .r3 r .r2 (raised (readMany s.size.toNat (readOpened (arrayReadAddr s) s)))) rfl
    (by simp [readOpened]) hcnt
  simp only [closed_moved, closed_raised, goto_moved] at hend
  rw [dummies_raised] at hdummies
  rw [readMany_raised] at hread
  exact ((((hcall.trans hheader).trans hdummies).trans (Reaches.row hmoves' hdata)).trans hread).trans
    (Reaches.row (hmoves''.trans hmoves') hend)

/-! ## WRITE -/

/-- The stages of a chunk that ends: a wait, the fill from the open session, a wait, the commit (R194). -/
theorem writePage_stages (hcs : s.cs = false) (hp : writePage polls s = some t) :
    ∃ s1 s3 s5, waitUntilReady polls s = some s1 ∧ s1.cs = false ∧
      fillFromHost s1.n.toNat (fillOpened (bufferAddr 0) s1) = some s3 ∧ s3.cs = true ∧
      waitUntilReady polls (closed s3) = some s5 ∧ s5.cs = false ∧
      t = addressFrameSent s5.cfg.opBuf1CommitErase (commitAddr s5) .commit s5 := by
  have hkept : ∀ {u v : State}, u.cs = false → waitUntilReady polls u = some v → v.cs = false := by
    intro u v hu hw
    have h := congrArg State.cs (waitUntilReady_unchanged polls hu hw)
    exact h.trans hu
  have hfills : ∀ (count : Nat) {u v : State}, u.cs = true → fillFromHost count u = some v → v.cs = true := by
    intro count
    induction count with
    | zero =>
      intro u v hu hf
      obtain rfl : u = v := Option.some.inj hf
      exact hu
    | succ count ih =>
      intro u v hu hf
      rw [fillFromHost, fillStep_of_cs hu] at hf
      exact ih (by simpa [filled] using hu) hf
  obtain ⟨s1, hwait, hp⟩ := bind_eq_some hp
  have h1 := hkept hcs hwait
  rw [header_of_cs (s := startCount s1) h1] at hp
  have hn : (fillOpened (bufferAddr 0) s1).n = s1.n := by simp [fillOpened]
  obtain ⟨s3, hfill, hp⟩ := bind_eq_some (o := fillFromHost (fillOpened (bufferAddr 0) s1).n.toNat _) hp
  rw [hn] at hfill
  have h3 := hfills s1.n.toNat (by simp) hfill
  rw [deselect_eq_next.mpr ⟨h3, rfl⟩] at hp
  obtain ⟨s5, hwait', hp⟩ := bind_eq_some (o := waitUntilReady polls (closed s3)) hp
  have h5 := hkept rfl hwait'
  rw [execBuf1CommitErase, addressFrame_of_cs h5] at hp
  exact ⟨s1, s3, s5, hwait, h1, hfill, h3, hwait', h5, (Option.some.inj hp).symm⟩

/-- One turn of the chunk loop, from its first wait to the head of the next turn (R308). -/
theorem writePage_run (hm : s.moves = []) (hcs : s.cs = false) (hc : s.cfg.valid = true)
    (hp : writePage polls s = some t) :
    Reaches (moved .pSel .w2 h (raised s)) (moved .w1 .w4 .w5 (raised (nextChunk t))) ∧ t.moves = [] ∧ t.cs = false ∧
      t.cfg = s.cfg := by
  obtain ⟨s1, s3, s5, hwait, _, hfill, _, hwait', _, rfl⟩ := writePage_stages hcs hp
  obtain ⟨hpoll, hcs1, hm1, hcfg1, _⟩ := wait_run_raised (r := .w2) (h := h) hm hcs hwait
  have hc1 : s1.cfg.valid = true := by rwa [hcfg1]
  have hcall : Reaches (moved .w2 .w2 h (raised s1))
      (moved .hSel .w2 .w3 (sending s1.cfg.opBuf1Write (bufferAddr 0) (raised (startCount s1)))) :=
    Reaches.row hm1 (seqStep_w2 rfl)
  have hheader : Reaches (moved .hSel .w2 .w3 (sending s1.cfg.opBuf1Write (bufferAddr 0) (raised (startCount s1))))
      (moved .w3 .w2 .w3 (raised (fillOpened (bufferAddr 0) s1))) :=
    header_run_raised (s := startCount s1) hm1 hcs1 (ownerOf_opBuf1Write hc1)
  have hopened : (fillOpened (bufferAddr 0) s1).cs = true ∧ (fillOpened (bufferAddr 0) s1).moves = [] ∧
      (fillOpened (bufferAddr 0) s1).cfg = s1.cfg ∧ (fillOpened (bufferAddr 0) s1).n = s1.n ∧
      (fillOpened (bufferAddr 0) s1).cnt = 0 := by
    simp [fillOpened, hm1]
  obtain ⟨hcs2, hm2, hcfg2, hn2, hcnt2⟩ := hopened
  have hfill' : fillFromHost s1.n.toNat (raised (fillOpened (bufferAddr 0) s1)) = some (raised s3) := by
    rw [fillFromHost_raised _ hcs2, hfill]
    rfl
  obtain ⟨hloop, hcs3, hm3, hcnt3, hcfg3, _⟩ := fill_run .w2 .w3 s1.n.toNat
    (s := raised (fillOpened (bufferAddr 0) s1)) hm2 hcs2
    (by rw [raised_cnt, raised_n, hcnt2, hn2]; exact Nat.zero_add _) hfill'
  have hcfg3' : s3.cfg = s1.cfg := hcfg3.trans hcfg2
  have hclose := seqStep_w3_ended (s := moved .w3 .w2 .w3 (raised s3)) rfl hcs3 hcnt3
  simp only [closed_moved, closed_raised, callPoll_moved] at hclose
  obtain ⟨hpoll', hcs5, hm5, hcfg5, _⟩ := wait_run_raised (r := .w4) (h := .w3) (s := closed s3) hm3 rfl hwait'
  have hcfg : s5.cfg = s.cfg := hcfg5.trans (hcfg3'.trans hcfg1)
  have hcall' : Reaches (moved .w4 .w4 .w3 (raised s5))
      (moved .hSel .w4 .w5 (sending s5.cfg.opBuf1CommitErase (commitAddr s5) (raised s5))) :=
    Reaches.row hm5 (seqStep_w4 rfl)
  have hheader' : Reaches (moved .hSel .w4 .w5 (sending s5.cfg.opBuf1CommitErase (commitAddr s5) (raised s5))) _ :=
    header_run_raised hm5 hcs5 (ownerOf_opBuf1CommitErase (by rwa [hcfg]))
  have hend := seqStep_w5 (s := moved .w5 .w4 .w5
    (raised (headerSent s5.cfg.opBuf1CommitErase (commitAddr s5) .commit s5))) rfl (by simp)
  simp only [closed_moved, closed_raised, nextChunk_moved, nextChunk_raised, goto_moved] at hend
  refine ⟨?_, by simpa [addressFrameSent] using hm5, rfl, by simpa [addressFrameSent] using hcfg⟩
  exact ((((((hpoll.trans hcall).trans hheader).trans hloop).trans (Reaches.row hm3 hclose)).trans hpoll').trans
    hcall').trans (hheader'.trans (Reaches.row (by simpa using hm5) hend))

/-- The chunk loop (R195, R308): its turns are those of the pseudocode, and it ends with nothing left. -/
theorem writeChunks_run (chunks : Nat) {s t : State} {r h : Machine.Seq} (hm : s.moves = []) (hcs : s.cs = false)
    (hc : s.cfg.valid = true) (hw : writeChunks polls chunks s = some t) :
    (∃ r' h', Reaches (moved .w1 r h (raised s)) (moved .w1 r' h' (raised t))) ∧ t.moves = [] ∧ t.cs = false ∧
      t.rem = 0#16 := by
  induction chunks generalizing s r h with
  | zero =>
    obtain ⟨hrem, hst⟩ := Option.ite_none_right_eq_some.mp hw
    obtain rfl := Option.some.inj hst
    exact ⟨⟨r, h, Reaches.refl _⟩, hm, hcs, hrem⟩
  | succ chunks ih =>
    rw [writeChunks] at hw
    split at hw
    next hrem =>
      obtain rfl := Option.some.inj hw
      exact ⟨⟨r, h, Reaches.refl _⟩, hm, hcs, hrem⟩
    next hrem =>
      obtain ⟨u, hpage, hrest⟩ := bind_eq_some hw
      obtain ⟨hturn, hmu, hcsu, hcfgu⟩ := writePage_run (h := h) (s := startChunk s) hm hcs hc hpage
      have hc' : (nextChunk u).cfg.valid = true := by
        rw [nextChunk_cfg, hcfgu]
        exact hc
      obtain ⟨⟨r', h', hruns⟩, hend⟩ := ih (s := nextChunk u) (r := .w4) (h := .w5) hmu hcsu hc' hrest
      have hcall : Reaches (moved .w1 r h (raised s)) (moved .pSel .w2 h (raised (startChunk s))) :=
        Reaches.row hm (seqStep_w1 rfl hrem)
      exact ⟨⟨r', h', (hcall.trans hturn).trans hruns⟩, hend⟩

theorem write_run (hm : s.moves = []) (hcs : s.cs = false) (hc : s.cfg.valid = true)
    (hw : writeProgram polls s = some t) :
    ∃ r' h', Reaches (moved .w0 r h (raised s)) (moved .done r' h' (raised t)) ∧ t.moves = [] := by
  obtain ⟨u, hchunks, hw⟩ := bind_eq_some hw
  obtain ⟨v, hwait, hw⟩ := bind_eq_some hw
  obtain rfl := Option.some.inj hw
  obtain ⟨⟨r', h', hloop⟩, hmu, hcsu, hrem⟩ :=
    writeChunks_run maxChunks (r := r) (h := h) (s := startWrite (setWp false s)) hm hcs hc hchunks
  obtain ⟨hpoll, _, hmv, _, _⟩ := wait_run_raised (r := .w6) (h := h') hmu hcsu hwait
  have hstart := seqStep_w0 (s := moved .w0 r h (raised s)) rfl
  simp only [setWp_moved, setWp_raised, startWrite_moved, startWrite_raised, goto_moved] at hstart
  have hcall : Reaches (moved .w1 r' h' (raised u)) (moved .pSel .w6 h' (raised u)) :=
    Reaches.row hmu (seqStep_w1_ended rfl hrem)
  have hend := seqStep_w6 (s := moved .w6 .w6 h' (raised v)) rfl
  simp only [setWp_moved, setWp_raised, goto_moved] at hend
  exact ⟨_, _, ((((Reaches.row hm hstart).trans hloop).trans hcall).trans hpoll).trans (Reaches.row hmv hend), hmv⟩

/-! ## Whole commands -/

/-- A command whose run ends in `DONE` with the pseudocode's state has run as the pseudocode says. -/
theorem reaches_idleWith {first : Machine.Seq} (hm : t.moves = [])
    (hrun : Reaches (moved first s.ret s.hret (raised s)) (moved .done r h (raised t))) :
    ∃ r h, Reaches (began first s) (idleWith r h t) :=
  ⟨r, h, hrun.trans (done_run hm)⟩

theorem erasePageProgram_run (hm : s.moves = []) (hcs : s.cs = false) (hp : erasePageProgram polls s = some t) :
    ∃ r h, Reaches (began .ep0 s) (idleWith r h t) := by
  obtain ⟨u, hwait, hp⟩ := bind_eq_some hp
  obtain ⟨_, hcs', hm', _, _⟩ := wait_run_raised (r := .ep1) (h := s.hret) hm hcs hwait
  rw [execPageErase, addressFrame_of_cs hcs'] at hp
  obtain rfl := Option.some.inj hp
  exact reaches_idleWith (by simpa [addressFrameSent] using hm') (erasePage_run hm hcs hwait)

theorem eraseSectorProgram_run (hs : AtRest s) (hp : eraseSectorProgram polls s = some t) :
    ∃ r h, Reaches (began .es0 s) (idleWith r h t) := by
  rw [eraseSectorProgram] at hp
  split at hp
  next hz =>
    obtain rfl := Option.some.inj hp
    exact reaches_idleWith hs.moves (Reaches.row hs.moves (seqStep_es0_refused rfl hz))
  next hz =>
    obtain ⟨u, hwait, hp⟩ := bind_eq_some hp
    obtain ⟨_, hcs', hm', _, _⟩ := wait_run_raised (r := .es1) (h := s.hret) hs.moves hs.cs hwait
    rw [execSectorErase, addressFrame_of_cs hcs'] at hp
    obtain rfl := Option.some.inj hp
    exact reaches_idleWith (by simpa [addressFrameSent] using hm')
      (eraseSector_run hs.moves hs.cs (Bool.eq_false_of_not_eq_true hz) hwait)

theorem readProgram_run (hs : AtRest s) (hp : readProgram polls s = some t) :
    ∃ r h, Reaches (began .r0 s) (idleWith r h t) := by
  obtain ⟨u, hwait, hp⟩ := bind_eq_some hp
  obtain ⟨hpoll, hcs', hm', hcfg', _⟩ := wait_run_raised (r := .r1) (h := s.hret) hs.moves hs.cs hwait
  rw [execArrayRead_of_cs hcs'] at hp
  obtain rfl := Option.some.inj hp
  have hcall : Reaches (moved .r0 s.ret s.hret (raised s)) (moved .pSel .r1 s.hret (raised s)) :=
    Reaches.row hs.moves (seqStep_r0 rfl)
  have hm'' : (readFrameSent (arrayReadAddr u) u.size u).moves = [] := by
    rw [readFrameSent_eq, closed_moves, (readMany_moves_size _ _).1, readOpened, startCount_moves,
      (dummies_moves_size _ _).1, headerSent_moves, startCount_moves, hm']
  exact reaches_idleWith hm'' ((hcall.trans hpoll).trans (readFrame_run hm' hcs' (by rw [hcfg']; exact hs.cfg)))

theorem idFrameSent_moves (s : State) : (idFrameSent s).moves = s.moves := by
  rw [idFrameSent_eq, closed_moves, idsLatched_moves]
  simp [idOpened]

theorem diagnose_run (hm : s.moves = []) (hcs : s.cs = false) :
    Reaches (moved .g0 r h (raised s))
      (moved .done r h (raised (latchDiag (statusFrameSent .diagSr (idFrameSent s))))) :=
  (identity_run hm hcs).trans (verdict_run ((idFrameSent_moves s).trans hm) rfl)

theorem diagnoseProgram_eq (hcs : s.cs = false) :
    diagnoseProgram s = some (latchDiag (statusFrameSent .diagSr (idFrameSent s))) := by
  rw [diagnoseProgram, execIdRead_of_cs hcs]
  simp [statusFrame_of_cs (show (idFrameSent s).cs = false from rfl)]

theorem latchDiag_statusFrameSent_moves (hm : s.moves = []) :
    (latchDiag (statusFrameSent .diagSr (idFrameSent s))).moves = [] := by
  simp [statusFrameSent, idFrameSent_moves, hm]

/-- The run of a command from its acceptance is its pseudocode's (R311). -/
theorem command_run {i : Instr} (hs : AtRest s) (hi : isCommand i = true)
    (hp : commandProgram polls i s = some t) :
    ∃ r h, Reaches (began (NoLeftovers.firstState i) s) (idleWith r h t) := by
  obtain rfl | rfl | rfl | rfl | rfl | rfl := NoLeftovers.isCommand_iff.mp hi
  · obtain rfl := Option.some.inj hp
    exact reaches_idleWith (by simpa using hs.moves) (init_run hs.moves)
  · exact erasePageProgram_run hs.moves hs.cs hp
  · exact eraseSectorProgram_run hs hp
  · obtain ⟨r', h', hrun, hm⟩ := write_run (r := s.ret) (h := s.hret) hs.moves hs.cs hs.cfg hp
    exact reaches_idleWith hm hrun
  · exact readProgram_run hs hp
  · obtain rfl := Option.some.inj ((diagnoseProgram_eq hs.cs).symm.trans hp)
    exact reaches_idleWith (latchDiag_statusFrameSent_moves hs.moves) (diagnose_run hs.moves hs.cs)

end Sys2Proof.Safety

namespace Sys2Proof.CommandRuns

open Sys2Proof.Machine Sys2Proof.Safety

theorem exec_of_atRest {s : State} {i : Instr} (hs : AtRest s) (hi : isCommand i = true) :
    exec i s = .next (began (NoLeftovers.firstState i) s) :=
  (NoLeftovers.exec_of_isCommand hi s).trans (NoLeftovers.accept_of_not_busy hs.busy)

/-- Settles O49: the command is accepted, and its run is `command_run`. -/
theorem commandsAgreeWithPseudocode : Obligations.CommandsAgreeWithPseudocode := by
  unfold Obligations.CommandsAgreeWithPseudocode
  intro polls i s t hs hi hp
  obtain ⟨r, h, hrun⟩ := command_run hs hi hp
  exact ⟨_, r, h, exec_of_atRest hs hi, hrun⟩

end Sys2Proof.CommandRuns
end

section
/-! PROOFS. O42, O43, O45, O46: the runs of INIT, of DIAGNOSE and, on a ready `DEV`, of the erases and of READ. Each
ends in the state its whole frames leave; what is said of that state is the frames' own. -/

namespace Sys2Proof.Machine

open Sys2Proof.Safety

variable {s : State}

/-! ## The reset pulse (R92, R230) -/

theorem Dev.resetPulse_of_not_oracle {d : Dev} (h : d.mode ≠ .oracle) :
    readyChip d.resetPulse ∧ d.resetPulse.frame = none ∧ sameArray d d.resetPulse := by
  unfold Dev.resetPulse
  cases hm : d.mode with
  | oracle => exact absurd hm h
  | unknown => exact ⟨⟨rfl, rfl⟩, rfl, fun _ _ => rfl⟩
  | known => exact ⟨⟨rfl, rfl⟩, rfl, fun _ _ => rfl⟩

/-- What INIT leaves. -/
def initialised (s : State) : State :=
  setRst false (delayMs s.cfg.resetHoldMs (setRst true (setWp true s)))

theorem initialised_eq (s : State) :
    initialised s =
      { s with
        wp := true, rst := false, dev := s.dev.resetPulse
        trace := s.trace ++ [.wp true, .rst true, .delay s.cfg.resetHoldMs, .rst false] } := by
  simp [initialised, setRst, delayMs, setWp, emit]

/-! ## DIAGNOSE (R222) -/

/-- What DIAGNOSE leaves. -/
def diagnosed (s : State) : State :=
  latchDiag (statusFrameSent .diagSr (idFrameSent s))

theorem statusFrameSent_id (o : Owner) (s : State) : (statusFrameSent o s).id = s.id := by
  simp [statusFrameSent]

theorem diagnosed_unchanged (hcs : s.cs = false) :
    { diagnosed s with
      id := s.id, k := s.k, sr := s.sr, diagOk := s.diagOk, dev := s.dev, answers := s.answers, draws := s.draws,
      trace := s.trace } = { s with own := .none } :=
  calc { diagnosed s with
      id := s.id, k := s.k, sr := s.sr, diagOk := s.diagOk, dev := s.dev, answers := s.answers, draws := s.draws,
      trace := s.trace }
    _ = { unidentified s (unpolled (idFrameSent s) (statusFrameSent .diagSr (idFrameSent s))) with
          sr := s.sr, diagOk := s.diagOk } := rfl
    _ = { unidentified s (idFrameSent s) with own := .none, sr := s.sr, diagOk := s.diagOk } := by
        rw [unpolled_statusFrameSent .diagSr rfl]; rfl
    _ = { s with own := .none } := by rw [unidentified_idFrameSent hcs]

/-! ## A wait on a ready chip (R172, R173) -/

/-- A ready `DEV` ends a wait at its first status read. -/
theorem waitUntilReady_of_ready (hc : s.cfg.valid = true) (hcs : s.cs = false) (hd : readyChip s.dev) :
    waitUntilReady 1 s = some (statusFrameSent .poll s) := by
  obtain ⟨hmode, hbusy⟩ := hd
  have hready : readyBit (statusFrameSent .poll s).sr = true := by
    rw [(statusFrameSent_of_known .poll hc hmode).1, readyBit, Dev.status_bit7, hbusy]
    rfl
  rw [waitUntilReady_succ 0 hcs, if_pos hready]

theorem statusFrameSent_readyChip (hc : s.cfg.valid = true) (hd : readyChip s.dev) :
    readyChip (statusFrameSent .poll s).dev := by
  rw [(statusFrameSent_of_known .poll hc hd.1).2]
  exact hd

/-- One poll, then a format FA frame: the events, and what is left of the controller. -/
theorem poll_then_addressFrame (op : Byte) (a : Addr) (o : Owner) (hcs : s.cs = false) :
    (∃ new : List Event, (addressFrameSent op a o (statusFrameSent .poll s)).trace = s.trace ++ new ∧
      new.map unanswered = pollsEvents s.cfg 1 ++ headerEvents op a ++ [.des]) ∧
      { addressFrameSent op a o (statusFrameSent .poll s) with
        sr := s.sr, cop := s.cop, addr := s.addr, dev := s.dev, answers := s.answers, draws := s.draws,
        trace := s.trace } = { s with own := .none } := by
  constructor
  · obtain ⟨b0, b1, b2, b3, hheader⟩ := headerSent_trace op a o (statusFrameSent .poll s)
    refine ⟨pollEvents s.cfg (answer (opened .poll s), (statusFrameSent .poll s).sr) ++
      [.sel, .x op b0, .x a.a0 b1, .x a.a1 b2, .x a.a2 b3, .des], ?_, ?_⟩
    · rw [addressFrameSent, closed_trace, hheader, statusFrameSent_trace]
      simp
    · simp [pollsEvents, pollEvents, headerEvents, unanswered]
  · calc { addressFrameSent op a o (statusFrameSent .poll s) with
          sr := s.sr, cop := s.cop, addr := s.addr, dev := s.dev, answers := s.answers, draws := s.draws,
          trace := s.trace }
      _ = { unpolled s (unsent (statusFrameSent .poll s) (addressFrameSent op a o (statusFrameSent .poll s))) with
            cop := s.cop, addr := s.addr } := rfl
      _ = { unpolled s (statusFrameSent .poll s) with own := .none, cop := s.cop, addr := s.addr } := by
          rw [unsent_addressFrameSent op a o rfl]; rfl
      _ = { s with own := .none } := by rw [unpolled_statusFrameSent .poll hcs]

/-- The mutating frame of an erase command, unless it is blocked, leaves the chip on its operation. -/
theorem addressFrameSent_polled_of_commanded {op : Byte} {a : Addr} {operation : Operation} (o : Owner)
    (hc : s.cfg.valid = true) (hd : readyChip s.dev) (hop : isMutating s.cfg op = true)
    (hcommand : ∀ d : Dev, (d.heard [op, a.a0, a.a1, a.a2]).commanded s.cfg s.wp = some operation) :
    (addressFrameSent op a o (statusFrameSent .poll s)).dev.busy = true ∧
      (addressFrameSent op a o (statusFrameSent .poll s)).dev.pending = some operation := by
  have hcfg := statusFrameSent_cfg .poll s
  have hwp : (statusFrameSent .poll s).wp = s.wp := by simp [statusFrameSent]
  rw [← hcfg] at hc hop
  have hdev := addressFrameSent_dev_of_commanded o hc (statusFrameSent_readyChip (by rwa [hcfg] at hc) hd) hop
    (by rw [hcfg, hwp]; exact hcommand _)
  rw [hdev]
  exact ⟨rfl, rfl⟩

end Sys2Proof.Machine

namespace Sys2Proof.CommandRuns

open Sys2Proof.Machine Sys2Proof.Safety

/-- The frame of a command, from that of what its pseudocode leaves (R302). -/
theorem idleWith_unchanged {s t : State} {r h : Seq} (hs : AtRest s)
    (hframe : { t with
      sr := s.sr, cop := s.cop, addr := s.addr, dev := s.dev, answers := s.answers, draws := s.draws,
      trace := s.trace } = { s with own := .none }) :
    { idleWith r h t with
      sr := s.sr, ret := s.ret, hret := s.hret, cop := s.cop, addr := s.addr, dev := s.dev, answers := s.answers,
      draws := s.draws, trace := s.trace } = { s with own := .none } :=
  calc _ = { { t with
        sr := s.sr, cop := s.cop, addr := s.addr, dev := s.dev, answers := s.answers, draws := s.draws,
        trace := s.trace } with busy := false, seq := .idle, ret := s.ret, hret := s.hret } := rfl
    _ = { s with own := .none, busy := false, seq := .idle } := by rw [hframe]
    _ = { s with own := .none } := by rw [← hs.busy, ← hs.seq]

/-- Settles O42: the four rows of INIT, and the reset pulse on the chip. -/
theorem initRun : Obligations.InitRun := by
  unfold Obligations.InitRun
  intro s hs
  have hleft := initialised_eq s
  refine ⟨_, idleWith s.ret s.hret (initialised s), exec_of_atRest hs rfl,
    (init_run hs.moves).trans (done_run (by simpa using hs.moves)), ?_⟩
  rw [hleft]
  refine ⟨rfl, rfl, rfl, hs.cs, ?_, Dev.resetPulse_of_not_oracle⟩
  calc _ = { s with busy := false, seq := .idle } := rfl
    _ = s := by rw [← hs.busy, ← hs.seq]

/-- Settles O43: the two transactions of DIAGNOSE one after the other, and its two checks. -/
theorem diagnoseRun : Obligations.DiagnoseRun := by
  unfold Obligations.DiagnoseRun
  intro s hs
  refine ⟨_, idleWith s.ret s.hret (diagnosed s), answer (opened .diagId s), (idFrameSent s).id.b0,
    (idFrameSent s).id.b1, (idFrameSent s).id.b2, (idFrameSent s).id.b3, answer (opened .diagSr (idFrameSent s)),
    (statusFrameSent .diagSr (idFrameSent s)).sr, exec_of_atRest hs rfl,
    (diagnose_run hs.moves hs.cs).trans (done_run (latchDiag_statusFrameSent_moves hs.moves)), ?trace, ?id, ?verdict,
    ?frame⟩
  case trace =>
    show (statusFrameSent .diagSr (idFrameSent s)).trace = _
    rw [statusFrameSent_trace, idFrameSent_trace, idFrameSent_cfg, List.append_assoc]
    rfl
  case id => exact statusFrameSent_id .diagSr (idFrameSent s)
  case verdict =>
    show diagResult (statusFrameSent .diagSr (idFrameSent s)).cfg (statusFrameSent .diagSr (idFrameSent s)).id
      (statusFrameSent .diagSr (idFrameSent s)).sr = true ↔ _
    rw [diagResult_eq_true_iff, statusFrameSent_cfg, idFrameSent_cfg, statusFrameSent_id]
  case frame =>
    calc _ = { { diagnosed s with
          id := s.id, k := s.k, sr := s.sr, diagOk := s.diagOk, dev := s.dev, answers := s.answers, draws := s.draws,
          trace := s.trace } with busy := false, seq := .idle, ret := s.ret, hret := s.hret } := rfl
      _ = { s with own := .none, busy := false, seq := .idle } := by rw [diagnosed_unchanged hs.cs]
      _ = { s with own := .none } := by rw [← hs.busy, ← hs.seq]

/-- Settles O45: one poll of a ready chip, then the erase frame. -/
theorem eraseCommandsRun : Obligations.EraseCommandsRun := by
  unfold Obligations.EraseCommandsRun
  intro s i op a kind p pending hs hd hmem hsector
  have hwait := waitUntilReady_of_ready hs.cfg hs.cs hd
  have hmoves : ∀ op a, (addressFrameSent op a .erase (statusFrameSent .poll s)).moves = [] := by
    simp [addressFrameSent, statusFrameSent, hs.moves]
  obtain ⟨⟨new, htrace, hnew⟩, hframe⟩ := poll_then_addressFrame op a .erase hs.cs
  simp only [List.mem_cons, Prod.mk.injEq, List.not_mem_nil, or_false] at hmem
  obtain ⟨rfl, rfl, rfl, rfl, rfl, rfl⟩ | ⟨rfl, rfl, rfl, rfl, rfl, rfl⟩ := hmem
  · have hrun := erasePage_run (r := s.ret) (h := s.hret) hs.moves hs.cs hwait
    have haddr : pageEraseAddr (statusFrameSent .poll s) = encodeAddr s.page 0 := by
      simp [statusFrameSent, pageEraseAddr]
    rw [haddr, statusFrameSent_cfg] at hrun
    exact ⟨_, _, new, exec_of_atRest hs rfl, hrun.trans (done_run (hmoves _ _)), htrace, hnew,
      idleWith_unchanged hs hframe, fun hwp => addressFrameSent_polled_of_commanded .erase hs.cfg hd
        (by simp [isMutating]) fun d => Dev.commanded_pageErase d hs.cfg hwp⟩
  · have hz : sectorRefused s.sector = false := decide_eq_false (hsector rfl)
    have hrun := eraseSector_run (r := s.ret) (h := s.hret) hs.moves hs.cs hz hwait
    have haddr : sectorEraseAddr (statusFrameSent .poll s) = encodeAddr (sectorPage s.sector) 0 := by
      simp [statusFrameSent, sectorEraseAddr]
    rw [haddr, statusFrameSent_cfg] at hrun
    exact ⟨_, _, new, exec_of_atRest hs rfl, hrun.trans (done_run (hmoves _ _)), htrace, hnew,
      idleWith_unchanged hs hframe, fun hwp => addressFrameSent_polled_of_commanded .erase hs.cfg hd
        (by simp [isMutating]) fun d => Dev.commanded_sectorErase d hs.cfg hwp⟩

/-- Settles O46: one poll of a ready chip, then the array read. -/
theorem readRun : Obligations.ReadRun := by
  unfold Obligations.ReadRun
  intro s hs hd hpage hoffset hend
  have hwait := waitUntilReady_of_ready hs.cfg hs.cs hd
  have hready := statusFrameSent_readyChip hs.cfg hd
  have hdev := (statusFrameSent_of_known .poll hs.cfg hd.1).2
  obtain ⟨hcfg, hsize, hmoves, haddr, hbuf⟩ : (statusFrameSent .poll s).cfg = s.cfg ∧
      (statusFrameSent .poll s).size = s.size ∧ (statusFrameSent .poll s).moves = [] ∧
      arrayReadAddr (statusFrameSent .poll s) = encodeAddr s.page s.offset ∧
      ∀ i, hostByte (statusFrameSent .poll s) i = hostByte s i := by
    simp [statusFrameSent, arrayReadAddr, hostByte, hs.moves]
  have hp := addrPage_encodeAddr hpage (lt_512_of_lt_pageSize hoffset)
  have ho := addrOffset_encodeAddr s.page (lt_512_of_lt_pageSize hoffset)
  have hc : (statusFrameSent .poll s).cfg.valid = true := by rw [hcfg]; exact hs.cfg
  have hrun := readProgram_run (s := s) (polls := 1)
    (t := readFrameSent (encodeAddr s.page s.offset) s.size (statusFrameSent .poll s)) hs (by
      rw [readProgram, hwait, Option.bind_some, haddr, hsize, execArrayRead_of_cs rfl]
      rfl)
  obtain ⟨hbytes, ptr, hchip⟩ := readFrameSent_of_ready (a := encodeAddr s.page s.offset) (size := s.size) hc hready
    (by rwa [ho]) (by rwa [hp, ho])
  rw [hp, ho, hdev] at hbytes
  rw [hdev] at hchip
  obtain ⟨r, h, hrun⟩ := hrun
  refine ⟨_, _, exec_of_atRest hs rfl, hrun, hbytes, fun i hi => ?_, ?_, fun p o => ?_, fun j => ?_, ?_⟩
  · show hostByte (readMany s.size.toNat (readOpened (encodeAddr s.page s.offset) (statusFrameSent .poll s))) i = _
    rw [hostByte_readMany_of_ge s.size.toNat (by rw [readOpened_cnt]; exact (Nat.zero_add _).le.trans hi),
      readOpened_hostByte, hbuf]
  · show readyChip (readFrameSent (encodeAddr s.page s.offset) s.size (statusFrameSent .poll s)).dev
    rw [hchip]
    exact hd
  · show (readFrameSent (encodeAddr s.page s.offset) s.size (statusFrameSent .poll s)).dev.arrayByte? p o = _
    rw [hchip]
    rfl
  · show bufferByte (readFrameSent (encodeAddr s.page s.offset) s.size (statusFrameSent .poll s)).dev j = _
    rw [hchip]
    rfl
  · have hframe := unsent_readFrameSent (encodeAddr s.page s.offset) s.size
      (s := statusFrameSent .poll s) rfl
    calc _ = { unpolled s (unsent (statusFrameSent .poll s)
            (readFrameSent (encodeAddr s.page s.offset) s.size (statusFrameSent .poll s))) with
          hbuf := s.hbuf, cop := s.cop, addr := s.addr, cnt := s.cnt, busy := false, seq := .idle, ret := s.ret,
          hret := s.hret } := rfl
      _ = { unpolled s (statusFrameSent .poll s) with
          own := .none, hbuf := s.hbuf, cop := s.cop, addr := s.addr, cnt := s.cnt, busy := false, seq := .idle,
          ret := s.ret, hret := s.hret } := by rw [hframe]; rfl
      _ = { s with own := .none, busy := false, seq := .idle } := by rw [unpolled_statusFrameSent .poll hs.cs]
      _ = { s with own := .none } := by rw [← hs.busy, ← hs.seq]

end Sys2Proof.CommandRuns
end

section
/-! PROOFS. O41: the poll cycle on a `DEV` that stays busy. A turn is five steps, and leaves the chip as it was. -/

namespace Sys2Proof.Safety

open Sys2Proof.Machine

variable {s : State}

theorem run_succ_moved {k : Nat} {q r h : Machine.Seq} {s t : State} (hm : s.moves = [])
    (hstep : seqStep (moved q r h s) = .next t) : run (k + 1) (moved q r h s) = run k t := by
  rw [run_succ, step_of_no_move (s := moved q r h s) hm, hstep, andThen_of_next]

/-- One turn of the poll cycle that finds the chip busy (R303). -/
theorem run_busy_turn (r h : Machine.Seq) (hm : s.moves = []) (hcs : s.cs = false)
    (hbusy : readyBit (statusFrameSent .poll s).sr = false) :
    run 5 (moved .pSel r h s) = .next (moved .pSel r h (statusFrameSent .poll s)) := by
  have hselect := seqStep_pSel (s := moved .pSel r h s) rfl hcs
  have hopcode := seqStep_pOp (s := moved .pOp r h (opened .poll s)) rfl rfl
  have hstatus := seqStep_pRd (s := moved .pRd r h (exchanged s.cfg.opReadStatus (opened .poll s))) rfl (by simp)
  have hclose := seqStep_pDes (s := moved .pDes r h (latchStatus
    (answer (exchanged s.cfg.opReadStatus (opened .poll s)))
    (exchanged s.cfg.dummyOut (exchanged s.cfg.opReadStatus (opened .poll s))))) rfl (by simp)
  have htest := seqStep_pTst (s := moved .pTst r h (statusFrameSent .poll s)) rfl
  rw [moved_sr, hbusy] at htest
  simp only [opened_moved, goto_moved] at hselect
  simp only [exchanged_moved, goto_moved, moved_cfg, opened_cfg] at hopcode
  simp only [exchanged_moved, latchStatus_moved, answer_moved, goto_moved, moved_cfg, exchanged_cfg, opened_cfg]
    at hstatus
  simp only [closed_moved, goto_moved] at hclose
  simp only [Bool.false_eq_true, ↓reduceIte, goto_moved] at htest
  rw [run_succ_moved hm hselect, run_succ_moved (by simpa) hopcode, run_succ_moved (by simpa) hstatus,
    run_succ_moved (by simpa) hclose]
  exact run_succ_moved (by simpa [statusFrameSent]) htest

/-- A busy `DEV` answers a poll with its status byte and stays as it is (R84, R173). -/
theorem statusFrameSent_of_busy (hc : s.cfg.valid = true) (hd : s.dev.mode = .known) (hb : s.dev.busy = true) :
    (statusFrameSent .poll s).sr = statusByte true s.dev.stat6 ∧ (statusFrameSent .poll s).dev = s.dev.rested ∧
      readyBit (statusFrameSent .poll s).sr = false := by
  obtain ⟨hsr, hdev⟩ := statusFrameSent_of_known .poll hc hd
  refine ⟨by rw [hsr, Dev.status, hb], hdev, ?_⟩
  rw [hsr, readyBit, Dev.status_bit7, hb]
  rfl

/-- Any number of turns on a chip that stays busy. -/
theorem run_busy_turns (turns : Nat) {s : State} (r h : Machine.Seq) (hc : s.cfg.valid = true) (hm : s.moves = [])
    (hcs : s.cs = false) (hd : s.dev.mode = .known) (hb : s.dev.busy = true) :
    ∃ (t : State) (discarded : List Byte), run (5 * turns) (moved .pSel r h s) = .next (moved .pSel r h t) ∧
      discarded.length = turns ∧
      t.trace = s.trace ++ discarded.flatMap (fun a => pollEvents s.cfg (a, statusByte true s.dev.stat6)) ∧
      t.cs = false ∧ t.busy = s.busy ∧ t.wp = s.wp ∧ t.hbuf = s.hbuf ∧ t.dev.busy = true ∧
      t.dev.array = s.dev.array := by
  induction turns generalizing s with
  | zero => exact ⟨s, [], rfl, rfl, (List.append_nil _).symm, hcs, rfl, rfl, rfl, hb, rfl⟩
  | succ turns ih =>
    obtain ⟨hsr, hdev, hbusy⟩ := statusFrameSent_of_busy hc hd hb
    obtain ⟨hcfg, hmoves, hkept⟩ : (statusFrameSent .poll s).cfg = s.cfg ∧ (statusFrameSent .poll s).moves = [] ∧
        (statusFrameSent .poll s).busy = s.busy ∧ (statusFrameSent .poll s).wp = s.wp ∧
        (statusFrameSent .poll s).hbuf = s.hbuf := by
      simp [statusFrameSent, hm]
    obtain ⟨hbusy', hwp, hhbuf⟩ := hkept
    obtain ⟨t, discarded, hrun, hlen, htrace, hcs', hbusy'', hwp', hhbuf', hchip, harray⟩ :=
      ih (s := statusFrameSent .poll s) (by rwa [hcfg]) hmoves rfl (by rw [hdev]; exact hd) (by rw [hdev]; exact hb)
    refine ⟨t, answer (opened .poll s) :: discarded, ?_, by rw [List.length_cons, hlen], ?_, hcs', hbusy''.trans hbusy',
      hwp'.trans hwp, hhbuf'.trans hhbuf, hchip, by rw [harray, hdev]; rfl⟩
    · rw [Nat.mul_succ, Nat.add_comm, run_add, run_busy_turn r h hm hcs hbusy, andThen_of_next, hrun]
    · rw [htrace, statusFrameSent_trace, hsr, hdev, hcfg, List.flatMap_cons, List.append_assoc]
      rfl

end Sys2Proof.Safety

namespace Sys2Proof.StatusPoller

open Sys2Proof.Machine Sys2Proof.Safety

/-- Settles O41: by induction on the turns. -/
theorem deadChipPollsForEver : Obligations.DeadChipPollsForEver := by
  unfold Obligations.DeadChipPollsForEver
  intro s turns hc hm hq hcs hd hb
  obtain ⟨t, discarded, hrun, hlen, htrace, hcs', hbusy, hwp, hhbuf, hchip, harray⟩ :=
    run_busy_turns turns s.ret s.hret hc hm hcs hd hb
  rw [← hq, moved_self] at hrun
  exact ⟨moved s.seq s.ret s.hret t, discarded, hrun, hlen, htrace, hq, hcs', hbusy, hwp, hchip, harray, hhbuf⟩

end Sys2Proof.StatusPoller
end

section
/-! PROOFS. O47: the events of a WRITE. A chunk's are those of its four stages; the chunks follow one another by
induction on the turns of the loop, whose registers keep the arithmetic of R196. -/

namespace Sys2Proof.Machine

open Sys2Proof.Safety

variable {s t : State} {polls : Nat}

/-! ## What a wait sends (R172) -/

theorem flatMap_pollEvents_unanswered (c : Cfg) (answers : List (Byte × Byte)) :
    (answers.flatMap (pollEvents c)).map unanswered = pollsEvents c answers.length := by
  induction answers with
  | nil => rfl
  | cons a answers ih =>
    rw [List.flatMap_cons, List.map_append, ih, List.length_cons, pollsEvents, pollsEvents, List.replicate_succ,
      List.flatten_cons]
    rfl

theorem waitUntilReady_unanswered (hcs : s.cs = false) (hw : waitUntilReady polls s = some t) :
    ∃ (m : Nat) (new : List Event), 1 ≤ m ∧ t.trace = s.trace ++ new ∧ new.map unanswered = pollsEvents s.cfg m := by
  obtain ⟨busy, a, v, _, _, _, htrace, _⟩ := waitUntilReady_events polls hcs hw
  refine ⟨(busy ++ [(a, v)]).length, (busy ++ [(a, v)]).flatMap (pollEvents s.cfg), by simp, ?_,
    flatMap_pollEvents_unanswered _ _⟩
  rw [htrace, List.flatMap_append, List.append_assoc]
  simp

/-! ## What a chunk leaves of the controller (R194) -/

/-- `t` with all that one turn of the chunk loop may change taken from `s`, the bus and the loop's registers apart. -/
def unpaged (s t : State) : State :=
  { t with
    sr := s.sr, cop := s.cop, addr := s.addr, cnt := s.cnt, dev := s.dev, answers := s.answers, draws := s.draws
    trace := s.trace }

theorem unpaged_wait (hcs : s.cs = false) (hw : waitUntilReady polls s = some t) :
    unpaged s t = { s with own := .none } :=
  calc unpaged s t
    _ = { unpolled s t with cop := s.cop, addr := s.addr, cnt := s.cnt } := rfl
    _ = { s with own := .none } := by rw [waitUntilReady_unchanged polls hcs hw]

theorem unpaged_trans {u : State} (hu : unpaged s u = { s with own := .none })
    (ht : unpaged u t = { u with own := .none }) : unpaged s t = { s with own := .none } :=
  calc unpaged s t
    _ = unpaged s (unpaged u t) := rfl
    _ = { unpaged s u with own := .none } := by rw [ht]; rfl
    _ = { s with own := .none } := by rw [hu]

theorem unsent_filled (s t : State) : unsent s (filled t) = { unsent s t with cnt := t.cnt + 1 } :=
  unsent_countByte_exchanged s (memRead (t.idx + t.cnt) t) (hostByte t (t.idx + t.cnt))

theorem unsent_fillFromHost (count : Nat) {s t u : State} (hcs : t.cs = true)
    (hf : fillFromHost count t = some u) : unsent s u = { unsent s t with cnt := t.cnt + BitVec.ofNat 16 count } := by
  induction count generalizing t with
  | zero =>
    obtain rfl : t = u := Option.some.inj hf
    simp [unsent]
  | succ count ih =>
    rw [fillFromHost, fillStep_of_cs hcs] at hf
    have hcnt : (filled t).cnt = t.cnt + 1 := by simp [filled]
    rw [ih (t := filled t) (by simpa [filled] using hcs) hf, unsent_filled, hcnt, word_add_one_add]

theorem unpaged_fill {u : State} (a : Addr) (count : Nat) (hcs : s.cs = false)
    (hf : fillFromHost count (fillOpened a s) = some u) : unpaged s (closed u) = { s with own := .none } := by
  have hfill := unsent_fillFromHost (s := s) (t := fillOpened a s) count (headerSent_cs _ _ _ _) hf
  have hopened : unsent s (fillOpened a s) = { s with cs := true, own := .fill, cnt := 0 } :=
    unsent_headerSent s.cfg.opBuf1Write a .fill (startCount s)
  calc unpaged s (closed u)
    _ = { unsent s u with cs := false, own := .none, sr := s.sr, cnt := s.cnt } := rfl
    _ = { s with own := .none } := by rw [hfill, hopened, ← hcs]

theorem unpaged_addressFrameSent (op : Byte) (a : Addr) (o : Owner) (hcs : s.cs = false) :
    unpaged s (addressFrameSent op a o s) = { s with own := .none } :=
  calc unpaged s (addressFrameSent op a o s)
    _ = { unsent s (addressFrameSent op a o s) with sr := s.sr, cnt := s.cnt } := rfl
    _ = { s with own := .none } := by rw [unsent_addressFrameSent op a o hcs]

/-! ## What a chunk sends (R190 to R194) -/

/-- The two events of a data byte of a fill, unanswered (R191). -/
def fillByteEvents (s : State) (i : Nat) : List Event :=
  [.hrd (s.idx + BitVec.ofNat 16 i) (hostByte s (s.idx + BitVec.ofNat 16 i)),
    .x (hostByte s (s.idx + BitVec.ofNat 16 i)) 0]

theorem filled_trace_unanswered (s : State) :
    ∃ new, (filled s).trace = s.trace ++ new ∧ new.map unanswered = fillByteEvents s s.cnt.toNat := by
  refine ⟨_, filled_trace s, ?_⟩
  rw [fillByteEvents, BitVec.ofNat_toNat, BitVec.setWidth_eq]
  rfl

theorem fillFromHost_events (count : Nat) {s u : State} (hcs : s.cs = true) (hcount : s.cnt.toNat + count < 65536)
    (hf : fillFromHost count s = some u) :
    ∃ new, u.trace = s.trace ++ new ∧
      new.map unanswered = (List.range' s.cnt.toNat count).flatMap (fillByteEvents s) := by
  induction count generalizing s with
  | zero =>
    obtain rfl : s = u := Option.some.inj hf
    exact ⟨[], (List.append_nil _).symm, rfl⟩
  | succ count ih =>
    rw [fillFromHost, fillStep_of_cs hcs] at hf
    have hcnt : (filled s).cnt.toNat = s.cnt.toNat + 1 := by
      have hone : (filled s).cnt = s.cnt + 1 := by simp [filled]
      rw [hone]
      bv_omega
    have hbytes : fillByteEvents (filled s) = fillByteEvents s := by
      funext i
      simp [fillByteEvents, filled, hostByte]
    obtain ⟨first, hfirst, hfirst'⟩ := filled_trace_unanswered s
    obtain ⟨rest, hrest, hrest'⟩ := ih (s := filled s) (by simpa [filled] using hcs) (by omega) hf
    refine ⟨first ++ rest, by rw [hrest, hfirst, List.append_assoc], ?_⟩
    rw [List.map_append, hfirst', hrest', hcnt, hbytes, List.range'_succ, List.flatMap_cons]

theorem headerSent_unanswered (op : Byte) (a : Addr) (o : Owner) (s : State) :
    ∃ new, (headerSent op a o s).trace = s.trace ++ new ∧ new.map unanswered = headerEvents op a := by
  obtain ⟨b0, b1, b2, b3, htrace⟩ := headerSent_trace op a o s
  exact ⟨_, htrace, rfl⟩

/-- The fill transaction of a chunk that `n` bytes remain for. -/
theorem fill_unanswered {u : State} (hf : fillFromHost s.n.toNat (fillOpened (bufferAddr 0) s) = some u) :
    ∃ new, (closed u).trace = s.trace ++ new ∧
      new.map unanswered =
        headerEvents s.cfg.opBuf1Write ⟨0, 0, 0⟩ ++ (List.range s.n.toNat).flatMap (fillByteEvents s) ++ [.des] := by
  obtain ⟨header, hheader, hheader'⟩ := headerSent_unanswered s.cfg.opBuf1Write (bufferAddr 0) .fill (startCount s)
  have hcnt : (fillOpened (bufferAddr 0) s).cnt.toNat = 0 := by simp [fillOpened]
  have hbytes : fillByteEvents (fillOpened (bufferAddr 0) s) = fillByteEvents s := by
    funext i
    simp [fillByteEvents, fillOpened, hostByte]
  obtain ⟨data, hdata, hdata'⟩ := fillFromHost_events s.n.toNat (s := fillOpened (bufferAddr 0) s)
    (headerSent_cs _ _ _ _)
    (by rw [hcnt]; have := s.n.isLt; omega) hf
  rw [hcnt, hbytes, ← List.range_eq_range'] at hdata'
  have haddr : bufferAddr 0 = ⟨0, 0, 0⟩ := by decide
  refine ⟨header ++ data ++ [.des], ?_, ?_⟩
  · rw [closed_trace, hdata, fillOpened, hheader]
    simp
  · rw [List.map_append, List.map_append, hheader', hdata', haddr]
    rfl

theorem addressFrameSent_unanswered (op : Byte) (a : Addr) (o : Owner) (s : State) :
    ∃ new, (addressFrameSent op a o s).trace = s.trace ++ new ∧ new.map unanswered = headerEvents op a ++ [.des] := by
  obtain ⟨header, hheader, hheader'⟩ := headerSent_unanswered op a o s
  refine ⟨header ++ [.des], by rw [addressFrameSent, closed_trace, hheader, List.append_assoc], ?_⟩
  rw [List.map_append, hheader']
  rfl

/-- One turn of the chunk loop: its events, and what it leaves of the controller (R194). -/
theorem writePage_events (hcs : s.cs = false) (hp : writePage polls s = some t) :
    (∃ (m m' : Nat) (new : List Event), 1 ≤ m ∧ 1 ≤ m' ∧ t.trace = s.trace ++ new ∧
      new.map unanswered =
        pollsEvents s.cfg m ++
          (headerEvents s.cfg.opBuf1Write ⟨0, 0, 0⟩ ++ (List.range s.n.toNat).flatMap (fillByteEvents s) ++ [.des]) ++
          pollsEvents s.cfg m' ++ (headerEvents s.cfg.opBuf1CommitErase (encodeAddr s.cur 0) ++ [.des])) ∧
      unpaged s t = { s with own := .none } := by
  obtain ⟨s1, s3, s5, hwait, hcs1, hfill, _, hwait', hcs5, rfl⟩ := writePage_stages hcs hp
  have h1 := unpaged_wait hcs hwait
  have h2 := unpaged_trans h1 (unpaged_fill (bufferAddr 0) s1.n.toNat hcs1 hfill)
  have h3 := unpaged_trans h2 (unpaged_wait (s := closed s3) rfl hwait')
  have h4 := unpaged_trans h3 (unpaged_addressFrameSent s5.cfg.opBuf1CommitErase (commitAddr s5) .commit hcs5)
  obtain ⟨m, e1, hm, ht1, he1⟩ := waitUntilReady_unanswered hcs hwait
  obtain ⟨e2, ht2, he2⟩ := fill_unanswered hfill
  obtain ⟨m', e3, hm', ht3, he3⟩ := waitUntilReady_unanswered (s := closed s3) rfl hwait'
  obtain ⟨e4, ht4, he4⟩ := addressFrameSent_unanswered s5.cfg.opBuf1CommitErase (commitAddr s5) .commit s5
  have hcfg1 : s1.cfg = s.cfg := (congrArg State.cfg h1 :)
  have hn1 : s1.n = s.n := (congrArg State.n h1 :)
  have hcfg3 : (closed s3).cfg = s.cfg := (congrArg State.cfg h2 :)
  have hcfg5 : s5.cfg = s.cfg := (congrArg State.cfg h3 :)
  have hcur5 : commitAddr s5 = encodeAddr s.cur 0 := (congrArg (fun u => encodeAddr u.cur 0) h3 :)
  have hbytes : fillByteEvents s1 = fillByteEvents s := (congrArg fillByteEvents h1 :)
  refine ⟨⟨m, m', e1 ++ e2 ++ e3 ++ e4, hm, hm', ?_, ?_⟩, h4⟩
  · rw [ht4, ht3, ht2, ht1]
    simp only [List.append_assoc]
  · rw [List.map_append, List.map_append, List.map_append, he1, he2, he3, he4, hcfg1, hn1, hcfg3, hcfg5, hcur5, hbytes]

/-! ## The chunks one after another (R195, R196) -/

/-- The events of chunk `j`, with the number of polls of its two waits. -/
def chunkEvents (s : State) (fillWait commitWait : Nat → Nat) (j : Nat) : List Event :=
  pollsEvents s.cfg (fillWait j) ++ fillEvents s j ++ pollsEvents s.cfg (commitWait j) ++ commitEvents s j

/-- `t` with all that a WRITE may change taken from `s`, the bus apart. -/
def unwritten (s t : State) : State :=
  { t with
    wp := s.wp, sr := s.sr, cop := s.cop, addr := s.addr, cur := s.cur, idx := s.idx, rem := s.rem, n := s.n
    cnt := s.cnt, dev := s.dev, answers := s.answers, draws := s.draws, trace := s.trace, own := s.own }

/-- A chunk's events depend on what no WRITE changes. -/
theorem chunkEvents_of_unwritten (h : unwritten s t = s) (fillWait commitWait : Nat → Nat) :
    chunkEvents t fillWait commitWait = chunkEvents s fillWait commitWait :=
  (congrArg (fun u => chunkEvents u fillWait commitWait) h :)

/-- The registers of chunk `j` give the fill and the commit of chunk `j` (R196). -/
theorem fillEvents_of_chunk {j : Nat} (hidx : s.idx.toNat = pageSize * j) (hn : s.n = chunkLength s.rem)
    (htotal : s.idx.toNat + s.rem.toNat = s.size.toNat) :
    headerEvents s.cfg.opBuf1Write ⟨0, 0, 0⟩ ++ (List.range s.n.toNat).flatMap (fillByteEvents s) ++ [.des] =
      fillEvents s j := by
  have hlen : s.n.toNat = chunkSize s.size.toNat j := by
    rw [hn, chunkLength_toNat, chunkSize]
    congr 1
    omega
  have hbyte : ∀ i, s.idx + BitVec.ofNat 16 i = BitVec.ofNat 16 (pageSize * j + i) := by
    intro i
    rw [← hidx, BitVec.ofNat_add, BitVec.ofNat_toNat, BitVec.setWidth_eq]
  have hbytes : fillByteEvents s = fun i =>
      [.hrd (BitVec.ofNat 16 (pageSize * j + i)) (hostByte s (BitVec.ofNat 16 (pageSize * j + i))),
        .x (hostByte s (BitVec.ofNat 16 (pageSize * j + i))) 0] := by
    funext i
    rw [fillByteEvents, hbyte]
  rw [hlen, hbytes]
  rfl

theorem commitEvents_of_chunk {j : Nat} (hidx : s.idx.toNat = pageSize * j)
    (hcur : s.cur = s.page + BitVec.ofNat 16 ((s.idx.toNat + (pageSize - 1)) / pageSize)) :
    headerEvents s.cfg.opBuf1CommitErase (encodeAddr s.cur 0) ++ [.des] = commitEvents s j := by
  have hj : (s.idx.toNat + (pageSize - 1)) / pageSize = j := by
    rw [hidx]
    simp only [pageSize]
    omega
  rw [hcur, hj]
  rfl

/-- The chunks still to be sent. -/
def chunksLeft (s : State) : Nat :=
  (s.rem.toNat + (pageSize - 1)) / pageSize

/-- One turn sends one chunk. -/
theorem chunksLeft_nextChunk (hrem : s.rem ≠ 0#16) (hn : s.n = chunkLength s.rem) :
    chunksLeft s = chunksLeft (nextChunk s) + 1 ∧
      ((nextChunk s).rem ≠ 0#16 → s.n.toNat = pageSize) := by
  have hrem0 : s.rem.toNat ≠ 0 := fun h => hrem (BitVec.eq_of_toNat_eq h)
  have hlen : s.n.toNat = min s.rem.toNat pageSize := by rw [hn, chunkLength_toNat]
  have hrest : (s.rem - s.n).toNat = s.rem.toNat - s.n.toNat := BitVec.toNat_sub_of_le (by rw [BitVec.le_def]; omega)
  have hleft : (nextChunk s).rem = s.rem - s.n := nextChunk_rem s
  constructor
  · rw [chunksLeft, chunksLeft, hleft, hrest, hlen]
    simp only [pageSize]
    omega
  · rw [hleft]
    intro hne
    have hne' : (s.rem - s.n).toNat ≠ 0 := fun h => hne (BitVec.eq_of_toNat_eq h)
    omega

/-- The loop has gone from one state to another by sending its chunks from chunk `j` on. -/
def SendsChunks (s t : State) (j : Nat) : Prop :=
  ∃ (fillWait commitWait : Nat → Nat) (new : List Event), (∀ j, 1 ≤ fillWait j) ∧ (∀ j, 1 ≤ commitWait j) ∧
    t.trace = s.trace ++ new ∧
    new.map unanswered = (List.range' j (chunksLeft s)).flatMap (chunkEvents s fillWait commitWait)

theorem sendsChunks_of_ended (hrem : s.rem = 0#16) (j : Nat) : SendsChunks s s j := by
  have hnone : chunksLeft s = 0 := by rw [chunksLeft, hrem]; rfl
  refine ⟨fun _ => 1, fun _ => 1, [], fun _ => Nat.le_refl 1, fun _ => Nat.le_refl 1, (List.append_nil _).symm, ?_⟩
  rw [hnone]
  rfl

/-- One chunk before the others: its waits are entered in the two counts of polls. -/
theorem sendsChunks_of_first {u : State} {j m m' : Nat} {first : List Event} (hm : 1 ≤ m) (hm' : 1 ≤ m')
    (hfirst : u.trace = s.trace ++ first)
    (hfirst' : first.map unanswered = chunkEvents s (fun _ => m) (fun _ => m') j) (hkept : unwritten s u = s)
    (hleft : chunksLeft s = chunksLeft u + 1) (h : SendsChunks u t (j + 1)) : SendsChunks s t j := by
  obtain ⟨fillWait, commitWait, rest, hfill, hcommit, hrest, hrest'⟩ := h
  have hupdate : ∀ {m : Nat} {f : Nat → Nat}, 1 ≤ m → (∀ j, 1 ≤ f j) → ∀ i, 1 ≤ Function.update f j m i := by
    intro m f hm hf i
    by_cases hi : i = j
    · rw [hi, Function.update_self]
      exact hm
    · rw [Function.update_of_ne hi]
      exact hf i
  refine ⟨Function.update fillWait j m, Function.update commitWait j m', first ++ rest, hupdate hm hfill,
    hupdate hm' hcommit, by rw [hrest, hfirst, List.append_assoc], ?_⟩
  have hlater : (List.range' (j + 1) (chunksLeft u)).flatMap (chunkEvents s fillWait commitWait) =
      (List.range' (j + 1) (chunksLeft u)).flatMap
        (chunkEvents s (Function.update fillWait j m) (Function.update commitWait j m')) := by
    refine List.flatMap_congr fun i hi => ?_
    have hne : i ≠ j := by
      have := (List.mem_range'_1.mp hi).1
      omega
    rw [chunkEvents, chunkEvents, Function.update_of_ne hne, Function.update_of_ne hne]
  have hnow : chunkEvents s (fun _ => m) (fun _ => m') j =
      chunkEvents s (Function.update fillWait j m) (Function.update commitWait j m') j := by
    rw [chunkEvents, chunkEvents, Function.update_self, Function.update_self]
  rw [List.map_append, hfirst', hrest', chunkEvents_of_unwritten hkept, hleft, List.range'_succ, List.flatMap_cons,
    hlater, hnow]

theorem writeChunks_events (chunks : Nat) {s t : State} {j : Nat} (hcs : s.cs = false)
    (hnumbers : ChunkAt .w1 (numbers s)) (hj : s.rem ≠ 0#16 → s.idx.toNat = pageSize * j)
    (hw : writeChunks polls chunks s = some t) : SendsChunks s t j ∧ unwritten s t = s ∧ t.cs = false := by
  induction chunks generalizing s j with
  | zero =>
    obtain ⟨hrem, hst⟩ := Option.ite_none_right_eq_some.mp hw
    obtain rfl := Option.some.inj hst
    exact ⟨sendsChunks_of_ended hrem j, rfl, hcs⟩
  | succ chunks ih =>
    rw [writeChunks] at hw
    split at hw
    next hrem =>
      obtain rfl := Option.some.inj hw
      exact ⟨sendsChunks_of_ended hrem j, rfl, hcs⟩
    next hrem =>
      obtain ⟨u, hpage, hrest⟩ := bind_eq_some hw
      obtain ⟨⟨m, m', first, hm, hm', hfirst, hfirst'⟩, hframe⟩ := writePage_events (s := startChunk s) hcs hpage
      have hcsu : u.cs = false := (congrArg State.cs hframe).trans hcs
      have hnumbers' : numbers u = numbers (startChunk s) := (congrArg numbers hframe :)
      have hrem' : u.rem = s.rem := (congrArg State.rem hframe :)
      have hn' : u.n = chunkLength u.rem := by rw [hrem']; exact (congrArg State.n hframe :)
      have hidx' : u.idx = s.idx := (congrArg State.idx hframe :)
      have hchunk : ChunkAt .w5 (numbers u) := by
        rw [hnumbers']
        exact chunkAt_inChunk (chunkAt_startChunk hnumbers hrem) rfl rfl
      obtain ⟨hleft, hwhole⟩ := chunksLeft_nextChunk (s := u) (by rwa [hrem']) hn'
      have hnext : (nextChunk u).rem ≠ 0#16 → (nextChunk u).idx.toNat = pageSize * (j + 1) := by
        intro hne
        have hlen := hwhole hne
        have hj' := hj hrem
        have hlt := s.size.isLt
        have htotal := hnumbers.total
        have hsum : (nextChunk u).idx.toNat = u.idx.toNat + u.n.toNat := by
          rw [nextChunk_idx, BitVec.toNat_add, Nat.mod_eq_of_lt]
          have htotal := hchunk.total
          have hlt := u.size.isLt
          have hsmall : u.n.toNat ≤ u.rem.toNat := by rw [hn', chunkLength_toNat]; exact Nat.min_le_left _ _
          simp only [numbers] at htotal
          omega
        rw [hsum, hidx', hj hrem, hwhole hne, Nat.mul_succ]
      have hkept : unwritten s (nextChunk u) = s :=
        calc unwritten s (nextChunk u)
          _ = unwritten s (unpaged (startChunk s) u) := rfl
          _ = s := by rw [hframe]; rfl
      obtain ⟨hchunks, hkept', hcs'⟩ := ih (s := nextChunk u) (j := j + 1) hcsu (chunkAt_nextChunk hchunk) hnext hrest
      have hnow : first.map unanswered = chunkEvents s (fun _ => m) (fun _ => m') j := by
        have hfill := fillEvents_of_chunk (s := startChunk s) (hj hrem) rfl hnumbers.total
        have hcommit := commitEvents_of_chunk (s := startChunk s) (hj hrem) hnumbers.page
        rw [hfirst', hfill, hcommit]
        rfl
      refine ⟨sendsChunks_of_first (u := nextChunk u) hm hm' hfirst hnow hkept ?_ hchunks, ?_, hcs'⟩
      · rw [← hleft, chunksLeft, chunksLeft, hrem']
      · calc unwritten s t
          _ = unwritten s (unwritten (nextChunk u) t) := rfl
          _ = s := by rw [hkept', hkept]

/-- The whole of a WRITE that ends: its events, and what it leaves of the controller (R195). -/
theorem writeProgram_events (hcs : s.cs = false) (hw : writeProgram polls s = some t) :
    (∃ (fillWait commitWait : Nat → Nat) (lastWait : Nat) (new : List Event), t.trace = s.trace ++ new ∧
      (∀ j, 1 ≤ fillWait j) ∧ (∀ j, 1 ≤ commitWait j) ∧ 1 ≤ lastWait ∧
      new.map unanswered =
        [.wp false] ++ (List.range (chunkCount s.size.toNat)).flatMap (chunkEvents s fillWait commitWait) ++
          pollsEvents s.cfg lastWait ++ [.wp true]) ∧
      { unwritten s t with own := .none } = { s with own := .none } ∧ t.wp = true ∧ t.own = .none := by
  obtain ⟨u, hchunks, hw⟩ := bind_eq_some hw
  obtain ⟨v, hwait, hw⟩ := bind_eq_some hw
  obtain rfl := Option.some.inj hw
  obtain ⟨⟨fillWait, commitWait, chunks, hfill, hcommit, htrace, hevents⟩, hkept, hcsu⟩ :=
    writeChunks_events maxChunks (s := startWrite (setWp false s)) (j := 0) hcs (chunkAt_startWrite _) (fun _ => rfl)
      hchunks
  obtain ⟨lastWait, polled, hlast, htrace', hevents'⟩ := waitUntilReady_unanswered hcsu hwait
  have hframe := waitUntilReady_unchanged polls hcsu hwait
  have hcfg : u.cfg = s.cfg := (congrArg State.cfg hkept :)
  refine ⟨⟨fillWait, commitWait, lastWait, .wp false :: (chunks ++ polled ++ [.wp true]), ?_, hfill, hcommit, hlast,
    ?_⟩, ?_, rfl, (congrArg State.own hframe :)⟩
  · rw [setWp_trace, htrace', htrace]
    simp
  · rw [List.map_cons, List.map_append, List.map_append, hevents, hevents', hcfg, ← List.range_eq_range']
    simp only [List.append_assoc, List.cons_append, List.nil_append]
    rfl
  · calc { unwritten s (setWp true v) with own := .none }
      _ = { unwritten s (unpolled u v) with own := .none } := rfl
      _ = { unwritten s (unwritten (startWrite (setWp false s)) u) with own := .none } := by rw [hframe]; rfl
      _ = { s with own := .none } := by rw [hkept]; rfl

end Sys2Proof.Machine

namespace Sys2Proof.CommandRuns

open Sys2Proof.Machine Sys2Proof.Safety

/-- Settles O47, by the chunks. -/
theorem writeEventSequence : Obligations.WriteEventSequence := by
  unfold Obligations.WriteEventSequence
  intro polls s t hs hp
  obtain ⟨⟨fillWait, commitWait, lastWait, new, htrace, hfill, hcommit, hlast, hevents⟩, hframe, hwp, hown⟩ :=
    writeProgram_events hs.cs hp
  refine ⟨fillWait, commitWait, lastWait, new, htrace, hfill, hcommit, hlast, hevents, hwp, ?_⟩
  calc _ = { { unwritten s t with own := .none } with own := t.own } := rfl
    _ = { s with own := .none } := by rw [hframe, hown]

end Sys2Proof.CommandRuns
end

section
/-! PROOFS. O59, O48: what of a state steers the sequencer. The rows depend on `control` and the status byte alone, so a
command issued at rest keeps to the invariant in its `control` (`Sane`), whatever the lines, the memories and the chip
were before it. -/

namespace Sys2Proof.Safety

open Sys2Proof.Machine

/-- What steers the sequencer, the status byte apart; of the chip only how many bytes the open frame has. -/
structure Control where
  cfg : Cfg
  page : Word
  size : Word
  sector : Byte
  busy : Bool
  seq : Machine.Seq
  ret : Machine.Seq
  hret : Machine.Seq
  cop : Byte
  cur : Word
  idx : Word
  rem : Word
  n : Word
  cnt : Word
  k : BitVec 3
  cs : Bool
  sent : Option Nat

def control (s : State) : Control where
  cfg := s.cfg
  page := s.page
  size := s.size
  sector := s.sector
  busy := s.busy
  seq := s.seq
  ret := s.ret
  hret := s.hret
  cop := s.cop
  cur := s.cur
  idx := s.idx
  rem := s.rem
  n := s.n
  cnt := s.cnt
  k := s.k
  cs := s.cs
  sent := if s.cs then s.dev.frame.map List.length else none

variable {s t s' : State} {q r : Machine.Seq}

/-! ## What the operations do to it -/

theorem control_goto (q : Machine.Seq) (s : State) : control (goto q s) = { control s with seq := q } := rfl

theorem control_callPoll (r : Machine.Seq) (s : State) :
    control (callPoll r s) = { control s with ret := r, seq := .pSel } := rfl

theorem control_callHeader (op : Byte) (a : Addr) (r : Machine.Seq) (s : State) :
    control (callHeader op a r s) = { control s with cop := op, hret := r, seq := .hSel } := rfl

theorem control_opened (o : Owner) (s : State) :
    control (opened o s) = { control s with cs := true, sent := some 0 } := rfl

theorem control_closed (s : State) : control (closed s) = { control s with cs := false, sent := none } := rfl

/-- An exchange adds a byte to the open frame, if there is one. -/
theorem control_exchanged (out : Byte) (s : State) :
    control (exchanged out s) = { control s with sent := (control s).sent.map (· + 1) } := by
  have hframe : (exchanged out s).dev.frame.map List.length = (s.dev.frame.map List.length).map (· + 1) := by
    rw [exchanged_dev]
    cases hf : s.dev.frame with
    | none => simp [Dev.receive, hf]
    | some bytes => simp [Dev.receive_frame s.cfg out hf]
  rw [control, hframe]
  rw [exchanged_eq]
  show Control.mk _ _ _ _ _ _ _ _ _ _ _ _ _ _ _ _ _ = _
  simp only [control]
  cases s.cs <;> rfl

theorem control_countByte (s : State) : control (countByte s) = { control s with cnt := s.cnt + 1 } := rfl

theorem control_startCount (s : State) : control (startCount s) = { control s with cnt := 0 } := rfl

theorem control_filled (s : State) :
    control (filled s) = { control s with cnt := s.cnt + 1, sent := (control s).sent.map (· + 1) } := by
  have hread : control (memRead (s.idx + s.cnt) s) = control s := rfl
  rw [filled, control_countByte, control_exchanged, hread]
  simp

theorem control_readOne (s : State) :
    control (readOne s) = { control s with cnt := s.cnt + 1, sent := (control s).sent.map (· + 1) } := by
  have h := control_exchanged s.cfg.dummyOut s
  have hw : control (memWrite s.cnt (answer s) (exchanged s.cfg.dummyOut s)) =
    control (exchanged s.cfg.dummyOut s) := rfl
  rw [readOne, control_countByte, hw, h]
  simp

theorem control_idLatched (s : State) :
    control (idLatched s) = { control s with k := s.k + 1, sent := (control s).sent.map (· + 1) } := by
  have h := control_exchanged s.cfg.dummyOut s
  have hl : control (latchId (answer s) (exchanged s.cfg.dummyOut s)) =
    { control (exchanged s.cfg.dummyOut s) with k := (exchanged s.cfg.dummyOut s).k + 1 } := rfl
  rw [idLatched, hl, h]
  simp

theorem control_latchStatus (v : Byte) (s : State) : control (latchStatus v s) = control s := rfl

theorem control_startId (s : State) : control (startId s) = { control s with k := 0 } := rfl

theorem control_latchDiag (s : State) : control (latchDiag s) = control s := rfl

theorem control_setWp (b : Bool) (s : State) : control (setWp b s) = control s := rfl

theorem control_setRst (b : Bool) (hcs : s.cs = false) : control (setRst b s) = control s := by
  have hcs' : (setRst b s).cs = false := hcs
  simp only [control, hcs, hcs', Bool.false_eq_true, ↓reduceIte]
  rfl

theorem control_delayMs (ms : Nat) (s : State) : control (delayMs ms s) = control s := rfl

theorem control_startWrite (s : State) :
    control (startWrite s) = { control s with cur := s.page, idx := 0, rem := s.size } := rfl

theorem control_startChunk (s : State) : control (startChunk s) = { control s with n := chunkLength s.rem } := rfl

theorem control_nextChunk (s : State) :
    control (nextChunk s) = { control s with idx := s.idx + s.n, rem := s.rem - s.n, cur := s.cur + 1 } := rfl

theorem control_chipDone (s : State) : control (chipDone s) = control s := by
  simp [control]

theorem control_takeMove (rest : List Move) (s : State) : control (takeMove rest s) = control s := rfl

/-! ## The rows follow it -/

theorem frameBytes_eq (s : State) : frameBytes s = (s.dev.frame.map List.length).getD 0 := by
  rw [frameBytes]
  cases s.dev.frame <;> rfl

theorem dummiesSent_of_control (h : control s' = control s) (hcs : s.cs = true) : dummiesSent s' = dummiesSent s := by
  have hcs' : s'.cs = true := (congrArg Control.cs h).trans hcs
  have hcfg : s'.cfg = s.cfg := congrArg Control.cfg h
  have hcnt : s'.cnt = s.cnt := congrArg Control.cnt h
  have hsent : s'.dev.frame.map List.length = s.dev.frame.map List.length := by
    have := congrArg Control.sent h
    simpa [control, hcs, hcs'] using this
  have hbytes : frameBytes s' = frameBytes s := by
    rw [frameBytes_eq, hsent, ← frameBytes_eq]
  rw [dummiesSent, dummiesSent, hcfg, hcnt, hbytes]

/-- Two states of one `control` and one status byte take the same row, to states of one `control`. -/
theorem row_of_control (h : control s' = control s) (hsr : s'.sr = s.sr) (hcs : s.cs = selectedIn s.seq)
    (hrow : Row s t) : ∃ t', Row s' t' ∧ control t' = control t := by
  have hcfg : s'.cfg = s.cfg := congrArg Control.cfg h
  have hpage : s'.page = s.page := congrArg Control.page h
  have hsize : s'.size = s.size := congrArg Control.size h
  have hsector : s'.sector = s.sector := congrArg Control.sector h
  have hseq : s'.seq = s.seq := congrArg Control.seq h
  have hret : s'.ret = s.ret := congrArg Control.ret h
  have hhret : s'.hret = s.hret := congrArg Control.hret h
  have hcop : s'.cop = s.cop := congrArg Control.cop h
  have hcur : s'.cur = s.cur := congrArg Control.cur h
  have hidx : s'.idx = s.idx := congrArg Control.idx h
  have hrem : s'.rem = s.rem := congrArg Control.rem h
  have hn : s'.n = s.n := congrArg Control.n h
  have hcnt : s'.cnt = s.cnt := congrArg Control.cnt h
  have hk : s'.k = s.k := congrArg Control.k h
  have hcs' : s'.cs = s.cs := congrArg Control.cs h
  have hlow : selectedIn s.seq = false → s.cs = false ∧ s'.cs = false := fun hq => by
    rw [hcs', hcs, hq]
    exact ⟨rfl, rfl⟩
  have hhigh : selectedIn s.seq = true → dummiesSent s' = dummiesSent s := fun hq =>
    dummiesSent_of_control h (hcs.trans hq)
  cases hrow with
  | idle hq => exact ⟨_, .idle (hseq.trans hq), h⟩
  | done hq => exact ⟨_, .done (hseq.trans hq), congrArg (fun c : Control => { c with busy := false, seq := .idle }) h⟩
  | pSel hq hc => exact ⟨_, .pSel (hseq.trans hq) (hcs'.trans hc), by simp only [control_goto, control_opened, h]⟩
  | pOp hq hc => exact ⟨_, .pOp (hseq.trans hq) (hcs'.trans hc), by simp only [control_goto, control_exchanged, h]⟩
  | pRd hq hc =>
    exact ⟨_, .pRd (hseq.trans hq) (hcs'.trans hc), by
      simp only [control_goto, control_latchStatus, control_exchanged, h]⟩
  | pDes hq hc => exact ⟨_, .pDes (hseq.trans hq) (hcs'.trans hc), by simp only [control_goto, control_closed, h]⟩
  | pTst hq => exact ⟨_, .pTst (hseq.trans hq), by simp only [control_goto, h, hsr, hret]⟩
  | hSel o hq hc ho =>
    exact ⟨_, .hSel o (hseq.trans hq) (hcs'.trans hc) (by rw [hcfg, hcop]; exact ho), by
      simp only [control_goto, control_opened, h]⟩
  | hOp hq hc => exact ⟨_, .hOp (hseq.trans hq) (hcs'.trans hc), by simp only [control_goto, control_exchanged, h]⟩
  | hA0 hq hc => exact ⟨_, .hA0 (hseq.trans hq) (hcs'.trans hc), by simp only [control_goto, control_exchanged, h]⟩
  | hA1 hq hc => exact ⟨_, .hA1 (hseq.trans hq) (hcs'.trans hc), by simp only [control_goto, control_exchanged, h]⟩
  | hA2 hq hc =>
    exact ⟨_, .hA2 (hseq.trans hq) (hcs'.trans hc), by simp only [control_goto, control_exchanged, h, hhret]⟩
  | iWp hq => exact ⟨_, .iWp (hseq.trans hq), by simp only [control_goto, control_setWp, h]⟩
  | iRst1 hq =>
    obtain ⟨hl, hl'⟩ := hlow (by rw [hq]; rfl)
    exact ⟨_, .iRst1 (hseq.trans hq), by simp only [control_goto, control_setRst _ hl, control_setRst _ hl', h]⟩
  | iDly hq => exact ⟨_, .iDly (hseq.trans hq), by simp only [control_goto, control_delayMs, h]⟩
  | iRst0 hq =>
    obtain ⟨hl, hl'⟩ := hlow (by rw [hq]; rfl)
    exact ⟨_, .iRst0 (hseq.trans hq), by simp only [control_goto, control_setRst _ hl, control_setRst _ hl', h]⟩
  | ep0 hq => exact ⟨_, .ep0 (hseq.trans hq), by simp only [control_callPoll, h]⟩
  | ep1 hq => exact ⟨_, .ep1 (hseq.trans hq), by simp only [control_callHeader, h, hcfg]⟩
  | ep2 hq hc => exact ⟨_, .ep2 (hseq.trans hq) (hcs'.trans hc), by simp only [control_goto, control_closed, h]⟩
  | es0Refused hq hz =>
    exact ⟨_, .es0Refused (hseq.trans hq) (by rw [hsector]; exact hz), by simp only [control_goto, h]⟩
  | es0 hq hz => exact ⟨_, .es0 (hseq.trans hq) (by rw [hsector]; exact hz), by simp only [control_callPoll, h]⟩
  | es1 hq => exact ⟨_, .es1 (hseq.trans hq), by simp only [control_callHeader, h, hcfg]⟩
  | es2 hq hc => exact ⟨_, .es2 (hseq.trans hq) (hcs'.trans hc), by simp only [control_goto, control_closed, h]⟩
  | w0 hq =>
    exact ⟨_, .w0 (hseq.trans hq), by
      simp only [control_goto, control_startWrite, control_setWp, h, setWp_page, setWp_size, hpage, hsize]⟩
  | w1Ended hq hr => exact ⟨_, .w1Ended (hseq.trans hq) (hrem.trans hr), by simp only [control_callPoll, h]⟩
  | w1 hq hr =>
    exact ⟨_, .w1 (hseq.trans hq) (by rw [hrem]; exact hr), by
      simp only [control_callPoll, control_startChunk, h, hrem]⟩
  | w2 hq => exact ⟨_, .w2 (hseq.trans hq), by simp only [control_callHeader, control_startCount, h, hcfg]⟩
  | w3 hq hc hlt =>
    exact ⟨_, .w3 (hseq.trans hq) (hcs'.trans hc) (by rw [hcnt, hn]; exact hlt), by
      simp only [control_filled, h, hcnt]⟩
  | w3Ended hq hc he =>
    exact ⟨_, .w3Ended (hseq.trans hq) (hcs'.trans hc) (by rw [hcnt, hn]; exact he), by
      simp only [control_callPoll, control_closed, h]⟩
  | w4 hq => exact ⟨_, .w4 (hseq.trans hq), by simp only [control_callHeader, h, hcfg]⟩
  | w5 hq hc =>
    exact ⟨_, .w5 (hseq.trans hq) (hcs'.trans hc), by
      simp only [control_goto, control_nextChunk, control_closed, closed_idx, closed_n, closed_rem, closed_cur, h, hidx,
        hn, hrem, hcur]⟩
  | w6 hq => exact ⟨_, .w6 (hseq.trans hq), by simp only [control_goto, control_setWp, h]⟩
  | r0 hq => exact ⟨_, .r0 (hseq.trans hq), by simp only [control_callPoll, h]⟩
  | r1 hq => exact ⟨_, .r1 (hseq.trans hq), by simp only [control_callHeader, control_startCount, h, hcfg]⟩
  | r2 hq hc hlt =>
    exact ⟨_, .r2 (hseq.trans hq) (hcs'.trans hc) (by rw [hhigh (by rw [hq]; rfl), hcfg]; exact hlt), by
      simp only [control_countByte, control_exchanged, exchanged_cnt, h, hcnt]⟩
  | r2Ended hq he =>
    exact ⟨_, .r2Ended (hseq.trans hq) (by rw [hhigh (by rw [hq]; rfl), hcfg]; exact he), by
      simp only [control_goto, control_startCount, h]⟩
  | r3 hq hc hlt =>
    exact ⟨_, .r3 (hseq.trans hq) (hcs'.trans hc) (by rw [hcnt, hsize]; exact hlt), by
      simp only [control_readOne, h, hcnt]⟩
  | r3Ended hq hc he =>
    exact ⟨_, .r3Ended (hseq.trans hq) (hcs'.trans hc) (by rw [hcnt, hsize]; exact he), by
      simp only [control_goto, control_closed, h]⟩
  | g0 hq hc => exact ⟨_, .g0 (hseq.trans hq) (hcs'.trans hc), by simp only [control_goto, control_opened, h]⟩
  | g1 hq hc =>
    exact ⟨_, .g1 (hseq.trans hq) (hcs'.trans hc), by
      simp only [control_goto, control_startId, control_exchanged, h]⟩
  | g2 hq hc hlt =>
    exact ⟨_, .g2 (hseq.trans hq) (hcs'.trans hc) (by rw [hk]; exact hlt), by simp only [control_idLatched, h, hk]⟩
  | g2Ended hq hc he =>
    exact ⟨_, .g2Ended (hseq.trans hq) (hcs'.trans hc) (hk.trans he), by simp only [control_goto, control_closed, h]⟩
  | g3 hq hc => exact ⟨_, .g3 (hseq.trans hq) (hcs'.trans hc), by simp only [control_goto, control_opened, h]⟩
  | g4 hq hc => exact ⟨_, .g4 (hseq.trans hq) (hcs'.trans hc), by simp only [control_goto, control_exchanged, h]⟩
  | g5 hq hc =>
    exact ⟨_, .g5 (hseq.trans hq) (hcs'.trans hc), by
      simp only [control_goto, control_latchStatus, control_exchanged, h]⟩
  | g6 hq hc => exact ⟨_, .g6 (hseq.trans hq) (hcs'.trans hc), by simp only [control_goto, control_closed, h]⟩
  | g7 hq => exact ⟨_, .g7 (hseq.trans hq), by simp only [control_goto, control_latchDiag, h]⟩

/-! ## The invariant of a state's `control` -/

/-- The invariant holds of some state of the same `control`. -/
def Sane (s : State) : Prop :=
  ∃ s', Inv s' ∧ control s' = control s

/-- The invariant does not speak of the status byte. -/
theorem inv_of_sr (h : Inv s) (v : Byte) : Inv { s with sr := v } := by
  obtain ⟨h1, h2, h3, h4, h5, h6, h7, h8, h9, h10, h11, h12, h13, h14, h15, h16, h17, h18, h19, h20, h21⟩ := h
  exact ⟨h1, h2, h3, h4, h5, h6, h7, h8, h9, h10, h11,
    fun hw => (chunkInv_iff _).mpr ((chunkInv_iff s).mp (h12 hw)), h13, h14, h15, h16, h17, h18, h19, h20, h21⟩

theorem Sane.exists_inv (h : Sane s) : ∃ s', Inv s' ∧ s'.sr = s.sr ∧ control s' = control s := by
  obtain ⟨s', hinv, hc⟩ := h
  exact ⟨{ s' with sr := s.sr }, inv_of_sr hinv s.sr, rfl, hc⟩

theorem Inv.sane (h : Inv s) : Sane s := ⟨s, h, rfl⟩

theorem Sane.of_control (h : Sane s) (hc : control t = control s) : Sane t := by
  obtain ⟨s', hinv, hc'⟩ := h
  exact ⟨s', hinv, hc'.trans hc.symm⟩

theorem Sane.cs (h : Sane s) : s.cs = selectedIn s.seq := by
  obtain ⟨s', hinv, hc⟩ := h
  have hcs : s'.cs = s.cs := congrArg Control.cs hc
  have hseq : s'.seq = s.seq := congrArg Control.seq hc
  rw [← hcs, ← hseq, hinv.cs]

theorem Sane.busy (h : Sane s) : s.busy = decide (s.seq ≠ .idle) := by
  obtain ⟨s', hinv, hc⟩ := h
  have hbusy : s'.busy = s.busy := congrArg Control.busy hc
  have hseq : s'.seq = s.seq := congrArg Control.seq hc
  rw [← hbusy, ← hseq, hinv.busy]

theorem Sane.exists_row (h : Sane s) : ∃ t, Row s t := by
  obtain ⟨s', hinv, hsr, hc⟩ := h.exists_inv
  obtain ⟨t', hrow⟩ := Safety.exists_row hinv
  obtain ⟨t, ht, _⟩ := row_of_control hc.symm hsr.symm hinv.cs hrow
  exact ⟨t, ht⟩

theorem Sane.row (h : Sane s) (hrow : Row s t) : Sane t := by
  obtain ⟨s', hinv, hsr, hc⟩ := h.exists_inv
  obtain ⟨t', hrow', hc'⟩ := row_of_control hc hsr h.cs hrow
  exact ⟨t', inv_of_row hinv hrow', hc'⟩

/-- The state at rest with all that `control` leaves out as a reset leaves it. -/
def settled (s : State) : State :=
  { s with
    own := .none, wp := true, rst := false, hbuf := []
    dev := { s.dev with frame := none, array := [], buf1 := [] } }

theorem inv_settled (hs : AtRest s) : Inv (settled s) := by
  have hw : Wired false false .none false false (surface (settled s)) :=
    ⟨hs.cfg, hs.busy, hs.cs, rfl, rfl, rfl, rfl, Memory.wf_nil, Memory.wf_nil, Memory.wf_nil⟩
  exact inv_of_quiet (q := .idle) hs.seq rfl rfl (by decide) hw

theorem sane_began {i : Instr} (hs : AtRest s) (hi : isCommand i = true) :
    Sane (began (NoLeftovers.firstState i) s) := by
  refine ⟨began (NoLeftovers.firstState i) (settled s), inv_began (inv_settled hs) hs.busy hi, ?_⟩
  have hcs : s.cs = false := hs.cs
  simp only [control, began, settled, hcs, Bool.false_eq_true, ↓reduceIte]

/-! ## How far the controller is from its next wait, or from rest -/

/-- The dummies of a READ still to be sent. -/
def dummiesLeft (c : Control) : Nat :=
  c.cfg.nReadDummy - if c.cfg.nReadDummy < 65536 then c.cnt.toNat else c.sent.getD 0 - 4

/-- No session opened by a header takes as many steps. -/
def sessionBound (c : Control) : Nat :=
  c.n.toNat + c.cfg.nReadDummy + c.size.toNat + 4

/-- A bound on the controller's steps to `P_SEL` or to `IDLE`. -/
def togo (c : Control) : Nat :=
  match c.seq with
  | .idle | .pSel => 0
  | .done | .ep0 | .w1 | .r0 => 1
  | .es0 | .w0 | .w5 | .w6 | .ep2 | .es2 | .iRst0 | .g7 => 2
  | .iDly | .g6 => 3
  | .iRst1 | .g5 => 4
  | .iWp | .g4 => 5
  | .g3 => 6
  | .g2 => 4 - c.k.toNat + 7
  | .g1 => 12
  | .g0 => 13
  | .w3 => c.n.toNat - c.cnt.toNat + 1
  | .r3 => c.size.toNat - c.cnt.toNat + 2
  | .r2 => dummiesLeft c + c.size.toNat + 3
  | .hA2 => sessionBound c + 1
  | .hA1 => sessionBound c + 2
  | .hA0 => sessionBound c + 3
  | .hOp => sessionBound c + 4
  | .hSel => sessionBound c + 5
  | .ep1 | .es1 | .w2 | .w4 | .r1 => sessionBound c + 6
  | .pTst => sessionBound c + 7
  | .pDes => sessionBound c + 8
  | .pRd => sessionBound c + 9
  | .pOp => sessionBound c + 10

theorem togo_headerReturn_le {c : Control} {op : Byte} (h : headerOpcode c.cfg c.seq = some op) :
    togo c ≤ sessionBound c := by
  have hd : dummiesLeft c ≤ c.cfg.nReadDummy := Nat.sub_le _ _
  cases hq : c.seq <;> rw [hq] at h <;> simp [headerOpcode] at h
  all_goals simp only [togo, hq, sessionBound]; omega

theorem togo_pollReturn_le {c : Control} (h : isPollReturn c.seq = true) : togo c ≤ sessionBound c + 6 := by
  cases hq : c.seq <;> rw [hq] at h <;> simp [isPollReturn] at h
  all_goals simp only [togo, hq, sessionBound]; omega

theorem dummiesLeft_control (hcs : s.cs = true) : dummiesLeft (control s) = s.cfg.nReadDummy - dummiesSent s := by
  simp [dummiesLeft, control, dummiesSent, hcs, frameBytes_eq]

theorem togo_of_seq (hq : s.seq = q) : togo (control s) = togo { control s with seq := q } := by
  subst hq
  rfl

/-- Every row but that of rest and those that begin a poll brings the controller nearer. -/
theorem togo_lt_of_row (h : Inv s) (hrow : Row s t) (hidle : s.seq ≠ .idle) (hpoll : s.seq ≠ .pSel) :
    togo (control t) < togo (control s) := by
  cases hrow with
  | idle hq => exact absurd hq hidle
  | pSel hq => exact absurd hq hpoll
  | ep0 hq | es0 hq | w1Ended hq | w1 hq | w3Ended hq | r0 hq =>
    rw [togo_of_seq hq]
    exact Nat.zero_lt_succ _
  | done hq | iWp hq | iDly hq | ep1 hq | ep2 hq | es0Refused hq | es1 hq | es2 hq | w0 hq | w2 hq | w4 hq | w5 hq
  | w6 hq | r1 hq | g0 hq | g3 hq | g6 hq | g7 hq | pDes hq | hSel _ hq =>
    rw [togo_of_seq hq]
    exact Nat.lt_succ_self _
  | iRst1 hq | iRst0 hq =>
    rw [togo_of_seq hq, control_goto, control_setRst _ (by rw [h.cs, hq]; rfl)]
    exact Nat.lt_succ_self _
  | pOp hq | pRd hq | hOp hq | hA0 hq | hA1 hq | g4 hq | g5 hq =>
    rw [togo_of_seq hq, control_goto]
    simp only [control_latchStatus, control_exchanged]
    exact Nat.lt_succ_self _
  | pTst hq =>
    rw [togo_of_seq hq, control_goto]
    split
    · have hret := togo_pollReturn_le (c := { control s with seq := s.ret }) (h.ret (by rw [hq]; rfl))
      exact Nat.lt_succ_of_le hret
    · exact Nat.zero_lt_succ _
  | hA2 hq =>
    have hhret := togo_headerReturn_le (c := { control (exchanged s.addr.a2 s) with seq := s.hret })
      (by rw [control_exchanged]; exact h.hret (by rw [hq]; rfl))
    rw [togo_of_seq hq, control_goto]
    rw [control_exchanged] at hhret ⊢
    exact Nat.lt_succ_of_le hhret
  | w3 hq _ hlt =>
    have hcnt : (s.cnt + 1).toNat = s.cnt.toNat + 1 := by bv_omega
    have hlt' : s.cnt.toNat < s.n.toNat := hlt
    rw [togo_of_seq hq, togo_of_seq (q := .w3) (s := filled s) (by simpa [filled] using hq), control_filled]
    show s.n.toNat - (s.cnt + 1).toNat + 1 < s.n.toNat - s.cnt.toNat + 1
    omega
  | r3 hq _ hlt =>
    have hcnt : (s.cnt + 1).toNat = s.cnt.toNat + 1 := by bv_omega
    have hlt' : s.cnt.toNat < s.size.toNat := hlt
    rw [togo_of_seq hq, togo_of_seq (q := .r3) (s := readOne s) (by simpa [readOne] using hq), control_readOne]
    show s.size.toNat - (s.cnt + 1).toNat + 2 < s.size.toNat - s.cnt.toNat + 2
    omega
  | g2 hq _ hlt =>
    have hk : (s.k + 1).toNat = s.k.toNat + 1 := by bv_omega
    have hlt' : s.k.toNat < 4 := hlt
    rw [togo_of_seq hq, togo_of_seq (q := .g2) (s := idLatched s) (by simpa [idLatched] using hq), control_idLatched]
    show 4 - (s.k + 1).toNat + 7 < 4 - s.k.toNat + 7
    omega
  | r2 hq hc hlt =>
    obtain ⟨bytes, hframe⟩ := Option.isSome_iff_exists.mp (h.frame.trans hc)
    have hlen : 4 ≤ bytes.length := by
      have := h.dummyBytes hq
      rw [frameBytes_of_some hframe] at this
      omega
    have hsent := dummiesSent_countByte_exchanged s.cfg.dummyOut hframe hlen hlt
    have hleft := dummiesLeft_control (s := countByte (exchanged s.cfg.dummyOut s)) (by simpa using hc)
    rw [hsent, countByte_cfg, exchanged_cfg] at hleft
    rw [togo_of_seq hq,
      togo_of_seq (q := .r2) (s := countByte (exchanged s.cfg.dummyOut s)) (by simpa using hq)]
    show dummiesLeft (control (countByte (exchanged s.cfg.dummyOut s))) +
      (control (countByte (exchanged s.cfg.dummyOut s))).size.toNat + 3 < dummiesLeft (control s) + s.size.toNat + 3
    have hsize : (control (countByte (exchanged s.cfg.dummyOut s))).size = s.size := by simp [control]
    rw [hleft, dummiesLeft_control hc, hsize]
    omega
  | r2Ended hq he =>
    rw [togo_of_seq hq]
    show s.size.toNat - 0 + 2 < dummiesLeft (control s) + s.size.toNat + 3
    omega
  | r3Ended hq | g2Ended hq =>
    rw [togo_of_seq hq]
    exact Nat.lt_of_lt_of_le (Nat.lt_succ_self _) (Nat.le_add_left _ _)
  | g1 hq =>
    rw [togo_of_seq hq, control_goto, control_startId, control_exchanged]
    exact Nat.lt_succ_self _

theorem Sane.togo_lt (h : Sane s) (hrow : Row s t) (hidle : s.seq ≠ .idle) (hpoll : s.seq ≠ .pSel) :
    togo (control t) < togo (control s) := by
  obtain ⟨s', hinv, hsr, hc⟩ := h.exists_inv
  obtain ⟨t', hrow', hc'⟩ := row_of_control hc hsr h.cs hrow
  have hseq : s'.seq = s.seq := congrArg Control.seq hc
  rw [← hc, ← hc']
  exact togo_lt_of_row hinv hrow' (by rwa [hseq]) (by rwa [hseq])

/-! ## Left alone (R314) -/

theorem moves_of_row (hrow : Row s t) : t.moves = s.moves := by
  cases hrow with
  | pOp | pRd | hOp | hA0 | hA1 | hA2 | w3 | r2 | r3 | g1 | g2 | g4 | g5 => simp [filled, readOne, idLatched]
  | _ => rfl

theorem run_succ_of_row {k : Nat} (hm : s.moves = []) (hrow : Row s t) : run (k + 1) s = run k t := by
  rw [run_succ, step_of_no_move hm, seqStep_of_row hrow, andThen_of_next]

/-- From every state the controller comes to rest or to a poll, at once if it is there. -/
theorem reaches_rest_or_poll (h : Sane s) (hm : s.moves = []) :
    ∃ k t, run k s = .next t ∧ (t.seq = .idle ∨ t.seq = .pSel) := by
  induction hn : togo (control s) using Nat.strong_induction_on generalizing s with
  | _ n ih =>
    by_cases hidle : s.seq = .idle
    · exact ⟨0, s, rfl, .inl hidle⟩
    by_cases hpoll : s.seq = .pSel
    · exact ⟨0, s, rfl, .inr hpoll⟩
    obtain ⟨t, hrow⟩ := h.exists_row
    obtain ⟨k, u, hrun, hu⟩ := ih (togo (control t)) (hn ▸ h.togo_lt hrow hidle hpoll) (h.row hrow)
      ((moves_of_row hrow).trans hm) rfl
    exact ⟨k + 1, u, (run_succ_of_row hm hrow).trans hrun, hu⟩

/-- The same, with one step at least. -/
theorem steps_to_rest_or_poll (h : Sane s) (hm : s.moves = []) :
    ∃ k t, run (k + 1) s = .next t ∧ (t.seq = .idle ∨ t.seq = .pSel) := by
  obtain ⟨t, hrow⟩ := h.exists_row
  obtain ⟨k, u, hrun, hu⟩ := reaches_rest_or_poll (h.row hrow) ((moves_of_row hrow).trans hm)
  exact ⟨k, u, (run_succ_of_row hm hrow).trans hrun, hu⟩

end Sys2Proof.Safety
end

section
/-! PROOFS. O48, O59: the chip during a wait and during a WRITE. In each state of the two the open frame is known byte
for byte, so the chip stays defined, answers the poll truly, and takes the fill and the commit. -/

namespace Sys2Proof.Machine.Dev

open Sys2Proof.Safety

variable {c : Cfg} {d : Dev}

/-! ## A chip that is in the frame it is said to be in -/

theorem complete_heard (d : Dev) (bytes : List Byte) : (d.heard bytes).complete = d.complete.heard bytes := by
  obtain ⟨mode, array, arrayEpoch, buf1, buf1Epoch, epochs, busy, pending, frame, ignored, ptr, ident, stat6⟩ := d
  cases mode with
  | oracle | unknown => rfl
  | known =>
    cases busy with
    | false => rfl
    | true => cases pending <;> rfl

theorem complete_mode (d : Dev) : d.complete.mode = d.mode := by
  unfold complete
  repeat' split
  all_goals rfl

theorem endFrame_mode_of_mutating {op : Byte} {a : Addr} (wp : Bool) (hd : d.mode = .known)
    (hop : isMutating c op = true) : ((d.heard [op, a.a0, a.a1, a.a2]).endFrame c wp).mode = .known := by
  cases hcommand : (d.heard [op, a.a0, a.a1, a.a2]).commanded c wp with
  | none => rw [heard_endFrame_of_blocked hd hop hcommand]; exact hd
  | some operation => rw [heard_endFrame_of_commanded hd hop hcommand]; exact hd

end Sys2Proof.Machine.Dev

namespace Sys2Proof.Safety

open Sys2Proof.Machine

variable {s t : State}

/-- The header under way is that of a fill or of a commit. -/
def inWrite (s : State) : Prop :=
  s.hret = .w3 ∨ s.hret = .w5

/-- The address that is sent is the one the header's caller has set (R190, R193). -/
def Addressed (s : State) : Prop :=
  (s.hret = .w3 → s.addr = bufferAddr 0) ∧ (s.hret = .w5 → s.addr = commitAddr s)

/-- The chip, in each state of a wait and of a WRITE. -/
def Listens (s : State) : Prop :=
  match s.seq with
  | .ep0 | .es0 | .r0 | .w0 | .w1 | .pSel => s.dev.mode = .known
  | .pOp => s.dev.mode = .known ∧ s.dev = s.dev.heard []
  | .pRd => s.dev.mode = .known ∧ s.dev = s.dev.heard [s.cfg.opReadStatus]
  | .pDes =>
    s.dev.mode = .known ∧ s.dev = s.dev.heard [s.cfg.opReadStatus, s.cfg.dummyOut] ∧
      (readyBit s.sr = true → s.dev.busy = false)
  | .pTst => s.dev.mode = .known ∧ (readyBit s.sr = true → s.dev.busy = false)
  | .w2 | .w4 | .w6 => readyChip s.dev
  | .hSel => inWrite s → readyChip s.dev ∧ Addressed s
  | .hOp => inWrite s → readyChip s.dev ∧ Addressed s ∧ s.dev = s.dev.heard []
  | .hA0 => inWrite s → readyChip s.dev ∧ Addressed s ∧ s.dev = s.dev.heard [s.cop]
  | .hA1 => inWrite s → readyChip s.dev ∧ Addressed s ∧ s.dev = s.dev.heard [s.cop, s.addr.a0]
  | .hA2 => inWrite s → readyChip s.dev ∧ Addressed s ∧ s.dev = s.dev.heard [s.cop, s.addr.a0, s.addr.a1]
  | .w3 =>
    readyChip s.dev ∧ ∃ got : List Byte, 3 ≤ got.length ∧ s.dev = s.dev.filling s.cfg got s.cnt.toNat
  | .w5 =>
    readyChip s.dev ∧ s.addr = commitAddr s ∧
      s.dev = s.dev.heard [s.cfg.opBuf1CommitErase, s.addr.a0, s.addr.a1, s.addr.a2]
  | _ => True

/-! ## What each row does to the chip -/

theorem dev_of_pOp (hq : s.seq = .pOp) (hc : s.cfg.valid = true) (h : Listens s) :
    (exchanged s.cfg.opReadStatus s).dev = s.dev.heard [s.cfg.opReadStatus] := by
  rw [Listens, hq] at h
  obtain ⟨_, hdev⟩ := h
  have hop : answeredBusy s.cfg s.cfg.opReadStatus = true := by simp [answeredBusy]
  rw [exchanged_dev, hdev]
  exact Dev.beginFrame_receive_of_answeredBusy (Dev.plain_of_answeredBusy hc hop).1 hop

theorem dev_of_pRd (hq : s.seq = .pRd) (hc : s.cfg.valid = true) (h : Listens s) :
    (exchanged s.cfg.dummyOut s).dev = s.dev.heard [s.cfg.opReadStatus, s.cfg.dummyOut] ∧
      answer s = s.dev.status := by
  rw [Listens, hq] at h
  obtain ⟨hmode, hdev⟩ := h
  have hplain := (Dev.plain_of_answeredBusy hc (op := s.cfg.opReadStatus) (by simp [answeredBusy])).2.2
  constructor
  · rw [exchanged_dev, hdev, Dev.heard_receive_of_not_session hmode hplain]
    rfl
  · refine answer_of_some ?_
    rw [hdev, Dev.heard_answer?_status hmode]
    rfl

theorem dev_of_pDes (hq : s.seq = .pDes) (hc : s.cfg.valid = true) (h : Listens s) :
    (closed s).dev = s.dev.rested := by
  rw [Listens, hq] at h
  obtain ⟨hmode, hdev, _⟩ := h
  obtain ⟨_, hm, hs⟩ := Dev.plain_of_answeredBusy hc (op := s.cfg.opReadStatus) (by simp [answeredBusy])
  rw [closed_dev, hdev, Dev.heard_endFrame_of_plain _ hmode hm hs]
  rfl

theorem dev_of_hOp (hq : s.seq = .hOp) (hop : s.cop ∈ s.cfg.emitted) (hw : inWrite s) (h : Listens s) :
    (exchanged s.cop s).dev = s.dev.heard [s.cop] := by
  rw [Listens, hq] at h
  obtain ⟨hready, _, hdev⟩ := h hw
  rw [exchanged_dev, hdev]
  exact Dev.beginFrame_receive_of_ready hready hop

theorem dev_of_hA0 (hq : s.seq = .hA0) (hw : inWrite s) (h : Listens s) :
    (exchanged s.addr.a0 s).dev = s.dev.heard [s.cop, s.addr.a0] := by
  rw [Listens, hq] at h
  obtain ⟨hready, _, hdev⟩ := h hw
  rw [exchanged_dev, hdev, Dev.heard_receive_of_short hready.1 (by simp)]
  rfl

theorem dev_of_hA1 (hq : s.seq = .hA1) (hw : inWrite s) (h : Listens s) :
    (exchanged s.addr.a1 s).dev = s.dev.heard [s.cop, s.addr.a0, s.addr.a1] := by
  rw [Listens, hq] at h
  obtain ⟨hready, _, hdev⟩ := h hw
  rw [exchanged_dev, hdev, Dev.heard_receive_of_short hready.1 (by simp)]
  rfl

theorem dev_of_hA2 (hq : s.seq = .hA2) (hw : inWrite s) (h : Listens s) :
    (exchanged s.addr.a2 s).dev =
      ({ s.dev with ptr := Dev.headerPtr s.cfg s.cop s.addr s.dev.ptr } : Dev).heard
        [s.cop, s.addr.a0, s.addr.a1, s.addr.a2] := by
  rw [Listens, hq] at h
  obtain ⟨hready, _, hdev⟩ := h hw
  rw [exchanged_dev, hdev, Dev.heard_receive_third_address_byte _ _ hready.1]
  rfl

/-- The buffer byte a fill step writes. -/
def withFillByte (s : State) : Dev :=
  { s.dev with buf1 := s.dev.buf1.write s.cnt.toNat (hostByte s (s.idx + s.cnt)) }

theorem dev_of_w3 (hq : s.seq = .w3) (hcnt : s.cnt.toNat < pageSize) (h : Listens s) :
    ∃ got : List Byte, 3 ≤ got.length ∧
      (filled s).dev = (withFillByte s).filling s.cfg got (s.cnt.toNat + 1) := by
  rw [Listens, hq] at h
  obtain ⟨hready, got, hgot, hdev⟩ := h
  refine ⟨got ++ [hostByte s (s.idx + s.cnt)], by simp; omega, ?_⟩
  have hbyte : (filled s).dev = s.dev.receive s.cfg (hostByte s (s.idx + s.cnt)) := by simp [filled]
  rw [hbyte, hdev, Dev.filling_receive _ hready.1 hgot hcnt]
  rfl

theorem dev_of_w3Ended (hq : s.seq = .w3) (hc : s.cfg.valid = true) (h : Listens s) :
    ∃ ptr, (closed s).dev = { s.dev with frame := none, ignored := false, ptr := ptr } := by
  rw [Listens, hq] at h
  obtain ⟨hready, got, hgot, hdev⟩ := h
  refine ⟨(0, s.cnt.toNat), ?_⟩
  rw [closed_dev, hdev, Dev.filling_endFrame _ hc hready.1 hgot]
  rfl

/-- The commit of a WRITE is not blocked while write-protect is de-asserted (R96, R195). -/
theorem dev_of_w5 (hq : s.seq = .w5) (hwp : s.wp = false) (h : Listens s) :
    (closed s).dev = s.dev.started (.programPage (addrPage s.addr) s.dev.buf1Bytes) := by
  rw [Listens, hq] at h
  obtain ⟨hready, _, hdev⟩ := h
  have hcommand := Dev.commanded_commit (c := s.cfg) s.dev (wp := s.wp) (a := s.addr) (by rw [hwp, Bool.false_and])
  rw [closed_dev, hdev]
  exact Dev.heard_endFrame_of_commanded hready.1 (by simp [isMutating]) hcommand

/-! ## What a state's `control` tells -/

theorem Sane.cfg (h : Sane s) : s.cfg.valid = true := by
  obtain ⟨s', hinv, hc⟩ := h
  have hcfg : s'.cfg = s.cfg := congrArg Control.cfg hc
  rw [← hcfg]
  exact hinv.cfg

theorem Sane.ret (h : Sane s) (hp : inPoll s.seq = true) : isPollReturn s.ret = true := by
  obtain ⟨s', hinv, hc⟩ := h
  have hseq : s'.seq = s.seq := congrArg Control.seq hc
  have hret : s'.ret = s.ret := congrArg Control.ret hc
  rw [← hret]
  exact hinv.ret (by rwa [hseq])

theorem Sane.hret (h : Sane s) (hh : inHeader s.seq = true) :
    headerOpcode s.cfg s.hret = some s.cop ∧ (s.hret = .w3 ∨ s.hret = .r2 → s.cnt = 0) := by
  obtain ⟨s', hinv, hc⟩ := h
  have hseq : s'.seq = s.seq := congrArg Control.seq hc
  have hhret : s'.hret = s.hret := congrArg Control.hret hc
  have hcfg : s'.cfg = s.cfg := congrArg Control.cfg hc
  have hcop : s'.cop = s.cop := congrArg Control.cop hc
  have hcnt : s'.cnt = s.cnt := congrArg Control.cnt hc
  rw [← hhret, ← hcfg, ← hcop, ← hcnt]
  exact ⟨hinv.hret (by rwa [hseq]), hinv.hcnt (by rwa [hseq])⟩

theorem Sane.chunk (h : Sane s) (hw : writing (resumesAt s) = true) : ChunkAt (resumesAt s) (numbers s) := by
  obtain ⟨s', hinv, hc⟩ := h
  have hresumes : resumesAt s' = resumesAt s := by
    have hseq : s'.seq = s.seq := congrArg Control.seq hc
    have hret : s'.ret = s.ret := congrArg Control.ret hc
    have hhret : s'.hret = s.hret := congrArg Control.hret hc
    rw [resumesAt, resumesAt, hseq, hret, hhret]
  have hnumbers : numbers s' = numbers s :=
    congrArg (fun c : Control => Numbers.mk c.page c.size c.cur c.idx c.rem c.n) hc
  rw [← hresumes, ← hnumbers]
  exact (chunkInv_iff s').mp (hinv.chunk (by rwa [hresumes]))

theorem Sane.fill_lt (h : Sane s) (hq : s.seq = .w3) : s.n.toNat ≤ pageSize := by
  have hresumes : resumesAt s = .w3 := by rw [resumesAt, hq]; rfl
  have hchunk := h.chunk (by rw [hresumes]; rfl)
  rw [hresumes] at hchunk
  have hn : s.n = chunkLength s.rem := (hchunk.length rfl).2
  rw [hn, chunkLength_toNat]
  exact Nat.min_le_right _ _

/-- A subroutine's rows, its return among them, leave where the command stands. -/
theorem resumesAt_of_row (h : Sane s) (hsub : NoLeftovers.isPlain s.seq = false) (hrow : Row s t) :
    resumesAt t = resumesAt s := by
  cases hrow with
  | pSel hq | pDes hq | hSel _ hq => rw [resumesAt, resumesAt, hq]; rfl
  | pOp hq | pRd hq | hOp hq | hA0 hq | hA1 hq =>
    rw [resumesAt, resumesAt, hq, goto_seq]
    simp [inPoll, inHeader]
  | pTst hq =>
    have hplain := NoLeftovers.isPlain_iff.mp (NoLeftovers.isPlain_of_isPollReturn (h.ret (by rw [hq]; rfl)))
    rw [resumesAt, resumesAt, hq, goto_seq]
    split
    · rw [hplain.1, hplain.2]
      rfl
    · rfl
  | hA2 hq =>
    have hplain := NoLeftovers.isPlain_iff.mp
      (NoLeftovers.isPlain_of_isHeaderReturn (isHeaderReturn_of_headerOpcode (h.hret (by rw [hq]; rfl)).1))
    rw [resumesAt, resumesAt, hq, goto_seq, hplain.1, hplain.2]
    rfl
  | idle => rfl
  | done hq | iWp hq | iRst1 hq | iDly hq | iRst0 hq | ep0 hq | ep1 hq | ep2 hq | es0Refused hq | es0 hq
  | es1 hq | es2 hq | w0 hq | w1Ended hq | w1 hq | w2 hq | w3 hq | w3Ended hq | w4 hq | w5 hq | w6 hq | r0 hq | r1 hq
  | r2 hq | r2Ended hq | r3 hq | r3Ended hq | g0 hq | g1 hq | g2 hq | g2Ended hq | g3 hq | g4 hq | g5 hq | g6 hq
  | g7 hq =>
    rw [hq] at hsub
    cases hsub

theorem addressed_exchanged (out : Byte) (s : State) : Addressed (exchanged out s) ↔ Addressed s := by
  simp [Addressed, commitAddr]

/-! ## The rows keep it -/

/-- A byte of a header that the chip hears. -/
theorem headerByte_heard {out : Byte} {bytes : List Byte}
    (h : inWrite s → readyChip s.dev ∧ Addressed s ∧ (exchanged out s).dev = s.dev.heard bytes) :
    inWrite (exchanged out s) → readyChip (exchanged out s).dev ∧ Addressed (exchanged out s) ∧
      (exchanged out s).dev = (exchanged out s).dev.heard bytes := by
  intro hw
  obtain ⟨hready, haddr, hdev⟩ := h (by simpa [inWrite] using hw)
  refine ⟨?_, (addressed_exchanged out s).mpr haddr, ?_⟩ <;> rw [hdev]
  · exact hready
  · rfl

/-- The header is whole: the session that it has opened is a fill from offset 0, or it is that of a commit. -/
theorem listens_hA2 (h : Sane s) (hl : Listens s) (hq : s.seq = .hA2) :
    Listens (goto s.hret (exchanged s.addr.a2 s)) := by
  obtain ⟨hopcode, hcnt⟩ := h.hret (by rw [hq]; rfl)
  have hwhole := fun hw => dev_of_hA2 hq hw hl
  rw [Listens, hq] at hl
  cases hr : s.hret <;> rw [hr] at hopcode <;> simp only [headerOpcode, reduceCtorEq, Option.some.injEq] at hopcode
  case ep2 | es2 | r2 => trivial
  case w3 =>
    obtain ⟨hready, haddr, _⟩ := hl (.inl hr)
    have hdev := hwhole (.inl hr)
    have hptr : Dev.headerPtr s.cfg s.cop s.addr s.dev.ptr = (0, 0) := by
      rw [haddr.1 hr, Dev.headerPtr, if_pos hopcode.symm]
      rfl
    have hzero : (exchanged s.addr.a2 s).cnt.toNat = 0 := by
      rw [exchanged_cnt, hcnt (.inl hr)]
      rfl
    rw [hptr, ← hopcode] at hdev
    show readyChip (exchanged s.addr.a2 s).dev ∧ ∃ got : List Byte, 3 ≤ got.length ∧
      (exchanged s.addr.a2 s).dev =
        (exchanged s.addr.a2 s).dev.filling (exchanged s.addr.a2 s).cfg got (exchanged s.addr.a2 s).cnt.toNat
    rw [hzero, exchanged_cfg, hdev]
    exact ⟨hready, [s.addr.a0, s.addr.a1, s.addr.a2], Nat.le_refl 3, rfl⟩
  case w5 =>
    obtain ⟨hready, haddr, _⟩ := hl (.inr hr)
    have hdev := hwhole (.inr hr)
    rw [← hopcode] at hdev
    show readyChip (exchanged s.addr.a2 s).dev ∧ (exchanged s.addr.a2 s).addr = commitAddr (exchanged s.addr.a2 s) ∧
      (exchanged s.addr.a2 s).dev = (exchanged s.addr.a2 s).dev.heard [(exchanged s.addr.a2 s).cfg.opBuf1CommitErase,
        (exchanged s.addr.a2 s).addr.a0, (exchanged s.addr.a2 s).addr.a1, (exchanged s.addr.a2 s).addr.a2]
    rw [exchanged_addr, exchanged_cfg, hdev]
    exact ⟨hready, by simpa [commitAddr] using haddr.2 hr, rfl⟩

theorem headerOpcode_mem_emitted {c : Cfg} {q : Machine.Seq} {op : Byte} (h : headerOpcode c q = some op) :
    op ∈ c.emitted := by
  cases q <;> simp only [headerOpcode, reduceCtorEq, Option.some.injEq] at h
  all_goals subst h; simp [Cfg.emitted]

theorem listens_of_row (h : Sane s) (hl : Listens s) (hrow : Row s t) : Listens t := by
  cases hrow with
  | idle => exact hl
  | done | iWp | iRst1 | iDly | iRst0 | ep2 | es0Refused | es2 | w6 | r2Ended | r3Ended | g0 | g1 | g2Ended | g3 | g4
  | g5 | g6 | g7 => trivial
  | r2 hq =>
    rw [Listens, countByte_seq, exchanged_seq, hq]
    trivial
  | r3 hq =>
    have hseq : (readOne s).seq = .r3 := by simpa [readOne] using hq
    rw [Listens, hseq]
    trivial
  | g2 hq =>
    have hseq : (idLatched s).seq = .g2 := by simpa [idLatched] using hq
    rw [Listens, hseq]
    trivial
  | ep0 hq | es0 hq | r0 hq | w0 hq | w1Ended hq | w1 hq =>
    rw [Listens, hq] at hl
    exact hl
  | pSel hq =>
    rw [Listens, hq] at hl
    exact ⟨hl, rfl⟩
  | pOp hq =>
    have hdev := dev_of_pOp hq h.cfg hl
    rw [Listens, hq] at hl
    show (exchanged s.cfg.opReadStatus s).dev.mode = .known ∧
      (exchanged s.cfg.opReadStatus s).dev =
        (exchanged s.cfg.opReadStatus s).dev.heard [(exchanged s.cfg.opReadStatus s).cfg.opReadStatus]
    rw [hdev, exchanged_cfg]
    exact ⟨hl.1, rfl⟩
  | pRd hq =>
    obtain ⟨hdev, hanswer⟩ := dev_of_pRd hq h.cfg hl
    rw [Listens, hq] at hl
    show (exchanged s.cfg.dummyOut s).dev.mode = .known ∧
      (exchanged s.cfg.dummyOut s).dev = (exchanged s.cfg.dummyOut s).dev.heard
        [(exchanged s.cfg.dummyOut s).cfg.opReadStatus, (exchanged s.cfg.dummyOut s).cfg.dummyOut] ∧
      (readyBit (answer s) = true → (exchanged s.cfg.dummyOut s).dev.busy = false)
    rw [hdev, exchanged_cfg, hanswer, readyBit, Dev.status_bit7]
    exact ⟨hl.1, rfl, fun hr => Bool.not_eq_true' _ ▸ hr⟩
  | pDes hq =>
    have hdev := dev_of_pDes hq h.cfg hl
    rw [Listens, hq] at hl
    show (closed s).dev.mode = .known ∧ (readyBit s.sr = true → (closed s).dev.busy = false)
    rw [hdev]
    exact ⟨hl.1, hl.2.2⟩
  | pTst hq =>
    have hret := h.ret (by rw [hq]; rfl)
    rw [Listens, hq] at hl
    obtain ⟨hmode, hbusy⟩ := hl
    split
    next hready =>
      simp only [isPollReturn, List.mem_cons, List.not_mem_nil, or_false, decide_eq_true_eq] at hret
      obtain hr | hr | hr | hr | hr | hr := hret <;> rw [hr]
      · trivial
      · trivial
      · exact ⟨hmode, hbusy hready⟩
      · exact ⟨hmode, hbusy hready⟩
      · exact ⟨hmode, hbusy hready⟩
      · trivial
    next => exact hmode
  | ep1 | es1 | r1 => rintro (hw | hw) <;> cases hw
  | w2 hq =>
    rw [Listens, hq] at hl
    exact fun _ => ⟨hl, fun _ => rfl, (by rintro ⟨⟩)⟩
  | w4 hq =>
    rw [Listens, hq] at hl
    exact fun _ => ⟨hl, (by rintro ⟨⟩), fun _ => rfl⟩
  | hSel _ hq =>
    rw [Listens, hq] at hl
    intro hw
    obtain ⟨hready, haddr⟩ := hl hw
    exact ⟨hready, haddr, rfl⟩
  | hOp hq =>
    have hcop := headerOpcode_mem_emitted (h.hret (by rw [hq]; rfl)).1
    have hdev := fun hw => dev_of_hOp hq hcop hw hl
    rw [Listens, hq] at hl
    show inWrite (exchanged s.cop s) → readyChip _ ∧ Addressed (exchanged s.cop s) ∧
      (exchanged s.cop s).dev = (exchanged s.cop s).dev.heard [(exchanged s.cop s).cop]
    rw [exchanged_cop]
    exact headerByte_heard fun hw => ⟨(hl hw).1, (hl hw).2.1, hdev hw⟩
  | hA0 hq =>
    have hdev := fun hw => dev_of_hA0 hq hw hl
    rw [Listens, hq] at hl
    show inWrite (exchanged s.addr.a0 s) → readyChip _ ∧ Addressed (exchanged s.addr.a0 s) ∧
      (exchanged s.addr.a0 s).dev =
        (exchanged s.addr.a0 s).dev.heard [(exchanged s.addr.a0 s).cop, (exchanged s.addr.a0 s).addr.a0]
    rw [exchanged_cop, exchanged_addr]
    exact headerByte_heard fun hw => ⟨(hl hw).1, (hl hw).2.1, hdev hw⟩
  | hA1 hq =>
    have hdev := fun hw => dev_of_hA1 hq hw hl
    rw [Listens, hq] at hl
    show inWrite (exchanged s.addr.a1 s) → readyChip _ ∧ Addressed (exchanged s.addr.a1 s) ∧
      (exchanged s.addr.a1 s).dev = (exchanged s.addr.a1 s).dev.heard
        [(exchanged s.addr.a1 s).cop, (exchanged s.addr.a1 s).addr.a0, (exchanged s.addr.a1 s).addr.a1]
    rw [exchanged_cop, exchanged_addr]
    exact headerByte_heard fun hw => ⟨(hl hw).1, (hl hw).2.1, hdev hw⟩
  | hA2 hq => exact listens_hA2 h hl hq
  | w3 hq _ hlt =>
    have hn := h.fill_lt hq
    have hlt' : s.cnt.toNat < s.n.toNat := hlt
    obtain ⟨got, hgot, hdev⟩ := dev_of_w3 hq (by omega) hl
    have hseq : (filled s).seq = .w3 := by simpa [filled] using hq
    have hcnt : (filled s).cnt.toNat = s.cnt.toNat + 1 := by
      have hone : (filled s).cnt = s.cnt + 1 := by simp [filled]
      rw [hone]
      bv_omega
    have hcfg : (filled s).cfg = s.cfg := by simp [filled]
    rw [Listens, hq] at hl
    rw [Listens, hseq]
    show readyChip (filled s).dev ∧ ∃ got : List Byte, 3 ≤ got.length ∧
      (filled s).dev = (filled s).dev.filling (filled s).cfg got (filled s).cnt.toNat
    rw [hcnt, hcfg, hdev]
    exact ⟨hl.1, got, hgot, rfl⟩
  | w3Ended hq =>
    obtain ⟨ptr, hdev⟩ := dev_of_w3Ended hq h.cfg hl
    rw [Listens, hq] at hl
    show (closed s).dev.mode = .known
    rw [hdev]
    exact hl.1.1
  | w5 hq =>
    rw [Listens, hq] at hl
    obtain ⟨hready, _, hdev⟩ := hl
    show (closed s).dev.mode = .known
    rw [closed_dev, hdev]
    exact Dev.endFrame_mode_of_mutating s.wp hready.1 (by simp [isMutating])

/-! ## The chip's own move keeps it (R91) -/

theorem heard_of_complete {d : Dev} {bytes : List Byte} (h : d = d.heard bytes) :
    d.complete = d.complete.heard bytes := by
  rw [← Dev.complete_heard, ← h]

theorem complete_readyBit {d : Dev} {sr : Byte} (h : readyBit sr = true → d.busy = false) :
    readyBit sr = true → d.complete.busy = false := by
  intro hr
  rw [Dev.complete_of_not_busy (h hr), h hr]

theorem listens_chipDone (hl : Listens s) : Listens (chipDone s) := by
  have hmode : s.dev.mode = .known → s.dev.complete.mode = .known := fun h => (Dev.complete_mode s.dev).trans h
  have hdone : readyChip s.dev → chipDone s = s := fun h => by
    rw [chipDone, Dev.complete_of_not_busy h.2]
  rw [Listens] at hl ⊢
  have hseq : (chipDone s).seq = s.seq := rfl
  rw [hseq]
  cases hq : s.seq <;> rw [hq] at hl
  case ep0 | es0 | r0 | w0 | w1 | pSel => exact hmode hl
  case pOp | pRd => exact ⟨hmode hl.1, heard_of_complete hl.2⟩
  case pDes => exact ⟨hmode hl.1, heard_of_complete hl.2.1, complete_readyBit hl.2.2⟩
  case pTst => exact ⟨hmode hl.1, complete_readyBit hl.2⟩
  case w2 | w4 | w6 => rw [hdone hl]; exact hl
  case w3 | w5 => rw [hdone hl.1]; exact hl
  case hSel | hOp | hA0 | hA1 | hA2 =>
    intro hw
    rw [hdone (hl hw).1]
    exact hl hw
  all_goals trivial

theorem listens_began {i : Instr} (hs : s.dev.mode = .known) (hi : isCommand i = true) :
    Listens (began (NoLeftovers.firstState i) s) := by
  obtain rfl | rfl | rfl | rfl | rfl | rfl := NoLeftovers.isCommand_iff.mp hi
  · trivial
  · exact hs
  · exact hs
  · exact hs
  · exact hs
  · trivial

end Sys2Proof.Safety
end

section
/-! PROOFS. O48: what a WRITE has stored. In every state of the command the bytes below `idx` stand in the array, once
the chip has completed what it is at, and those of the chunk under way stand in buffer 1 as far as they have been sent;
the polls and the headers change neither. -/

namespace Sys2Proof.Machine.Dev

open Sys2Proof.Safety

variable {d e : Dev}

/-- Two chips that differ in their open frame alone. -/
def SameContent (d e : Dev) : Prop :=
  d.rested = { e.rested with ptr := d.ptr }

theorem SameContent.trans {f : Dev} (h : SameContent d e) (h' : SameContent e f) : SameContent d f :=
  (show d.rested = { e.rested with ptr := d.ptr } from h).trans (congrArg (fun x : Dev => { x with ptr := d.ptr }) h')

theorem SameContent.buffer (h : SameContent d e) (j : Nat) : bufferByte d j = bufferByte e j :=
  (congrArg (fun x => bufferByte x j) h :)

theorem complete_rested (d : Dev) : d.rested.complete = d.complete.rested := by
  obtain ⟨mode, array, arrayEpoch, buf1, buf1Epoch, epochs, busy, pending, frame, ignored, ptr, ident, stat6⟩ := d
  cases mode with
  | oracle | unknown => rfl
  | known =>
    cases busy with
    | false => rfl
    | true => cases pending <;> rfl

theorem complete_ptr (d : Dev) (ptr : Nat × Nat) :
    ({ d with ptr := ptr } : Dev).complete = { d.complete with ptr := ptr } := by
  obtain ⟨mode, array, arrayEpoch, buf1, buf1Epoch, epochs, busy, pending, frame, ignored, _, ident, stat6⟩ := d
  cases mode with
  | oracle | unknown => rfl
  | known =>
    cases busy with
    | false => rfl
    | true => cases pending <;> rfl

theorem SameContent.completeArray (h : SameContent d e) (p o : Nat) :
    d.complete.arrayByte? p o = e.complete.arrayByte? p o := by
  have hcomplete := congrArg complete h
  rw [complete_rested, complete_ptr e.rested, complete_rested] at hcomplete
  exact (congrArg (fun x => x.arrayByte? p o) hcomplete :)

theorem complete_complete (d : Dev) : d.complete.complete = d.complete := by
  obtain ⟨mode, array, arrayEpoch, buf1, buf1Epoch, epochs, busy, pending, frame, ignored, ptr, ident, stat6⟩ := d
  cases mode with
  | oracle | unknown => rfl
  | known =>
    cases busy with
    | false => rfl
    | true => cases pending <;> rfl

end Sys2Proof.Machine.Dev

namespace Sys2Proof.Safety

open Sys2Proof.Machine

variable {s₀ s t : State}

/-- Byte `i` of the host buffer, as it was when the command began, stands at its place in the array. -/
def InArray (s₀ : State) (d : Dev) (i : Nat) : Prop :=
  d.arrayByte? ((linear s₀.page.toNat 0 + i) / pageSize) ((linear s₀.page.toNat 0 + i) % pageSize) =
    some (hostByte s₀ (BitVec.ofNat 16 i))

/-- How many bytes of the chunk under way buffer 1 holds. -/
def fillCount (s : State) : Nat :=
  if s.seq = .w3 then s.cnt.toNat
  else if resumesAt s = .w4 ∨ resumesAt s = .w5 then s.n.toNat
  else 0

/-- A WRITE under way, begun from `s₀`. -/
structure Storing (s₀ s : State) : Prop where
  hbuf : s.hbuf = s₀.hbuf
  page : s.page = s₀.page
  size : s.size = s₀.size
  wp : s.wp = false
  stored : ∀ i, i < s.idx.toNat → InArray s₀ s.dev.complete i
  filled : ∀ j, j < fillCount s → bufferByte s.dev j = hostByte s₀ (BitVec.ofNat 16 (s.idx.toNat + j))

/-- A WRITE that has ended. -/
structure Written (s₀ s : State) : Prop where
  hbuf : s.hbuf = s₀.hbuf
  wp : s.wp = true
  ready : readyChip s.dev
  stored : ∀ i, i < s₀.size.toNat → InArray s₀ s.dev i

/-- How far a WRITE begun from `s₀` has come. -/
inductive Stage (s₀ s : State) : Prop
  | start (hq : s.seq = .w0) (hbuf : s.hbuf = s₀.hbuf) (hpage : s.page = s₀.page) (hsize : s.size = s₀.size)
  | going (hw : writing (resumesAt s) = true) (h : Storing s₀ s)
  | ended (hq : s.seq = .done ∨ s.seq = .idle) (h : Written s₀ s)

/-- What the polls and the headers of a WRITE leave as it is. -/
structure Kept (s t : State) : Prop where
  hbuf : t.hbuf = s.hbuf
  page : t.page = s.page
  size : t.size = s.size
  wp : t.wp = s.wp
  idx : t.idx = s.idx
  chip : Dev.SameContent t.dev s.dev

theorem Storing.kept (h : Storing s₀ s) (hk : Kept s t) (hfill : fillCount t ≤ fillCount s) : Storing s₀ t where
  hbuf := hk.hbuf.trans h.hbuf
  page := hk.page.trans h.page
  size := hk.size.trans h.size
  wp := hk.wp.trans h.wp
  stored i hi := by
    rw [InArray, hk.chip.completeArray]
    exact h.stored i (by rwa [hk.idx] at hi)
  filled j hj := by
    rw [hk.chip.buffer, hk.idx]
    exact h.filled j (Nat.lt_of_lt_of_le hj hfill)

theorem kept_exchanged {out : Byte} {bytes : List Byte} (h : (exchanged out s).dev = s.dev.heard bytes) :
    Kept s (exchanged out s) := by
  constructor
  case chip => rw [h]; rfl
  all_goals simp

/-! ## The polls and the headers -/

theorem fillCount_le (hresumes : resumesAt t = resumesAt s) (hn : t.n = s.n) (hs : s.seq ≠ .w3)
    (ht : t.seq = .w3 → t.cnt = 0) : fillCount t ≤ fillCount s := by
  unfold fillCount
  rw [if_neg hs, hresumes, hn]
  split
  next hq => rw [ht hq]; exact Nat.zero_le _
  next => exact Nat.le_refl _

theorem Storing.going_kept (h : Storing s₀ s) (hw : writing (resumesAt s) = true) (hresumes : resumesAt t = resumesAt s)
    (hk : Kept s t) (hfill : fillCount t ≤ fillCount s) : Stage s₀ t :=
  .going (by rwa [hresumes]) (h.kept hk hfill)

theorem inWrite_of_writing (h : Sane s) (hh : inHeader s.seq = true) (hw : writing (resumesAt s) = true) :
    inWrite s := by
  obtain ⟨hop, _⟩ := h.hret hh
  rw [resumesAt, NoLeftovers.inPoll_of_inHeader hh, hh] at hw
  change writing s.hret = true at hw
  cases hr : s.hret <;> rw [hr] at hop hw
  case w3 => exact .inl hr
  case w5 => exact .inr hr
  case ep2 | es2 | r2 => cases hw
  all_goals cases hop

/-- A byte of a header leaves all as it is but the open frame. -/
theorem going_headerByte {q : Machine.Seq} {out : Byte} {bytes : List Byte} (h : Storing s₀ s)
    (hw : writing (resumesAt s) = true) (hs : s.seq ≠ .w3) (hq : q ≠ .w3)
    (hdev : (exchanged out s).dev = s.dev.heard bytes)
    (hresumes : resumesAt (goto q (exchanged out s)) = resumesAt s) : Stage s₀ (goto q (exchanged out s)) := by
  have hk := kept_exchanged hdev
  exact h.going_kept hw hresumes ⟨hk.hbuf, hk.page, hk.size, hk.wp, hk.idx, hk.chip⟩
    (fillCount_le hresumes (by simp) hs fun ht => absurd ht hq)

/-! ## The chunk -/

/-- A fill step adds the next byte of the chunk to buffer 1 (R192). -/
theorem storing_filled (h : Sane s) (hl : Listens s) (hst : Storing s₀ s) (hq : s.seq = .w3) (hlt : s.cnt < s.n) :
    Storing s₀ (filled s) := by
  have hn := h.fill_lt hq
  have hlt' : s.cnt.toNat < s.n.toNat := hlt
  obtain ⟨got, _, hdev⟩ := dev_of_w3 hq (by omega) hl
  rw [Listens, hq] at hl
  obtain ⟨hready, _⟩ := hl
  have hready' : (filled s).dev.busy = false := by rw [hdev]; exact hready.2
  have hidx : (filled s).idx = s.idx := by simp [filled]
  have hseq : (filled s).seq = .w3 := by simpa [filled] using hq
  have hcnt : (filled s).cnt.toNat = s.cnt.toNat + 1 := by
    have hone : (filled s).cnt = s.cnt + 1 := by simp [filled]
    rw [hone]
    bv_omega
  refine ⟨by simpa [filled] using hst.hbuf, by simpa [filled] using hst.page, by simpa [filled] using hst.size,
    by simpa [filled] using hst.wp, fun i hi => ?_, fun j hj => ?_⟩
  · rw [hidx] at hi
    have := hst.stored i hi
    rw [InArray, Dev.complete_of_not_busy hready.2] at this
    rw [InArray, Dev.complete_of_not_busy hready', hdev]
    exact this
  · rw [fillCount, if_pos hseq, hcnt] at hj
    rw [hidx, hdev]
    show bufferByte (withFillByte s) j = _
    obtain hj' | rfl := Nat.lt_succ_iff_lt_or_eq.mp hj
    · rw [withFillByte, Dev.bufferByte_write_other _ _ (Nat.ne_of_lt hj')]
      exact hst.filled j (by rwa [fillCount, if_pos hq])
    · have hplace : s.idx + s.cnt = BitVec.ofNat 16 (s.idx.toNat + s.cnt.toNat) := by bv_omega
      rw [withFillByte, Dev.bufferByte_write_same, hostByte, hst.hbuf, hplace]
      rfl

/-- Where the chunk lies that a commit's header names. -/
structure CommitPlace (s : State) : Prop where
  next : (s.idx + s.n).toNat = s.idx.toNat + s.n.toNat
  length : s.n.toNat ≤ pageSize
  aligned : s.idx.toNat % pageSize = 0
  page : addrPage (commitAddr s) = s.page.toNat + s.idx.toNat / pageSize

theorem commitPlace (h : Sane s) (hq : s.seq = .w5)
    (hfits : linear s.page.toNat 0 + s.size.toNat ≤ totalPages * pageSize) : CommitPlace s := by
  have hresumes : resumesAt s = .w5 := by rw [resumesAt, hq]; rfl
  have hchunk := h.chunk (by rw [hresumes]; rfl)
  rw [hresumes] at hchunk
  obtain ⟨htotal, hbase, hpage, hlength, -⟩ := hchunk
  obtain ⟨hrem, hn⟩ := hlength rfl
  have haligned := hbase hrem
  have hnlen := chunkLength_toNat s.rem
  simp only [numbers] at htotal haligned hpage hn hrem
  rw [← hn] at hnlen
  have hrem0 : s.rem.toNat ≠ 0 := fun h0 => hrem (BitVec.eq_of_toNat_eq h0)
  have hsize := s.size.isLt
  have hcur : s.cur.toNat = s.page.toNat + s.idx.toNat / pageSize := by
    have hdiv : (s.idx.toNat + (pageSize - 1)) / pageSize = s.idx.toNat / pageSize := by
      simp only [pageSize] at *
      omega
    rw [hpage, hdiv, BitVec.toNat_add, BitVec.toNat_ofNat]
    simp only [linear, totalPages, pageSize] at *
    omega
  refine ⟨by rw [BitVec.toNat_add, Nat.mod_eq_of_lt (by omega)], by omega, haligned, ?_⟩
  rw [commitAddr, addrPage_encodeAddr ?_ (by decide), hcur]
  simp only [linear, totalPages, pageSize] at *
  omega

/-- The commit changes none of the pages before its own. -/
theorem inArray_committed_below {i : Nat} (hp : CommitPlace s) (hready : readyChip s.dev) (hpage : s.page = s₀.page)
    (hi : i < s.idx.toNat) (h : InArray s₀ s.dev.complete i) :
    InArray s₀ (s.dev.started (.programPage (addrPage (commitAddr s)) s.dev.buf1Bytes)).complete i := by
  have haligned := hp.aligned
  rw [InArray, Dev.complete_of_not_busy hready.2] at h
  rw [InArray, Dev.started_complete_arrayByte?_other_page
    (operation := .programPage (addrPage (commitAddr s)) s.dev.buf1Bytes) _ hready.1 rfl s.dev.length_buf1Bytes, h]
  rw [hp.page, hpage]
  simp only [linear, pageSize] at *
  omega

/-- The page it commits to holds buffer 1. -/
theorem inArray_committed_chunk {j : Nat} (hp : CommitPlace s) (hready : readyChip s.dev) (hpage : s.page = s₀.page)
    (hj : j < pageSize) (h : bufferByte s.dev j = hostByte s₀ (BitVec.ofNat 16 (s.idx.toNat + j))) :
    InArray s₀ (s.dev.started (.programPage (addrPage (commitAddr s)) s.dev.buf1Bytes)).complete
      (s.idx.toNat + j) := by
  have haligned := hp.aligned
  have hdiv : (linear s₀.page.toNat 0 + (s.idx.toNat + j)) / pageSize = addrPage (commitAddr s) := by
    rw [hp.page, hpage]
    simp only [linear, pageSize] at *
    omega
  have hplace : (linear s₀.page.toNat 0 + (s.idx.toNat + j)) % pageSize = j := by
    simp only [linear, pageSize] at *
    omega
  rw [InArray, hdiv, hplace, Dev.started_complete_arrayByte?_same_page
    (operation := .programPage (addrPage (commitAddr s)) s.dev.buf1Bytes) hready.1 (addrPage_lt _) rfl hj
    (s.dev.getElem?_buf1Bytes hj), h]

/-- The commit of a chunk: its page then holds buffer 1, so the bytes below the next `idx` are in the array (R193). -/
theorem storing_nextChunk (h : Sane s) (hl : Listens s) (hst : Storing s₀ s) (hq : s.seq = .w5)
    (hfits : linear s₀.page.toNat 0 + s₀.size.toNat ≤ totalPages * pageSize) :
    Storing s₀ (goto .w1 (nextChunk (closed s))) := by
  have hplace := commitPlace h hq (by rwa [hst.page, hst.size])
  have hdev := dev_of_w5 hq hst.wp hl
  rw [Listens, hq] at hl
  obtain ⟨hready, haddr, -⟩ := hl
  rw [haddr] at hdev
  refine ⟨hst.hbuf, hst.page, hst.size, hst.wp, fun i hi => ?_, fun j hj => absurd hj (Nat.not_lt_zero j)⟩
  change i < (s.idx + s.n).toNat at hi
  rw [hplace.next] at hi
  show InArray s₀ (closed s).dev.complete i
  rw [hdev]
  obtain hi' | hi' := Nat.lt_or_ge i s.idx.toNat
  · exact inArray_committed_below hplace hready hst.page hi' (hst.stored i hi')
  · obtain ⟨j, rfl⟩ := Nat.exists_eq_add_of_le hi'
    have hj : j < s.n.toNat := Nat.lt_of_add_lt_add_left hi
    have hresumes : resumesAt s = .w5 := by rw [resumesAt, hq]; rfl
    refine inArray_committed_chunk hplace hready hst.page (Nat.lt_of_lt_of_le hj hplace.length) (hst.filled j ?_)
    rwa [fillCount, if_neg (by rw [hq]; decide), if_pos (.inr hresumes)]

/-! ## The rows -/

/-- What a row does is what the step does. -/
theorem row_unique {u : State} (hrow : Row s t) (hstep : Machine.seqStep s = .next u) : t = u :=
  Host.Outcome.next.inj ((seqStep_of_row hrow).symm.trans hstep)

theorem stage_of_row_w0 (hq : s.seq = .w0) (hbuf : s.hbuf = s₀.hbuf) (hpage : s.page = s₀.page)
    (hsize : s.size = s₀.size) (hrow : Row s t) : Stage s₀ t := by
  rw [row_unique hrow (seqStep_w0 hq)]
  exact .going rfl ⟨hbuf, hpage, hsize, rfl, fun i hi => absurd hi (Nat.not_lt_zero i),
    fun j hj => absurd hj (Nat.not_lt_zero j)⟩

theorem stage_of_row_ended (hq : s.seq = .done ∨ s.seq = .idle) (h : Written s₀ s) (hrow : Row s t) : Stage s₀ t := by
  obtain hq | hq := hq
  · rw [row_unique hrow (seqStep_done hq)]
    exact .ended (.inr rfl) ⟨h.hbuf, h.wp, h.ready, h.stored⟩
  · rw [row_unique hrow (seqStep_idle hq)]
    exact .ended (.inr hq) h

theorem stage_of_row_going (h : Sane s) (hl : Listens s) (hw : writing (resumesAt s) = true) (hst : Storing s₀ s)
    (hfits : linear s₀.page.toNat 0 + s₀.size.toNat ≤ totalPages * pageSize) (hrow : Row s t) : Stage s₀ t := by
  have hheard := fun hh => inWrite_of_writing h hh hw
  have hresumes := fun hsub => resumesAt_of_row h hsub hrow
  cases hrow with
  | idle hq | done hq | iWp hq | iRst1 hq | iDly hq | iRst0 hq | ep0 hq | ep1 hq | ep2 hq | es0Refused hq | es0 hq
  | es1 hq | es2 hq | w0 hq | r0 hq | r1 hq | r2 hq | r2Ended hq | r3 hq | r3Ended hq | g0 hq | g1 hq | g2 hq
  | g2Ended hq | g3 hq | g4 hq | g5 hq | g6 hq | g7 hq =>
    rw [resumesAt, hq] at hw
    exact (Bool.false_ne_true hw).elim
  | pSel hq =>
    exact hst.going_kept hw (hresumes (by rw [hq]; rfl)) ⟨rfl, rfl, rfl, rfl, rfl, rfl⟩
      (fillCount_le (hresumes (by rw [hq]; rfl)) rfl (by rw [hq]; decide) (by rintro ⟨⟩))
  | pOp hq =>
    exact going_headerByte hst hw (by rw [hq]; decide) (by decide) (dev_of_pOp hq h.cfg hl) (hresumes (by rw [hq]; rfl))
  | pRd hq =>
    have hk := kept_exchanged (dev_of_pRd hq h.cfg hl).1
    exact hst.going_kept hw (hresumes (by rw [hq]; rfl)) ⟨hk.hbuf, hk.page, hk.size, hk.wp, hk.idx, hk.chip⟩
      (fillCount_le (hresumes (by rw [hq]; rfl)) (by simp) (by rw [hq]; decide) (by rintro ⟨⟩))
  | pDes hq =>
    have hchip : Dev.SameContent (closed s).dev s.dev := by rw [dev_of_pDes hq h.cfg hl]; rfl
    exact hst.going_kept hw (hresumes (by rw [hq]; rfl)) ⟨rfl, rfl, rfl, rfl, rfl, hchip⟩
      (fillCount_le (hresumes (by rw [hq]; rfl)) rfl (by rw [hq]; decide) (by rintro ⟨⟩))
  | pTst hq =>
    refine hst.going_kept hw (hresumes (by rw [hq]; rfl)) ⟨rfl, rfl, rfl, rfl, rfl, rfl⟩
      (fillCount_le (hresumes (by rw [hq]; rfl)) rfl (by rw [hq]; decide) fun hs => ?_)
    have hret := h.ret (by rw [hq]; rfl)
    rw [goto_seq] at hs
    split at hs
    · rw [hs] at hret; cases hret
    · cases hs
  | hSel _ hq =>
    exact hst.going_kept hw (hresumes (by rw [hq]; rfl)) ⟨rfl, rfl, rfl, rfl, rfl, rfl⟩
      (fillCount_le (hresumes (by rw [hq]; rfl)) rfl (by rw [hq]; decide) (by rintro ⟨⟩))
  | hOp hq =>
    have hcop := headerOpcode_mem_emitted (h.hret (by rw [hq]; rfl)).1
    exact going_headerByte hst hw (by rw [hq]; decide) (by decide) (dev_of_hOp hq hcop (hheard (by rw [hq]; rfl)) hl)
      (hresumes (by rw [hq]; rfl))
  | hA0 hq =>
    exact going_headerByte hst hw (by rw [hq]; decide) (by decide) (dev_of_hA0 hq (hheard (by rw [hq]; rfl)) hl)
      (hresumes (by rw [hq]; rfl))
  | hA1 hq =>
    exact going_headerByte hst hw (by rw [hq]; decide) (by decide) (dev_of_hA1 hq (hheard (by rw [hq]; rfl)) hl)
      (hresumes (by rw [hq]; rfl))
  | hA2 hq =>
    have hdev := dev_of_hA2 hq (hheard (by rw [hq]; rfl)) hl
    have hk : Kept s (exchanged s.addr.a2 s) := by
      constructor
      case chip => rw [hdev]; rfl
      all_goals simp
    refine hst.going_kept hw (hresumes (by rw [hq]; rfl)) ⟨hk.hbuf, hk.page, hk.size, hk.wp, hk.idx, hk.chip⟩
      (fillCount_le (hresumes (by rw [hq]; rfl)) (by simp) (by rw [hq]; decide) fun hs => ?_)
    rw [goto_cnt, exchanged_cnt]
    exact (h.hret (by rw [hq]; rfl)).2 (.inl hs)
  | w1Ended | w1 => exact .going rfl (hst.kept ⟨rfl, rfl, rfl, rfl, rfl, rfl⟩ (Nat.zero_le _))
  | w2 => exact .going rfl (hst.kept ⟨rfl, rfl, rfl, rfl, rfl, rfl⟩ (Nat.zero_le _))
  | w3 hq _ hlt =>
    have hseq : (filled s).seq = .w3 := by simpa [filled] using hq
    exact .going (by rw [resumesAt, hseq]; rfl) (storing_filled h hl hst hq hlt)
  | w3Ended hq _ he =>
    obtain ⟨ptr, hdev⟩ := dev_of_w3Ended hq h.cfg hl
    have hchip : Dev.SameContent (closed s).dev s.dev := by rw [hdev]; rfl
    have hfill : fillCount (callPoll .w4 (closed s)) ≤ fillCount s := by
      rw [fillCount, fillCount, if_pos hq, he]
      exact Nat.le_refl _
    exact .going rfl (hst.kept ⟨rfl, rfl, rfl, rfl, rfl, hchip⟩ hfill)
  | w4 hq =>
    have hfill : fillCount (callHeader s.cfg.opBuf1CommitErase (commitAddr s) .w5 s) ≤ fillCount s := by
      rw [fillCount, fillCount, resumesAt, resumesAt, hq]
      exact Nat.le_refl _
    exact .going rfl (hst.kept ⟨rfl, rfl, rfl, rfl, rfl, rfl⟩ hfill)
  | w5 hq => exact .going rfl (storing_nextChunk h hl hst hq hfits)
  | w6 hq =>
    have hresumes : resumesAt s = .w6 := by rw [resumesAt, hq]; rfl
    have hchunk := h.chunk hw
    rw [hresumes] at hchunk
    have htotal := hchunk.total
    rw [hchunk.ended rfl] at htotal
    rw [Listens, hq] at hl
    refine .ended (.inl rfl) ⟨hst.hbuf, rfl, hl, fun i hi => ?_⟩
    have hstored := hst.stored i (by
      rw [← hst.size] at hi
      exact Nat.lt_of_lt_of_eq hi htotal.symm)
    rwa [Dev.complete_of_not_busy hl.2] at hstored

theorem stage_of_row (h : Sane s) (hl : Listens s) (hstage : Stage s₀ s)
    (hfits : linear s₀.page.toNat 0 + s₀.size.toNat ≤ totalPages * pageSize) (hrow : Row s t) : Stage s₀ t := by
  cases hstage with
  | start hq hbuf hpage hsize => exact stage_of_row_w0 hq hbuf hpage hsize hrow
  | going hw hst => exact stage_of_row_going h hl hw hst hfits hrow
  | ended hq hwritten => exact stage_of_row_ended hq hwritten hrow

theorem stage_chipDone (hstage : Stage s₀ s) : Stage s₀ (chipDone s) := by
  cases hstage with
  | start hq hbuf hpage hsize => exact .start hq hbuf hpage hsize
  | going hw hst =>
    refine .going hw ⟨hst.hbuf, hst.page, hst.size, hst.wp, fun i hi => ?_, fun j hj => ?_⟩
    · rw [chipDone_dev, Dev.complete_complete]
      exact hst.stored i hi
    · exact (Dev.sameBuffer_complete s.dev j).trans (hst.filled j hj)
  | ended hq hwritten =>
    rw [chipDone, Dev.complete_of_not_busy hwritten.ready.2]
    exact .ended hq hwritten

/-! ## The run -/

/-- What every state of a WRITE issued in `s₀` meets. -/
structure InRun (s₀ s : State) : Prop where
  sane : Sane s
  listens : Listens s
  stage : Stage s₀ s

theorem InRun.takeMove (h : InRun s₀ s) (rest : List Move) : InRun s₀ (takeMove rest s) := by
  obtain ⟨hsane, hlistens, hstage⟩ := h
  refine ⟨hsane.of_control rfl, hlistens, ?_⟩
  cases hstage with
  | start hq hbuf hpage hsize => exact .start hq hbuf hpage hsize
  | going hw hst => exact .going hw ⟨hst.hbuf, hst.page, hst.size, hst.wp, hst.stored, hst.filled⟩
  | ended hq hw => exact .ended hq ⟨hw.hbuf, hw.wp, hw.ready, hw.stored⟩

/-- One move of an undisturbed run. -/
theorem InRun.move {m : Move} {rest : List Move} (h : InRun s₀ s)
    (hfits : linear s₀.page.toNat 0 + s₀.size.toNat ≤ totalPages * pageSize) (hm : s.moves = m :: rest)
    (hmove : m = .controller ∨ m = .chipReady) (hstep : Machine.step s = .next t) : InRun s₀ t ∧ t.moves = rest := by
  obtain ⟨hsane, hlistens, hstage⟩ := h.takeMove rest
  rw [step_of_move hm] at hstep
  obtain rfl | rfl := hmove
  · have hrow := row_of_seqStep hstep
    exact ⟨⟨hsane.row hrow, listens_of_row hsane hlistens hrow, stage_of_row hsane hlistens hstage hfits hrow⟩,
      moves_of_row hrow⟩
  · obtain rfl := Host.Outcome.next.inj hstep
    exact ⟨⟨hsane.of_control (control_chipDone _), listens_chipDone hlistens, stage_chipDone hstage⟩, rfl⟩

theorem InRun.run {schedule : List Move} (h : InRun s₀ s)
    (hfits : linear s₀.page.toNat 0 + s₀.size.toNat ≤ totalPages * pageSize) (hm : s.moves = schedule)
    (hmoves : undisturbed schedule) (hrun : Safety.run schedule.length s = .next t) : InRun s₀ t := by
  induction schedule generalizing s with
  | nil =>
    obtain rfl := Host.Outcome.next.inj hrun
    exact h
  | cons m rest ih =>
    obtain ⟨u, hstep, hrest⟩ := andThen_eq_next.mp hrun
    obtain ⟨hu, hmu⟩ := h.move hfits hm (hmoves m (by simp)) hstep
    exact ih hu hmu (fun m' hm' => hmoves m' (List.mem_cons_of_mem _ hm')) hrest

theorem inRun_began (hs : AtRest s) (hready : readyChip s.dev) : InRun s (began .w0 s) :=
  ⟨sane_began (i := .write) hs rfl, listens_began (i := .write) hready.1 rfl, .start rfl rfl rfl rfl⟩

/-- Of the three stages only a WRITE that has ended leaves `BUSY` 0. -/
theorem InRun.written (h : InRun s₀ t) (hbusy : t.busy = false) : Written s₀ t := by
  have hidle : t.seq = .idle := by simpa [h.sane.busy] using hbusy
  cases h.stage with
  | start hq => rw [hidle] at hq; cases hq
  | going hw =>
    rw [resumesAt, hidle] at hw
    exact (Bool.false_ne_true hw).elim
  | ended _ hw => exact hw

end Sys2Proof.Safety

namespace Sys2Proof.CommandRuns

open Sys2Proof.Machine Sys2Proof.Safety

/-- Settles O48: every move of the run keeps `InRun`, and at its end `BUSY` is 0 only when the WRITE has ended. -/
theorem writeStoresItsBytes : Obligations.WriteStoresItsBytes := by
  unfold Obligations.WriteStoresItsBytes
  intro s u t schedule hs hready hmoves hfits hexec hrun hbusy
  obtain rfl := Host.Outcome.next.inj ((exec_of_atRest (i := .write) hs rfl).symm.trans hexec)
  have hend := ((inRun_began hs hready).takeMove schedule).run hfits rfl hmoves hrun
  obtain ⟨hbuf, hwp, hchip, hstored⟩ := hend.written hbusy
  exact ⟨hstored, hwp, hchip, hbuf⟩

end Sys2Proof.CommandRuns
end

section
/-! PROOFS. O59: the controller reaches rest or a wait, and on a healthy chip every command ends. Of the controller and
the chip one is awaited at each moment: the chip in a wait that finds it busy, else the controller. No move of the other
sets the command back, and the awaited one's brings it nearer to its end; fairness says that it comes. -/

namespace Sys2Proof.Safety

open Sys2Proof.Machine

variable {s t : State} {m : Move} {schedule : Schedule}

/-! ## Runs under a schedule -/

theorem exchanged_takeMove (ms : List Move) (out : Byte) (s : State) :
    exchanged out (takeMove ms s) = takeMove ms (exchanged out s) := by
  have hanswered : answered (takeMove ms s) = takeMove ms (answered s) := by
    unfold answered
    simp only [takeMove_dev, takeMove_cfg]
    cases s.dev.answer? s.cfg <;> rfl
  rw [exchanged, hanswered]
  rfl

theorem filled_takeMove (ms : List Move) (s : State) : filled (takeMove ms s) = takeMove ms (filled s) :=
  congrArg countByte (exchanged_takeMove ms _ (memRead (s.idx + s.cnt) s))

theorem readOne_takeMove (ms : List Move) (s : State) : readOne (takeMove ms s) = takeMove ms (readOne s) :=
  congrArg (fun u => countByte (memWrite s.cnt (answer s) u)) (exchanged_takeMove ms s.cfg.dummyOut s)

theorem idLatched_takeMove (ms : List Move) (s : State) : idLatched (takeMove ms s) = takeMove ms (idLatched s) :=
  congrArg (latchId (answer s)) (exchanged_takeMove ms s.cfg.dummyOut s)

theorem row_of_eq {u : State} (he : t = u) (h : Row s t) : Row s u := he ▸ h

/-- A row does not depend on the moves to come. -/
theorem row_takeMove (ms : List Move) (h : Row s t) : Row (takeMove ms s) (takeMove ms t) := by
  cases h with
  | idle hq => exact .idle hq
  | done hq => exact .done hq
  | pSel hq hc => exact .pSel hq hc
  | pOp hq hc => exact row_of_eq (congrArg (goto .pRd) (exchanged_takeMove ms _ s)) (.pOp hq hc)
  | pRd hq hc =>
    exact row_of_eq (congrArg (fun u => goto .pDes (latchStatus (answer s) u)) (exchanged_takeMove ms _ s)) (.pRd hq hc)
  | pDes hq hc => exact .pDes hq hc
  | pTst hq => exact .pTst hq
  | hSel o hq hc ho => exact .hSel o hq hc ho
  | hOp hq hc => exact row_of_eq (congrArg (goto .hA0) (exchanged_takeMove ms _ s)) (.hOp hq hc)
  | hA0 hq hc => exact row_of_eq (congrArg (goto .hA1) (exchanged_takeMove ms _ s)) (.hA0 hq hc)
  | hA1 hq hc => exact row_of_eq (congrArg (goto .hA2) (exchanged_takeMove ms _ s)) (.hA1 hq hc)
  | hA2 hq hc => exact row_of_eq (congrArg (goto s.hret) (exchanged_takeMove ms _ s)) (.hA2 hq hc)
  | iWp hq => exact .iWp hq
  | iRst1 hq => exact .iRst1 hq
  | iDly hq => exact .iDly hq
  | iRst0 hq => exact .iRst0 hq
  | ep0 hq => exact .ep0 hq
  | ep1 hq => exact .ep1 hq
  | ep2 hq hc => exact .ep2 hq hc
  | es0Refused hq hz => exact .es0Refused hq hz
  | es0 hq hz => exact .es0 hq hz
  | es1 hq => exact .es1 hq
  | es2 hq hc => exact .es2 hq hc
  | w0 hq => exact .w0 hq
  | w1Ended hq hr => exact .w1Ended hq hr
  | w1 hq hr => exact .w1 hq hr
  | w2 hq => exact .w2 hq
  | w3 hq hc hn => exact row_of_eq (filled_takeMove ms s) (.w3 hq hc hn)
  | w3Ended hq hc hn => exact .w3Ended hq hc hn
  | w4 hq => exact .w4 hq
  | w5 hq hc => exact .w5 hq hc
  | w6 hq => exact .w6 hq
  | r0 hq => exact .r0 hq
  | r1 hq => exact .r1 hq
  | r2 hq hc hn => exact row_of_eq (congrArg countByte (exchanged_takeMove ms _ s)) (.r2 hq hc hn)
  | r2Ended hq hn => exact .r2Ended hq hn
  | r3 hq hc hn => exact row_of_eq (readOne_takeMove ms s) (.r3 hq hc hn)
  | r3Ended hq hc hn => exact .r3Ended hq hc hn
  | g0 hq hc => exact .g0 hq hc
  | g1 hq hc => exact row_of_eq (congrArg (fun u => goto .g2 (startId u)) (exchanged_takeMove ms _ s)) (.g1 hq hc)
  | g2 hq hc hk => exact row_of_eq (idLatched_takeMove ms s) (.g2 hq hc hk)
  | g2Ended hq hc hk => exact .g2Ended hq hc hk
  | g3 hq hc => exact .g3 hq hc
  | g4 hq hc => exact row_of_eq (congrArg (goto .g5) (exchanged_takeMove ms _ s)) (.g4 hq hc)
  | g5 hq hc =>
    exact row_of_eq (congrArg (fun u => goto .g6 (latchStatus (answer s) u)) (exchanged_takeMove ms _ s)) (.g5 hq hc)
  | g6 hq hc => exact .g6 hq hc
  | g7 hq => exact .g7 hq

/-- A move of the controller or of the chip. -/
inductive Moved : Move → State → State → Prop
  | controller {s t : State} (hrow : Row s t) : Moved .controller s t
  | chipReady {s : State} : Moved .chipReady s (chipDone s)

theorem runMove_of_moved (h : Moved m s t) (rest : List Move) :
    runMove m (takeMove rest s) = .next (takeMove rest t) := by
  cases h with
  | controller hrow => exact seqStep_of_row (row_takeMove rest hrow)
  | chipReady => rfl

theorem exists_moved (h : Sane s) (hm : m = .controller ∨ m = .chipReady) : ∃ t, Moved m s t := by
  obtain rfl | rfl := hm
  · obtain ⟨t, hrow⟩ := h.exists_row
    exact ⟨t, .controller hrow⟩
  · exact ⟨_, .chipReady⟩

theorem Sane.moved (h : Sane s) (hmoved : Moved m s t) : Sane t := by
  cases hmoved with
  | controller hrow => exact h.row hrow
  | chipReady => exact h.of_control (control_chipDone s)

theorem listens_of_moved (h : Sane s) (hl : Listens s) (hmoved : Moved m s t) : Listens t := by
  cases hmoved with
  | controller hrow => exact listens_of_row h hl hrow
  | chipReady => exact listens_chipDone hl

/-- The schedule from its second moment on. -/
def later (schedule : Schedule) : Schedule :=
  fun k => schedule (k + 1)

theorem runUnder_succ (h : Moved (schedule 0) s t) (k : Nat) :
    runUnder schedule (k + 1) s = runUnder (later schedule) k t := by
  have hmoves : (List.range (k + 1)).map schedule = schedule 0 :: (List.range k).map (later schedule) := by
    rw [List.range_succ_eq_map, List.map_cons, List.map_map]
    rfl
  have hstep := runMove_of_moved h ((List.range k).map (later schedule))
  rw [runUnder, hmoves, run_succ, step_of_move rfl]
  exact congrArg (andThen · (run k)) hstep

/-! ## How far a command is from its end -/

/-- How many sessions, counted twice and more, the command still has before it. -/
def stageAt (q : Machine.Seq) (rem size : Nat) : Nat :=
  match q with
  | .ep0 | .es0 | .r0 => 1
  | .w0 => 3 * size + 3
  | .w1 => 3 * rem + 2
  | .w2 | .w3 => 3 * rem + 1
  | .w4 | .w5 => 3 * rem
  | _ => 0

def stage (s : State) : Nat :=
  stageAt (resumesAt s) s.rem.toNat s.size.toNat

/-- In the poll subroutine with a busy chip: only the chip can end the wait (R303). -/
def waiting (s : State) : Bool :=
  inPoll s.seq && s.dev.busy

/-- A bound on the controller's steps to its next wait, or to rest, while the chip is ready. -/
def stepsLeft (s : State) : Nat :=
  match s.seq with
  | .pTst => sessionBound (control s) + if readyBit s.sr then 7 else 12
  | .pDes => sessionBound (control s) + if readyBit s.sr then 8 else 13
  | .pRd => sessionBound (control s) + 9
  | .pOp => sessionBound (control s) + 10
  | .pSel => sessionBound (control s) + 11
  | _ => togo (control s)

/-- The agent without whose move the command does not come nearer to its end. -/
def awaited (s : State) : Move :=
  if waiting s then .chipReady else .controller

/-- The distance of a command from its end: how far it has come, whether it waits for the chip, the steps to the next
wait. -/
def distance (s : State) : ℕ ×ₗ ℕ :=
  toLex (2 * stage s + (waiting s).toNat, if waiting s then 0 else stepsLeft s)

theorem stage_eq_of_resumesAt (hresumes : resumesAt t = resumesAt s) (hrem : t.rem = s.rem) (hsize : t.size = s.size) :
    stage t = stage s := by
  rw [stage, stage, hresumes, hrem, hsize]

theorem stepsLeft_of_not_inPoll (h : inPoll s.seq = false) : stepsLeft s = togo (control s) := by
  unfold stepsLeft
  cases hq : s.seq <;> rw [hq] at h
  case pSel | pOp | pRd | pDes | pTst => cases h

theorem distance_lt_of_stage (hs : waiting s = false) (h : stage t < stage s) : distance t < distance s := by
  have hle := Bool.toNat_le (waiting t)
  refine Prod.Lex.toLex_lt_toLex.mpr (.inl ?_)
  rw [hs]
  show 2 * stage t + (waiting t).toNat < 2 * stage s + 0
  omega

theorem distance_lt_of_steps (hs : waiting s = false) (ht : waiting t = false) (hstage : stage t ≤ stage s)
    (h : stepsLeft t < stepsLeft s) : distance t < distance s := by
  obtain hlt | heq := Nat.lt_or_eq_of_le hstage
  · exact distance_lt_of_stage hs hlt
  · rw [distance, distance, hs, ht, heq]
    exact Prod.Lex.toLex_lt_toLex.mpr (.inr ⟨rfl, h⟩)

theorem distance_lt_of_ready (hs : waiting s = true) (ht : waiting t = false) (hstage : stage t = stage s) :
    distance t < distance s := by
  rw [distance, distance, hs, ht, hstage]
  exact Prod.Lex.toLex_lt_toLex.mpr (.inl (Nat.lt_succ_self _))

theorem distance_eq_of_waiting (hs : waiting s = true) (ht : waiting t = true) (hstage : stage t = stage s) :
    distance t = distance s := by
  rw [distance, distance, hs, ht, hstage]
  rfl

/-! ## The controller's moves in a wait -/

theorem isPlain_of_inPoll {q : Machine.Seq} (hp : inPoll q = true) : NoLeftovers.isPlain q = false := by
  rw [NoLeftovers.isPlain, hp]
  rfl

/-- What a row of the poll subroutine does: it leaves the chip as busy as it is, stays in the wait of a busy one, and
comes nearer to the end of the wait of a ready one. -/
structure PollRow (s t : State) : Prop where
  busy : t.dev.busy = s.dev.busy
  rem : t.rem = s.rem
  size : t.size = s.size
  stays : s.dev.busy = true → inPoll t.seq = true
  nearer : s.dev.busy = false → stepsLeft t < stepsLeft s

theorem stepsLeft_of_seq {q : Machine.Seq} (hq : s.seq = q) : stepsLeft s = stepsLeft { s with seq := q } := by
  subst hq
  rfl

/-- The last state of the poll cycle: out of the wait if the status byte says ready, else round again (R303). -/
theorem pollRow_pTst (h : Sane s) (hl : Listens s) (hq : s.seq = .pTst) :
    PollRow s (goto (if readyBit s.sr then s.ret else .pSel) s) := by
  have hret := h.ret (by rw [hq]; rfl)
  rw [Listens, hq] at hl
  refine ⟨rfl, rfl, rfl, fun hbusy => ?_, fun _ => ?_⟩
  · rw [if_neg fun hr => Bool.false_ne_true ((hl.2 hr).symm.trans hbusy)]
    rfl
  · rw [stepsLeft_of_seq hq]
    show _ < sessionBound (control s) + if readyBit s.sr then 7 else 12
    split
    · have hplain := NoLeftovers.isPlain_iff.mp (NoLeftovers.isPlain_of_isPollReturn hret)
      rw [stepsLeft_of_not_inPoll hplain.1]
      exact Nat.lt_succ_of_le (togo_pollReturn_le (c := { control s with seq := s.ret }) hret)
    · exact Nat.lt_succ_self _

theorem pollRow (h : Sane s) (hl : Listens s) (hp : inPoll s.seq = true) (hrow : Row s t) : PollRow s t := by
  cases hrow with
  | pSel hq =>
    refine ⟨rfl, rfl, rfl, fun _ => rfl, fun _ => ?_⟩
    rw [stepsLeft_of_seq hq]
    exact Nat.lt_succ_self _
  | pOp hq =>
    refine ⟨(congrArg Dev.busy (dev_of_pOp hq h.cfg hl) :), by simp, by simp, fun _ => rfl, fun _ => ?_⟩
    rw [stepsLeft_of_seq hq]
    show sessionBound { control (exchanged s.cfg.opReadStatus s) with seq := .pRd } + 9 < sessionBound (control s) + 10
    rw [control_exchanged]
    exact Nat.lt_succ_self _
  | pRd hq =>
    obtain ⟨hdev, hanswer⟩ := dev_of_pRd hq h.cfg hl
    refine ⟨(congrArg Dev.busy hdev :), by simp, by simp, fun _ => rfl, fun hbusy => ?_⟩
    rw [stepsLeft_of_seq hq]
    show sessionBound { control (exchanged s.cfg.dummyOut s) with seq := .pDes } +
      (if readyBit (answer s) then 8 else 13) < sessionBound (control s) + 9
    rw [control_exchanged, hanswer, readyBit, Dev.status_bit7, hbusy]
    exact Nat.lt_succ_self _
  | pDes hq =>
    refine ⟨(congrArg Dev.busy (dev_of_pDes hq h.cfg hl) :), rfl, rfl, fun _ => rfl, fun _ => ?_⟩
    rw [stepsLeft_of_seq hq]
    show sessionBound (control s) + (if readyBit s.sr then 7 else 12) <
      sessionBound (control s) + if readyBit s.sr then 8 else 13
    split <;> exact Nat.lt_succ_self _
  | pTst hq => exact pollRow_pTst h hl hq
  | idle hq | done hq | iWp hq | iRst1 hq | iDly hq | iRst0 hq | ep0 hq | ep1 hq | ep2 hq | es0Refused hq | es0 hq
  | es1 hq | es2 hq | w0 hq | w1Ended hq | w1 hq | w2 hq | w3 hq | w3Ended hq | w4 hq | w5 hq | w6 hq | r0 hq | r1 hq
  | r2 hq | r2Ended hq | r3 hq | r3Ended hq | g0 hq | g1 hq | g2 hq | g2Ended hq | g3 hq | g4 hq | g5 hq | g6 hq
  | g7 hq | hSel _ hq | hOp hq | hA0 hq | hA1 hq | hA2 hq =>
    rw [hq] at hp
    exact (Bool.false_ne_true hp).elim

/-! ## The controller's moves out of a wait -/

/-- A row outside the waits does not set the command back, and one that begins a wait brings it on. -/
def Advances (s t : State) : Prop :=
  stage t ≤ stage s ∧ (inPoll t.seq = true → stage t < stage s)

theorem advances_of_plain {q : Machine.Seq} (hq : t.seq = q) (hp : inPoll q = false) (h : stage t ≤ stage s) :
    Advances s t :=
  ⟨h, fun ht => absurd ht (by rw [hq, hp]; decide)⟩

theorem advances_of_callPoll (h : stage t < stage s) : Advances s t :=
  ⟨Nat.le_of_lt h, fun _ => h⟩

theorem stage_of_seq {q : Machine.Seq} (hplain : NoLeftovers.isPlain q = true) (hq : s.seq = q) :
    stage s = stageAt q s.rem.toNat s.size.toNat := by
  obtain ⟨hp, hh⟩ := NoLeftovers.isPlain_iff.mp hplain
  rw [stage, resumesAt, hq, hp, hh]
  rfl

/-- The chunk that has been committed counts no more (R196). -/
theorem stage_nextChunk (h : Sane s) (hq : s.seq = .w5) : stage (goto .w1 (nextChunk (closed s))) < stage s := by
  have hresumes : resumesAt s = .w5 := by rw [resumesAt, hq]; rfl
  have hchunk := h.chunk (by rw [hresumes]; rfl)
  rw [hresumes] at hchunk
  obtain ⟨hrem, hn⟩ := hchunk.length rfl
  have hnlen := chunkLength_toNat s.rem
  simp only [numbers] at hrem hn
  rw [← hn] at hnlen
  have hrem0 : s.rem.toNat ≠ 0 := fun h0 => hrem (BitVec.eq_of_toNat_eq h0)
  have hleft : (s.rem - s.n).toNat < s.rem.toNat := by
    simp only [pageSize] at hnlen
    bv_omega
  rw [stage_of_seq (q := .w5) rfl hq, stage_of_seq (q := .w1) rfl rfl]
  show 3 * (s.rem - s.n).toNat + 2 < 3 * s.rem.toNat
  omega

theorem advances_of_row (h : Sane s) (hidle : s.seq ≠ .idle) (hp : inPoll s.seq = false) (hrow : Row s t) :
    Advances s t := by
  have hresumes := fun hsub => resumesAt_of_row h hsub hrow
  cases hrow with
  | idle hq => exact absurd hq hidle
  | pSel hq | pOp hq | pRd hq | pDes hq | pTst hq =>
    rw [hq] at hp
    cases hp
  | ep0 hq | es0 hq | r0 hq =>
    refine advances_of_callPoll ?_
    rw [stage_of_seq rfl hq]
    exact Nat.zero_lt_one
  | w1Ended hq hr =>
    refine advances_of_callPoll ?_
    rw [stage_of_seq (q := .w1) rfl hq]
    exact Nat.zero_lt_succ _
  | w1 hq =>
    refine advances_of_callPoll ?_
    rw [stage_of_seq (q := .w1) rfl hq]
    exact Nat.lt_succ_self _
  | w3Ended hq =>
    refine advances_of_callPoll ?_
    rw [stage_of_seq (q := .w3) rfl hq]
    exact Nat.lt_succ_self _
  | done | iWp | iRst1 | iDly | iRst0 | ep1 | ep2 | es0Refused | es1 | es2 | w6 | r1 | r2Ended | r3Ended | g0 | g1
  | g2Ended | g3 | g4 | g5 | g6 | g7 => exact advances_of_plain rfl rfl (Nat.zero_le _)
  | r2 hq =>
    have hseq : (countByte (exchanged s.cfg.dummyOut s)).seq = .r2 := by simpa using hq
    refine advances_of_plain hseq rfl ?_
    rw [stage_of_seq (q := .r2) rfl hseq]
    exact Nat.zero_le _
  | r3 hq =>
    have hseq : (readOne s).seq = .r3 := by simpa [readOne] using hq
    refine advances_of_plain hseq rfl ?_
    rw [stage_of_seq (q := .r3) rfl hseq]
    exact Nat.zero_le _
  | g2 hq =>
    have hseq : (idLatched s).seq = .g2 := by simpa [idLatched] using hq
    refine advances_of_plain hseq rfl ?_
    rw [stage_of_seq (q := .g2) rfl hseq]
    exact Nat.zero_le _
  | w0 hq =>
    refine advances_of_plain rfl rfl ?_
    rw [stage_of_seq (q := .w0) rfl hq]
    exact Nat.le_succ _
  | w2 hq =>
    refine advances_of_plain rfl rfl ?_
    rw [stage_of_seq (q := .w2) rfl hq]
    exact Nat.le_refl _
  | w3 hq =>
    have hseq : (filled s).seq = .w3 := by simpa [filled] using hq
    refine advances_of_plain hseq rfl ?_
    rw [stage_of_seq (q := .w3) rfl hq, stage_of_seq (q := .w3) rfl hseq]
    simp [filled]
  | w4 hq =>
    refine advances_of_plain rfl rfl ?_
    rw [stage_of_seq (q := .w4) rfl hq]
    exact Nat.le_refl _
  | w5 hq => exact advances_of_plain rfl rfl (Nat.le_of_lt (stage_nextChunk h hq))
  | hSel _ hq =>
    exact advances_of_plain rfl rfl (Nat.le_of_eq (stage_eq_of_resumesAt (hresumes (by rw [hq]; rfl)) rfl rfl))
  | hOp hq | hA0 hq | hA1 hq =>
    exact advances_of_plain rfl rfl
      (Nat.le_of_eq (stage_eq_of_resumesAt (hresumes (by rw [hq]; rfl)) (by simp) (by simp)))
  | hA2 hq =>
    have hplain := NoLeftovers.isPlain_iff.mp
      (NoLeftovers.isPlain_of_isHeaderReturn (isHeaderReturn_of_headerOpcode (h.hret (by rw [hq]; rfl)).1))
    exact advances_of_plain rfl hplain.1
      (Nat.le_of_eq (stage_eq_of_resumesAt (hresumes (by rw [hq]; rfl)) (by simp) (by simp)))

/-! ## Each move of the awaited agent brings the command nearer to its end -/

theorem waiting_eq_of_inPoll (hp : inPoll s.seq = true) : waiting s = s.dev.busy := by
  rw [waiting, hp, Bool.true_and]

theorem waiting_of_not_inPoll (hp : inPoll s.seq = false) : waiting s = false := by
  rw [waiting, hp, Bool.false_and]

/-- What one move can do to the distance. -/
def Nearer (m : Move) (s t : State) : Prop :=
  distance t < distance s ∨ (distance t = distance s ∧ awaited t = awaited s ∧ m ≠ awaited s)

theorem nearer_of_row (h : Sane s) (hl : Listens s) (hidle : s.seq ≠ .idle) (hrow : Row s t) :
    Nearer .controller s t := by
  cases hp : inPoll s.seq with
  | true =>
    have hpoll := pollRow h hl hp hrow
    have hstage : stage t = stage s :=
      stage_eq_of_resumesAt (resumesAt_of_row h (isPlain_of_inPoll hp) hrow) hpoll.rem hpoll.size
    have hs := waiting_eq_of_inPoll hp
    cases hbusy : s.dev.busy with
    | true =>
      have ht := waiting_eq_of_inPoll (hpoll.stays hbusy)
      rw [hpoll.busy, hbusy] at ht
      rw [hbusy] at hs
      exact .inr ⟨distance_eq_of_waiting hs ht hstage, by rw [awaited, awaited, hs, ht], by rw [awaited, hs]; decide⟩
    | false =>
      have ht : waiting t = false := by rw [waiting, hpoll.busy, hbusy, Bool.and_false]
      rw [hbusy] at hs
      exact .inl (distance_lt_of_steps hs ht (Nat.le_of_eq hstage) (hpoll.nearer hbusy))
  | false =>
    obtain ⟨hle, hlt⟩ := advances_of_row h hidle hp hrow
    have hs := waiting_of_not_inPoll hp
    cases hpt : inPoll t.seq with
    | true => exact .inl (distance_lt_of_stage hs (hlt hpt))
    | false =>
      refine .inl (distance_lt_of_steps hs (waiting_of_not_inPoll hpt) hle ?_)
      rw [stepsLeft_of_not_inPoll hp, stepsLeft_of_not_inPoll hpt]
      exact h.togo_lt hrow hidle fun hq => by rw [hq] at hp; cases hp

theorem listens_mode (hl : Listens s) (hp : inPoll s.seq = true) : s.dev.mode = .known := by
  rw [Listens] at hl
  cases hq : s.seq <;> rw [hq] at hl hp
  case pSel => exact hl
  case pOp | pRd | pDes | pTst => exact hl.1
  all_goals cases hp

theorem nearer_chipDone (hl : Listens s) : Nearer .chipReady s (chipDone s) := by
  have hstage : stage (chipDone s) = stage s := rfl
  cases hs : waiting s with
  | true =>
    obtain ⟨hp, hbusy⟩ := Bool.and_eq_true_iff.mp hs
    have hmode := listens_mode hl hp
    exact .inl (distance_lt_of_ready hs (by rw [waiting, chipDone_dev, Dev.complete_busy hmode, Bool.and_false]) hstage)
  | false =>
    have hsame : waiting (chipDone s) = false ∧ stepsLeft (chipDone s) = stepsLeft s := by
      cases hp : inPoll s.seq with
      | true =>
        have hbusy : s.dev.busy = false := (waiting_eq_of_inPoll hp).symm.trans hs
        rw [chipDone, Dev.complete_of_not_busy hbusy]
        exact ⟨hs, rfl⟩
      | false =>
        refine ⟨waiting_of_not_inPoll hp, ?_⟩
        rw [stepsLeft_of_not_inPoll hp, stepsLeft_of_not_inPoll (s := chipDone s) hp, control_chipDone]
    refine .inr ⟨?_, by rw [awaited, awaited, hs, hsame.1], by rw [awaited, hs]; decide⟩
    rw [distance, distance, hs, hsame.1, hstage, hsame.2]

theorem nearer_of_moved (h : Sane s) (hl : Listens s) (hidle : s.seq ≠ .idle) (hmoved : Moved m s t) :
    Nearer m s t := by
  cases hmoved with
  | controller hrow => exact nearer_of_row h hl hidle hrow
  | chipReady => exact nearer_chipDone hl

/-! ## Fairness (R91, R314) -/

/-- A schedule of the controller and the chip in which neither is held up for ever. -/
structure Fair (schedule : Schedule) : Prop where
  moves : ∀ k, schedule k = .controller ∨ schedule k = .chipReady
  controller : fairController schedule
  chip : healthyChip schedule

theorem recurs_later (h : ∀ k, ∃ j, k ≤ j ∧ schedule j = m) : ∀ k, ∃ j, k ≤ j ∧ later schedule j = m := by
  intro k
  obtain ⟨j, hj, hm⟩ := h (k + 1)
  obtain ⟨j, rfl⟩ := Nat.exists_eq_add_of_le' (Nat.le_trans (Nat.le_add_left 1 k) hj)
  exact ⟨j, Nat.le_of_add_le_add_right hj, hm⟩

theorem Fair.later (h : Fair schedule) : Fair (later schedule) :=
  ⟨fun k => h.moves (k + 1), recurs_later h.controller, recurs_later h.chip⟩

theorem Fair.exists_awaited (h : Fair schedule) (s : State) : ∃ j, schedule j = awaited s := by
  unfold awaited
  split
  · obtain ⟨j, _, hj⟩ := h.chip 0
    exact ⟨j, hj⟩
  · obtain ⟨j, _, hj⟩ := h.controller 0
    exact ⟨j, hj⟩

/-- Under the schedule the command in progress comes to its end. -/
def Ends (schedule : Schedule) (s : State) : Prop :=
  ∃ k t, runUnder schedule k s = .next t ∧ t.busy = false

theorem ends_of_idle (h : Sane s) (hidle : s.seq = .idle) : Ends schedule s := by
  refine ⟨0, takeMove [] s, rfl, ?_⟩
  rw [takeMove_busy, h.busy, hidle]
  rfl

theorem ends_of_moved (hmoved : Moved (schedule 0) s t) (h : Ends (later schedule) t) : Ends schedule s := by
  obtain ⟨k, u, hrun, hbusy⟩ := h
  exact ⟨k + 1, u, (runUnder_succ hmoved k).trans hrun, hbusy⟩

/-- Where every command nearer to its end ends, so does this one, or a move that is not awaited leaves it where it
is. -/
theorem ends_or_stands (h : Sane s) (hl : Listens s) (hf : Fair schedule)
    (ih : ∀ (t : State) (schedule : Schedule), distance t < distance s → Sane t → Listens t → Fair schedule →
      Ends schedule t) :
    Ends schedule s ∨ ∃ t, Moved (schedule 0) s t ∧ distance t = distance s ∧ awaited t = awaited s ∧
      schedule 0 ≠ awaited s := by
  by_cases hidle : s.seq = .idle
  · exact .inl (ends_of_idle h hidle)
  obtain ⟨t, hmoved⟩ := exists_moved h (hf.moves 0)
  obtain hlt | hstands := nearer_of_moved h hl hidle hmoved
  · exact .inl (ends_of_moved hmoved (ih t _ hlt (h.moved hmoved) (listens_of_moved h hl hmoved) hf.later))
  · exact .inr ⟨t, hmoved, hstands⟩

/-- The awaited agent moves at moment `j` at the latest. -/
theorem ends_of_awaited {j : Nat} (h : Sane s) (hl : Listens s) (hf : Fair schedule) (hj : schedule j = awaited s)
    (ih : ∀ (t : State) (schedule : Schedule), distance t < distance s → Sane t → Listens t → Fair schedule →
      Ends schedule t) : Ends schedule s := by
  induction j generalizing s schedule with
  | zero =>
    obtain hends | ⟨_, _, _, _, hne⟩ := ends_or_stands h hl hf ih
    · exact hends
    · exact absurd hj hne
  | succ j ihj =>
    obtain hends | ⟨t, hmoved, hdistance, hawaited, _⟩ := ends_or_stands h hl hf ih
    · exact hends
    · exact ends_of_moved hmoved (ihj (h.moved hmoved) (listens_of_moved h hl hmoved) hf.later
        (hj.trans hawaited.symm) (hdistance ▸ ih))

theorem ends_of_fair (h : Sane s) (hl : Listens s) (hf : Fair schedule) : Ends schedule s := by
  induction hd : distance s using WellFoundedLT.induction generalizing s schedule with
  | _ d ih =>
    subst hd
    obtain ⟨j, hj⟩ := hf.exists_awaited s
    exact ends_of_awaited h hl hf hj fun t schedule hlt ht hlt' hf' => ih _ hlt ht hlt' hf' rfl

end Sys2Proof.Safety

namespace Sys2Proof.Sequencer

open Sys2Proof.Machine Sys2Proof.Safety

/-- Settles O59: `togo` falls with each row up to the next wait, and under a fair schedule `distance` falls again and
again. -/
theorem controllerReachesIdleOrPoll : Obligations.ControllerReachesIdleOrPoll := by
  unfold Obligations.ControllerReachesIdleOrPoll
  refine ⟨fun s hinv hm => steps_to_rest_or_poll (Inv.sane hinv) hm, ?_⟩
  intro s u i schedule hs hi hmode hmoves hcontroller hchip hexec
  obtain rfl := Host.Outcome.next.inj ((CommandRuns.exec_of_atRest hs hi).symm.trans hexec)
  exact ends_of_fair (sane_began hs hi) (listens_began hmode hi) ⟨hmoves, hcontroller, hchip⟩

end Sys2Proof.Sequencer
end
